-- ==== Sys2Proof/Word.lean ====
section
/-! DEFINITION. The word and byte types of the core and nothing else. -/

namespace Sys2Proof

/-- A host register, an operand, a sample on a stream (10_state.md R31, 20_memory.md R109). -/
abbrev Word := BitVec 32

/-- An element of BIN or BOUT (20_memory.md R107). -/
abbrev Byte := BitVec 8

end Sys2Proof
end

