-- ==== Sys2Proof/Config.lean ====
section
/-! DEFINITION. What the spec leaves to the implementation, and the model's one free value. -/

namespace Sys2Proof

/-- The model's default of the named parameter HIST_CAPACITY: unbounded (20_memory.md R120, log entry 3).
`State.histCapacity` starts here; the meanings read the field, so a claim over all states holds for every capacity. -/
def Config.histCapacityDefault : Option Nat := none

/-- FREE VALUE: the local sum of band `z` at the origin, "undefined and never queried" (44_predictor.md R384).
It has no value a proof could use; no path of the spec's pseudocode reads it (log entry 8). -/
opaque Config.localSumAtOrigin : Nat → Int

end Sys2Proof
end

