-- ==== Sys2Proof/Syntax.lean ====
section
/-! DEFINITION. What a program of the core is made of: the 36 commands, the raw command word, and the host's accesses. -/

namespace Sys2Proof

/-- The commands of 30_encoding.md R142, in the table's order. No command carries an operand: operands stand in
ARG0 to ARG2 and BLK (R141). -/
inductive Instr where
  | nop
  | reset
  | validate
  | endSession
  | bsWrite
  | bsRead
  | bsFlush
  | bsReadAlign
  | bsPadWord
  | bsClose
  | unaryWrite
  | unaryRead
  | riceMask
  | riceCode
  | riceDecode
  | riceBest
  | baCodeBlock
  | baDecodeBlock
  | baTerminate
  | baSelect
  | baCodeSample
  | baDecodeSample
  | saInitBand
  | saCode
  | saDecode
  | saUpdate
  | saTerminate
  | predInitBand
  | predCompress
  | predDecompress
  | resMap
  | resUnmap
  | hdrWrite
  | hdrRead
  | compress
  | decompress
  deriving DecidableEq, Repr

/-- The two fields of a command word (30_encoding.md R140). -/
structure CommandWord where
  opc : BitVec 8
  zero : BitVec 24
  deriving DecidableEq, Repr

/-- One access of the host, the line of a program (20_memory.md R102, 30_encoding.md R164): the byte address, the width
in bytes, and for a write the value. Only width 4 is legal; the others exist so that they can be refused. -/
inductive HostAccess where
  | read (addr : Word) (width : Nat)
  | write (addr : Word) (width : Nat) (value : Word)
  deriving DecidableEq, Repr

end Sys2Proof
end

