-- ==== Sys2Proof/WellFormed.lean ====
section
/-! DEFINITION. When a command word and a host access are well formed. A command itself has no field that could be wrong. -/

namespace Sys2Proof

/-- The opcodes 30_encoding.md R142 lists, as the ranges its last line leaves legal. -/
def CommandWord.opcListed (c : CommandWord) : Bool :=
  let o := c.opc.toNat
  o ≤ 0x03 || (0x10 ≤ o && o ≤ 0x15) || o == 0x18 || o == 0x19 || (0x20 ≤ o && o ≤ 0x23) || (0x28 ≤ o && o ≤ 0x2D) ||
    (0x30 ≤ o && o ≤ 0x34) || (0x38 ≤ o && o ≤ 0x3C) || o == 0x40 || o == 0x41 || o == 0x50 || o == 0x51

/-- Bits 31:8 are zero (30_encoding.md R140). -/
def CommandWord.zeroClear (c : CommandWord) : Bool := c.zero == 0

def CommandWord.wellFormed (c : CommandWord) : Bool := c.zeroClear && c.opcListed

/-- Every command is well formed: it has no operand field (30_encoding.md R141). -/
def Instr.wellFormed (_ : Instr) : Bool := true

def HostAccess.addr : HostAccess → Word
  | .read a _ => a
  | .write a _ _ => a

def HostAccess.width : HostAccess → Nat
  | .read _ n => n
  | .write _ n _ => n

/-- The access is 4 bytes wide (20_memory.md R102). -/
def HostAccess.widthOk (a : HostAccess) : Bool := a.width == 4

/-- The address is a multiple of 4 (20_memory.md R102). -/
def HostAccess.aligned (a : HostAccess) : Bool := a.addr.toNat % 4 == 0

def HostAccess.wellFormed (a : HostAccess) : Bool := a.widthOk && a.aligned

end Sys2Proof
end

