-- ==== Sys2Proof/Decode.lean ====
section
/-! DEFINITION. Decoding of command words (30_encoding.md R140, R142, R143) and, after it, the encoder. -/

namespace Sys2Proof

/-- Why a word is no command (30_encoding.md R140, R143). -/
inductive DecodeError where
  /-- bits 31:8 are not all zero -/
  | zeroField
  /-- the opcode is not one that R142 lists -/
  | opcode
  deriving DecidableEq, Repr

/-- The fields of a command word: OPC is bits 7:0, ZERO bits 31:8 (30_encoding.md R140). -/
def splitCommand (w : Word) : CommandWord := ⟨w.extractLsb' 0 8, w.extractLsb' 8 24⟩

/-- The opcode map of 30_encoding.md R142, read from opcode to command. -/
def commandOfOpc (opc : BitVec 8) : Option Instr :=
  match opc.toNat with
  | 0x00 => some .nop
  | 0x01 => some .reset
  | 0x02 => some .validate
  | 0x03 => some .endSession
  | 0x10 => some .bsWrite
  | 0x11 => some .bsRead
  | 0x12 => some .bsFlush
  | 0x13 => some .bsReadAlign
  | 0x14 => some .bsPadWord
  | 0x15 => some .bsClose
  | 0x18 => some .unaryWrite
  | 0x19 => some .unaryRead
  | 0x20 => some .riceMask
  | 0x21 => some .riceCode
  | 0x22 => some .riceDecode
  | 0x23 => some .riceBest
  | 0x28 => some .baCodeBlock
  | 0x29 => some .baDecodeBlock
  | 0x2A => some .baTerminate
  | 0x2B => some .baSelect
  | 0x2C => some .baCodeSample
  | 0x2D => some .baDecodeSample
  | 0x30 => some .saInitBand
  | 0x31 => some .saCode
  | 0x32 => some .saDecode
  | 0x33 => some .saUpdate
  | 0x34 => some .saTerminate
  | 0x38 => some .predInitBand
  | 0x39 => some .predCompress
  | 0x3A => some .predDecompress
  | 0x3B => some .resMap
  | 0x3C => some .resUnmap
  | 0x40 => some .hdrWrite
  | 0x41 => some .hdrRead
  | 0x50 => some .compress
  | 0x51 => some .decompress
  | _ => none

/-- The command a word selects, or why it selects none. -/
def decode (w : Word) : Except DecodeError Instr :=
  if (splitCommand w).zero = 0 then
    match commandOfOpc (splitCommand w).opc with
    | some i => .ok i
    | none => .error .opcode
  else .error .zeroField

/-- The opcode map of 30_encoding.md R142, read from command to opcode. -/
def Instr.opc : Instr → BitVec 8
  | .nop => 0x00
  | .reset => 0x01
  | .validate => 0x02
  | .endSession => 0x03
  | .bsWrite => 0x10
  | .bsRead => 0x11
  | .bsFlush => 0x12
  | .bsReadAlign => 0x13
  | .bsPadWord => 0x14
  | .bsClose => 0x15
  | .unaryWrite => 0x18
  | .unaryRead => 0x19
  | .riceMask => 0x20
  | .riceCode => 0x21
  | .riceDecode => 0x22
  | .riceBest => 0x23
  | .baCodeBlock => 0x28
  | .baDecodeBlock => 0x29
  | .baTerminate => 0x2A
  | .baSelect => 0x2B
  | .baCodeSample => 0x2C
  | .baDecodeSample => 0x2D
  | .saInitBand => 0x30
  | .saCode => 0x31
  | .saDecode => 0x32
  | .saUpdate => 0x33
  | .saTerminate => 0x34
  | .predInitBand => 0x38
  | .predCompress => 0x39
  | .predDecompress => 0x3A
  | .resMap => 0x3B
  | .resUnmap => 0x3C
  | .hdrWrite => 0x40
  | .hdrRead => 0x41
  | .compress => 0x50
  | .decompress => 0x51

/-- The command word of a command: ZERO above OPC (30_encoding.md R140). -/
def encode (i : Instr) : Word := (0 : BitVec 24) ++ i.opc

/-- The command read from the `nbits` low bits of `w`, every bit above them zero. A command word is one 32-bit word
(30_encoding.md R140); a longer number is none. -/
def decodeTableWord (nbits w : Nat) : Option Instr :=
  let v := w % 2 ^ nbits
  if v < 2 ^ 32 then (decode (BitVec.ofNat 32 v)).toOption else none

end Sys2Proof
end

