-- ==== Sys2Proof/Machine/State.lean ====
section
/-! DEFINITION. The state of the core as plain data, the reasons a step can stop, and the state after power-on reset. -/

namespace Sys2Proof.Machine

/-- No step of this machine ends in a fault of the model: every error of 60_exceptions.md R620 is a next state in
mode FAULT (R621), and the spec names nothing that stops the core. So there is no constructor, and nothing raises one. -/
inductive Fault where
  deriving DecidableEq, Repr

/-- Why the model gives no next state. -/
inductive Refusal where
  /-- Raised by an arm of `exec` whose command has no meaning yet, by its mnemonic. Safe: nothing is claimed of it. -/
  | notModelled (mnemonic : String)
  /-- Raised by `step` when the access would leave a stream with more than 2^32 − 1 elements: "a count above 2^32 − 1 is
  not representable and such a stream is refused by the model" (10_state.md R39, log entry 4). Safe: the model stops. -/
  | streamCount
  deriving DecidableEq, Repr

/-- The operating mode (10_state.md R32). -/
inductive Mode where
  | idle
  | active
  | fault
  deriving DecidableEq, Repr

/-- The error codes of 60_exceptions.md R620; `formatId` is never raised (R636). -/
inductive ErrKind where
  | none
  | config
  | notSupported
  | eos
  | ioSink
  | formatHeader
  | formatId
  | formatUnary
  | formatValue
  | sampleRange
  | history
  | uninit
  | terminated
  | illegalCmd
  | operand
  | mode
  | bus
  | cfgLocked
  deriving DecidableEq, Repr

/-- What `raise E(info)` carries (60_exceptions.md R621). -/
structure Raise where
  kind : ErrKind
  info : Word
  deriving DecidableEq, Repr

/-- The cursor (10_state.md R33). -/
structure Cursor where
  z : Nat
  y : Nat
  x : Nat
  deriving DecidableEq, Repr

/-- The configuration registers by name (10_state.md R40). -/
inductive CfgReg where
  | x | y | z | signed | d | order | m | b | coder | p | pmode | lsmode | r | omega | te | vmin | vmax | winit | wtable | q
  | umax | gstar | g0 | k | atable | j | rsi | restrict | s | refsamp | pedantic
  deriving DecidableEq, Repr

/-- The configuration registers (10_state.md R40), each a whole 32-bit word. -/
structure Cfg where
  x : Word
  y : Word
  z : Word
  signed : Word
  d : Word
  order : Word
  m : Word
  b : Word
  coder : Word
  p : Word
  pmode : Word
  lsmode : Word
  r : Word
  omega : Word
  te : Word
  vmin : Word
  vmax : Word
  winit : Word
  wtable : Word
  q : Word
  umax : Word
  gstar : Word
  g0 : Word
  k : Word
  atable : Word
  j : Word
  rsi : Word
  restrict : Word
  s : Word
  refsamp : Word
  pedantic : Word
  deriving DecidableEq, Repr

/-- The statistics of a band of the sample-adaptive coder: accumulator A[z] and counter Σ[z] (10_state.md R47). -/
structure BandStats where
  acc : Nat
  cnt : Nat
  deriving DecidableEq, Repr

/-- A storage of cells by number, in one canonical form: the keys rise strictly (`Memory.sorted`), and nothing is listed that
an unlisted cell reads as. -/
abbrev Memory (α : Type) := List (Nat × α)

/-- The state of the core. Every field but the last three is state the spec names; INVENTORY.md lists them with their rules. -/
structure State where
  mode : Mode
  cursor : Cursor
  /-- STATUS.DONE (10_state.md R34) -/
  done : Bool
  /-- STATUS.TERMINATED (10_state.md R34, R52) -/
  terminated : Bool
  /-- STATUS.CLOSED (10_state.md R34, R48) -/
  closed : Bool
  /-- STATUS.ERRCODE (10_state.md R34) -/
  errCode : ErrKind
  errInfo : Word
  /-- the two bits IRQ_EN holds (10_state.md R36) -/
  irqEn : BitVec 2
  arg0 : Word
  arg1 : Word
  arg2 : Word
  /-- stored but read by no command (10_state.md R31) -/
  arg3 : Word
  result : Word
  result1 : Word
  blk : Vector Word 64
  bitsOut : Word
  bitsIn : Word
  /-- the streams, oldest element first (20_memory.md R107) -/
  sin : List Word
  sout : List Word
  bin : List Byte
  bout : List Byte
  cfg : Cfg
  /-- TA, key z; an unlisted entry is 0 (10_state.md R42) -/
  ta : Memory Word
  /-- TW, key 18·z + i; an unlisted entry is 0 (10_state.md R43) -/
  tw : Memory Word
  /-- what Derive published last (48_system.md R599); ID_BITS and BACKUP_OPT read through `derivedHeld` (10_state.md R45) -/
  idBits : Word
  backupOpt : Word
  /-- a COMPRESS or DECOMPRESS has succeeded since the last reset (10_state.md R45, log entry 6) -/
  derivedHeld : Bool
  /-- W, key z; listed exactly when PV[z] = 1 (10_state.md R46, log entry 5) -/
  weights : Memory (List Int)
  /-- A and Σ, key z; listed exactly when SV[z] = 1 (10_state.md R47, log entry 5) -/
  stats : Memory BandStats
  /-- the bits of the partial byte, first bit first; WCNT is its length (10_state.md R48) -/
  wbuf : List Bool
  bytesOut : Nat
  /-- the unread bits of the last byte taken, first bit first; RCNT is its length (10_state.md R49) -/
  rbuf : List Bool
  zrun : Nat
  cs : Nat
  cr : Nat
  ebuf : List Word
  efill : Nat
  runrem : Nat
  dbuf : List Word
  dpos : Nat
  /-- HIST, key `histKey`; listed exactly when the written bit is 1 (10_state.md R53, log entry 5) -/
  hist : Memory Int
  /-- MODEL: the named parameter HIST_CAPACITY, `none` for unbounded (20_memory.md R120, log entry 3) -/
  histCapacity : Option Nat
  /-- MODEL: the host's accesses still to be made, the next one first (10_state.md R54, log entry 1) -/
  script : List HostAccess
  /-- MODEL: the value the latest MemRead returned (20_memory.md R102, log entry 2) -/
  hostRead : Word
  deriving DecidableEq, Repr

/-- The reset values of the configuration registers (10_state.md R41). -/
def Cfg.reset : Cfg where
  x := 1
  y := 1
  z := 1
  signed := 0
  d := 16
  order := 1
  m := 1
  b := 1
  coder := 0
  p := 0
  pmode := 0
  lsmode := 0
  r := 64
  omega := 13
  te := 6
  vmin := -1
  vmax := 3
  winit := 0
  wtable := 0
  q := 0
  umax := 16
  gstar := 6
  g0 := 1
  k := 3
  atable := 0
  j := 16
  rsi := 4096
  restrict := 0
  s := 64
  refsamp := 0
  pedantic := 0

/-- Power-on reset (70_reset_and_hazards.md R680, the table of 10_state.md section 8). -/
def State.reset : State where
  mode := .idle
  cursor := ⟨0, 0, 0⟩
  done := false
  terminated := false
  closed := false
  errCode := .none
  errInfo := 0
  irqEn := 0
  arg0 := 0
  arg1 := 0
  arg2 := 0
  arg3 := 0
  result := 0
  result1 := 0
  blk := Vector.replicate 64 0
  bitsOut := 0
  bitsIn := 0
  sin := []
  sout := []
  bin := []
  bout := []
  cfg := Cfg.reset
  ta := []
  tw := []
  idBits := 0
  backupOpt := 0
  derivedHeld := false
  weights := []
  stats := []
  wbuf := []
  bytesOut := 0
  rbuf := []
  zrun := 0
  cs := 0
  cr := 0
  ebuf := []
  efill := 0
  runrem := 0
  dbuf := []
  dpos := 0
  hist := []
  histCapacity := Config.histCapacityDefault
  script := []
  hostRead := 0

end Sys2Proof.Machine
end

