-- ==== Sys2Proof/Machine/Flags.lean ====
section
/-! DEFINITION. The status bits: STATUS and its fields, the interrupt line, and the derived registers' view. The core has
no condition codes (10_state.md R34), so no command computes a flag. -/

namespace Sys2Proof.Machine

/-- The code of an error (60_exceptions.md R620). -/
def ErrKind.code : ErrKind → BitVec 8
  | .none => 0x00
  | .config => 0x01
  | .notSupported => 0x02
  | .eos => 0x03
  | .ioSink => 0x04
  | .formatHeader => 0x05
  | .formatId => 0x06
  | .formatUnary => 0x07
  | .formatValue => 0x08
  | .sampleRange => 0x09
  | .history => 0x0A
  | .uninit => 0x0B
  | .terminated => 0x0C
  | .illegalCmd => 0x0D
  | .operand => 0x0E
  | .mode => 0x0F
  | .bus => 0x10
  | .cfgLocked => 0x11

/-- The value of STATUS.MODE (10_state.md R32). -/
def Mode.code : Mode → BitVec 2
  | .idle => 0
  | .active => 1
  | .fault => 2

/-- STATUS.ERR: "1 while the mode is FAULT" (10_state.md R34, log entry 7). -/
def State.err (s : State) : Bool := s.mode == .fault

/-- WCNT, the number of bits in WBUF (10_state.md R48, log entry 7). -/
def State.wcnt (s : State) : Nat := s.wbuf.length

/-- RCNT, the number of bits in RBUF (10_state.md R49, log entry 7). -/
def State.rcnt (s : State) : Nat := s.rbuf.length

/-- The STATUS word, bit 31 first (10_state.md R34). -/
def State.status (s : State) : Word :=
  (0 : BitVec 16) ++ s.errCode.code ++ (0 : BitVec 2) ++ BitVec.ofBool s.closed ++ BitVec.ofBool s.terminated ++ s.mode.code ++
    BitVec.ofBool s.err ++ BitVec.ofBool s.done

/-- A host write of STATUS: a 1 in bit 0 clears DONE, nothing else has an effect (10_state.md R34). -/
def writeStatus (v : Word) (s : State) : State := { s with done := s.done && !v.getLsbD 0 }

/-- STATUS.DONE is set at the successful end of a command (48_system.md R580). -/
def setDone (s : State) : State := { s with done := true }

/-- The interrupt output (10_state.md R36, 60_exceptions.md R626). -/
def State.irq (s : State) : Bool := (s.done && s.irqEn.getLsbD 0) || (s.err && s.irqEn.getLsbD 1)

/-- ID_BITS and BACKUP_OPT show their value in ACTIVE, and after a successful COMPRESS or DECOMPRESS until RESET
(10_state.md R45, log entry 6). -/
def State.derivedShown (s : State) : Bool := s.mode == .active || s.derivedHeld

/-- ID_BITS as read (10_state.md R45). -/
def State.idBitsReg (s : State) : Word := if s.derivedShown then s.idBits else 0

/-- BACKUP_OPT as read (10_state.md R45). -/
def State.backupOptReg (s : State) : Word := if s.derivedShown then s.backupOpt else 0

end Sys2Proof.Machine
end

