-- ==== Sys2Proof/Machine/Ops.lean ====
section
/-! DEFINITION. The shared operations: the operation type with its fault, sparse storage, entering FAULT and leaving it,
the configuration's views, the streams, the per-band state and HIST, and the command cycle. -/

namespace Sys2Proof.Machine

/-! ### Operations that may raise -/

/-- A piece of a command's pseudocode: it ends well with a value, or raises an error; the state carries every effect made
before either (60_exceptions.md R622). -/
abbrev Op (α : Type) := EStateM Raise State α

/-- The state as it stands. -/
def Op.get : Op State := fun s => .ok s s

/-- `reg <- v` (00_scope.md R11). -/
def Op.modify (f : State → State) : Op Unit := fun s => .ok () (f s)

/-- `raise E_<NAME>(info)` (00_scope.md R11); what FAULT does with it is `enterFault`. -/
def raise {α : Type} (kind : ErrKind) (info : Word) : Op α := fun s => .error ⟨kind, info⟩ s

/-- `if not c: raise E(info)`. -/
def require (c : Prop) [Decidable c] (kind : ErrKind) (info : Word) : Op Unit :=
  if c then pure () else raise kind info

/-- An operation for each element, in order. -/
def forEach {α : Type} : List α → (α → Op Unit) → Op Unit
  | [], _ => pure ()
  | a :: as, f => do
    f a
    forEach as f

/-- An operation for each element, in order, keeping the values. -/
def collect {α β : Type} : List α → (α → Op β) → Op (List β)
  | [], _ => pure []
  | a :: as, f => do
    let b ← f a
    let bs ← collect as f
    pure (b :: bs)

/-! ### Numbers -/

/-- `lowbits(v, n)` (00_scope.md R8). -/
def lowbits (v n : Nat) : Nat := v % 2 ^ n

/-- `v >> n` on a value that may be negative (00_scope.md R9). -/
def asr (v : Int) (n : Nat) : Int := v / 2 ^ n

/-- `clamp(v, lo, hi)` (00_scope.md R9). -/
def clamp (v lo hi : Int) : Int := min (max v lo) hi

/-- A 32-bit word of a mathematical integer: its low 32 bits. -/
def wordOfInt (v : Int) : Word := BitVec.ofInt 32 v

def wordOfNat (v : Nat) : Word := BitVec.ofNat 32 v

/-- A configuration register read as the non-negative integer a valid one is (10_state.md R40); a negative one, which no
validation passes, counts as 0 (log entry 9). -/
def natOf (w : Word) : Nat := w.toInt.toNat

/-! ### Sparse storage -/

/-- The keys rise strictly. -/
def Memory.sorted {α : Type} : Memory α → Bool
  | [] => true
  | [_] => true
  | a :: b :: rest => a.1 < b.1 && Memory.sorted (b :: rest)

def Memory.cellAt {α : Type} : Memory α → Nat → Option α
  | [], _ => none
  | (k, v) :: rest, key => if key = k then some v else Memory.cellAt rest key

def Memory.putCell {α : Type} : Memory α → Nat → α → Memory α
  | [], key, w => [(key, w)]
  | (k, v) :: rest, key, w =>
    if key < k then (key, w) :: (k, v) :: rest
    else if key = k then (key, w) :: rest
    else (k, v) :: Memory.putCell rest key w

def Memory.dropCell {α : Type} : Memory α → Nat → Memory α
  | [], _ => []
  | (k, v) :: rest, key => if key = k then rest else (k, v) :: Memory.dropCell rest key

/-- A table entry: an unlisted one is 0, its reset value (10_state.md R42, R43). -/
def Memory.wordAt (m : Memory Word) (key : Nat) : Word := (m.cellAt key).getD 0

/-- A write of a table entry; 0 is never listed. -/
def Memory.putWord (m : Memory Word) (key : Nat) (v : Word) : Memory Word :=
  if v = 0 then m.dropCell key else m.putCell key v

/-- The canonical form of a table: rising keys, and no entry equal to what an unlisted one reads as. -/
def Memory.tableWf (m : Memory Word) : Bool := m.sorted && m.all fun e => e.2 != 0

/-- The canonical form of all the core's storage. -/
def Memory.wf (s : State) : Bool :=
  s.ta.tableWf && s.tw.tableWf && s.weights.sorted && s.stats.sorted && s.hist.sorted

/-! ### Entering FAULT and leaving it -/

/-- `raise E(info)` as the core sees it (60_exceptions.md R621): ERRCODE, ERR_INFO and the mode change, STATUS.ERR with the
mode; nothing else is saved and nothing is undone (R622). -/
def enterFault (e : Raise) (s : State) : State := { s with mode := .fault, errCode := e.kind, errInfo := e.info }

/-- RESET, the one return from FAULT (48_system.md R583, 60_exceptions.md R627): power-on reset but for the configuration,
the tables and IRQ_EN. The model's own fields are not the core's and stay. -/
def resetCore (s : State) : State :=
  { State.reset with
    cfg := s.cfg, ta := s.ta, tw := s.tw, irqEn := s.irqEn,
    histCapacity := s.histCapacity, script := s.script, hostRead := s.hostRead }

/-- An error outside a command: FAULT is entered, unless the core is in it, where nothing is raised (60_exceptions.md R625). -/
def raiseOutside (e : Raise) (s : State) : State := if s.mode = .fault then s else enterFault e s

/-! ### The configuration -/

/-- The index of a configuration register (10_state.md R40). -/
def CfgReg.index : CfgReg → Nat
  | .x => 0
  | .y => 1
  | .z => 2
  | .signed => 3
  | .d => 4
  | .order => 5
  | .m => 6
  | .b => 7
  | .coder => 8
  | .p => 9
  | .pmode => 10
  | .lsmode => 11
  | .r => 12
  | .omega => 13
  | .te => 14
  | .vmin => 15
  | .vmax => 16
  | .winit => 17
  | .wtable => 18
  | .q => 19
  | .umax => 20
  | .gstar => 21
  | .g0 => 22
  | .k => 23
  | .atable => 24
  | .j => 25
  | .rsi => 26
  | .restrict => 27
  | .s => 28
  | .refsamp => 29
  | .pedantic => 30

/-- The configuration registers in index order (10_state.md R40). -/
def CfgReg.all : List CfgReg :=
  [.x, .y, .z, .signed, .d, .order, .m, .b, .coder, .p, .pmode, .lsmode, .r, .omega, .te, .vmin, .vmax, .winit, .wtable, .q,
    .umax, .gstar, .g0, .k, .atable, .j, .rsi, .restrict, .s, .refsamp, .pedantic]

/-- The register of an index. -/
def CfgReg.ofIndex (i : Nat) : Option CfgReg := CfgReg.all[i]?

def Cfg.read (c : Cfg) : CfgReg → Word
  | .x => c.x
  | .y => c.y
  | .z => c.z
  | .signed => c.signed
  | .d => c.d
  | .order => c.order
  | .m => c.m
  | .b => c.b
  | .coder => c.coder
  | .p => c.p
  | .pmode => c.pmode
  | .lsmode => c.lsmode
  | .r => c.r
  | .omega => c.omega
  | .te => c.te
  | .vmin => c.vmin
  | .vmax => c.vmax
  | .winit => c.winit
  | .wtable => c.wtable
  | .q => c.q
  | .umax => c.umax
  | .gstar => c.gstar
  | .g0 => c.g0
  | .k => c.k
  | .atable => c.atable
  | .j => c.j
  | .rsi => c.rsi
  | .restrict => c.restrict
  | .s => c.s
  | .refsamp => c.refsamp
  | .pedantic => c.pedantic

def Cfg.write (c : Cfg) (reg : CfgReg) (v : Word) : Cfg :=
  match reg with
  | .x => { c with x := v }
  | .y => { c with y := v }
  | .z => { c with z := v }
  | .signed => { c with signed := v }
  | .d => { c with d := v }
  | .order => { c with order := v }
  | .m => { c with m := v }
  | .b => { c with b := v }
  | .coder => { c with coder := v }
  | .p => { c with p := v }
  | .pmode => { c with pmode := v }
  | .lsmode => { c with lsmode := v }
  | .r => { c with r := v }
  | .omega => { c with omega := v }
  | .te => { c with te := v }
  | .vmin => { c with vmin := v }
  | .vmax => { c with vmax := v }
  | .winit => { c with winit := v }
  | .wtable => { c with wtable := v }
  | .q => { c with q := v }
  | .umax => { c with umax := v }
  | .gstar => { c with gstar := v }
  | .g0 => { c with g0 := v }
  | .k => { c with k := v }
  | .atable => { c with atable := v }
  | .j => { c with j := v }
  | .rsi => { c with rsi := v }
  | .restrict => { c with restrict := v }
  | .s => { c with s := v }
  | .refsamp => { c with refsamp := v }
  | .pedantic => { c with pedantic := v }

/-! The parameters as numbers, under the spec's names (00_scope.md R11, `CFG.<NAME>`). -/

def Cfg.X (c : Cfg) : Nat := natOf c.x
def Cfg.Y (c : Cfg) : Nat := natOf c.y
def Cfg.Z (c : Cfg) : Nat := natOf c.z
def Cfg.D (c : Cfg) : Nat := natOf c.d
def Cfg.M (c : Cfg) : Nat := natOf c.m
def Cfg.B (c : Cfg) : Nat := natOf c.b
def Cfg.P (c : Cfg) : Nat := natOf c.p
def Cfg.R (c : Cfg) : Nat := natOf c.r
def Cfg.OMEGA (c : Cfg) : Nat := natOf c.omega
def Cfg.TE (c : Cfg) : Nat := natOf c.te
def Cfg.Q (c : Cfg) : Nat := natOf c.q
def Cfg.UMAX (c : Cfg) : Nat := natOf c.umax
def Cfg.GSTAR (c : Cfg) : Nat := natOf c.gstar
def Cfg.G0 (c : Cfg) : Nat := natOf c.g0
def Cfg.K (c : Cfg) : Nat := natOf c.k
def Cfg.J (c : Cfg) : Nat := natOf c.j
def Cfg.RSI (c : Cfg) : Nat := natOf c.rsi
def Cfg.S (c : Cfg) : Nat := natOf c.s

/-- SMIN (00_scope.md R13). -/
def Cfg.SMIN (c : Cfg) : Int := if c.signed = 1 then -2 ^ (c.D - 1) else 0

/-- SMAX (00_scope.md R13). -/
def Cfg.SMAX (c : Cfg) : Int := if c.signed = 1 then 2 ^ (c.D - 1) - 1 else 2 ^ c.D - 1

/-- MID (00_scope.md R13). -/
def Cfg.MID (c : Cfg) : Int := if c.signed = 1 then 0 else 2 ^ (c.D - 1)

/-- `C_z`, the length of band z's weight vector (44_predictor.md R381). -/
def Cfg.bandLength (c : Cfg) (z : Nat) : Nat := (if c.pmode = 0 then 3 else 0) + min c.P z

/-- The key of TW[z][i] (10_state.md R43). -/
def twKey (z i : Nat) : Nat := 18 * z + i

/-! ### Streams (20_memory.md R107) -/

/-- The error of a byte missing outside a header: E_EOS with ERR_INFO 2 (20_memory.md R107). -/
def eosBin : Raise := ⟨.eos, 2⟩

/-- `PushByte(b)`. -/
def pushByte (b : Byte) (s : State) : State := { s with bout := s.bout ++ [b] }

/-- `PushSample(s)`. -/
def pushSample (v : Word) (s : State) : State := { s with sout := s.sout ++ [v] }

/-- `LoadRows(n)` (47_pipeline.md R546): n samples taken from SIN at once, or E_EOS with ERR_INFO 1 and nothing removed. -/
def popSamples (n : Nat) : Op (List Word) := do
  let s ← Op.get
  require (n ≤ s.sin.length) .eos 1
  Op.modify fun s => { s with sin := s.sin.drop n }
  pure (s.sin.take n)

/-! ### Per-band state and HIST -/

/-- The weights of band z; E_UNINIT(z) while PV[z] = 0 (10_state.md R46). -/
def readWeights (z : Nat) : Op (List Int) := fun s =>
  match s.weights.cellAt z with
  | some w => .ok w s
  | none => .error ⟨.uninit, wordOfNat z⟩ s

def writeWeights (z : Nat) (w : List Int) : Op Unit := Op.modify fun s => { s with weights := s.weights.putCell z w }

/-- A[z] and Σ[z]; E_UNINIT(z) while SV[z] = 0 (10_state.md R47). -/
def readStats (z : Nat) : Op BandStats := fun s =>
  match s.stats.cellAt z with
  | some b => .ok b s
  | none => .error ⟨.uninit, wordOfNat z⟩ s

def writeStats (z : Nat) (b : BandStats) : Op Unit := Op.modify fun s => { s with stats := s.stats.putCell z b }

/-- The key of HIST[z][y][x]; one per position, since every coordinate is below 2^16 (10_state.md R33, log entry 10). -/
def histKey (z y x : Nat) : Nat := (z * 65536 + y) * 65536 + x

/-- `HistRead(z, y, x)`: E_HISTORY while the written bit is 0 (20_memory.md R106). -/
def histRead (z y x : Nat) : Op Int := fun s =>
  match s.hist.cellAt (histKey z y x) with
  | some v => .ok v s
  | none => .error ⟨.history, wordOfNat (lowbits z 16 * 65536 + lowbits y 16)⟩ s

/-- `HistWrite(z, y, x, s)` (20_memory.md R106). -/
def histWrite (z y x : Nat) (v : Int) : Op Unit :=
  Op.modify fun s => { s with hist := s.hist.putCell (histKey z y x) v }

/-! ### The block buffer -/

/-- BLK[0 … n−1] (10_state.md R31). -/
def State.block (s : State) (n : Nat) : List Word := s.blk.toList.take n

/-- BLK[0 … b.length − 1] <- b; the other words keep their values (10_state.md R31). -/
def putBlock (b : List Word) (s : State) : State := { s with blk := Vector.ofFn fun i => b.getD i.val s.blk[i] }

/-! ### Session -/

/-- `ClearSession()` (70_reset_and_hazards.md R682). -/
def clearSession (s : State) : State :=
  { s with
    wbuf := [], bytesOut := 0, closed := false, rbuf := [], bitsOut := 0, bitsIn := 0,
    zrun := 0, cs := 0, cr := 0, efill := 0, ebuf := [], runrem := 0, dbuf := [], dpos := 0,
    terminated := false, weights := [], stats := [], hist := [] }

/-! ### The command cycle -/

/-- The values of the "modes" column of 30_encoding.md R142. -/
inductive ModeSet where
  | all
  | idleActive
  | idle
  | active
  deriving DecidableEq, Repr

/-- The "modes" and "coder" columns of a row of 30_encoding.md R142. -/
structure CommandRow where
  modes : ModeSet
  coder : Option Word
  deriving DecidableEq, Repr

/-- The rows of 30_encoding.md R142. -/
def commandRow : Instr → CommandRow
  | .nop => ⟨.idleActive, none⟩
  | .reset => ⟨.all, none⟩
  | .validate => ⟨.idle, none⟩
  | .endSession => ⟨.active, none⟩
  | .bsWrite => ⟨.active, none⟩
  | .bsRead => ⟨.active, none⟩
  | .bsFlush => ⟨.active, none⟩
  | .bsReadAlign => ⟨.active, none⟩
  | .bsPadWord => ⟨.active, none⟩
  | .bsClose => ⟨.active, none⟩
  | .unaryWrite => ⟨.active, none⟩
  | .unaryRead => ⟨.active, none⟩
  | .riceMask => ⟨.active, some 1⟩
  | .riceCode => ⟨.active, some 1⟩
  | .riceDecode => ⟨.active, some 1⟩
  | .riceBest => ⟨.active, some 1⟩
  | .baCodeBlock => ⟨.active, some 1⟩
  | .baDecodeBlock => ⟨.active, some 1⟩
  | .baTerminate => ⟨.active, some 1⟩
  | .baSelect => ⟨.active, some 1⟩
  | .baCodeSample => ⟨.active, some 1⟩
  | .baDecodeSample => ⟨.active, some 1⟩
  | .saInitBand => ⟨.active, some 0⟩
  | .saCode => ⟨.active, some 0⟩
  | .saDecode => ⟨.active, some 0⟩
  | .saUpdate => ⟨.active, some 0⟩
  | .saTerminate => ⟨.active, some 0⟩
  | .predInitBand => ⟨.active, none⟩
  | .predCompress => ⟨.active, none⟩
  | .predDecompress => ⟨.active, none⟩
  | .resMap => ⟨.active, none⟩
  | .resUnmap => ⟨.active, none⟩
  | .hdrWrite => ⟨.active, none⟩
  | .hdrRead => ⟨.idle, none⟩
  | .compress => ⟨.idle, none⟩
  | .decompress => ⟨.idle, none⟩

def ModeSet.holds : ModeSet → Mode → Bool
  | .all, _ => true
  | .idleActive, .idle => true
  | .idleActive, .active => true
  | .idleActive, .fault => false
  | .idle, m => m == .idle
  | .active, m => m == .active

/-- The mode is one the command's row lists (30_encoding.md R144). -/
def runsIn (i : Instr) (m : Mode) : Bool := (commandRow i).modes.holds m

/-- The row's coder, where it names one, is the configured one (30_encoding.md R144). -/
def coderOk (i : Instr) (c : Cfg) : Bool :=
  match (commandRow i).coder with
  | some v => c.coder == v
  | none => true

/-- How a command ends: DONE is set, or FAULT is entered and DONE keeps its value (48_system.md R580). -/
def finishCommand : EStateM.Result Raise State Unit → State
  | .ok _ t => setDone t
  | .error e t => enterFault e t

/-- The command cycle of 48_system.md R580 from the mode on, for the legal command `i` with the pseudocode `body`. -/
def runCommand (i : Instr) (body : Op Unit) (s : State) : Host.Outcome State Fault Refusal :=
  if s.mode = .fault ∧ i ≠ .reset then .next s
  else if runsIn i s.mode = false then .next (enterFault ⟨.mode, encode i⟩ s)
  else if coderOk i s.cfg = false then .next (enterFault ⟨.mode, encode i⟩ s)
  else .next (finishCommand (body s))

end Sys2Proof.Machine
end

