-- ==== Sys2Proof/Machine/Operands.lean ====
section
/-! DEFINITION. The operand forms of 30_encoding.md R141: how an ARG register is read and when it raises E_OPERAND with its index. -/

namespace Sys2Proof.Machine

/-- Form `n` in ARG0: a bit count, 0 … 32. -/
def bitCountOperand : Op Nat := do
  let s ← Op.get
  require (s.arg0.toNat ≤ 32) .operand 0
  pure s.arg0.toNat

/-- Form `k` in ARG0: a split position, 0 … 31. -/
def splitOperand : Op Nat := do
  let s ← Op.get
  require (s.arg0.toNat ≤ 31) .operand 0
  pure s.arg0.toNat

/-- Form `z` in ARG0: a band, 0 … Z − 1. -/
def bandOperand : Op Nat := do
  let s ← Op.get
  require (s.arg0.toNat < s.cfg.Z) .operand 0
  pure s.arg0.toNat

/-- Form `t` in ARG1: a within-band index, 0 … X·Y − 1. -/
def indexOperand : Op Nat := do
  let s ← Op.get
  require (s.arg1.toNat < s.cfg.X * s.cfg.Y) .operand 1
  pure s.arg1.toNat

/-- The row of a position operand: bits 31:16. -/
def rowOf (w : Word) : Nat := w.toNat / 65536

/-- The column of a position operand: bits 15:0. -/
def columnOf (w : Word) : Nat := w.toNat % 65536

/-- Form `yx` in ARG1: a position, y < Y and x < X. -/
def positionOperand : Op (Nat × Nat) := do
  let s ← Op.get
  require (rowOf s.arg1 < s.cfg.Y ∧ columnOf s.arg1 < s.cfg.X) .operand 1
  pure (rowOf s.arg1, columnOf s.arg1)

/-- A mapped residual δ in ARG register `i` with value `w`, refused above 2^D − 1 (43_sample_adaptive.md R351,
45_mapper.md R461). -/
def residualOperand (i w : Word) : Op Nat := do
  let s ← Op.get
  require (w.toNat < 2 ^ s.cfg.D) .operand i
  pure w.toNat

/-- Form `s` in ARG0, refused outside [SMIN, SMAX] (45_mapper.md R460). -/
def sampleOperand : Op Int := do
  let s ← Op.get
  require (s.cfg.SMIN ≤ s.arg0.toInt ∧ s.arg0.toInt ≤ s.cfg.SMAX) .operand 0
  pure s.arg0.toInt

/-- Form `ss` in ARG1: a scaled predicted sample, 2·SMIN … 2·SMAX + 1. -/
def scaledOperand : Op Int := do
  let s ← Op.get
  require (2 * s.cfg.SMIN ≤ s.arg1.toInt ∧ s.arg1.toInt ≤ 2 * s.cfg.SMAX + 1) .operand 1
  pure s.arg1.toInt

end Sys2Proof.Machine
end

