-- ==== Sys2Proof/Machine/Bitstream.lean ====
section
/-! DEFINITION. The bit writer, the bit reader and the unary codec, and their commands (40_bitstream.md). -/

namespace Sys2Proof.Machine

/-! ### Bits -/

/-- `raw_n(v)`: the n low bits of v, most significant first (30_encoding.md R145). -/
def rawBits : Nat → Nat → List Bool
  | 0, _ => []
  | n + 1, v => v.testBit n :: rawBits n v

/-- The number whose bits are these, first bit most significant. -/
def numberOfBits (bits : List Bool) : Nat := bits.foldl (fun v b => 2 * v + b.toNat) 0

/-- The byte of eight bits, the first in bit 7 (20_memory.md R108). -/
def byteOfBits (bits : List Bool) : Byte := BitVec.ofNat 8 (numberOfBits bits)

/-! ### The writer -/

/-- One bit appended to WBUF; a full byte goes to BOUT (the loop body of 40_bitstream.md R200). -/
def pushBit (b : Bool) (s : State) : State :=
  if s.wbuf.length + 1 = 8 then
    { pushByte (byteOfBits (s.wbuf ++ [b])) s with bytesOut := s.bytesOut + 1, wbuf := [] }
  else { s with wbuf := s.wbuf ++ [b] }

def pushBits : List Bool → State → State
  | [], s => s
  | b :: bs, s => pushBits bs (pushBit b s)

/-- Bits appended and counted in BITS_OUT (40_bitstream.md R200 for an open stream). -/
def emitBits (bits : List Bool) (s : State) : State :=
  { pushBits bits s with bitsOut := s.bitsOut + wordOfNat bits.length }

/-- `WriteBits(n, v)` (40_bitstream.md R200). -/
def writeBits (n v : Nat) : Op Unit := do
  let s ← Op.get
  require (s.closed = false) .ioSink 0
  Op.modify (emitBits (rawBits n v))

/-- `Flush()` (40_bitstream.md R202). -/
def flush : Op Unit := do
  let s ← Op.get
  if 0 < s.wcnt then writeBits (8 - s.wcnt) 0 else pure ()

/-- `WriteBits(8, 0)` so many times. -/
def writeZeroBytes : Nat → Op Unit
  | 0 => pure ()
  | n + 1 => do
    writeBits 8 0
    writeZeroBytes n

/-- How many bytes bring `bytes` to a multiple of `b`. -/
def padCount (b bytes : Nat) : Nat := (b - bytes % b) % b

/-- `PadWord(B)` (40_bitstream.md R204). -/
def padWord (b : Nat) : Op Unit := do
  flush
  let s ← Op.get
  writeZeroBytes (padCount b s.bytesOut)

/-- `Close()` (40_bitstream.md R205). -/
def close : Op Unit := do
  flush
  Op.modify fun s => { s with closed := true }

/-- `UnaryWrite(u)` (40_bitstream.md R206). -/
def unaryWrite : Nat → Op Unit
  | 0 => writeBits 1 1
  | u + 1 => do
    writeBits 1 0
    unaryWrite u

/-! ### The reader -/

/-- One bit of the input: the next of RBUF, or the first of a byte taken from BIN; `eof` when both are empty (the loop body of
40_bitstream.md R201). -/
def readBit (eof : Raise) : Op Bool := fun s =>
  match s.rbuf, s.bin with
  | b :: rest, _ => .ok b { s with rbuf := rest, bitsIn := s.bitsIn + 1 }
  | [], byte :: more => .ok (byte.getLsbD 7) { s with rbuf := rawBits 7 byte.toNat, bin := more, bitsIn := s.bitsIn + 1 }
  | [], [] => .error eof s

/-- The loop of `ReadBits`: n more bits below the value read so far. -/
def readBitsFrom (eof : Raise) : Nat → Nat → Op Nat
  | 0, v => pure v
  | n + 1, v => do
    let b ← readBit eof
    readBitsFrom eof n (2 * v + b.toNat)

/-- `ReadBits(n)` with the error of an empty BIN (40_bitstream.md R201; `eofBin` outside a header, 46_header.md R481 inside). -/
def readBitsOr (eof : Raise) (n : Nat) : Op Nat := readBitsFrom eof n 0

/-- `ReadBits(n)` outside a header. -/
def readBits (n : Nat) : Op Nat := readBitsOr eosBin n

/-- `Align()` (40_bitstream.md R203). -/
def alignReader (s : State) : State := { s with bitsIn := s.bitsIn + wordOfNat s.rcnt, rbuf := [] }

/-- The loop of `UnaryRead`: `n` zeros read, `left` more allowed. -/
def unaryReadFrom (err : Raise) : Nat → Nat → Op Nat
  | 0, n => do
    let b ← readBit eosBin
    if b then pure n else raise err.kind err.info
  | left + 1, n => do
    let b ← readBit eosBin
    if b then pure n else unaryReadFrom err left (n + 1)

/-- `UnaryRead(cap, err)` (40_bitstream.md R207). -/
def unaryRead (cap : Nat) (err : Raise) : Op Nat := unaryReadFrom err cap 0

/-- The error of an overlong unary codeword (60_exceptions.md R620). -/
def badUnary : Raise := ⟨.formatUnary, 0⟩

/-- `UnaryRead` of a caller that gives no cap (40_bitstream.md R207). -/
def unaryReadWord : Op Nat := unaryRead (2 ^ 32 - 1) badUnary

/-! ### Commands -/

/-- BS_WRITE (40_bitstream.md R210). -/
def bodyBsWrite : Op Unit := do
  let n ← bitCountOperand
  let s ← Op.get
  writeBits n s.arg1.toNat

def execBsWrite (s : State) : Host.Outcome State Fault Refusal := runCommand .bsWrite bodyBsWrite s

/-- BS_READ (40_bitstream.md R211). -/
def bodyBsRead : Op Unit := do
  let n ← bitCountOperand
  let v ← readBits n
  Op.modify fun s => { s with result := wordOfNat v }

def execBsRead (s : State) : Host.Outcome State Fault Refusal := runCommand .bsRead bodyBsRead s

/-- BS_FLUSH (40_bitstream.md R212). -/
def execBsFlush (s : State) : Host.Outcome State Fault Refusal := runCommand .bsFlush flush s

/-- BS_READ_ALIGN (40_bitstream.md R213). -/
def execBsReadAlign (s : State) : Host.Outcome State Fault Refusal := runCommand .bsReadAlign (Op.modify alignReader) s

/-- BS_PAD_WORD (40_bitstream.md R214). -/
def bodyBsPadWord : Op Unit := do
  let s ← Op.get
  padWord s.cfg.B

def execBsPadWord (s : State) : Host.Outcome State Fault Refusal := runCommand .bsPadWord bodyBsPadWord s

/-- BS_CLOSE (40_bitstream.md R215). -/
def execBsClose (s : State) : Host.Outcome State Fault Refusal := runCommand .bsClose close s

/-- UNARY_WRITE (40_bitstream.md R216). -/
def bodyUnaryWrite : Op Unit := do
  let s ← Op.get
  unaryWrite s.arg0.toNat

def execUnaryWrite (s : State) : Host.Outcome State Fault Refusal := runCommand .unaryWrite bodyUnaryWrite s

/-- UNARY_READ (40_bitstream.md R217). -/
def bodyUnaryRead : Op Unit := do
  let u ← unaryReadWord
  Op.modify fun s => { s with result := wordOfNat u }

def execUnaryRead (s : State) : Host.Outcome State Fault Refusal := runCommand .unaryRead bodyUnaryRead s

end Sys2Proof.Machine
end

