-- ==== Sys2Proof/Machine/Rice.lean ====
section
/-! DEFINITION. The sample-split codec, the block utilities, and their commands (41_rice.md); with them the derived constants
of the block coder (42_block_adaptive.md R280), which RICE_BEST uses. -/

namespace Sys2Proof.Machine

/-! ### Derived constants -/

/-- idBits (42_block_adaptive.md R280); `⌊log2(D − 1)⌋ + 1` is the number of bits of D − 1. -/
def Cfg.idBits (c : Cfg) : Nat :=
  let nb := Nat.log2 (c.D - 1) + 1
  if c.restrict = 1 ∧ c.D ≤ 4 then nb else max 3 nb

/-- numOptions (42_block_adaptive.md R280). -/
def Cfg.numOptions (c : Cfg) : Nat := 2 ^ c.idBits

/-- backupOption (42_block_adaptive.md R280). -/
def Cfg.backupOption (c : Cfg) : Nat := c.numOptions - 1

/-! ### Primitives -/

/-- `MaskBlock(b)` (41_rice.md R250). -/
def maskBlock (d : Nat) (b : List Word) : List Word := b.map fun w => wordOfNat (lowbits w.toNat d)

/-- `RiceCode(b, k)` (41_rice.md R251): every unary part, then every low part. -/
def riceCode (b : List Word) (k : Nat) : Op Unit := do
  forEach b fun w => unaryWrite (w.toNat >>> k)
  forEach b fun w => writeBits k w.toNat

/-- `RiceDecode(k)` for a block of `j` samples (41_rice.md R252). -/
def riceDecode (j k : Nat) : Op (List Word) := do
  let q ← collect (List.replicate j ()) fun _ => unaryReadWord
  collect q fun u => do
    let low ← readBits k
    pure (wordOfNat (u * 2 ^ k + low))

/-- `Σ_j (b[j] >> k) + (k+1)·J`, the size of a split block (41_rice.md R253). -/
def splitCost (b : List Word) (k : Nat) : Nat := (b.map fun w => w.toNat >>> k).sum + (k + 1) * b.length

/-- One candidate of the sweep: it replaces the best so far only when cheaper (41_rice.md R253). -/
def betterSplit (b : List Word) (best : Nat × Nat) (k : Nat) : Nat × Nat :=
  if splitCost b k < best.2 then (k, splitCost b k) else best

/-- `BestRice(b)`: the option (a split position, or backupOption) and its cost (41_rice.md R253). The sweep runs over
k = 0 … numOptions − 3. -/
def bestRice (c : Cfg) (b : List Word) : Nat × Nat :=
  (List.range (c.numOptions - 2)).foldl (betterSplit b) (c.backupOption, c.D * b.length)

/-! ### Commands -/

/-- RICE_MASK (41_rice.md R260). -/
def bodyRiceMask : Op Unit := Op.modify fun s => putBlock (maskBlock s.cfg.D (s.block s.cfg.J)) s

def execRiceMask (s : State) : Host.Outcome State Fault Refusal := runCommand .riceMask bodyRiceMask s

/-- RICE_CODE (41_rice.md R261). -/
def bodyRiceCode : Op Unit := do
  let k ← splitOperand
  let s ← Op.get
  riceCode (s.block s.cfg.J) k

def execRiceCode (s : State) : Host.Outcome State Fault Refusal := runCommand .riceCode bodyRiceCode s

/-- RICE_DECODE (41_rice.md R262): BLK is written only when the whole block was read. -/
def bodyRiceDecode : Op Unit := do
  let k ← splitOperand
  let s ← Op.get
  let b ← riceDecode s.cfg.J k
  Op.modify (putBlock b)

def execRiceDecode (s : State) : Host.Outcome State Fault Refusal := runCommand .riceDecode bodyRiceDecode s

/-- RICE_BEST (41_rice.md R263). -/
def bodyRiceBest : Op Unit :=
  Op.modify fun s =>
    let best := bestRice s.cfg (maskBlock s.cfg.D (s.block s.cfg.J))
    { s with result := wordOfNat best.1, result1 := wordOfNat best.2 }

def execRiceBest (s : State) : Host.Outcome State Fault Refusal := runCommand .riceBest bodyRiceBest s

end Sys2Proof.Machine
end

