-- ==== Sys2Proof/Machine/BlockAdaptive.lean ====
section
/-! DEFINITION. The block-adaptive entropy coder and its commands (42_block_adaptive.md). -/

namespace Sys2Proof.Machine

/-- The options of a block (42_block_adaptive.md R281). -/
inductive BlockOption where
  | zeroBlock
  | secondExt
  | sampleSplit (k : Nat)
  | backup
  deriving DecidableEq, Repr

/-! ### Selection -/

/-- `β(β+1)/2`. -/
def triangle (n : Nat) : Nat := n * (n + 1) / 2

/-- The codeword of a pair (42_block_adaptive.md R283, 30_encoding.md R151). -/
def pairCode (a b : Nat) : Nat := triangle (a + b) + b

/-- The second-extension codewords γ_i of a block, the earlier sample of a pair first (42_block_adaptive.md R283). -/
def secondExtCodes : List Word → List Nat
  | a :: b :: rest => pairCode a.toNat b.toNat :: secondExtCodes rest
  | _ => []

/-- size_SE (42_block_adaptive.md R283). -/
def secondExtSize (c : Cfg) (b : List Word) : Nat := (secondExtCodes b).sum + b.length / 2 + c.idBits + 1

/-- One SAMPLE_SPLIT candidate of the selection (42_block_adaptive.md R284, R286). -/
def betterOption (c : Cfg) (b : List Word) (best : BlockOption × Nat) (k : Nat) : BlockOption × Nat :=
  if splitCost b k + c.idBits < best.2 then (.sampleSplit k, splitCost b k + c.idBits) else best

/-- The candidates up to SECOND_EXT: BACKUP, then SAMPLE_SPLIT(k) for k ascending (42_block_adaptive.md R284 to R286). -/
def bestSplit (c : Cfg) (b : List Word) : BlockOption × Nat :=
  (List.range (c.numOptions - 2)).foldl (betterOption c b) (.backup, b.length * c.D + c.idBits)

/-- `Select(b)` on a masked block: the option, with k inside it, and the size (42_block_adaptive.md R286). -/
def select (c : Cfg) (b : List Word) : BlockOption × Nat :=
  if (b.map fun w => w.toNat).sum = 0 then (.zeroBlock, 0)
  else if secondExtSize c b < (bestSplit c b).2 then (.secondExt, secondExtSize c b)
  else bestSplit c b

/-! ### Encoder -/

/-- `EmitId(option, k)` (42_block_adaptive.md R287). -/
def emitId (c : Cfg) : BlockOption → Op Unit
  | .zeroBlock => writeBits (c.idBits + 1) 0
  | .secondExt => writeBits (c.idBits + 1) 1
  | .sampleSplit k => writeBits c.idBits (k + 1)
  | .backup => writeBits c.idBits c.backupOption

/-- `EmitPayload(option, k, b)` (42_block_adaptive.md R288). -/
def emitPayload (c : Cfg) (b : List Word) : BlockOption → Op Unit
  | .zeroBlock => pure ()
  | .secondExt => forEach (secondExtCodes b) unaryWrite
  | .sampleSplit k => riceCode b k
  | .backup => forEach b fun w => writeBits c.D w.toNat

def clearRun : Op Unit := Op.modify fun s => { s with zrun := 0 }

/-- `FlushBlocks()` (42_block_adaptive.md R290). -/
def flushBlocks : Op Unit := do
  let s ← Op.get
  if s.zrun = 0 then pure ()
  else do
    emitId s.cfg .zeroBlock
    unaryWrite (if s.zrun ≤ 4 then s.zrun - 1 else s.zrun)
    clearRun

/-- `FlushRos()` (42_block_adaptive.md R291). -/
def flushRos : Op Unit := do
  let s ← Op.get
  if s.zrun ≤ 4 then flushBlocks
  else do
    emitId s.cfg .zeroBlock
    unaryWrite 4
    clearRun

/-- `Advance()`: the segment and reference counters move, and the answer is whether a boundary follows (42_block_adaptive.md R292). -/
def advance : Op Bool := do
  Op.modify fun s => { s with cs := (s.cs + 1) % s.cfg.S, cr := (s.cr + 1) % s.cfg.RSI }
  let s ← Op.get
  pure (s.cs == 0 || s.cr == 0)

/-- The coding of a masked block by its option (the middle of 42_block_adaptive.md R293). -/
def codeOption (c : Cfg) (b : List Word) : BlockOption → Op Unit
  | .zeroBlock => Op.modify fun s => { s with zrun := s.zrun + 1 }
  | option => do
    flushBlocks
    emitId c option
    emitPayload c b option

/-- `CodeBlock(b)` (42_block_adaptive.md R293). -/
def codeBlock (b : List Word) : Op Unit := do
  let s ← Op.get
  codeOption s.cfg (maskBlock s.cfg.D b) (select s.cfg (maskBlock s.cfg.D b)).1
  let boundary ← advance
  if boundary then flushRos else pure ()

/-- EFILL <- 0; what EBUF held is not read again before it is written (42_block_adaptive.md R294, log entry 12). -/
def emptyEbuf : Op Unit := Op.modify fun s => { s with ebuf := [], efill := 0 }

/-- `CodeSample(δ)` (42_block_adaptive.md R294). -/
def codeSample (v : Nat) : Op Unit := do
  Op.modify fun s => { s with ebuf := s.ebuf.take s.efill ++ [wordOfNat v], efill := s.efill + 1 }
  let s ← Op.get
  if s.efill = s.cfg.J then do
    codeBlock s.ebuf
    emptyEbuf
  else pure ()

/-- The final partial block, completed with zero samples (42_block_adaptive.md R295). -/
def codePartial : Op Unit := do
  let s ← Op.get
  if 0 < s.efill then do
    Op.modify fun s => { s with ebuf := s.ebuf.take s.efill ++ List.replicate (s.cfg.J - s.efill) 0 }
    let t ← Op.get
    codeBlock t.ebuf
    emptyEbuf
  else pure ()

/-- `if TERMINATED = 1: raise E_TERMINATED(0)` (10_state.md R52). -/
def requireOpen : Op Unit := do
  let s ← Op.get
  require (s.terminated = false) .terminated 0

def setTerminated : Op Unit := Op.modify fun s => { s with terminated := true }

/-- `BaTerminate()` (42_block_adaptive.md R295). -/
def baTerminate : Op Unit := do
  requireOpen
  codePartial
  flushRos
  flush
  setTerminated

/-! ### Decoder -/

/-- `DecodeId()` (42_block_adaptive.md R296). -/
def decodeId : Op BlockOption := do
  let s ← Op.get
  let i ← readBits s.cfg.idBits
  if i = 0 then do
    let b ← readBits 1
    pure (if b = 0 then .zeroBlock else .secondExt)
  else pure (if i = s.cfg.backupOption then .backup else .sampleSplit (i - 1))

/-- The run a zero-run codeword N stands for, with the counters as they stand before its first block (42_block_adaptive.md R297). -/
def zeroRun (s : State) (n : Nat) : Nat :=
  if n = 4 then min (s.cfg.RSI - s.cr) (s.cfg.S - s.cs) else if n < 4 then n + 1 else n

/-- The bits of the root of a triangular number, from the highest down: the largest β ≥ `acc` below `acc + 2^n` with
`triangle β ≤ g`, when `triangle acc ≤ g`. -/
def triangleRootFrom (g : Nat) : Nat → Nat → Nat
  | 0, acc => acc
  | n + 1, acc => if triangle (acc + 2 ^ n) ≤ g then triangleRootFrom g n (acc + 2 ^ n) else triangleRootFrom g n acc

/-- The largest β with `β(β+1)/2 ≤ γ` (42_block_adaptive.md R298). -/
def triangleRoot (g : Nat) : Nat := triangleRootFrom g (g.log2 + 1) 0

/-- The pair of a second-extension codeword (42_block_adaptive.md R298). -/
def pairOfCode (g : Nat) : List Word :=
  let beta := triangleRoot g
  let bb := g - triangle beta
  [wordOfNat (beta - bb), wordOfNat bb]

/-- A block of zeros. -/
def zeroSamples (j : Nat) : List Word := List.replicate j 0

/-- The block that follows an id (42_block_adaptive.md R299). -/
def decodePayload (j d : Nat) : BlockOption → Op (List Word)
  | .zeroBlock => do
    let n ← unaryReadWord
    Op.modify fun s => { s with runrem := zeroRun s n - 1 }
    pure (zeroSamples j)
  | .secondExt => do
    let pairs ← collect (List.replicate (j / 2) ()) fun _ => do
      let g ← unaryReadWord
      pure (pairOfCode g)
    pure pairs.flatten
  | .sampleSplit k => riceDecode j k
  | .backup => collect (List.replicate j ()) fun _ => do
      let v ← readBits d
      pure (wordOfNat v)

/-- The block itself: from a pending run, or from the bitstream (42_block_adaptive.md R299). -/
def nextBlock : Op (List Word) := do
  let s ← Op.get
  if 0 < s.runrem then do
    Op.modify fun s => { s with runrem := s.runrem - 1 }
    pure (zeroSamples s.cfg.J)
  else do
    let option ← decodeId
    decodePayload s.cfg.J s.cfg.D option

/-- `DecodeBlock()` (42_block_adaptive.md R299). -/
def decodeBlock : Op (List Word) := do
  let b ← nextBlock
  let _ ← advance
  pure b

/-- A whole block into DBUF when it has nothing left (42_block_adaptive.md R300). -/
def refillDbuf : Op Unit := do
  let s ← Op.get
  if s.dbuf = [] ∨ s.dpos = s.cfg.J then do
    let b ← decodeBlock
    Op.modify fun s => { s with dbuf := b, dpos := 0 }
  else pure ()

/-- `DecodeSample()` (42_block_adaptive.md R300). -/
def decodeSample : Op Word := do
  refillDbuf
  let s ← Op.get
  Op.modify fun s => { s with dpos := s.dpos + 1 }
  pure (s.dbuf.getD s.dpos 0)

/-! ### Commands -/

/-- The option code in RESULT (42_block_adaptive.md R310). -/
def optionCode : BlockOption → Nat
  | .zeroBlock => 0
  | .secondExt => 1
  | .sampleSplit k => 2 + 256 * k
  | .backup => 3

/-- BA_SELECT (42_block_adaptive.md R310). -/
def bodyBaSelect : Op Unit :=
  Op.modify fun s =>
    let best := select s.cfg (maskBlock s.cfg.D (s.block s.cfg.J))
    { s with result := wordOfNat (optionCode best.1), result1 := wordOfNat best.2 }

def execBaSelect (s : State) : Host.Outcome State Fault Refusal := runCommand .baSelect bodyBaSelect s

/-- BA_CODE_BLOCK (42_block_adaptive.md R311). -/
def bodyBaCodeBlock : Op Unit := do
  requireOpen
  let s ← Op.get
  codeBlock (s.block s.cfg.J)

def execBaCodeBlock (s : State) : Host.Outcome State Fault Refusal := runCommand .baCodeBlock bodyBaCodeBlock s

/-- BA_DECODE_BLOCK (42_block_adaptive.md R312): BLK is written only when the whole block was decoded. -/
def bodyBaDecodeBlock : Op Unit := do
  let b ← decodeBlock
  Op.modify (putBlock b)

def execBaDecodeBlock (s : State) : Host.Outcome State Fault Refusal := runCommand .baDecodeBlock bodyBaDecodeBlock s

/-- BA_TERMINATE (42_block_adaptive.md R313). -/
def execBaTerminate (s : State) : Host.Outcome State Fault Refusal := runCommand .baTerminate baTerminate s

/-- BA_CODE_SAMPLE (42_block_adaptive.md R314). -/
def bodyBaCodeSample : Op Unit := do
  requireOpen
  let s ← Op.get
  codeSample s.arg0.toNat

def execBaCodeSample (s : State) : Host.Outcome State Fault Refusal := runCommand .baCodeSample bodyBaCodeSample s

/-- BA_DECODE_SAMPLE (42_block_adaptive.md R315). -/
def bodyBaDecodeSample : Op Unit := do
  let v ← decodeSample
  Op.modify fun s => { s with result := v }

def execBaDecodeSample (s : State) : Host.Outcome State Fault Refusal := runCommand .baDecodeSample bodyBaDecodeSample s

end Sys2Proof.Machine
end

