-- ==== Sys2Proof/Machine/SampleAdaptive.lean ====
section
/-! DEFINITION. The sample-adaptive entropy coder and its commands (43_sample_adaptive.md). -/

namespace Sys2Proof.Machine

/-- κ of a band: K, or the table's entry when K = 15 (43_sample_adaptive.md R340). -/
def kappa (s : State) (z : Nat) : Nat := if s.cfg.K < 15 then s.cfg.K else natOf (s.ta.wordAt z)

/-- The statistics a band starts with (43_sample_adaptive.md R340). -/
def initialStats (s : State) (z : Nat) : BandStats where
  acc := (3 * 2 ^ (kappa s z + 6) - 49) * 2 ^ s.cfg.G0 / 2 ^ 7
  cnt := 2 ^ s.cfg.G0

/-- `SaInitBand(z)` (43_sample_adaptive.md R340). -/
def saInitBand (z : Nat) : Op Unit := do
  let s ← Op.get
  writeStats z (initialStats s z)

/-- `SaK(z)`, the code parameter; a quotient of 0 gives 0 (43_sample_adaptive.md R341). -/
def saK (c : Cfg) (b : BandStats) : Nat :=
  let q := (b.acc + 49 * b.cnt / 128) / b.cnt
  if q = 0 then 0 else min (Nat.log2 q) (c.D - 2)

/-- The codeword of δ under the parameter k (43_sample_adaptive.md R342, 30_encoding.md R154). -/
def saCodeword (c : Cfg) (k v : Nat) : Op Unit :=
  if v >>> k < c.UMAX then do
    unaryWrite (v >>> k)
    writeBits k v
  else do
    unaryWrite c.UMAX
    writeBits c.D v

/-- `SaCode(z, t, δ)` (43_sample_adaptive.md R342). -/
def saCode (z t v : Nat) : Op Unit := do
  let s ← Op.get
  if t = 0 then writeBits s.cfg.D v
  else do
    let b ← readStats z
    saCodeword s.cfg (saK s.cfg b) v

/-- `SaDecode(z, t)` (43_sample_adaptive.md R343). -/
def saDecode (z t : Nat) : Op Nat := do
  let s ← Op.get
  if t = 0 then readBits s.cfg.D
  else do
    let b ← readStats z
    let n ← unaryRead s.cfg.UMAX badUnary
    if n < s.cfg.UMAX then do
      let low ← readBits (saK s.cfg b)
      pure (n * 2 ^ saK s.cfg b + low)
    else readBits s.cfg.D

/-- The statistics after a residual (43_sample_adaptive.md R344). -/
def nextStats (c : Cfg) (b : BandStats) (v : Nat) : BandStats :=
  if b.cnt < 2 ^ c.GSTAR - 1 then ⟨b.acc + v, b.cnt + 1⟩ else ⟨(b.acc + v + 1) / 2, (b.cnt + 1) / 2⟩

/-- `SaUpdate(z, t, δ)` (43_sample_adaptive.md R344). -/
def saUpdate (z t v : Nat) : Op Unit := do
  let s ← Op.get
  if t = 0 then pure ()
  else do
    let b ← readStats z
    writeStats z (nextStats s.cfg b v)

/-- `SaTerminate()` (43_sample_adaptive.md R345). -/
def saTerminate : Op Unit := do
  requireOpen
  flush
  setTerminated

/-- `if SV[z] = 0: raise E_UNINIT(z)` (43_sample_adaptive.md R351). -/
def requireStats (z : Nat) : Op Unit := do
  let _ ← readStats z
  pure ()

/-! ### Commands -/

/-- SA_INIT_BAND (43_sample_adaptive.md R350). -/
def bodySaInitBand : Op Unit := do
  let z ← bandOperand
  saInitBand z

def execSaInitBand (s : State) : Host.Outcome State Fault Refusal := runCommand .saInitBand bodySaInitBand s

/-- SA_CODE (43_sample_adaptive.md R351). -/
def bodySaCode : Op Unit := do
  requireOpen
  let z ← bandOperand
  let t ← indexOperand
  let s ← Op.get
  let v ← residualOperand 2 s.arg2
  requireStats z
  saCode z t v

def execSaCode (s : State) : Host.Outcome State Fault Refusal := runCommand .saCode bodySaCode s

/-- SA_DECODE (43_sample_adaptive.md R352). -/
def bodySaDecode : Op Unit := do
  let z ← bandOperand
  let t ← indexOperand
  requireStats z
  let v ← saDecode z t
  Op.modify fun s => { s with result := wordOfNat v }

def execSaDecode (s : State) : Host.Outcome State Fault Refusal := runCommand .saDecode bodySaDecode s

/-- SA_UPDATE (43_sample_adaptive.md R353). -/
def bodySaUpdate : Op Unit := do
  let z ← bandOperand
  let t ← indexOperand
  let s ← Op.get
  let v ← residualOperand 2 s.arg2
  requireStats z
  saUpdate z t v

def execSaUpdate (s : State) : Host.Outcome State Fault Refusal := runCommand .saUpdate bodySaUpdate s

/-- SA_TERMINATE (43_sample_adaptive.md R354). -/
def execSaTerminate (s : State) : Host.Outcome State Fault Refusal := runCommand .saTerminate saTerminate s

end Sys2Proof.Machine
end

