-- ==== Sys2Proof/Machine/Mapper.lean ====
section
/-! DEFINITION. The residual mapper, the inverse mapper and their commands (45_mapper.md). -/

namespace Sys2Proof.Machine

/-- `m`, the distance from the predicted sample to the nearer end of the range (45_mapper.md R450). -/
def mapMargin (c : Cfg) (sPred : Int) : Int := min (sPred - c.SMIN) (c.SMAX - sPred)

/-- `s_pred = s_scaled >> 1` (44_predictor.md R402). -/
def predicted (ss : Int) : Int := asr ss 1

/-- `Map(s, s_scaled)` (45_mapper.md R450). -/
def mapResidual (c : Cfg) (v ss : Int) : Int :=
  let r := v - predicted ss
  let m := mapMargin c (predicted ss)
  if m < |r| then |r| + m
  else if (ss % 2 = 0 ∧ 0 ≤ r) ∨ (ss % 2 = 1 ∧ r ≤ 0) then 2 * |r|
  else 2 * |r| - 1

/-- `Unmap(δ, s_scaled)` (45_mapper.md R451). -/
def unmapResidual (c : Cfg) (d ss : Int) : Int :=
  let m := mapMargin c (predicted ss)
  let r :=
    if 2 * m < d then (if m = predicted ss - c.SMIN then d - m else m - d)
    else if d % 2 = 0 then (if ss % 2 = 0 then d / 2 else -(d / 2))
    else (if ss % 2 = 1 then (d + 1) / 2 else -((d + 1) / 2))
  predicted ss + r

/-! ### Commands -/

/-- RES_MAP (45_mapper.md R460). -/
def bodyResMap : Op Unit := do
  let v ← sampleOperand
  let ss ← scaledOperand
  Op.modify fun s => { s with result := wordOfInt (mapResidual s.cfg v ss) }

def execResMap (s : State) : Host.Outcome State Fault Refusal := runCommand .resMap bodyResMap s

/-- RES_UNMAP (45_mapper.md R461). -/
def bodyResUnmap : Op Unit := do
  let s ← Op.get
  let d ← residualOperand 0 s.arg0
  let ss ← scaledOperand
  Op.modify fun s => { s with result := wordOfInt (unmapResidual s.cfg d ss) }

def execResUnmap (s : State) : Host.Outcome State Fault Refusal := runCommand .resUnmap bodyResUnmap s

end Sys2Proof.Machine
end

