-- ==== Sys2Proof/Machine/Predictor.lean ====
section
/-! DEFINITION. The predictor and its commands (44_predictor.md). All arithmetic is on mathematical integers but for mod_R. -/

namespace Sys2Proof.Machine

/-! ### Local sums and differences -/

/-- The neighbour-oriented local sum of band `b` (44_predictor.md R382), its terms read left to right (R409). -/
def neighbourSum (width b : Nat) : Nat → Nat → Op Int
  | 0, 0 => pure (Config.localSumAtOrigin b)
  | 0, x + 1 => do
    let w ← histRead b 0 x
    pure (4 * w)
  | y + 1, 0 => do
    let n ← histRead b y 0
    let ne ← histRead b y 1
    pure (2 * (n + ne))
  | y + 1, x + 1 =>
    if x + 2 < width then do
      let w ← histRead b (y + 1) x
      let nw ← histRead b y x
      let n ← histRead b y (x + 1)
      let ne ← histRead b y (x + 2)
      pure (w + nw + n + ne)
    else do
      let w ← histRead b (y + 1) x
      let nw ← histRead b y x
      let n ← histRead b y (x + 1)
      pure (w + nw + 2 * n)

/-- The column-oriented local sum of band `b` (44_predictor.md R383). -/
def columnSum (b : Nat) : Nat → Nat → Op Int
  | 0, 0 => pure (Config.localSumAtOrigin b)
  | 0, x + 1 => do
    let w ← histRead b 0 x
    pure (4 * w)
  | y + 1, x => do
    let n ← histRead b y x
    pure (4 * n)

/-- `L(b, y, x)` in the configured mode (44_predictor.md R382, R383). -/
def localSum (c : Cfg) (b y x : Nat) : Op Int :=
  if c.lsmode = 0 then neighbourSum c.X b y x else columnSum b y x

/-- dN, dW, dNW (44_predictor.md R385; the formulas are the spec's passage G1, log entry 16). -/
def directional (z : Nat) (sigma : Int) : Nat → Nat → Op (List Int)
  | 0, _ => pure [0, 0, 0]
  | y + 1, 0 => do
    let n ← histRead z y 0
    pure [4 * n - sigma, 4 * n - sigma, 4 * n - sigma]
  | y + 1, x + 1 => do
    let n ← histRead z y (x + 1)
    let w ← histRead z (y + 1) x
    let nw ← histRead z y x
    pure [4 * n - sigma, 4 * w - sigma, 4 * nw - sigma]

/-- The bands the inter-band entries come from: z − 1, z − 2, … , min(P, z) of them (44_predictor.md R386). -/
def previousBands (c : Cfg) (z : Nat) : List Nat := (List.range (min c.P z)).map fun j => z - j - 1

/-- The inter-band entry of band `b` (44_predictor.md R386). -/
def interBand (c : Cfg) (y x b : Nat) : Op Int := do
  let v ← histRead b y x
  let l ← localSum c b y x
  pure (4 * v - l)

/-- The directional entries in full mode, none in reduced mode (44_predictor.md R381, R385). -/
def directionalPart (c : Cfg) (z : Nat) (sigma : Int) (y x : Nat) : Op (List Int) :=
  if c.pmode = 0 then directional z sigma y x else pure []

/-- The local-difference vector (44_predictor.md R385, R386), read in the order of R409. -/
def localDiffs (c : Cfg) (z : Nat) (sigma : Int) (y x : Nat) : Op (List Int) := do
  let d ← directionalPart c z sigma y x
  let e ← collect (previousBands c z) (interBand c y x)
  pure (d ++ e)

/-! ### Weights -/

/-- The default inter-band weights: `n` of them from `w` on, each the one before shifted by 3 (44_predictor.md R387). -/
def fadingWeights : Nat → Int → List Int
  | 0, _ => []
  | n + 1, w => w :: fadingWeights n (asr w 3)

/-- Default initialization (44_predictor.md R387). -/
def defaultWeights (c : Cfg) (z : Nat) : List Int :=
  (if c.pmode = 0 then [0, 0, 0] else []) ++ fadingWeights (min c.P z) (7 * 2 ^ (c.OMEGA - 3))

/-- The custom weight of a table entry (44_predictor.md R388). With e = Ω + 2 − Q ≥ −1, prod is 2^(e+1), and sum is
2^e − 1 or, at e = −1, 0. -/
def customWeight (c : Cfg) (entry : Int) : Int :=
  let e1 := c.OMEGA + 3 - c.Q
  2 ^ e1 * entry + (if e1 = 0 then 0 else 2 ^ (e1 - 1) - 1)

/-- Custom initialization (44_predictor.md R388). -/
def customWeights (c : Cfg) (tw : Memory Word) (z : Nat) : List Int :=
  (List.range (c.bandLength z)).map fun i => customWeight c (tw.wordAt (twKey z i)).toInt

/-- `PredInitBand(z)` (44_predictor.md R389). -/
def predInitBand (z : Nat) : Op Unit := do
  let s ← Op.get
  writeWeights z (if s.cfg.winit = 0 then defaultWeights s.cfg z else customWeights s.cfg s.tw z)

/-! ### Prediction -/

/-- `mod_R(v, R)` (44_predictor.md R391). -/
def modR (v : Int) (r : Nat) : Int := (v + 2 ^ (r - 1)) % 2 ^ r - 2 ^ (r - 1)

/-- The dot product (44_predictor.md R400). -/
def dotProduct (w d : List Int) : Int := (List.zipWith (· * ·) w d).sum

/-- The scaled predicted sample from the dot product and the local sum (44_predictor.md R401). -/
def scaledPrediction (c : Cfg) (dHat sigma : Int) : Int :=
  let t := asr (modR (dHat + (sigma - 4 * c.MID) * 2 ^ c.OMEGA) c.R) (c.OMEGA + 1) + 2 * c.MID + 1
  clamp t (2 * c.SMIN) (2 * c.SMAX + 1)

/-- The prediction at the origin of a band (44_predictor.md R390). -/
def predictOrigin (c : Cfg) (z : Nat) : Op Int :=
  if z = 0 ∨ c.P = 0 then pure (2 * c.MID)
  else do
    let v ← histRead (z - 1) 0 0
    pure (2 * v)

/-- The local differences and the scaled prediction at a position (44_predictor.md R390, R401); at the origin no difference is
computed. -/
def predict (c : Cfg) (w : List Int) (z y x : Nat) : Op (List Int × Int) :=
  if y = 0 ∧ x = 0 then do
    let ss ← predictOrigin c z
    pure ([], ss)
  else do
    let sigma ← localSum c z y x
    let d ← localDiffs c z sigma y x
    pure (d, scaledPrediction c (dotProduct w d) sigma)

/-! ### Weight update -/

/-- ρ (44_predictor.md R403). -/
def updateExponent (c : Cfg) (y x : Nat) : Int :=
  clamp (c.vmin.toInt + asr (x + ((y : Int) - 1) * c.X) c.TE) c.vmin.toInt c.vmax.toInt + c.D - c.OMEGA

/-- The increment of one weight (44_predictor.md R404). -/
def weightStep (rho g d : Int) : Int :=
  asr ((if rho < 0 then g * d * 2 ^ (-rho).toNat else asr (g * d) rho.toNat) + 1) 1

/-- One weight after its update, clamped (44_predictor.md R404). -/
def nextWeight (c : Cfg) (rho g w d : Int) : Int :=
  clamp (w + weightStep rho g d) (-2 ^ (c.OMEGA + 2)) (2 ^ (c.OMEGA + 2) - 1)

/-- sign⁺ of the scaled error (44_predictor.md R404). -/
def errorSign (v ss : Int) : Int := if 2 * v - ss < 0 then -1 else 1

/-- The weights after a sample `v` predicted as `ss` from the differences `d` (44_predictor.md R403, R404). -/
def nextWeights (c : Cfg) (w d : List Int) (y x : Nat) (v ss : Int) : List Int :=
  List.zipWith (nextWeight c (updateExponent c y x) (errorSign v ss)) w d

/-- The history write and the weight update that end a prediction (44_predictor.md R407, R408). -/
def publishSample (c : Cfg) (w d : List Int) (z y x : Nat) (v ss : Int) : Op Unit := do
  histWrite z y x v
  if y = 0 ∧ x = 0 then pure () else writeWeights z (nextWeights c w d y x v ss)

/-- `PredCompress(z, y, x, s)`, the mapped residual and s_scaled (44_predictor.md R407). -/
def predCompress (z y x : Nat) (v : Int) : Op (Int × Int) := do
  let s ← Op.get
  require (s.cfg.SMIN ≤ v ∧ v ≤ s.cfg.SMAX) .sampleRange (wordOfInt v)
  let w ← readWeights z
  let p ← predict s.cfg w z y x
  publishSample s.cfg w p.1 z y x v p.2
  pure (mapResidual s.cfg v p.2, p.2)

/-- `PredDecompress(z, y, x, δ)`, the sample and s_scaled (44_predictor.md R408). -/
def predDecompress (z y x d : Nat) : Op (Int × Int) := do
  let s ← Op.get
  require (d < 2 ^ s.cfg.D) .formatValue (wordOfNat d)
  let w ← readWeights z
  let p ← predict s.cfg w z y x
  publishSample s.cfg w p.1 z y x (unmapResidual s.cfg d p.2) p.2
  pure (unmapResidual s.cfg d p.2, p.2)

/-! ### Commands -/

/-- `cursor <- (z, y, x)` (10_state.md R33). -/
def setCursor (z y x : Nat) : Op Unit := Op.modify fun s => { s with cursor := ⟨z, y, x⟩ }

/-- RESULT and RESULT1 of two integers. -/
def setResults (p : Int × Int) : Op Unit :=
  Op.modify fun s => { s with result := wordOfInt p.1, result1 := wordOfInt p.2 }

/-- PRED_INIT_BAND (44_predictor.md R410). -/
def bodyPredInitBand : Op Unit := do
  let z ← bandOperand
  predInitBand z

def execPredInitBand (s : State) : Host.Outcome State Fault Refusal := runCommand .predInitBand bodyPredInitBand s

/-- PRED_COMPRESS (44_predictor.md R411). -/
def bodyPredCompress : Op Unit := do
  let z ← bandOperand
  let p ← positionOperand
  setCursor z p.1 p.2
  let s ← Op.get
  let r ← predCompress z p.1 p.2 s.arg2.toInt
  setResults r

def execPredCompress (s : State) : Host.Outcome State Fault Refusal := runCommand .predCompress bodyPredCompress s

/-- PRED_DECOMPRESS (44_predictor.md R412). -/
def bodyPredDecompress : Op Unit := do
  let z ← bandOperand
  let p ← positionOperand
  setCursor z p.1 p.2
  let s ← Op.get
  let r ← predDecompress z p.1 p.2 s.arg2.toNat
  setResults r

def execPredDecompress (s : State) : Host.Outcome State Fault Refusal := runCommand .predDecompress bodyPredDecompress s

end Sys2Proof.Machine
end

