-- ==== Sys2Proof/Machine/System.lean ====
section
/-! DEFINITION. Configuration validation, the derived registers and the control commands (48_system.md). -/

namespace Sys2Proof.Machine

/-! ### Validation -/

/-- ERR_INFO of a failing configuration register (48_system.md R591). -/
def CfgReg.info (reg : CfgReg) : Word := wordOfNat reg.index

/-- ERR_INFO of a TA entry (48_system.md R591). -/
def taInfo (z : Nat) : Word := wordOfNat (0x10000000 + z)

/-- ERR_INFO of a TW entry (48_system.md R591). -/
def twInfo (z i : Nat) : Word := wordOfNat (0x20000000 + 256 * z + i)

/-- A check of 48_system.md R596 on a register: E_CONFIG with its index unless it holds. -/
def check (ok : Bool) (reg : CfgReg) : Option Raise := if ok then none else some ⟨.config, reg.info⟩

/-- The register, as the integer it is (10_state.md R40), lies between two bounds. -/
def within (w : Word) (lo hi : Int) : Bool := lo ≤ w.toInt && w.toInt ≤ hi

/-- The first entry of TW outside the Q-bit signed range, band by band (48_system.md R596 V22). -/
def badTwEntry (c : Cfg) (tw : Memory Word) : Option Raise :=
  (List.range c.Z).findSome? fun z =>
    (List.range (c.bandLength z)).findSome? fun i =>
      if within (tw.wordAt (twKey z i)) (-2 ^ (c.Q - 1)) (2 ^ (c.Q - 1) - 1) then none else some ⟨.config, twInfo z i⟩

/-- The first entry of TA outside [0, D − 2] (48_system.md R596 V28). -/
def badTaEntry (c : Cfg) (ta : Memory Word) : Option Raise :=
  (List.range c.Z).findSome? fun z => if within (ta.wordAt z) 0 (c.d.toInt - 2) then none else some ⟨.config, taInfo z⟩

/-- V1 to V13 (48_system.md R596): the image, and the predictor's mode fields. V5 holds for a D read from a header too (log
entry 19). -/
def checkImage (c : Cfg) : Option Raise :=
  check (within c.x 1 65536) .x
  <|> check (within c.y 1 65536) .y
  <|> check (within c.z 1 65536) .z
  <|> check (within c.signed 0 1) .signed
  <|> check (within c.d 2 16) .d
  <|> check (within c.order 0 1) .order
  <|> check (c.order != 0 || within c.m 1 c.z.toInt) .m
  <|> check (within c.b 1 8) .b
  <|> check (within c.coder 0 1) .coder
  <|> check (within c.p 0 15) .p
  <|> check (within c.pmode 0 1) .pmode
  <|> check (within c.lsmode 0 1) .lsmode
  <|> check (within c.omega 4 19) .omega

/-- V14 to V22 (48_system.md R596): the predictor. -/
def checkPredictor (c : Cfg) (tw : Memory Word) : Option Raise :=
  check (within c.r (max 32 (c.d.toInt + c.omega.toInt + 2)) 64) .r
  <|> check (within c.te 4 11) .te
  <|> check (within c.vmin (-6) 9) .vmin
  <|> check (within c.vmax c.vmin.toInt 9) .vmax
  <|> check (within c.winit 0 1) .winit
  <|> check (within c.wtable 0 1) .wtable
  <|> check (c.wtable == c.winit) .wtable
  <|> check (if c.winit = 0 then c.q == 0 else within c.q 3 (c.omega.toInt + 3)) .q
  <|> (if c.winit = 1 then badTwEntry c tw else none)

/-- V23 to V28 (48_system.md R596): the sample-adaptive coder. -/
def checkSampleAdaptive (c : Cfg) (ta : Memory Word) : Option Raise :=
  check (within c.umax 8 32) .umax
  <|> check (within c.gstar 4 9) .gstar
  <|> check (within c.g0 1 (c.gstar.toInt - 1)) .g0
  <|> check (within c.k 0 (c.d.toInt - 2) || c.k == 15) .k
  <|> check (within c.atable 0 1 && ((c.atable == 1) == (c.k == 15))) .atable
  <|> (if c.k = 15 then badTaEntry c ta else none)

/-- V29 to V32 (48_system.md R596): the block-adaptive coder. -/
def checkBlockAdaptive (c : Cfg) : Option Raise :=
  check (c.j == 8 || c.j == 16 || c.j == 32 || c.j == 64) .j
  <|> check (within c.rsi 1 4096) .rsi
  <|> check (within c.restrict 0 1) .restrict
  <|> check (within c.s 1 64) .s

/-- V33: reference-sample insertion is not supported (48_system.md R596, R597). -/
def checkRefsamp (c : Cfg) : Option Raise :=
  if c.refsamp = 1 then some ⟨.notSupported, CfgReg.refsamp.info⟩ else check (c.refsamp == 0) .refsamp

/-- V37: the image fits HIST_CAPACITY (48_system.md R596, 20_memory.md R120). -/
def checkCapacity (c : Cfg) (capacity : Option Nat) : Option Raise :=
  match capacity with
  | none => none
  | some n => check (c.Z * c.Y * c.X ≤ n) .z

/-- V33 to V37 (48_system.md R596); `compress` says that the caller is COMPRESS, the one that makes V36. -/
def checkRest (compress : Bool) (c : Cfg) (capacity : Option Nat) : Option Raise :=
  checkRefsamp c
  <|> check (within c.pedantic 0 1) .pedantic
  <|> check (!(c.x == 1 && decide (1 < c.y.toInt) && c.lsmode == 0)) .lsmode
  <|> check (!(compress && c.pedantic == 1) || decide (c.p.toInt < c.z.toInt)) .p
  <|> checkCapacity c capacity

/-- The first failing check of 48_system.md R596, if any. -/
def firstFailure (compress : Bool) (s : State) : Option Raise :=
  checkImage s.cfg
  <|> checkPredictor s.cfg s.tw
  <|> (if s.cfg.coder = 0 then checkSampleAdaptive s.cfg s.ta else checkBlockAdaptive s.cfg)
  <|> checkRest compress s.cfg s.histCapacity

/-- The error, if there is one. -/
def raiseSome : Option Raise → Op Unit
  | none => pure ()
  | some e => raise e.kind e.info

/-- `Validate(caller)` (48_system.md R590). -/
def validateConfig (compress : Bool) : Op Unit := do
  let s ← Op.get
  raiseSome (firstFailure compress s)

/-- `Derive()` (48_system.md R599). -/
def derive (s : State) : State :=
  { s with idBits := wordOfNat s.cfg.idBits, backupOpt := wordOfNat s.cfg.backupOption }

def setMode (m : Mode) (s : State) : State := { s with mode := m }

/-! ### Control commands -/

/-- NOP (48_system.md R582). -/
def execNop (s : State) : Host.Outcome State Fault Refusal := runCommand .nop (pure ()) s

/-- RESET (48_system.md R583). -/
def execReset (s : State) : Host.Outcome State Fault Refusal := runCommand .reset (Op.modify resetCore) s

/-- VALIDATE (48_system.md R584). -/
def bodyValidate : Op Unit := do
  validateConfig false
  Op.modify clearSession
  Op.modify derive
  Op.modify (setMode .active)

def execValidate (s : State) : Host.Outcome State Fault Refusal := runCommand .validate bodyValidate s

/-- END (48_system.md R585). -/
def execEnd (s : State) : Host.Outcome State Fault Refusal := runCommand .endSession (Op.modify (setMode .idle)) s

end Sys2Proof.Machine
end

