-- ==== Sys2Proof/Machine/Header.lean ====
section
/-! DEFINITION. The header serializer and deserializer and their commands (46_header.md, the layout of 30_encoding.md section 3). -/

namespace Sys2Proof.Machine

/-! ### Writer -/

/-- A field: its width and the value whose low bits it carries. -/
abbrev Field := Nat × Nat

/-- The image header (30_encoding.md R156). Writing the low bits of a value gives the "mod" of the table. -/
def imageFields (c : Cfg) : List Field :=
  [(8, 0), (16, c.X), (16, c.Y), (16, c.Z), (1, c.signed.toNat), (2, 0), (4, c.D), (1, c.order.toNat),
    (16, if c.order = 0 then c.M else 0), (2, 0), (3, c.B), (1, c.coder.toNat), (10, 0)]

/-- The predictor metadata (30_encoding.md R157). -/
def predictorFields (c : Cfg) : List Field :=
  [(2, 0), (4, c.P), (1, c.pmode.toNat), (1, 0), (1, c.lsmode.toNat), (1, 0), (6, c.R), (4, c.OMEGA - 4), (4, c.TE - 4),
    (4, (c.vmin.toInt + 6).toNat), (4, (c.vmax.toInt + 6).toNat), (1, 0), (1, c.winit.toNat), (1, c.wtable.toNat), (5, c.Q)]

/-- The entries of the weight-initialization table (30_encoding.md R158). -/
def weightTableFields (c : Cfg) (tw : Memory Word) : List Field :=
  (List.range c.Z).flatMap fun z => (List.range (c.bandLength z)).map fun i => (c.Q, (tw.wordAt (twKey z i)).toNat)

/-- The sample-adaptive metadata without its table (30_encoding.md R159). -/
def sampleAdaptiveFields (c : Cfg) : List Field :=
  [(5, c.UMAX), (3, c.GSTAR - 4), (3, c.G0), (4, c.K), (1, c.atable.toNat)]

/-- The TA nibbles and, when Z is odd, the pad nibble (30_encoding.md R159). -/
def accTableFields (c : Cfg) (ta : Memory Word) : List Field :=
  ((List.range c.Z).map fun z => (4, (ta.wordAt z).toNat)) ++ (if c.Z % 2 = 1 then [(4, 0)] else [])

/-- The block-adaptive metadata (30_encoding.md R160). -/
def blockAdaptiveFields (c : Cfg) : List Field :=
  [(1, 0), (2, Nat.log2 c.J - 3), (1, c.restrict.toNat), (12, c.RSI)]

/-- The entropy coder's section (30_encoding.md R155, R159, R160). -/
def coderFields (c : Cfg) (ta : Memory Word) : List Field :=
  if c.coder = 0 then sampleAdaptiveFields c ++ (if c.atable = 1 then accTableFields c ta else []) else blockAdaptiveFields c

/-- A section: its fields, then a flush (30_encoding.md R155). -/
def writeSection (fields : List Field) : Op Unit := do
  forEach fields fun f => writeBits f.1 f.2
  flush

/-- The weight table's section, when the flag says so (46_header.md R480). -/
def writeWeightSection : Op Unit := do
  let s ← Op.get
  if s.cfg.wtable = 1 then writeSection (weightTableFields s.cfg s.tw) else pure ()

/-- `HdrWrite()` (46_header.md R480). -/
def hdrWrite : Op Unit := do
  let s ← Op.get
  writeSection (imageFields s.cfg)
  writeSection (predictorFields s.cfg)
  writeWeightSection
  writeSection (coderFields s.cfg s.ta)

/-! ### Reader -/

/-- ERR_INFO of a field that carries no register (46_header.md R481). -/
def noRegister : Word := 0xFFFFFFFF

/-- A field; E_FORMAT_HEADER with its identifier at the end of BIN (46_header.md R481). -/
def readField (id : Word) (n : Nat) : Op Nat := readBitsOr ⟨.formatHeader, id⟩ n

/-- A reserved field or the user-data byte: read and ignored (30_encoding.md R166). -/
def skipField (n : Nat) : Op Unit := do
  let _ ← readField noRegister n
  pure ()

def writeCfg (reg : CfgReg) (v : Word) : Op Unit := Op.modify fun s => { s with cfg := s.cfg.write reg v }

/-- A field decoded into its register (46_header.md R481, 30_encoding.md R161). -/
def readInto (reg : CfgReg) (n : Nat) (dec : Nat → Int) : Op Unit := do
  let f ← readField reg.info n
  writeCfg reg (wordOfInt (dec f))

/-- The 0-means-max rule (30_encoding.md R161). -/
def zeroMeans (top f : Nat) : Int := if f = 0 then top else f

/-- A field read as it stands (30_encoding.md R161). -/
def plainField (f : Nat) : Int := f

/-- A field written less an offset (30_encoding.md R161). -/
def offsetField (off : Int) (f : Nat) : Int := f + off

/-- The Q-bit two's complement value of a table entry (30_encoding.md R161). -/
def signedField (q f : Nat) : Int := if f.testBit (q - 1) then (f : Int) - 2 ^ q else f

/-- The subframe depth: CFG_M takes it in BI only (46_header.md R481, log entry 11). -/
def readDepth : Op Unit := do
  let f ← readField CfgReg.m.info 16
  let s ← Op.get
  if s.cfg.order = 0 then writeCfg .m (wordOfInt (zeroMeans 65536 f)) else pure ()

def readImageHeader : Op Unit := do
  skipField 8
  readInto .x 16 (zeroMeans 65536)
  readInto .y 16 (zeroMeans 65536)
  readInto .z 16 (zeroMeans 65536)
  readInto .signed 1 plainField
  skipField 2
  readInto .d 4 (zeroMeans 16)
  readInto .order 1 plainField
  readDepth
  skipField 2
  readInto .b 3 (zeroMeans 8)
  readInto .coder 1 plainField
  skipField 10
  Op.modify alignReader

def readPredictorMetadata : Op Unit := do
  skipField 2
  readInto .p 4 plainField
  readInto .pmode 1 plainField
  skipField 1
  readInto .lsmode 1 plainField
  skipField 1
  readInto .r 6 (zeroMeans 64)
  readInto .omega 4 (offsetField 4)
  readInto .te 4 (offsetField 4)
  readInto .vmin 4 (offsetField (-6))
  readInto .vmax 4 (offsetField (-6))
  skipField 1
  readInto .winit 1 plainField
  readInto .wtable 1 plainField
  readInto .q 5 plainField
  Op.modify alignReader

/-- TW[z][i] from its Q-bit field (46_header.md R481). -/
def readTwEntry (q z i : Nat) : Op Unit := do
  let f ← readField (twInfo z i) q
  Op.modify fun s => { s with tw := s.tw.putWord (twKey z i) (wordOfInt (signedField q f)) }

/-- The weight table, with C_z from the P and the mode just read (46_header.md R481). -/
def readWeightTable : Op Unit := do
  let s ← Op.get
  forEach (List.range s.cfg.Z) fun z => forEach (List.range (s.cfg.bandLength z)) fun i => readTwEntry s.cfg.Q z i
  Op.modify alignReader

/-- TA[z] from its nibble (46_header.md R481). -/
def readTaEntry (z : Nat) : Op Unit := do
  let f ← readField (taInfo z) 4
  Op.modify fun s => { s with ta := s.ta.putWord z (wordOfNat f) }

/-- The accumulator table and its pad nibble (46_header.md R481). -/
def readAccTable : Op Unit := do
  let s ← Op.get
  forEach (List.range s.cfg.Z) readTaEntry
  if s.cfg.Z % 2 = 1 then skipField 4 else pure ()

def readSampleAdaptive : Op Unit := do
  readInto .umax 5 (zeroMeans 32)
  readInto .gstar 3 (offsetField 4)
  readInto .g0 3 (zeroMeans 8)
  readInto .k 4 plainField
  readInto .atable 1 plainField
  let s ← Op.get
  if s.cfg.atable = 1 then readAccTable else pure ()

def readBlockAdaptive : Op Unit := do
  skipField 1
  readInto .j 2 fun f => 2 ^ (3 + f)
  readInto .restrict 1 plainField
  readInto .rsi 12 (zeroMeans 4096)

/-- The weight table's section, when the flag just read says so (46_header.md R481). -/
def readWeightSection : Op Unit := do
  let s ← Op.get
  if s.cfg.wtable = 1 then readWeightTable else pure ()

/-- The entropy coder's section of the type just read (46_header.md R481). -/
def readCoderSection : Op Unit := do
  let s ← Op.get
  if s.cfg.coder = 0 then readSampleAdaptive else readBlockAdaptive

/-- `HdrRead()` (46_header.md R481). -/
def hdrRead : Op Unit := do
  readImageHeader
  readPredictorMetadata
  readWeightSection
  readCoderSection
  Op.modify alignReader

/-- The parameters a header does not carry (46_header.md R482). -/
def outOfHeader (info : Word) : Bool :=
  info == CfgReg.s.info || info == CfgReg.refsamp.info || info == CfgReg.pedantic.info

/-- The error of a failing check after HdrRead: a stream-format error, unless the parameter is not in the header
(46_header.md R482). -/
def headerError (e : Raise) : Raise := if outOfHeader e.info then e else ⟨.formatHeader, e.info⟩

/-- The header check (46_header.md R482). A header can carry D = 1, which fails V5: DESIGN CHOICE, unsafe (log entry 19). -/
def checkHeader : Op Unit := do
  let s ← Op.get
  raiseSome ((firstFailure false s).map headerError)

/-! ### Commands -/

/-- HDR_WRITE (46_header.md R490). -/
def execHdrWrite (s : State) : Host.Outcome State Fault Refusal := runCommand .hdrWrite hdrWrite s

/-- A decoding session opened from the header (46_header.md R491, 47_pipeline.md R553). -/
def openFromHeader : Op Unit := do
  Op.modify clearSession
  hdrRead
  checkHeader
  Op.modify derive

/-- HDR_READ (46_header.md R491). -/
def bodyHdrRead : Op Unit := do
  openFromHeader
  Op.modify (setMode .active)

def execHdrRead (s : State) : Host.Outcome State Fault Refusal := runCommand .hdrRead bodyHdrRead s

end Sys2Proof.Machine
end

