-- ==== Sys2Proof/Machine/Pipeline.lean ====
section
/-! DEFINITION. The pipeline sequencer: COMPRESS and DECOMPRESS (47_pipeline.md). -/

namespace Sys2Proof.Machine

/-! ### Traversal -/

/-- BSQ traversal (47_pipeline.md R541). -/
def bsqPositions (c : Cfg) : List Cursor :=
  (List.range c.Z).flatMap fun z => (List.range c.Y).flatMap fun y => (List.range c.X).map fun x => ⟨z, y, x⟩

/-- The bands of group `i` (47_pipeline.md R542). -/
def groupBands (c : Cfg) (i : Nat) : List Nat :=
  (List.range (min ((i + 1) * c.M) c.Z - i * c.M)).map fun k => i * c.M + k

/-- BI traversal (47_pipeline.md R542); the number of groups is ⌈Z/M⌉. -/
def biPositions (c : Cfg) : List Cursor :=
  (List.range c.Y).flatMap fun y =>
    (List.range ((c.Z + c.M - 1) / c.M)).flatMap fun i =>
      (List.range c.X).flatMap fun x => (groupBands c i).map fun z => ⟨z, y, x⟩

/-- CFG_ORDER = 1 (47_pipeline.md, first lines). -/
def Cfg.bsq (c : Cfg) : Bool := c.order == 1

/-- The positions in traversal order. -/
def positions (c : Cfg) : List Cursor := if c.bsq then bsqPositions c else biPositions c

/-! ### One sample -/

/-- Band initialization at (z, 0, 0) (47_pipeline.md R544). -/
def initBand (c : Cfg) (p : Cursor) : Op Unit :=
  if p.y = 0 ∧ p.x = 0 then do
    predInitBand p.z
    if c.coder = 0 then saInitBand p.z else pure ()
  else pure ()

/-- `EncodeResidual(z, t, δ)` (47_pipeline.md R547). -/
def encodeResidual (c : Cfg) (z t v : Nat) : Op Unit :=
  if c.coder = 0 then do
    saCode z t v
    saUpdate z t v
  else codeSample v

/-- `DecodeResidual(z, t)` (47_pipeline.md R547). -/
def decodeResidual (c : Cfg) (z t : Nat) : Op Nat :=
  if c.coder = 0 then do
    let v ← saDecode z t
    saUpdate z t v
    pure v
  else do
    let w ← decodeSample
    pure w.toNat

/-- The rows loaded at a position: X samples at the start of a row in BSQ, Z·X at the first position of a row in BI, else the
row buffer as it stands (47_pipeline.md R546, R548). -/
def loadRows (c : Cfg) (p : Cursor) (rows : List Word) : Op (List Word) :=
  if c.bsq then (if p.x = 0 then popSamples c.X else pure rows)
  else if p.z = 0 ∧ p.x = 0 then popSamples (c.Z * c.X)
  else pure rows

/-- The row buffer's sample of a position (47_pipeline.md R546). -/
def rowSample (c : Cfg) (p : Cursor) (rows : List Word) : Int :=
  (rows.getD (if c.bsq then p.x else p.z * c.X + p.x) 0).toInt

/-- The body of COMPRESS at one position, answering the row buffer (47_pipeline.md R548). -/
def compressAt (c : Cfg) (p : Cursor) (rows : List Word) : Op (List Word) := do
  setCursor p.z p.y p.x
  let rows' ← loadRows c p rows
  initBand c p
  let r ← predCompress p.z p.y p.x (rowSample c p rows')
  encodeResidual c p.z (p.y * c.X + p.x) r.1.toNat
  pure rows'

/-- `CompressBody()` from a list of positions on (47_pipeline.md R548). -/
def compressFrom (c : Cfg) : List Cursor → List Word → Op Unit
  | [], _ => pure ()
  | p :: ps, rows => do
    let rows' ← compressAt c p rows
    compressFrom c ps rows'

/-- A row of every band pushed to SOUT, in the order of SIN (47_pipeline.md R549). -/
def pushRow (c : Cfg) (y : Nat) : Op Unit :=
  forEach (List.range c.Z) fun z => forEach (List.range c.X) fun x => do
    let v ← histRead z y x
    Op.modify (pushSample (wordOfInt v))

/-- What a decoded sample sends to SOUT (47_pipeline.md R549). In BI the last position of row y is (Z−1, y, X−1). -/
def outputSample (c : Cfg) (p : Cursor) (v : Int) : Op Unit :=
  if c.bsq then Op.modify (pushSample (wordOfInt v))
  else if p.z + 1 = c.Z ∧ p.x + 1 = c.X then pushRow c p.y
  else pure ()

/-- The body of DECOMPRESS at one position (47_pipeline.md R549). -/
def decompressAt (c : Cfg) (p : Cursor) : Op Unit := do
  setCursor p.z p.y p.x
  initBand c p
  let d ← decodeResidual c p.z (p.y * c.X + p.x)
  let r ← predDecompress p.z p.y p.x d
  outputSample c p r.1

/-! ### Commands -/

/-- `Finish()` (47_pipeline.md R551); predictor.end has no effect. -/
def finish (c : Cfg) : Op Unit := do
  if c.coder = 0 then saTerminate else baTerminate
  padWord c.B
  close

/-- The end of a successful COMPRESS or DECOMPRESS: mode IDLE, and the derived registers stay readable (10_state.md R45). -/
def closePipeline (s : State) : State := { s with mode := .idle, derivedHeld := true }

/-- COMPRESS (47_pipeline.md R552). -/
def bodyCompress : Op Unit := do
  validateConfig true
  Op.modify clearSession
  Op.modify derive
  hdrWrite
  let s ← Op.get
  compressFrom s.cfg (positions s.cfg) []
  finish s.cfg
  Op.modify closePipeline

def execCompress (s : State) : Host.Outcome State Fault Refusal := runCommand .compress bodyCompress s

/-- DECOMPRESS (47_pipeline.md R553). -/
def bodyDecompress : Op Unit := do
  openFromHeader
  let s ← Op.get
  forEach (positions s.cfg) (decompressAt s.cfg)
  Op.modify closePipeline

def execDecompress (s : State) : Host.Outcome State Fault Refusal := runCommand .decompress bodyDecompress s

end Sys2Proof.Machine
end

