-- ==== Sys2Proof/Machine/Dispatch.lean ====
section
/-! DEFINITION. The meaning of each command, one arm a constructor (30_encoding.md R142). -/

namespace Sys2Proof.Machine

/-- A legal command executed in a state, the command cycle of 48_system.md R580 included. -/
def exec (i : Instr) (s : State) : Host.Outcome State Fault Refusal :=
  match i with
  | .nop => Sys2Proof.Machine.execNop s
  | .reset => Sys2Proof.Machine.execReset s
  | .validate => Sys2Proof.Machine.execValidate s
  | .endSession => Sys2Proof.Machine.execEnd s
  | .bsWrite => Sys2Proof.Machine.execBsWrite s
  | .bsRead => Sys2Proof.Machine.execBsRead s
  | .bsFlush => Sys2Proof.Machine.execBsFlush s
  | .bsReadAlign => Sys2Proof.Machine.execBsReadAlign s
  | .bsPadWord => Sys2Proof.Machine.execBsPadWord s
  | .bsClose => Sys2Proof.Machine.execBsClose s
  | .unaryWrite => Sys2Proof.Machine.execUnaryWrite s
  | .unaryRead => Sys2Proof.Machine.execUnaryRead s
  | .riceMask => Sys2Proof.Machine.execRiceMask s
  | .riceCode => Sys2Proof.Machine.execRiceCode s
  | .riceDecode => Sys2Proof.Machine.execRiceDecode s
  | .riceBest => Sys2Proof.Machine.execRiceBest s
  | .baCodeBlock => Sys2Proof.Machine.execBaCodeBlock s
  | .baDecodeBlock => Sys2Proof.Machine.execBaDecodeBlock s
  | .baTerminate => Sys2Proof.Machine.execBaTerminate s
  | .baSelect => Sys2Proof.Machine.execBaSelect s
  | .baCodeSample => Sys2Proof.Machine.execBaCodeSample s
  | .baDecodeSample => Sys2Proof.Machine.execBaDecodeSample s
  | .saInitBand => Sys2Proof.Machine.execSaInitBand s
  | .saCode => Sys2Proof.Machine.execSaCode s
  | .saDecode => Sys2Proof.Machine.execSaDecode s
  | .saUpdate => Sys2Proof.Machine.execSaUpdate s
  | .saTerminate => Sys2Proof.Machine.execSaTerminate s
  | .predInitBand => Sys2Proof.Machine.execPredInitBand s
  | .predCompress => Sys2Proof.Machine.execPredCompress s
  | .predDecompress => Sys2Proof.Machine.execPredDecompress s
  | .resMap => Sys2Proof.Machine.execResMap s
  | .resUnmap => Sys2Proof.Machine.execResUnmap s
  | .hdrWrite => Sys2Proof.Machine.execHdrWrite s
  | .hdrRead => Sys2Proof.Machine.execHdrRead s
  | .compress => Sys2Proof.Machine.execCompress s
  | .decompress => Sys2Proof.Machine.execDecompress s

end Sys2Proof.Machine
end

