-- ==== Sys2Proof/Machine/Bus.lean ====
section
/-! DEFINITION. The host's accesses: the register map, reads, writes, and the write of CMD that runs a command (20_memory.md
R100 to R104, 48_system.md R580). -/

namespace Sys2Proof.Machine

/-- What stands at a mapped address (20_memory.md R101). -/
inductive Reg where
  | id
  | version
  | cmd
  | status
  | errInfo
  | irqEn
  | arg0
  | arg1
  | arg2
  | arg3
  | result
  | result1
  | bitsOut
  | bitsIn
  | curZ
  | curYx
  | sinData
  | sinCount
  | soutData
  | soutCount
  | binData
  | binCount
  | boutData
  | boutCount
  | idBits
  | backupOpt
  | cfg (reg : CfgReg)
  | blk (j : Fin 64)
  | ta (z : Nat)
  | tw (key : Nat)
  deriving DecidableEq, Repr

/-- The address of CMD (20_memory.md R101). -/
def cmdAddr : Word := 0x008

/-- The registers from 0x000 to 0x064 (20_memory.md R101), by address. -/
def lowReg (a : Nat) : Option Reg :=
  match a with
  | 0x000 => some .id
  | 0x004 => some .version
  | 0x008 => some .cmd
  | 0x00C => some .status
  | 0x010 => some .errInfo
  | 0x014 => some .irqEn
  | 0x018 => some .arg0
  | 0x01C => some .arg1
  | 0x020 => some .arg2
  | 0x024 => some .arg3
  | 0x028 => some .result
  | 0x02C => some .result1
  | 0x030 => some .bitsOut
  | 0x034 => some .bitsIn
  | 0x038 => some .curZ
  | 0x03C => some .curYx
  | 0x040 => some .sinData
  | 0x044 => some .sinCount
  | 0x048 => some .soutData
  | 0x04C => some .soutCount
  | 0x050 => some .binData
  | 0x054 => some .binCount
  | 0x058 => some .boutData
  | 0x05C => some .boutCount
  | 0x060 => some .idBits
  | 0x064 => some .backupOpt
  | _ => none

/-- The register of a 4-aligned address, if it is mapped (20_memory.md R101). -/
def regAt (a : Nat) : Option Reg :=
  if a < 0x100 then lowReg a
  else if a < 0x200 then (CfgReg.ofIndex ((a - 0x100) / 4)).map Reg.cfg
  else if a < 0x300 then some (.blk (Fin.ofNat 64 ((a - 0x200) / 4)))
  else if 0x80000 ≤ a ∧ a < 0xC0000 then some (.ta ((a - 0x80000) / 4))
  else if 0x100000 ≤ a ∧ a < 0x580000 then some (.tw ((a - 0x100000) / 4))
  else none

/-- The register an access reaches: the access is 4 bytes wide, aligned, and mapped (20_memory.md R102). -/
def target (a : Word) (width : Nat) : Option Reg :=
  if width = 4 ∧ a.toNat % 4 = 0 then regAt a.toNat else none

/-- What a read of an empty SOUT or BOUT returns (10_state.md R39). -/
def emptyRead : Word := 0x80000000

/-- The value a read returns (20_memory.md R101, R103). -/
def readValue (s : State) : Reg → Word
  | .id => 0x55544343
  | .version => 0x00000007
  | .cmd => 0
  | .status => s.status
  | .errInfo => s.errInfo
  | .irqEn => s.irqEn.zeroExtend 32
  | .arg0 => s.arg0
  | .arg1 => s.arg1
  | .arg2 => s.arg2
  | .arg3 => s.arg3
  | .result => s.result
  | .result1 => s.result1
  | .bitsOut => s.bitsOut
  | .bitsIn => s.bitsIn
  | .curZ => wordOfNat (lowbits s.cursor.z 16)
  | .curYx => wordOfNat (lowbits s.cursor.y 16 * 65536 + lowbits s.cursor.x 16)
  | .sinData => 0
  | .sinCount => wordOfNat s.sin.length
  | .soutData => s.sout.headD emptyRead
  | .soutCount => wordOfNat s.sout.length
  | .binData => 0
  | .binCount => wordOfNat s.bin.length
  | .boutData => (s.bout.head?.map fun b => b.zeroExtend 32).getD emptyRead
  | .boutCount => wordOfNat s.bout.length
  | .idBits => s.idBitsReg
  | .backupOpt => s.backupOptReg
  | .cfg reg => s.cfg.read reg
  | .blk j => s.blk[j]
  | .ta z => s.ta.wordAt z
  | .tw key => s.tw.wordAt key

/-- The side effect of a read: SOUT_DATA and BOUT_DATA remove one element, nothing else changes (20_memory.md R104). -/
def readEffect (s : State) : Reg → State
  | .soutData => { s with sout := s.sout.tail }
  | .boutData => { s with bout := s.bout.tail }
  | _ => s

/-- MemRead(addr, width) (20_memory.md R102): a refused read returns 0 without side effect, in FAULT too (log entry 13). -/
def memRead (a : Word) (width : Nat) (s : State) : State :=
  match target a width with
  | some reg => { readEffect s reg with hostRead := readValue s reg }
  | none => { raiseOutside ⟨.bus, a⟩ s with hostRead := 0 }

/-- A write of CFG_*, TA or TW: only in IDLE; E_CFG_LOCKED in ACTIVE; no effect in FAULT (10_state.md R44). -/
def lockedWrite (a : Word) (f : State → State) (s : State) : State :=
  match s.mode with
  | .idle => f s
  | .active => enterFault ⟨.cfgLocked, a⟩ s
  | .fault => s

/-- A write of a register other than CMD; a read-only register ignores it (20_memory.md R103, R104). -/
def writeReg (a v : Word) (s : State) : Reg → State
  | .id => s
  | .version => s
  | .cmd => s
  | .status => writeStatus v s
  | .errInfo => s
  | .irqEn => { s with irqEn := v.truncate 2 }
  | .arg0 => { s with arg0 := v }
  | .arg1 => { s with arg1 := v }
  | .arg2 => { s with arg2 := v }
  | .arg3 => { s with arg3 := v }
  | .result => s
  | .result1 => s
  | .bitsOut => s
  | .bitsIn => s
  | .curZ => s
  | .curYx => s
  | .sinData => { s with sin := s.sin ++ [v] }
  | .sinCount => s
  | .soutData => s
  | .soutCount => s
  | .binData => { s with bin := s.bin ++ [v.truncate 8] }
  | .binCount => s
  | .boutData => s
  | .boutCount => s
  | .idBits => s
  | .backupOpt => s
  | .cfg reg => lockedWrite a (fun s => { s with cfg := s.cfg.write reg v }) s
  | .blk j => { s with blk := s.blk.set j v }
  | .ta z => lockedWrite a (fun s => { s with ta := s.ta.putWord z v }) s
  | .tw key => lockedWrite a (fun s => { s with tw := s.tw.putWord key v }) s

/-- A write of CMD: the word decoded and its command executed, or E_ILLEGAL_CMD, which FAULT ignores (48_system.md R580). -/
def writeCmd (w : Word) (s : State) : Host.Outcome State Fault Refusal :=
  match decode w with
  | .ok i => exec i s
  | .error _ => .next (raiseOutside ⟨.illegalCmd, w⟩ s)

/-- MemWrite(addr, width, value) (20_memory.md R102). -/
def memWrite (a : Word) (width : Nat) (v : Word) (s : State) : Host.Outcome State Fault Refusal :=
  match target a width with
  | some .cmd => writeCmd v s
  | some reg => .next (writeReg a v s reg)
  | none => .next (raiseOutside ⟨.bus, a⟩ s)

/-- One access of the host (20_memory.md R102). -/
def access : HostAccess → State → Host.Outcome State Fault Refusal
  | .read a width, s => .next (memRead a width s)
  | .write a width v, s => memWrite a width v s

/-- Every stream's count fits its 32-bit register (10_state.md R39). -/
def countsFit (s : State) : Bool :=
  decide (s.sin.length < 2 ^ 32) && decide (s.sout.length < 2 ^ 32) && decide (s.bin.length < 2 ^ 32) &&
    decide (s.bout.length < 2 ^ 32)

/-- A next state whose streams cannot be counted is refused (10_state.md R39, log entry 4). -/
def settle : Host.Outcome State Fault Refusal → Host.Outcome State Fault Refusal
  | .next s => if countsFit s then .next s else .refused .streamCount
  | .fault r => .fault r
  | .refused r => .refused r

/-- The next access taken from the script, and made; with none left the core waits (60_exceptions.md R635, log entries 1
and 13). -/
def runAccess (s : State) : Host.Outcome State Fault Refusal :=
  match s.script with
  | [] => .next s
  | a :: rest => settle (access a { s with script := rest })

/-- The script with a write of CMD before what it holds. -/
def scriptCommand (w : Word) (s : State) : State := { s with script := .write cmdAddr 4 w :: s.script }

end Sys2Proof.Machine
end

