-- ==== Sys2Proof/Machine/Step.lean ====
section
/-! DEFINITION. One step of the core: one access of the host, with the whole command when it writes CMD (10_state.md R30). -/

namespace Sys2Proof.Machine

/-- One step (10_state.md R30, R54). -/
def step (s : State) : Host.Outcome State Fault Refusal := runAccess s

/-- The state whose next access writes to CMD the command word of `nbits` low bits of `w`. A number of more than 32 bits is no
command word (30_encoding.md R140); its low 32 bits are written. -/
def State.withFetchWord (s : State) (nbits w : Nat) : State := scriptCommand (BitVec.ofNat 32 (w % 2 ^ nbits)) s

end Sys2Proof.Machine
end

