-- ==== Sys2Proof/Safety.lean ====
section
/-! DEFINITION. What counts as a safe run, and the terms statements use: the streams as bits, the codewords of the compressed
stream, the predictor over known samples, the header as bits, the validation list, and the properties a state keeps. None of
it is called by the machine; it is written from the tables of the spec, beside the pseudocode the machine follows. -/

namespace Sys2Proof.Machine

/-! ### Outcomes -/

/-- A step that stops neither with a fault nor with a refusal. -/
def goesOn : Host.Outcome State Fault Refusal → Prop
  | .next _ => True
  | .fault _ => False
  | .refused _ => False

/-- What a raised error leaves of a state: the error, and nothing else changed (60_exceptions.md R621). -/
def failed (kind : ErrKind) (info : Word) (s : State) : State := { s with mode := .fault, errCode := kind, errInfo := info }

/-- Every stream can be counted by its 32-bit register (10_state.md R39). -/
def State.countable (s : State) : Prop :=
  s.sin.length < 2 ^ 32 ∧ s.sout.length < 2 ^ 32 ∧ s.bin.length < 2 ^ 32 ∧ s.bout.length < 2 ^ 32

/-- The step in which the host makes this one access. -/
def after (a : HostAccess) (s : State) : Host.Outcome State Fault Refusal := step { s with script := [a] }

/-! ### The tables of the command word and the register map -/

/-- The commands of mode IDLE alone (30_encoding.md R142). -/
def idleCommands : List Instr := [.validate, .hdrRead, .compress, .decompress]

/-- The commands of IDLE and ACTIVE (30_encoding.md R142). -/
def commonCommands : List Instr := [.nop, .reset]

/-- The commands with CFG_CODER = 1 (30_encoding.md R142). -/
def blockCommands : List Instr :=
  [.riceMask, .riceCode, .riceDecode, .riceBest, .baCodeBlock, .baDecodeBlock, .baTerminate, .baSelect, .baCodeSample,
    .baDecodeSample]

/-- The commands with CFG_CODER = 0 (30_encoding.md R142). -/
def adaptiveCommands : List Instr := [.saInitBand, .saCode, .saDecode, .saUpdate, .saTerminate]

/-- The addresses of CFG_*, TA and TW (20_memory.md R101). -/
def configAddress (a : Word) : Prop :=
  a.toNat % 4 = 0 ∧ ((0x100 ≤ a.toNat ∧ a.toNat ≤ 0x178) ∨ (0x80000 ≤ a.toNat ∧ a.toNat ≤ 0xBFFFC) ∨
    (0x100000 ≤ a.toNat ∧ a.toNat ≤ 0x57FFFC))

/-- The mapped addresses (20_memory.md R101). -/
def mappedAddress (a : Word) : Prop :=
  a.toNat % 4 = 0 ∧ (a.toNat ≤ 0x064 ∨ (0x100 ≤ a.toNat ∧ a.toNat ≤ 0x178) ∨ (0x200 ≤ a.toNat ∧ a.toNat ≤ 0x2FC) ∨
    (0x80000 ≤ a.toNat ∧ a.toNat ≤ 0xBFFFC) ∨ (0x100000 ≤ a.toNat ∧ a.toNat ≤ 0x57FFFC))

/-- What a read of the address would return now, if it is mapped. -/
def State.shows (s : State) (a : Word) : Option Word := (target a 4).map (readValue s)

/-! ### Streams as bits (20_memory.md R108) -/

/-- A byte as the bit stream has it, bit 7 first. -/
def bitsOfByte (b : Byte) : List Bool :=
  [b.getLsbD 7, b.getLsbD 6, b.getLsbD 5, b.getLsbD 4, b.getLsbD 3, b.getLsbD 2, b.getLsbD 1, b.getLsbD 0]

def bitsOfBytes (bytes : List Byte) : List Bool := bytes.flatMap bitsOfByte

/-- Every bit of BOUT, then the partial byte. -/
def State.outBits (s : State) : List Bool := bitsOfBytes s.bout ++ s.wbuf

/-- Every bit the reader has still to give: the rest of the current byte, then BIN. -/
def State.inBits (s : State) : List Bool := s.rbuf ++ bitsOfBytes s.bin

/-- The number of a field, its first bit most significant (40_bitstream.md R201). -/
def bitsValue : List Bool → Nat
  | [] => 0
  | b :: bs => b.toNat * 2 ^ bs.length + bitsValue bs

/-- From `s` to `t` the writer appended exactly these bits, and nothing else changed (40_bitstream.md R200, R208). The bits and
the length of WBUF, below 8, fix BOUT and WBUF. -/
def Emitted (bits : List Bool) (s t : State) : Prop :=
  t = { s with
    wbuf := t.wbuf, bout := t.bout, bytesOut := t.bytesOut, bitsOut := s.bitsOut + BitVec.ofNat 32 bits.length } ∧
  s.bout <+: t.bout ∧ t.outBits = s.outBits ++ bits ∧ t.wbuf.length < 8 ∧
  t.bytesOut + s.bout.length = s.bytesOut + t.bout.length

/-- From `s` to `t` the reader consumed exactly these bits, and nothing else changed (40_bitstream.md R201). -/
def Taken (bits : List Bool) (s t : State) : Prop :=
  t = { s with rbuf := t.rbuf, bin := t.bin, bitsIn := s.bitsIn + BitVec.ofNat 32 bits.length } ∧
  t.bin <:+ s.bin ∧ s.inBits = bits ++ t.inBits ∧ t.rbuf.length < 8

/-! ### Codewords (30_encoding.md section 2) -/

def zeroBits (n : Nat) : List Bool := List.replicate n false

/-- The zero bits that bring a writer holding `pos` bits to a byte boundary (40_bitstream.md R202). -/
def padBits (pos : Nat) : List Bool := zeroBits ((8 - pos % 8) % 8)

/-- How many zero bits bring `pos` bits to a whole number of `b` bytes (40_bitstream.md R204). -/
def wordPad (b pos : Nat) : Nat := (8 * b - pos % (8 * b)) % (8 * b)

/-- unary(u) (30_encoding.md R146). -/
def unaryCode (u : Nat) : List Bool := zeroBits u ++ [true]

/-- split_k(b) (30_encoding.md R147). -/
def splitCode (b : List Word) (k : Nat) : List Bool :=
  (b.flatMap fun w => unaryCode (w.toNat >>> k)) ++ b.flatMap fun w => rawBits k w.toNat

/-- The ids of 30_encoding.md R148. -/
def idCode (c : Cfg) : BlockOption → List Bool
  | .zeroBlock => zeroBits c.idBits ++ [false]
  | .secondExt => zeroBits c.idBits ++ [true]
  | .sampleSplit k => rawBits c.idBits (k + 1)
  | .backup => List.replicate c.idBits true

/-- The payloads of 30_encoding.md R151 to R153. -/
def payloadCode (c : Cfg) (b : List Word) : BlockOption → List Bool
  | .zeroBlock => []
  | .secondExt => (secondExtCodes b).flatMap unaryCode
  | .sampleSplit k => splitCode b k
  | .backup => b.flatMap fun w => rawBits c.D w.toNat

/-- An id the encoder can write: the split positions of 42_block_adaptive.md R281. -/
def idLegal (c : Cfg) : BlockOption → Prop
  | .sampleSplit k => k + 1 < c.backupOption
  | _ => True

/-- A payload of `b` the encoder could write under the option: for SECOND_EXT an even length and unary codewords of 32 bits,
for BACKUP samples of D bits; ZERO_BLOCK has none. -/
def payloadLegal (c : Cfg) (b : List Word) : BlockOption → Prop
  | .zeroBlock => False
  | .secondExt => b.length % 2 = 0 ∧ ∀ g ∈ secondExtCodes b, g < 2 ^ 32
  | .sampleSplit _ => True
  | .backup => ∀ w ∈ b, w.toNat < 2 ^ c.D

/-- An ordinary run of `n` zero blocks (30_encoding.md R150, 42_block_adaptive.md R290). -/
def runCode (c : Cfg) (n : Nat) : List Bool :=
  if n = 0 then [] else idCode c .zeroBlock ++ unaryCode (if n ≤ 4 then n - 1 else n)

/-- A run of `n` zero blocks at a boundary or at termination (30_encoding.md R150, 42_block_adaptive.md R291). -/
def boundaryRunCode (c : Cfg) (n : Nat) : List Bool :=
  if n ≤ 4 then runCode c n else idCode c .zeroBlock ++ unaryCode 4

/-- Every sample is 0 (42_block_adaptive.md R282). -/
def allZero (b : List Word) : Prop := ∀ w ∈ b, w = 0

/-- The bits of a masked block coded as `option` after `zrun` pending zero blocks (42_block_adaptive.md R293). -/
def blockCode (c : Cfg) (zrun : Nat) (b : List Word) (boundary : Bool) : BlockOption → List Bool
  | .zeroBlock => if boundary then boundaryRunCode c (zrun + 1) else []
  | .secondExt => runCode c zrun ++ idCode c .secondExt ++ payloadCode c b .secondExt
  | .sampleSplit k => runCode c zrun ++ idCode c (.sampleSplit k) ++ payloadCode c b (.sampleSplit k)
  | .backup => runCode c zrun ++ idCode c .backup ++ payloadCode c b .backup

/-- The pending zero blocks after that block. -/
def pendingAfter (zrun : Nat) (boundary : Bool) (option : BlockOption) : Nat :=
  if option = .zeroBlock ∧ boundary = false then zrun + 1 else 0

/-- The counters after a block (42_block_adaptive.md R292). -/
def segmentAfter (s : State) : Nat := (s.cs + 1) % s.cfg.S
def referenceAfter (s : State) : Nat := (s.cr + 1) % s.cfg.RSI

/-- A boundary follows the block about to be counted (42_block_adaptive.md R292). -/
def boundaryAfter (s : State) : Bool := segmentAfter s == 0 || referenceAfter s == 0

/-- The codeword of a mapped residual (30_encoding.md R154). -/
def adaptiveCode (c : Cfg) (k t v : Nat) : List Bool :=
  if t = 0 then rawBits c.D v
  else if v >>> k < c.UMAX then unaryCode (v >>> k) ++ rawBits k v
  else unaryCode c.UMAX ++ rawBits c.D v

/-- How many unary codewords follow the id of an option (30_encoding.md R150 to R153). -/
def unaryCount (c : Cfg) : BlockOption → Nat
  | .zeroBlock => 1
  | .secondExt => c.J / 2
  | .sampleSplit _ => c.J
  | .backup => 0

/-- How many plain bits follow those (30_encoding.md R147, R152). -/
def plainCount (c : Cfg) : BlockOption → Nat
  | .zeroBlock => 0
  | .secondExt => 0
  | .sampleSplit k => c.J * k
  | .backup => c.J * c.D

/-! ### The cheapest option (42_block_adaptive.md R286, 41_rice.md R253) -/

/-- The first candidate of the least cost. -/
def firstLeast {α : Type} (candidates : List (α × Nat)) (best : α × Nat) : Prop :=
  ∃ before after, candidates = before ++ best :: after ∧ (∀ e ∈ before, best.2 < e.2) ∧ ∀ e ∈ after, best.2 ≤ e.2

/-- BACKUP, then the split positions in order, with the costs of 41_rice.md R253. -/
def riceCandidates (c : Cfg) (b : List Word) : List (Nat × Nat) :=
  (c.backupOption, c.D * b.length) :: (List.range (c.numOptions - 2)).map fun k =>
    (k, (b.map fun w => w.toNat / 2 ^ k).sum + (k + 1) * b.length)

/-- BACKUP, SAMPLE_SPLIT(k) in order, SECOND_EXT, with the sizes of 42_block_adaptive.md R283 to R285. -/
def blockCandidates (c : Cfg) (b : List Word) : List (BlockOption × Nat) :=
  (.backup, b.length * c.D + c.idBits) :: ((List.range (c.numOptions - 2)).map fun k =>
    (.sampleSplit k, (b.map fun w => w.toNat / 2 ^ k).sum + (k + 1) * b.length + c.idBits)) ++
  [(.secondExt, (secondExtCodes b).sum + b.length / 2 + c.idBits + 1)]

/-- The option `Select` takes for a masked block (42_block_adaptive.md R286): ZERO_BLOCK for a block of zeros, else the first
of the least size. -/
def Chosen (c : Cfg) (b : List Word) (option : BlockOption) : Prop :=
  (allZero b ∧ option = .zeroBlock) ∨ (¬ allZero b ∧ ∃ size, firstLeast (blockCandidates c b) (option, size))

/-- A block masked to D bits (41_rice.md R250). -/
def masked (c : Cfg) (b : List Word) : List Word := b.map fun w => BitVec.ofNat 32 (w.toNat % 2 ^ c.D)

/-- The block of BLK, masked to D bits (41_rice.md R250). -/
def State.maskedBlk (s : State) : List Word := masked s.cfg (s.blk.toList.take s.cfg.J)

/-- BLK with its first words replaced (10_state.md R31). -/
def blkWith (b : List Word) (old new : Vector Word 64) : Prop := ∀ j : Fin 64, new[j] = b.getD j.val old[j]

/-- The run of zero blocks a codeword stands for (42_block_adaptive.md R297). -/
def runOf (s : State) (n : Nat) : Nat :=
  if n = 4 then min (s.cfg.RSI - s.cr) (s.cfg.S - s.cs) else if n < 4 then n + 1 else n

/-- The id bits of D and CFG_RESTRICT, the values listed in 42_block_adaptive.md R280 for D from 2 to 16. -/
def idBitsOf (c : Cfg) : Nat :=
  if 9 ≤ c.D then 4 else if c.restrict = 1 ∧ c.D = 2 then 1 else if c.restrict = 1 ∧ c.D ≤ 4 then 2 else 3

/-! ### The predictor over known samples (44_predictor.md) -/

/-- The cells of a band that L(·, y, x) reads, in the order its terms are written (44_predictor.md R382, R383). -/
def sumCells (c : Cfg) (y x : Nat) : List (Nat × Nat) :=
  if c.lsmode = 0 then
    if 0 < y ∧ 0 < x ∧ x + 1 < c.X then [(y, x - 1), (y - 1, x - 1), (y - 1, x), (y - 1, x + 1)]
    else if y = 0 then [(y, x - 1)]
    else if x = 0 then [(y - 1, 0), (y - 1, 1)]
    else [(y, x - 1), (y - 1, x - 1), (y - 1, x)]
  else if 0 < y then [(y - 1, x)] else [(y, x - 1)]

/-- The cells the directional entries read (44_predictor.md R385). -/
def directionalCells (c : Cfg) (y x : Nat) : List (Nat × Nat) :=
  if c.pmode = 0 then
    if y = 0 then [] else if x = 0 then [(y - 1, 0)] else [(y - 1, x), (y, x - 1), (y - 1, x - 1)]
  else []

/-- The history cells a prediction reads, in the order of 44_predictor.md R409. -/
def neededCells (c : Cfg) (p : Cursor) : List Cursor :=
  if p.y = 0 ∧ p.x = 0 then if p.z = 0 ∨ c.P = 0 then [] else [⟨p.z - 1, 0, 0⟩]
  else
    ((sumCells c p.y p.x).map fun q => ⟨p.z, q.1, q.2⟩) ++ ((directionalCells c p.y p.x).map fun q => ⟨p.z, q.1, q.2⟩) ++
      (List.range (min c.P p.z)).flatMap fun j =>
        ⟨p.z - j - 1, p.y, p.x⟩ :: (sumCells c p.y p.x).map fun q => ⟨p.z - j - 1, q.1, q.2⟩

/-- HIST as the host would know it: the sample, if the position is written (20_memory.md R106). -/
def State.sampleAt (s : State) (p : Cursor) : Option Int := s.hist.cellAt (histKey p.z p.y p.x)

/-- The samples of HIST, 0 where none is written. -/
def State.samples (s : State) (z y x : Nat) : Int := (s.sampleAt ⟨z, y, x⟩).getD 0

/-- L(b, y, x) over a band's samples `h`, at a position other than the origin (44_predictor.md R382, R383). -/
def sumOf (c : Cfg) (h : Nat → Nat → Int) (y x : Nat) : Int :=
  if c.lsmode = 0 then
    if 0 < y ∧ 0 < x ∧ x + 1 < c.X then h y (x - 1) + h (y - 1) (x - 1) + h (y - 1) x + h (y - 1) (x + 1)
    else if y = 0 then 4 * h y (x - 1)
    else if x = 0 then 2 * (h (y - 1) 0 + h (y - 1) 1)
    else h y (x - 1) + h (y - 1) (x - 1) + 2 * h (y - 1) x
  else if 0 < y then 4 * h (y - 1) x else 4 * h y (x - 1)

/-- dN, dW, dNW (44_predictor.md R385; the formulas are the spec's passage G1, log entry 16). -/
def directionalOf (c : Cfg) (h : Nat → Nat → Int) (y x : Nat) : List Int :=
  if y = 0 then [0, 0, 0]
  else if x = 0 then List.replicate 3 (4 * h (y - 1) 0 - sumOf c h y x)
  else [4 * h (y - 1) x - sumOf c h y x, 4 * h y (x - 1) - sumOf c h y x, 4 * h (y - 1) (x - 1) - sumOf c h y x]

/-- The local-difference vector (44_predictor.md R385, R386); none is computed at the origin (R390). -/
def differencesOf (c : Cfg) (h : Nat → Nat → Nat → Int) (p : Cursor) : List Int :=
  if p.y = 0 ∧ p.x = 0 then []
  else (if c.pmode = 0 then directionalOf c (h p.z) p.y p.x else []) ++
    (List.range (min c.P p.z)).map fun j => 4 * h (p.z - j - 1) p.y p.x - sumOf c (h (p.z - j - 1)) p.y p.x

/-- s_scaled (44_predictor.md R390, R400, R401). -/
def scaledOf (c : Cfg) (w : List Int) (h : Nat → Nat → Nat → Int) (p : Cursor) : Int :=
  if p.y = 0 ∧ p.x = 0 then if p.z = 0 ∨ c.P = 0 then 2 * c.MID else 2 * h (p.z - 1) 0 0
  else
    let dHat := (List.zipWith (fun a b => a * b) w (differencesOf c h p)).sum
    let bias := (sumOf c (h p.z) p.y p.x - 4 * c.MID) * 2 ^ c.OMEGA
    let t := ((dHat + bias + 2 ^ (c.R - 1)) % 2 ^ c.R - 2 ^ (c.R - 1)) / 2 ^ (c.OMEGA + 1) + 2 * c.MID + 1
    min (max t (2 * c.SMIN)) (2 * c.SMAX + 1)

/-- ρ (44_predictor.md R403). -/
def exponentOf (c : Cfg) (p : Cursor) : Int :=
  min (max (c.vmin.toInt + ((p.x : Int) + ((p.y : Int) - 1) * c.X) / 2 ^ c.TE) c.vmin.toInt) c.vmax.toInt + c.D - c.OMEGA

/-- One weight after the update with difference `d`, sign `g` and exponent `rho` (44_predictor.md R404). -/
def weightOf (c : Cfg) (rho g w d : Int) : Int :=
  let v := if rho < 0 then g * d * 2 ^ (-rho).toNat else g * d / 2 ^ rho.toNat
  min (max (w + (v + 1) / 2) (-2 ^ (c.OMEGA + 2))) (2 ^ (c.OMEGA + 2) - 1)

/-- The weights after the sample `v` (44_predictor.md R404); at the origin they stay. -/
def weightsOf (c : Cfg) (w : List Int) (h : Nat → Nat → Nat → Int) (p : Cursor) (v : Int) : List Int :=
  if p.y = 0 ∧ p.x = 0 then w
  else List.zipWith (weightOf c (exponentOf c p) (if 2 * v < scaledOf c w h p then -1 else 1)) w (differencesOf c h p)

/-- From `s` to `t` a sample was predicted and published at `p`: the cursor, HIST, and away from the origin the weights of
its band; everything else but the two results and DONE is unchanged (44_predictor.md R407, R408, R411, R412). -/
def Predicted (p : Cursor) (w : List Int) (v : Int) (s t : State) : Prop :=
  t = { s with cursor := p, hist := t.hist, weights := t.weights, result := t.result, result1 := t.result1, done := true } ∧
  t.sampleAt p = some v ∧
  (∀ q : Cursor, histKey q.z q.y q.x ≠ histKey p.z p.y p.x → t.sampleAt q = s.sampleAt q) ∧
  t.weights.cellAt p.z = some (weightsOf s.cfg w s.samples p v) ∧
  (∀ z, z ≠ p.z → t.weights.cellAt z = s.weights.cellAt z) ∧
  t.result1 = BitVec.ofInt 32 (scaledOf s.cfg w s.samples p)

/-! ### The header as bits (30_encoding.md section 3)

The tables of R156 to R160 a second time, beside the lists the machine writes from. -/

/-- A field of a header: the identifier an error in it reports (46_header.md R481), its width, and the value written. -/
structure HeaderField where
  id : Word
  width : Nat
  value : Nat
  deriving DecidableEq, Repr

/-- A field that carries no register: the user-data byte, a reserved field, the TA pad nibble. -/
def fillField (width : Nat) : HeaderField := ⟨0xFFFFFFFF, width, 0⟩

/-- The image header (30_encoding.md R156). The depth of a BSQ header reports CFG_M as that of a BI one does (log entry 11). -/
def imageSection (c : Cfg) : List HeaderField :=
  [fillField 8, ⟨0, 16, c.X % 65536⟩, ⟨1, 16, c.Y % 65536⟩, ⟨2, 16, c.Z % 65536⟩, ⟨3, 1, c.signed.toNat⟩, fillField 2,
    ⟨4, 4, c.D % 16⟩, ⟨5, 1, c.order.toNat⟩, ⟨6, 16, if c.order = 0 then c.M % 65536 else 0⟩, fillField 2, ⟨7, 3, c.B % 8⟩,
    ⟨8, 1, c.coder.toNat⟩, fillField 10]

/-- The predictor metadata (30_encoding.md R157). -/
def predictorSection (c : Cfg) : List HeaderField :=
  [fillField 2, ⟨9, 4, c.P⟩, ⟨10, 1, c.pmode.toNat⟩, fillField 1, ⟨11, 1, c.lsmode.toNat⟩, fillField 1, ⟨12, 6, c.R % 64⟩,
    ⟨13, 4, c.OMEGA - 4⟩, ⟨14, 4, c.TE - 4⟩, ⟨15, 4, (c.vmin.toInt + 6).toNat⟩, ⟨16, 4, (c.vmax.toInt + 6).toNat⟩, fillField 1,
    ⟨17, 1, c.winit.toNat⟩, ⟨18, 1, c.wtable.toNat⟩, ⟨19, 5, c.Q⟩]

/-- The weight-initialization table (30_encoding.md R158). -/
def weightSection (c : Cfg) (tw : Memory Word) : List HeaderField :=
  (List.range c.Z).flatMap fun z => (List.range (min c.P z + if c.pmode = 0 then 3 else 0)).map fun i =>
    ⟨BitVec.ofNat 32 (0x20000000 + 256 * z + i), c.Q, (tw.wordAt (18 * z + i)).toNat⟩

/-- The sample-adaptive metadata, with its table and the pad nibble of an odd Z (30_encoding.md R159). -/
def adaptiveSection (c : Cfg) (ta : Memory Word) : List HeaderField :=
  [⟨20, 5, c.UMAX % 32⟩, ⟨21, 3, c.GSTAR - 4⟩, ⟨22, 3, c.G0 % 8⟩, ⟨23, 4, c.K⟩, ⟨24, 1, c.atable.toNat⟩] ++
    if c.atable = 1 then
      ((List.range c.Z).map fun z => ⟨BitVec.ofNat 32 (0x10000000 + z), 4, (ta.wordAt z).toNat⟩) ++
        if c.Z % 2 = 1 then [fillField 4] else []
    else []

/-- The block-adaptive metadata (30_encoding.md R160). -/
def blockSection (c : Cfg) : List HeaderField :=
  [fillField 1, ⟨25, 2, Nat.log2 c.J - 3⟩, ⟨27, 1, c.restrict.toNat⟩, ⟨26, 12, c.RSI % 4096⟩]

/-- The sections of a header (30_encoding.md R155). -/
def headerSections (c : Cfg) (ta tw : Memory Word) : List (List HeaderField) :=
  [imageSection c, predictorSection c] ++ (if c.wtable = 1 then [weightSection c tw] else []) ++
    [if c.coder = 0 then adaptiveSection c ta else blockSection c]

/-- The bits of a section: each field most significant bit first (30_encoding.md R145). -/
def sectionBits (fields : List HeaderField) : List Bool := fields.flatMap fun f => rawBits f.width f.value

/-- Sections one after another, each filled to the next byte, from a writer that holds `pos` bits (30_encoding.md R155). -/
def sectionsBits (pos : Nat) : List (List HeaderField) → List Bool
  | [] => []
  | fields :: more => sectionBits fields ++ padBits (pos + (sectionBits fields).length) ++ sectionsBits 0 more

/-- The whole header, from a writer that holds `pos` bits (46_header.md R480). -/
def headerBits (pos : Nat) (c : Cfg) (ta tw : Memory Word) : List Bool := sectionsBits pos (headerSections c ta tw)

/-- The identifier of each field of a section that starts at bit `pos`, and the bit at which the field ends. -/
def fieldEnds (pos : Nat) : List HeaderField → List (Word × Nat)
  | [] => []
  | f :: fields => (f.id, pos + f.width) :: fieldEnds (pos + f.width) fields

/-- The same of sections, the first from bit `pos`, each from a byte boundary (30_encoding.md R155). -/
def sectionEnds (pos : Nat) : List (List HeaderField) → List (Word × Nat)
  | [] => []
  | fields :: more =>
    fieldEnds pos fields ++ sectionEnds ((pos + (sectionBits fields).length + 7) / 8 * 8) more

/-- The fields of a header, in the order of reading. -/
def headerEnds (c : Cfg) (ta tw : Memory Word) : List (Word × Nat) := sectionEnds 0 (headerSections c ta tw)

/-- Every parameter a header of `c` carries is one that its field can hold (30_encoding.md R156 to R161), legal or not. -/
def headerCarries (c : Cfg) (ta tw : Memory Word) : Prop :=
  (1 ≤ c.x.toInt ∧ c.x.toInt ≤ 65536) ∧ (1 ≤ c.y.toInt ∧ c.y.toInt ≤ 65536) ∧ (1 ≤ c.z.toInt ∧ c.z.toInt ≤ 65536) ∧
  (c.signed = 0 ∨ c.signed = 1) ∧ (1 ≤ c.d.toInt ∧ c.d.toInt ≤ 16) ∧ (c.order = 0 ∨ c.order = 1) ∧
  (c.order = 0 → 1 ≤ c.m.toInt ∧ c.m.toInt ≤ 65536) ∧ (1 ≤ c.b.toInt ∧ c.b.toInt ≤ 8) ∧ (c.coder = 0 ∨ c.coder = 1) ∧
  (0 ≤ c.p.toInt ∧ c.p.toInt ≤ 15) ∧ (c.pmode = 0 ∨ c.pmode = 1) ∧ (c.lsmode = 0 ∨ c.lsmode = 1) ∧
  (1 ≤ c.r.toInt ∧ c.r.toInt ≤ 64) ∧ (4 ≤ c.omega.toInt ∧ c.omega.toInt ≤ 19) ∧ (4 ≤ c.te.toInt ∧ c.te.toInt ≤ 19) ∧
  (-6 ≤ c.vmin.toInt ∧ c.vmin.toInt ≤ 9) ∧ (-6 ≤ c.vmax.toInt ∧ c.vmax.toInt ≤ 9) ∧ (c.winit = 0 ∨ c.winit = 1) ∧
  (c.wtable = 0 ∨ c.wtable = 1) ∧ (0 ≤ c.q.toInt ∧ c.q.toInt ≤ 31) ∧
  (c.wtable = 1 → ∀ z < c.Z, ∀ i < c.bandLength z,
    if c.Q = 0 then tw.wordAt (18 * z + i) = 0
    else -2 ^ (c.Q - 1) ≤ (tw.wordAt (18 * z + i)).toInt ∧ (tw.wordAt (18 * z + i)).toInt ≤ 2 ^ (c.Q - 1) - 1) ∧
  (c.coder = 0 → (1 ≤ c.umax.toInt ∧ c.umax.toInt ≤ 32) ∧ (4 ≤ c.gstar.toInt ∧ c.gstar.toInt ≤ 11) ∧
    (1 ≤ c.g0.toInt ∧ c.g0.toInt ≤ 8) ∧ (0 ≤ c.k.toInt ∧ c.k.toInt ≤ 15) ∧ (c.atable = 0 ∨ c.atable = 1) ∧
    (c.atable = 1 → ∀ z < c.Z, (ta.wordAt z).toNat < 16)) ∧
  (c.coder = 1 → (c.j = 8 ∨ c.j = 16 ∨ c.j = 32 ∨ c.j = 64) ∧ (c.restrict = 0 ∨ c.restrict = 1) ∧
    (1 ≤ c.rsi.toInt ∧ c.rsi.toInt ≤ 4096))

/-- The error of a failed check after a header: E_FORMAT_HEADER, but for the three parameters that a header does not carry
(46_header.md R482, log entries 14 and 19). -/
def afterHeader (e : Raise) : Raise := if e.info = 28 ∨ e.info = 29 ∨ e.info = 30 then e else ⟨.formatHeader, e.info⟩

/-- A state with its session state cleared (70_reset_and_hazards.md R682). -/
def State.cleared (s : State) : State :=
  { s with
    wbuf := [], bytesOut := 0, closed := false, rbuf := [], bitsOut := 0, bitsIn := 0, zrun := 0, cs := 0, cr := 0, ebuf := [],
    efill := 0, runrem := 0, dbuf := [], dpos := 0, terminated := false, weights := [], stats := [], hist := [] }

/-- The configuration a reader of that header ends with, from the one it had (46_header.md R481): what the header carries
comes from `c`, the rest stays. -/
def headerCfg (c old : Cfg) : Cfg :=
  { c with
    m := if c.order = 0 then c.m else old.m
    umax := if c.coder = 0 then c.umax else old.umax
    gstar := if c.coder = 0 then c.gstar else old.gstar
    g0 := if c.coder = 0 then c.g0 else old.g0
    k := if c.coder = 0 then c.k else old.k
    atable := if c.coder = 0 then c.atable else old.atable
    j := if c.coder = 0 then old.j else c.j
    rsi := if c.coder = 0 then old.rsi else c.rsi
    restrict := if c.coder = 0 then old.restrict else c.restrict
    s := old.s
    refsamp := old.refsamp
    pedantic := old.pedantic }

/-- The parameters a header does not carry are legal in `s` for an image of that header (46_header.md R482): CFG_S for the
block coder, CFG_REFSAMP, CFG_PEDANTIC, and the capacity. -/
def outOfBandLegal (c : Cfg) (s : State) : Prop :=
  (c.coder = 1 → 1 ≤ s.cfg.s.toInt ∧ s.cfg.s.toInt ≤ 64) ∧ s.cfg.refsamp = 0 ∧
  (s.cfg.pedantic = 0 ∨ s.cfg.pedantic = 1) ∧ ∀ n, s.histCapacity = some n → c.Z * c.Y * c.X ≤ n

/-! ### The validation list (48_system.md R596) -/

/-- The rows of the list in order: the check, and the error of its failure. A row with a condition counts as met where the
condition does not hold; V22 and V28 are one row an entry. -/
def validationList (compress : Bool) (s : State) : List (Bool × Raise) :=
  let c := s.cfg
  let cfgRow (ok : Bool) (i : Nat) : Bool × Raise := (ok, ⟨.config, BitVec.ofNat 32 i⟩)
  [ cfgRow (decide (1 ≤ c.x.toInt ∧ c.x.toInt ≤ 65536)) 0,
    cfgRow (decide (1 ≤ c.y.toInt ∧ c.y.toInt ≤ 65536)) 1,
    cfgRow (decide (1 ≤ c.z.toInt ∧ c.z.toInt ≤ 65536)) 2,
    cfgRow (decide (c.signed = 0 ∨ c.signed = 1)) 3,
    cfgRow (decide (2 ≤ c.d.toInt ∧ c.d.toInt ≤ 16)) 4,
    cfgRow (decide (c.order = 0 ∨ c.order = 1)) 5,
    cfgRow (decide (c.order = 0 → 1 ≤ c.m.toInt ∧ c.m.toInt ≤ c.z.toInt)) 6,
    cfgRow (decide (1 ≤ c.b.toInt ∧ c.b.toInt ≤ 8)) 7,
    cfgRow (decide (c.coder = 0 ∨ c.coder = 1)) 8,
    cfgRow (decide (0 ≤ c.p.toInt ∧ c.p.toInt ≤ 15)) 9,
    cfgRow (decide (c.pmode = 0 ∨ c.pmode = 1)) 10,
    cfgRow (decide (c.lsmode = 0 ∨ c.lsmode = 1)) 11,
    cfgRow (decide (4 ≤ c.omega.toInt ∧ c.omega.toInt ≤ 19)) 13,
    cfgRow (decide (max 32 (c.d.toInt + c.omega.toInt + 2) ≤ c.r.toInt ∧ c.r.toInt ≤ 64)) 12,
    cfgRow (decide (4 ≤ c.te.toInt ∧ c.te.toInt ≤ 11)) 14,
    cfgRow (decide (-6 ≤ c.vmin.toInt ∧ c.vmin.toInt ≤ 9)) 15,
    cfgRow (decide (c.vmin.toInt ≤ c.vmax.toInt ∧ c.vmax.toInt ≤ 9)) 16,
    cfgRow (decide (c.winit = 0 ∨ c.winit = 1)) 17,
    cfgRow (decide (c.wtable = 0 ∨ c.wtable = 1)) 18,
    cfgRow (decide (c.wtable = c.winit)) 18,
    cfgRow (decide ((c.winit = 0 → c.q = 0) ∧ (c.winit = 1 → 3 ≤ c.q.toInt ∧ c.q.toInt ≤ c.omega.toInt + 3))) 19 ] ++
  ((List.range c.Z).flatMap fun z => (List.range (c.bandLength z)).map fun i =>
    cfgRow (decide (c.winit = 1 → -2 ^ (c.Q - 1) ≤ (s.tw.wordAt (18 * z + i)).toInt ∧
      (s.tw.wordAt (18 * z + i)).toInt ≤ 2 ^ (c.Q - 1) - 1)) (0x20000000 + 256 * z + i)) ++
  [ cfgRow (decide (c.coder = 0 → 8 ≤ c.umax.toInt ∧ c.umax.toInt ≤ 32)) 20,
    cfgRow (decide (c.coder = 0 → 4 ≤ c.gstar.toInt ∧ c.gstar.toInt ≤ 9)) 21,
    cfgRow (decide (c.coder = 0 → 1 ≤ c.g0.toInt ∧ c.g0.toInt ≤ c.gstar.toInt - 1)) 22,
    cfgRow (decide (c.coder = 0 → (0 ≤ c.k.toInt ∧ c.k.toInt ≤ c.d.toInt - 2) ∨ c.k = 15)) 23,
    cfgRow (decide (c.coder = 0 → (c.atable = 0 ∨ c.atable = 1) ∧ (c.atable = 1 ↔ c.k = 15))) 24 ] ++
  ((List.range c.Z).map fun z =>
    cfgRow (decide (c.coder = 0 ∧ c.k = 15 → 0 ≤ (s.ta.wordAt z).toInt ∧ (s.ta.wordAt z).toInt ≤ c.d.toInt - 2))
      (0x10000000 + z)) ++
  [ cfgRow (decide (c.coder = 1 → c.j = 8 ∨ c.j = 16 ∨ c.j = 32 ∨ c.j = 64)) 25,
    cfgRow (decide (c.coder = 1 → 1 ≤ c.rsi.toInt ∧ c.rsi.toInt ≤ 4096)) 26,
    cfgRow (decide (c.coder = 1 → c.restrict = 0 ∨ c.restrict = 1)) 27,
    cfgRow (decide (c.coder = 1 → 1 ≤ c.s.toInt ∧ c.s.toInt ≤ 64)) 28,
    (decide (c.refsamp ≠ 1), ⟨.notSupported, 29⟩),
    cfgRow (decide (c.refsamp = 0)) 29,
    cfgRow (decide (c.pedantic = 0 ∨ c.pedantic = 1)) 30,
    cfgRow (decide (¬ (c.x = 1 ∧ 1 < c.y.toInt ∧ c.lsmode = 0))) 11,
    cfgRow (decide (compress = true ∧ c.pedantic = 1 → c.p.toInt < c.z.toInt)) 9,
    cfgRow (match s.histCapacity with
      | none => true
      | some n => decide (c.Z * c.Y * c.X ≤ n)) 2 ]

/-- The configuration is one a session may have: every check but the pedantic one is met (48_system.md R584, R590). -/
def State.configLegal (s : State) : Prop := ∀ row ∈ validationList false s, row.1 = true

/-- The configuration is one COMPRESS accepts (48_system.md R590, R598). -/
def State.compressLegal (s : State) : Prop := ∀ row ∈ validationList true s, row.1 = true

/-! ### The compressed stream of an image (30_encoding.md R162)

Said of the image alone: when a sample is coded, HIST holds the samples before it, and those are the only ones a prediction
reads. -/

/-- The sample of a position, of an image given in the order of SIN (47_pipeline.md R546). -/
def imageSample (c : Cfg) (image : List Word) (z y x : Nat) : Int :=
  (image.getD (if c.order = 1 then (z * c.Y + y) * c.X + x else (y * c.Z + z) * c.X + x) 0).toInt

/-- The weights of a band before its sample `t` (44_predictor.md R387 to R389, R404). -/
def weightsBefore (c : Cfg) (tw : Memory Word) (h : Nat → Nat → Nat → Int) (z : Nat) : Nat → List Int
  | 0 => if c.winit = 0 then defaultWeights c z else customWeights c tw z
  | t + 1 => weightsOf c (weightsBefore c tw h z t) h ⟨z, t / c.X, t % c.X⟩ (h z (t / c.X) (t % c.X))

/-- The mapped residual of a position (44_predictor.md R407). -/
def residualAt (c : Cfg) (tw : Memory Word) (h : Nat → Nat → Nat → Int) (p : Cursor) : Nat :=
  (mapResidual c (h p.z p.y p.x) (scaledOf c (weightsBefore c tw h p.z (p.y * c.X + p.x)) h p)).toNat

/-- The statistics of a band before its sample `t`, of residuals `d` (43_sample_adaptive.md R340, R344). -/
def statsBefore (c : Cfg) (ta : Memory Word) (z : Nat) (d : Nat → Nat) : Nat → BandStats
  | 0 =>
    let kappa := if c.K < 15 then c.K else natOf (ta.wordAt z)
    ⟨(3 * 2 ^ (kappa + 6) - 49) * 2 ^ c.G0 / 128, 2 ^ c.G0⟩
  | t + 1 =>
    let b := statsBefore c ta z d t
    if t = 0 then b
    else if b.cnt < 2 ^ c.GSTAR - 1 then ⟨b.acc + d t, b.cnt + 1⟩ else ⟨(b.acc + d t + 1) / 2, (b.cnt + 1) / 2⟩

/-- The body of the sample-adaptive coder (43_sample_adaptive.md R342, 47_pipeline.md R547, R548). -/
def adaptiveBody (c : Cfg) (ta tw : Memory Word) (h : Nat → Nat → Nat → Int) : List Bool :=
  (positions c).flatMap fun p =>
    adaptiveCode c (saK c (statsBefore c ta p.z (fun t => residualAt c tw h ⟨p.z, t / c.X, t % c.X⟩) (p.y * c.X + p.x)))
      (p.y * c.X + p.x) (residualAt c tw h p)

/-- `n` blocks of `j` samples each, the last one completed with zeros (42_block_adaptive.md R294, R295). -/
def blocksOf (j : Nat) : Nat → List Word → List (List Word)
  | 0, _ => []
  | n + 1, l => (l.take j ++ List.replicate (j - l.length) 0) :: blocksOf j n (l.drop j)

/-- The bits of blocks coded one after another and a terminate, from `zrun` pending zero blocks and the counters `cs`, `cr`
(42_block_adaptive.md R292, R293, R295); the option of each is the one BA_SELECT answers. -/
def blocksCode (c : Cfg) (zrun cs cr : Nat) : List (List Word) → List Bool
  | [] => boundaryRunCode c zrun
  | b :: blocks =>
    let boundary := (cs + 1) % c.S == 0 || (cr + 1) % c.RSI == 0
    let option := (select c (masked c b)).1
    blockCode c zrun (masked c b) boundary option ++
      blocksCode c (pendingAfter zrun boundary option) ((cs + 1) % c.S) ((cr + 1) % c.RSI) blocks

/-- The body of the block-adaptive coder (47_pipeline.md R547, R548). -/
def blockBody (c : Cfg) (tw : Memory Word) (h : Nat → Nat → Nat → Int) : List Bool :=
  let residuals := (positions c).map fun p => BitVec.ofNat 32 (residualAt c tw h p)
  blocksCode c 0 0 0 (blocksOf c.J ((residuals.length + c.J - 1) / c.J) residuals)

/-- The compressed stream of an image: the header, the body, the fill of its last byte, and the zero bytes to a whole word
(30_encoding.md R162, 47_pipeline.md R551). -/
def streamBits (c : Cfg) (ta tw : Memory Word) (h : Nat → Nat → Nat → Int) : List Bool :=
  let coded := headerBits 0 c ta tw ++ (if c.coder = 0 then adaptiveBody c ta tw h else blockBody c tw h)
  let bytes := coded ++ padBits coded.length
  bytes ++ zeroBits (wordPad c.B bytes.length)

/-- An image of the configuration: its number of samples, each in range. -/
def imageLegal (c : Cfg) (image : List Word) : Prop :=
  image.length = c.X * c.Y * c.Z ∧ ∀ v ∈ image, c.SMIN ≤ v.toInt ∧ v.toInt ≤ c.SMAX

/-- From `u` to `v` a DECOMPRESS of an image of configuration `c` completed: its samples pushed to SOUT in the order of SIN,
the bytes after the stream still in BIN, the configuration the header's (47_pipeline.md R553, R554). -/
def Restored (c : Cfg) (image : List Word) (more : List Byte) (u v : State) : Prop :=
  v.sout = u.sout ++ image ∧ more <:+ v.bin ∧ v.mode = .idle ∧ v.done = true ∧ v.cfg = headerCfg c u.cfg ∧
  v.cursor = ⟨c.Z - 1, c.Y - 1, c.X - 1⟩ ∧
  (v.sin = u.sin ∧ v.bout = u.bout ∧ v.blk = u.blk ∧ v.arg0 = u.arg0 ∧ v.arg1 = u.arg1 ∧ v.arg2 = u.arg2 ∧
    v.arg3 = u.arg3 ∧ v.result = u.result ∧ v.result1 = u.result1 ∧ v.irqEn = u.irqEn ∧ v.errCode = u.errCode ∧
    v.errInfo = u.errInfo)

/-! ### What a state keeps -/

/-- The storage has its canonical form, the buffers their sizes, the counters their meaning, and the error fields agree with
the mode (10_state.md R34, R35, R48, R49, 40_bitstream.md R205, R208, 60_exceptions.md R636). -/
structure Bookkeeping (s : State) : Prop where
  storage : Memory.wf s = true
  writer : s.wbuf.length < 8
  reader : s.rbuf.length < 8
  accounting : s.bitsOut = BitVec.ofNat 32 (8 * s.bytesOut + s.wbuf.length)
  closedEmpty : s.closed = true → s.wbuf = []
  noError : s.mode ≠ .fault → s.errCode = .none ∧ s.errInfo = 0
  anError : s.mode = .fault → s.errCode ≠ .none
  noFormatId : s.errCode ≠ .formatId

/-- A session runs under a legal configuration, with the derived values of it, counters below their moduli and block buffers
of the block's size; and the cursor fits its registers (10_state.md R32, R33, R44, R45, R50, R51). -/
structure Session (s : State) : Prop where
  cursor : s.cursor.z < 65536 ∧ s.cursor.y < 65536 ∧ s.cursor.x < 65536
  legal : s.mode = .active → s.configLegal
  derived : s.mode = .active →
    s.idBits = BitVec.ofNat 32 s.cfg.idBits ∧ s.backupOpt = BitVec.ofNat 32 (2 ^ s.cfg.idBits - 1)
  counters : s.mode = .active → s.cfg.coder = 1 → s.cs < s.cfg.S ∧ s.cr < s.cfg.RSI
  encoder : s.mode = .active → s.cfg.coder = 1 → s.ebuf.length = s.efill ∧ s.efill < s.cfg.J
  decoder : s.mode = .active → s.cfg.coder = 1 → s.dbuf = [] ∨ (s.dbuf.length = s.cfg.J ∧ s.dpos ≤ s.cfg.J)

/-- In a session every band's state lies in the ranges the spec gives (10_state.md R46, R47, 43_sample_adaptive.md R346,
44_predictor.md R380, R406). -/
structure BandsInRange (s : State) : Prop where
  weights : s.mode = .active → ∀ z w, s.weights.cellAt z = some w → w.length = s.cfg.bandLength z ∧
    ∀ v ∈ w, -2 ^ (s.cfg.OMEGA + 2) ≤ v ∧ v ≤ 2 ^ (s.cfg.OMEGA + 2) - 1
  counts : s.mode = .active → s.cfg.coder = 0 → ∀ z b, s.stats.cellAt z = some b →
    2 ^ s.cfg.G0 ≤ b.cnt ∧ b.cnt ≤ 2 ^ s.cfg.GSTAR - 1
  accumulators : s.mode = .active → s.cfg.coder = 0 → ∀ z b, s.stats.cellAt z = some b →
    b.acc ≤ (initialStats s z).acc + b.cnt * 2 ^ s.cfg.D
  samples : s.mode = .active → ∀ p v, s.sampleAt p = some v → s.cfg.SMIN ≤ v ∧ v ≤ s.cfg.SMAX

/-! ### Safe runs -/

/-- No error has been raised. -/
def State.sound (s : State) : Prop := s.mode ≠ .fault

end Sys2Proof.Machine
end

