-- ==== Sys2Proof/Certificates/Slice0/Obligations.lean ====
section
/-! DEFINITION. The statements for the provers, in the order of OBLIGATIONS.json. A command's statement says where it completes,
what it changes (every field not named in the next state is the one of the state before), and where it raises. -/

open Sys2Proof Sys2Proof.Machine

/-! ### Command words -/

/-- Words written out from the opcode map, one of each family, and three that are none (30_encoding.md R140, R142, R143). -/
def Obligations.OpcodeMapSampleWordsDecode : Prop :=
  decode 0x00000001 = .ok .reset ∧ decode 0x00000015 = .ok .bsClose ∧ decode 0x00000019 = .ok .unaryRead ∧
  decode 0x00000022 = .ok .riceDecode ∧ decode 0x0000002B = .ok .baSelect ∧ decode 0x00000034 = .ok .saTerminate ∧
  decode 0x00000039 = .ok .predCompress ∧ decode 0x0000003C = .ok .resUnmap ∧ decode 0x00000041 = .ok .hdrRead ∧
  decode 0x00000050 = .ok .compress ∧ decode 0x00000051 = .ok .decompress ∧
  decode 0x00000004 = .error .opcode ∧ decode 0x000000FF = .error .opcode ∧ decode 0x00000110 = .error .zeroField

/-- A word decodes to a command exactly when it is that command's word (30_encoding.md R140, R142, R143): decoding an encoded
command gives it back, and no other word gives it. -/
def Obligations.DecodeAndEncodeAgree : Prop :=
  ∀ (w : Word) (i : Instr), decode w = .ok i ↔ w = encode i

/-- A write of CMD, the host's next access, runs the command its word decodes to, and the step answers the state the command
leaves (10_state.md R30, 20_memory.md R118). The script is the model's own (log entry 1); the refusal is the one of a stream
that cannot be counted (10_state.md R39, log entry 4). -/
def Obligations.StepRunsTheDecodedCommand : Prop :=
  ∀ (s : State) (w : Word) (rest : List HostAccess) (i : Instr), s.script = .write 0x008 4 w :: rest → decode w = .ok i →
    ∃ t, exec i { s with script := rest } = .next t ∧
      (t.countable → step s = .next t) ∧ (¬ t.countable → step s = .refused .streamCount)

/-! ### Faults -/

/-- A word that is no command's raises E_ILLEGAL_CMD with the word, and nothing else happens (30_encoding.md R140, R143). -/
def Obligations.IllegalWordRaises : Prop :=
  ∀ (s : State) (w : Word), s.mode ≠ .fault → s.countable → (∀ i, w ≠ encode i) →
    after (.write 0x008 4 w) s = .next (failed .illegalCmd w { s with script := [] })

/-- A command outside its modes, or with the other coder configured, raises E_MODE with its word and changes nothing else; in
FAULT every command but RESET is ignored (30_encoding.md R142, R144). -/
def Obligations.CommandOutsideItsRowRaises : Prop :=
  ∀ (i : Instr) (s : State),
    (s.mode = .idle → i ∉ commonCommands → i ∉ idleCommands → exec i s = .next (failed .mode (encode i) s)) ∧
    (s.mode = .active → i ∈ idleCommands → exec i s = .next (failed .mode (encode i) s)) ∧
    (s.mode = .active → i ∈ blockCommands → s.cfg.coder ≠ 1 → exec i s = .next (failed .mode (encode i) s)) ∧
    (s.mode = .active → i ∈ adaptiveCommands → s.cfg.coder ≠ 0 → exec i s = .next (failed .mode (encode i) s)) ∧
    (s.mode = .fault → i ≠ .reset → exec i s = .next s)

/-- In FAULT a word other than RESET's, a write of the configuration, and an access that would raise have no effect; a refused
read returns 0 (48_system.md R580, R581, 60_exceptions.md R625; the 0 of a refused read in FAULT is log entry 13). -/
def Obligations.FaultIgnoresCommandsAndErrors : Prop :=
  ∀ s : State, s.mode = .fault → s.countable →
    (∀ w, w ≠ 0x00000001 → after (.write 0x008 4 w) s = .next { s with script := [] }) ∧
    (∀ a v, configAddress a → after (.write a 4 v) s = .next { s with script := [] }) ∧
    (∀ a n v, n ≠ 4 ∨ ¬ mappedAddress a → after (.write a n v) s = .next { s with script := [] }) ∧
    (∀ a n, n ≠ 4 ∨ ¬ mappedAddress a → after (.read a n) s = .next { s with script := [], hostRead := 0 })

/-- Whatever the host does, FAULT and the first error stay, except after the word of RESET, which ends in IDLE without an
error (10_state.md R32, 60_exceptions.md R625, R627, R628). -/
def Obligations.OnlyResetLeavesFault : Prop :=
  ∀ s t : State, s.mode = .fault → step s = .next t →
    (t.mode = .fault ∧ t.errCode = s.errCode ∧ t.errInfo = s.errInfo) ∨
    ((∃ rest, s.script = .write 0x008 4 0x00000001 :: rest) ∧ t.mode = .idle ∧ t.errCode = .none ∧ t.errInfo = 0)

/-- RESET, in every mode: power-on reset but for the configuration, TA, TW and IRQ_EN, and DONE is set (48_system.md R583,
70_reset_and_hazards.md R681). The model's own fields are left out of the comparison. -/
def Obligations.ResetKeepsOnlyConfiguration : Prop :=
  ∀ s : State, ∃ t, exec .reset s = .next t ∧
    { t with histCapacity := State.reset.histCapacity, script := [], hostRead := 0 } =
      { State.reset with cfg := s.cfg, ta := s.ta, tw := s.tw, irqEn := s.irqEn, done := true }

/-- The reset values of the configuration registers, in index order (10_state.md R40, R41). -/
def Obligations.ConfigurationResetValues : Prop :=
  (CfgReg.all.map fun reg => (State.reset.cfg.read reg).toInt) =
    [1, 1, 1, 0, 16, 1, 1, 1, 0, 0, 0, 0, 64, 13, 6, -1, 3, 0, 0, 0, 16, 6, 1, 3, 0, 16, 4096, 0, 64, 0, 0]

/-- An access that is not 4 bytes wide, not aligned or not mapped raises E_BUS with the address; a write changes nothing else,
and a read returns 0 (20_memory.md R101, R102). The value returned stands in hostRead (log entry 2). -/
def Obligations.BadAccessRaisesBusError : Prop :=
  ∀ (s : State) (a : Word) (n : Nat), s.mode ≠ .fault → s.countable → (n ≠ 4 ∨ ¬ mappedAddress a) →
    (∀ v, after (.write a n v) s = .next (failed .bus a { s with script := [] })) ∧
    after (.read a n) s = .next (failed .bus a { s with script := [], hostRead := 0 })

/-! ### Registers -/

/-- What a read of each register returns, and that it changes nothing (10_state.md R31, R33 to R38, R40, R42, R43, R45,
20_memory.md R101, R103, R104). The value returned stands in hostRead (log entry 2); ID_BITS and BACKUP_OPT as log entry 6
says. -/
def Obligations.RegisterReadsShowTheState : Prop :=
  ∀ s : State, s.countable →
    (∀ e ∈ ([(0x000, 0x55544343), (0x004, 0x00000007), (0x008, 0), (0x00C, s.status), (0x010, s.errInfo),
        (0x014, BitVec.ofNat 32 s.irqEn.toNat), (0x018, s.arg0), (0x01C, s.arg1), (0x020, s.arg2), (0x024, s.arg3),
        (0x028, s.result), (0x02C, s.result1), (0x030, s.bitsOut), (0x034, s.bitsIn),
        (0x038, BitVec.ofNat 32 (s.cursor.z % 65536)),
        (0x03C, BitVec.ofNat 32 (s.cursor.y % 65536 * 65536 + s.cursor.x % 65536)), (0x040, 0),
        (0x044, BitVec.ofNat 32 s.sin.length), (0x04C, BitVec.ofNat 32 s.sout.length), (0x050, 0),
        (0x054, BitVec.ofNat 32 s.bin.length), (0x05C, BitVec.ofNat 32 s.bout.length),
        (0x060, if s.mode = .active ∨ s.derivedHeld = true then s.idBits else 0),
        (0x064, if s.mode = .active ∨ s.derivedHeld = true then s.backupOpt else 0)] : List (Word × Word)),
      after (.read e.1 4) s = .next { s with script := [], hostRead := e.2 }) ∧
    (∀ reg : CfgReg, after (.read (BitVec.ofNat 32 (0x100 + 4 * reg.index)) 4) s =
      .next { s with script := [], hostRead := s.cfg.read reg }) ∧
    (∀ j : Fin 64, after (.read (BitVec.ofNat 32 (0x200 + 4 * j.val)) 4) s =
      .next { s with script := [], hostRead := s.blk[j] }) ∧
    (∀ z < 65536, after (.read (BitVec.ofNat 32 (0x80000 + 4 * z)) 4) s =
      .next { s with script := [], hostRead := s.ta.wordAt z }) ∧
    (∀ z < 65536, ∀ i < 18, after (.read (BitVec.ofNat 32 (0x100000 + 4 * (18 * z + i))) 4) s =
      .next { s with script := [], hostRead := s.tw.wordAt (18 * z + i) })

/-- A read of SOUT_DATA or BOUT_DATA removes and returns the oldest element, or returns 0x8000_0000 and removes nothing
(10_state.md R39, 20_memory.md R104). The value returned stands in hostRead (log entry 2). -/
def Obligations.OutputStreamReadsRemoveOne : Prop :=
  ∀ s : State, s.countable →
    (∀ v more, s.sout = v :: more → after (.read 0x048 4) s = .next { s with script := [], sout := more, hostRead := v }) ∧
    (s.sout = [] → after (.read 0x048 4) s = .next { s with script := [], hostRead := 0x80000000 }) ∧
    (∀ b more, s.bout = b :: more →
      after (.read 0x058 4) s = .next { s with script := [], bout := more, hostRead := BitVec.ofNat 32 b.toNat }) ∧
    (s.bout = [] → after (.read 0x058 4) s = .next { s with script := [], hostRead := 0x80000000 })

/-- What a write of each register outside the configuration does, in every mode: the operands and BLK hold the word, IRQ_EN
its two low bits, STATUS bit 0 clears DONE, SIN and BIN take one element, and a read-only register ignores it (10_state.md
R31, R34, R36, R39, 20_memory.md R103). -/
def Obligations.RegisterWritesStoreOrAreIgnored : Prop :=
  ∀ (s : State) (v : Word), s.countable →
    after (.write 0x018 4 v) s = .next { s with script := [], arg0 := v } ∧
    after (.write 0x01C 4 v) s = .next { s with script := [], arg1 := v } ∧
    after (.write 0x020 4 v) s = .next { s with script := [], arg2 := v } ∧
    after (.write 0x024 4 v) s = .next { s with script := [], arg3 := v } ∧
    after (.write 0x014 4 v) s = .next { s with script := [], irqEn := v.extractLsb' 0 2 } ∧
    after (.write 0x00C 4 v) s = .next { s with script := [], done := if v.getLsbD 0 then false else s.done } ∧
    (s.sin.length + 1 < 2 ^ 32 → after (.write 0x040 4 v) s = .next { s with script := [], sin := s.sin ++ [v] }) ∧
    (s.bin.length + 1 < 2 ^ 32 →
      after (.write 0x050 4 v) s = .next { s with script := [], bin := s.bin ++ [v.extractLsb' 0 8] }) ∧
    (∀ j : Fin 64, ∃ blk : Vector Word 64, (∀ k : Fin 64, blk[k] = if k = j then v else s.blk[k]) ∧
      after (.write (BitVec.ofNat 32 (0x200 + 4 * j.val)) 4 v) s = .next { s with script := [], blk := blk }) ∧
    (∀ a ∈ ([0x000, 0x004, 0x010, 0x028, 0x02C, 0x030, 0x034, 0x038, 0x03C, 0x044, 0x048, 0x04C, 0x054, 0x058, 0x05C, 0x060,
        0x064] : List Word), after (.write a 4 v) s = .next { s with script := [] })

/-- CFG_*, TA and TW are writable in IDLE alone: there the word is read back and no other address shows another word; in
ACTIVE E_CFG_LOCKED is raised with the address and nothing else changes; in FAULT nothing changes (10_state.md R44). -/
def Obligations.ConfigurationWritableOnlyInIdle : Prop :=
  ∀ (s : State) (a v : Word), configAddress a → s.countable → Memory.wf s = true →
    (s.mode = .idle → ∃ t, after (.write a 4 v) s = .next t ∧
      t = { s with script := [], cfg := t.cfg, ta := t.ta, tw := t.tw } ∧ t.shows a = some v ∧
      ∀ b, b ≠ a → t.shows b = s.shows b) ∧
    (s.mode = .active → after (.write a 4 v) s = .next (failed .cfgLocked a { s with script := [] })) ∧
    (s.mode = .fault → after (.write a 4 v) s = .next { s with script := [] })

/-- In a session the configuration is constant: no step of ACTIVE changes CFG_*, TA or TW (10_state.md R44, R54). -/
def Obligations.ConfigurationConstantInSession : Prop :=
  ∀ s t : State, s.mode = .active → step s = .next t → t.cfg = s.cfg ∧ t.ta = s.ta ∧ t.tw = s.tw

/-- The bits of STATUS, and the code of each error (10_state.md R32, R34, 60_exceptions.md R620). -/
def Obligations.StatusWordLayout : Prop :=
  (∀ e ∈ ([(.none, 0x00), (.config, 0x01), (.notSupported, 0x02), (.eos, 0x03), (.ioSink, 0x04), (.formatHeader, 0x05),
      (.formatId, 0x06), (.formatUnary, 0x07), (.formatValue, 0x08), (.sampleRange, 0x09), (.history, 0x0A), (.uninit, 0x0B),
      (.terminated, 0x0C), (.illegalCmd, 0x0D), (.operand, 0x0E), (.mode, 0x0F), (.bus, 0x10), (.cfgLocked, 0x11)] :
      List (ErrKind × BitVec 8)), e.1.code = e.2) ∧
  ∀ s : State,
    s.status.getLsbD 0 = s.done ∧ (s.status.getLsbD 1 = true ↔ s.mode = .fault) ∧
    s.status.extractLsb' 2 2 = (match s.mode with | .idle => 0 | .active => 1 | .fault => 2) ∧
    s.status.getLsbD 4 = s.terminated ∧ s.status.getLsbD 5 = s.closed ∧ s.status.extractLsb' 6 2 = 0 ∧
    s.status.extractLsb' 8 8 = s.errCode.code ∧ s.status.extractLsb' 16 16 = 0

/-- IRQ_EN holds bits 1:0, reads its other bits as 0 and is 0 after reset; IRQ is the done bit under bit 0 or the error bit
under bit 1 (10_state.md R36). -/
def Obligations.InterruptLineAndEnable : Prop :=
  (∀ s : State, s.irq = true ↔
    (s.status.getLsbD 0 = true ∧ s.irqEn.getLsbD 0 = true) ∨ (s.status.getLsbD 1 = true ∧ s.irqEn.getLsbD 1 = true)) ∧
  (∀ (s : State) (v : Word), s.countable → ∃ t, after (.write 0x014 4 v) s = .next t ∧ t.shows 0x014 = some (v &&& 3)) ∧
  State.reset.shows 0x014 = some 0

/-! ### What no command changes -/

/-- No command but RESET changes the operands, IRQ_EN or what is the model's own; BLK, the results, the cursor, the
configuration, each stream, the reader and the writer change only by the commands whose rows name them; output streams only
grow and input streams only shrink (10_state.md R31, R33, R38, R40, R48, R49, 20_memory.md R107, R121). It holds for every end
of a command, a fault included. -/
def Obligations.CommandsChangeOnlyWhatTheirRowsName : Prop :=
  let readers : List Instr := [.bsRead, .unaryRead, .riceDecode, .baDecodeBlock, .baDecodeSample, .saDecode, .hdrRead, .decompress]
  let writers : List Instr := [.bsWrite, .bsFlush, .bsPadWord, .bsClose, .unaryWrite, .riceCode, .baCodeBlock, .baTerminate,
    .baCodeSample, .saCode, .saTerminate, .hdrWrite, .compress]
  ∀ (i : Instr) (s t : State), i ≠ .reset → exec i s = .next t →
    (t.arg0 = s.arg0 ∧ t.arg1 = s.arg1 ∧ t.arg2 = s.arg2 ∧ t.arg3 = s.arg3 ∧ t.irqEn = s.irqEn) ∧
    (t.histCapacity = s.histCapacity ∧ t.script = s.script ∧ t.hostRead = s.hostRead) ∧
    (i ∉ [.riceMask, .riceDecode, .baDecodeBlock] → t.blk = s.blk) ∧
    (i ∉ [.bsRead, .unaryRead, .riceBest, .baSelect, .baDecodeSample, .saDecode, .predCompress, .predDecompress, .resMap,
      .resUnmap] → t.result = s.result) ∧
    (i ∉ [.riceBest, .baSelect, .predCompress, .predDecompress] → t.result1 = s.result1) ∧
    (i ∉ [.predCompress, .predDecompress, .compress, .decompress] → t.cursor = s.cursor) ∧
    (i ∉ [.hdrRead, .decompress] → t.cfg = s.cfg ∧ t.ta = s.ta ∧ t.tw = s.tw) ∧
    (i ≠ .compress → t.sin = s.sin) ∧ (i ≠ .decompress → t.sout = s.sout) ∧
    (i ∉ readers → t.bin = s.bin) ∧
    (i ∉ readers → i ∉ [.bsReadAlign, .validate, .compress] → t.rbuf = s.rbuf ∧ t.bitsIn = s.bitsIn) ∧
    (i ∉ writers → t.bout = s.bout) ∧
    (i ∉ writers → i ∉ [.validate, .hdrRead, .decompress] →
      t.wbuf = s.wbuf ∧ t.bytesOut = s.bytesOut ∧ t.bitsOut = s.bitsOut) ∧
    t.sin <:+ s.sin ∧ t.bin <:+ s.bin ∧ s.sout <+: t.sout ∧ s.bout <+: t.bout

/-- The mode moves only as 10_state.md R32 says, and DONE is set by every command that does not end in FAULT and kept by one
that does (48_system.md R580). -/
def Obligations.ModeTransitionsAndDone : Prop :=
  ∀ (i : Instr) (s t : State), exec i s = .next t → s.mode ≠ .fault ∨ i = .reset →
    (t.mode = .fault ∨ t.done = true) ∧ (t.mode = .fault → t.done = s.done) ∧
    (t.mode = s.mode ∨ t.mode = .fault ∨ (s.mode = .idle ∧ t.mode = .active ∧ (i = .validate ∨ i = .hdrRead)) ∨
      (s.mode = .active ∧ t.mode = .idle ∧ i = .endSession) ∨ (t.mode = .idle ∧ i = .reset))

/-! ### What every step keeps -/

/-- The state after reset has every property a state keeps. -/
def Obligations.ResetStateIsInOrder : Prop :=
  Bookkeeping State.reset ∧ Session State.reset ∧ BandsInRange State.reset

/-- Every step keeps the canonical form of the storage, the sizes of the bit buffers, the accounting of output bits, and the
agreement of mode and error. -/
def Obligations.StepKeepsBookkeeping : Prop :=
  ∀ s t : State, Bookkeeping s → step s = .next t → Bookkeeping t

/-- Every step keeps a session under a legal configuration, with its derived values, counters and block buffers in range, and
the cursor below 2^16. -/
def Obligations.StepKeepsSession : Prop :=
  ∀ s t : State, Session s → step s = .next t → Session t

/-- Every step keeps the weights, the statistics and the history samples in their ranges. -/
def Obligations.StepKeepsBandsInRange : Prop :=
  ∀ s t : State, Session s → BandsInRange s → step s = .next t → BandsInRange t

/-! ### Control commands -/

/-- NOP sets DONE in IDLE and ACTIVE and is ignored in FAULT; END closes the session and keeps the rest of it
(48_system.md R582, R585). -/
def Obligations.NopAndEndChangeOnlyStatus : Prop :=
  ∀ s : State, (s.mode = .idle ∨ s.mode = .active → exec .nop s = .next { s with done := true }) ∧
    (s.mode = .fault → exec .nop s = .next s) ∧
    (s.mode = .active → exec .endSession s = .next { s with mode := .idle, done := true })

/-- VALIDATE on a legal configuration opens a session: the session state cleared, the derived registers published
(48_system.md R584, R599, 70_reset_and_hazards.md R682, 42_block_adaptive.md R280). -/
def Obligations.ValidateOpensASession : Prop :=
  ∀ s : State, s.mode = .idle → s.configLegal →
    exec .validate s = .next { s with
      wbuf := [], bytesOut := 0, closed := false, rbuf := [], bitsOut := 0, bitsIn := 0, zrun := 0, cs := 0, cr := 0, ebuf := [],
      efill := 0, runrem := 0, dbuf := [], dpos := 0, terminated := false, weights := [], stats := [], hist := [],
      idBits := BitVec.ofNat 32 (idBitsOf s.cfg), backupOpt := BitVec.ofNat 32 (2 ^ idBitsOf s.cfg - 1), mode := .active,
      done := true }

/-- Validation raises the error of the first failing check of the list, for VALIDATE and for COMPRESS with its pedantic check,
and changes nothing else (48_system.md R590, R591, R596, R598). -/
def Obligations.ValidationRaisesFirstFailure : Prop :=
  ∀ (s : State) (row : Bool × Raise), s.mode = .idle →
    ((validationList false s).find? (fun r => !r.1) = some row → exec .validate s = .next (failed row.2.kind row.2.info s)) ∧
    ((validationList true s).find? (fun r => !r.1) = some row → exec .compress s = .next (failed row.2.kind row.2.info s))

/-! ### Bitstream and unary -/

/-- BS_WRITE appends the n low bits of ARG1; above 32 it raises E_OPERAND(0), and on a closed stream E_IO_SINK
(40_bitstream.md R200, R210). -/
def Obligations.BsWriteAppendsTheField : Prop :=
  ∀ s : State, s.mode = .active →
    (s.arg0.toNat ≤ 32 → s.closed = false → s.wbuf.length < 8 → ∃ t, Emitted (rawBits s.arg0.toNat s.arg1.toNat) s t ∧
      bitsValue (rawBits s.arg0.toNat s.arg1.toNat) = s.arg1.toNat % 2 ^ s.arg0.toNat ∧
      exec .bsWrite s = .next { t with done := true }) ∧
    (32 < s.arg0.toNat → exec .bsWrite s = .next (failed .operand 0 s)) ∧
    (s.arg0.toNat ≤ 32 → s.closed = true → exec .bsWrite s = .next (failed .ioSink 0 s))

/-- UNARY_WRITE appends ARG0 zeros and a one; on a closed stream it raises E_IO_SINK (40_bitstream.md R206, R216). -/
def Obligations.UnaryWriteAppendsTheCodeword : Prop :=
  ∀ s : State, s.mode = .active →
    (s.closed = false → s.wbuf.length < 8 →
      ∃ t, Emitted (List.replicate s.arg0.toNat false ++ [true]) s t ∧ exec .unaryWrite s = .next { t with done := true }) ∧
    (s.closed = true → exec .unaryWrite s = .next (failed .ioSink 0 s))

/-- BS_FLUSH, BS_PAD_WORD and BS_CLOSE append the zero bits to the next byte, to the next multiple of B bytes, and to the next
byte before the stream is closed; they append nothing to a stream that already ends there (40_bitstream.md R202, R204, R205,
R212, R214, R215). -/
def Obligations.FlushPadAndCloseAppendZeros : Prop :=
  ∀ s : State, s.mode = .active → s.wbuf.length < 8 →
    ((s.closed = true → s.wbuf = []) →
      ∃ t, Emitted (padBits s.wbuf.length) s t ∧ t.wbuf = [] ∧ exec .bsFlush s = .next { t with done := true }) ∧
    (0 < s.cfg.B → (s.closed = true → s.wbuf = [] ∧ s.cfg.B ∣ s.bytesOut) →
      ∃ t, Emitted (zeroBits (wordPad s.cfg.B (8 * s.bytesOut + s.wbuf.length))) s t ∧ t.wbuf = [] ∧ s.cfg.B ∣ t.bytesOut ∧
        exec .bsPadWord s = .next { t with done := true }) ∧
    ((s.closed = true → s.wbuf = []) →
      ∃ t, Emitted (padBits s.wbuf.length) s t ∧ t.wbuf = [] ∧ exec .bsClose s = .next { t with closed := true, done := true }) ∧
    (s.closed = true → s.wbuf = [] → 0 < s.cfg.B → ¬ s.cfg.B ∣ s.bytesOut → exec .bsPadWord s = .next (failed .ioSink 0 s))

/-- BS_READ takes the next n bits as RESULT; above 32 it raises E_OPERAND(0); when the input ends first it raises E_EOS(2) with
every bit left consumed and RESULT unchanged (40_bitstream.md R201, R211). -/
def Obligations.BsReadTakesTheField : Prop :=
  ∀ s : State, s.mode = .active → s.rbuf.length < 8 →
    (∀ bits rest, s.arg0.toNat ≤ 32 → bits.length = s.arg0.toNat → s.inBits = bits ++ rest →
      ∃ t, Taken bits s t ∧ exec .bsRead s = .next { t with result := BitVec.ofNat 32 (bitsValue bits), done := true }) ∧
    (32 < s.arg0.toNat → exec .bsRead s = .next (failed .operand 0 s)) ∧
    (s.arg0.toNat ≤ 32 → s.inBits.length < s.arg0.toNat →
      ∃ t, Taken s.inBits s t ∧ exec .bsRead s = .next (failed .eos 2 t))

/-- UNARY_READ counts the zeros before the next one; an input that ends first raises E_EOS(2), and 2^32 zeros raise
E_FORMAT_UNARY(0) (40_bitstream.md R207, R217). -/
def Obligations.UnaryReadCountsZeros : Prop :=
  ∀ s : State, s.mode = .active → s.rbuf.length < 8 →
    (∀ u rest, u < 2 ^ 32 → s.inBits = List.replicate u false ++ true :: rest →
      ∃ t, Taken (List.replicate u false ++ [true]) s t ∧
        exec .unaryRead s = .next { t with result := BitVec.ofNat 32 u, done := true }) ∧
    (∀ n, n < 2 ^ 32 → s.inBits = List.replicate n false →
      ∃ t, Taken s.inBits s t ∧ exec .unaryRead s = .next (failed .eos 2 t)) ∧
    (∀ rest, s.inBits = List.replicate (2 ^ 32) false ++ rest →
      ∃ t, Taken (List.replicate (2 ^ 32) false) s t ∧ exec .unaryRead s = .next (failed .formatUnary 0 t))

/-- BS_READ_ALIGN discards the unread bits of the current byte and counts them (40_bitstream.md R203, R213). -/
def Obligations.ReadAlignDropsThePartialByte : Prop :=
  ∀ s : State, s.mode = .active →
    exec .bsReadAlign s =
      .next { s with rbuf := [], bitsIn := s.bitsIn + BitVec.ofNat 32 s.rbuf.length, done := true }

/-- What a sequence of fields, each below 2^n, writes before a flush is read back by a reader of the same widths; and a unary
codeword likewise (40_bitstream.md R218). -/
def Obligations.WrittenFieldsReadBack : Prop :=
  ∀ (fields : List (Nat × Nat)) (u : Nat) (s r : State) (more : List Byte), (∀ f ∈ fields, f.1 ≤ 32 ∧ f.2 < 2 ^ f.1) →
    u < 2 ^ 32 → s.closed = false → s.wbuf = [] →
    ∃ t, (do forEach fields (fun f => writeBits f.1 f.2)
             unaryWrite u
             flush) s = .ok () t ∧
      (r.rbuf = [] → r.bin = t.bout.drop s.bout.length ++ more →
        ∃ v, (do let vs ← collect fields (fun f => readBits f.1)
                 let n ← unaryReadWord
                 pure (vs, n)) r = .ok (fields.map (fun f => f.2), u) v ∧ more <:+ v.bin)

/-! ### Sample split -/

/-- RICE_MASK zeroes every bit above bit D − 1 of BLK[0 … J−1] and leaves the other words (41_rice.md R250, R260). -/
def Obligations.RiceMaskKeepsTheLowBits : Prop :=
  ∀ s : State, s.mode = .active → s.cfg.coder = 1 → ∃ blk : Vector Word 64,
    (∀ j : Fin 64, blk[j] = if j.val < s.cfg.J then BitVec.ofNat 32 (s.blk[j].toNat % 2 ^ s.cfg.D) else s.blk[j]) ∧
    exec .riceMask s = .next { s with blk := blk, done := true }

/-- RICE_CODE appends the split block of BLK[0 … J−1]; a position above 31 raises E_OPERAND(0), a closed stream E_IO_SINK
(30_encoding.md R147, 41_rice.md R251, R261). -/
def Obligations.RiceCodeAppendsTheSplitBlock : Prop :=
  ∀ s : State, s.mode = .active → s.cfg.coder = 1 →
    (s.arg0.toNat ≤ 31 → s.closed = false → s.wbuf.length < 8 →
      ∃ t, Emitted (splitCode (s.blk.toList.take s.cfg.J) s.arg0.toNat) s t ∧
        exec .riceCode s = .next { t with done := true }) ∧
    (31 < s.arg0.toNat → exec .riceCode s = .next (failed .operand 0 s)) ∧
    (s.arg0.toNat ≤ 31 → s.closed = true → 0 < s.cfg.J → exec .riceCode s = .next (failed .ioSink 0 s))

/-- RICE_DECODE reads the split block of any J samples back into BLK[0 … J−1]; a position above 31 raises E_OPERAND(0). An
input that ends inside the codewords raises E_EOS(2), and 2^32 zeros in the place of one E_FORMAT_UNARY(0), with the bits read
consumed and BLK as it was (41_rice.md R252, R254, R262). -/
def Obligations.RiceDecodeInvertsTheSplitBlock : Prop :=
  ∀ s : State, s.mode = .active → s.cfg.coder = 1 → s.rbuf.length < 8 →
    (∀ b rest, s.arg0.toNat ≤ 31 → b.length = s.cfg.J → s.inBits = splitCode b s.arg0.toNat ++ rest →
      ∃ t blk, Taken (splitCode b s.arg0.toNat) s t ∧ blkWith b s.blk blk ∧
        exec .riceDecode s = .next { t with blk := blk, done := true }) ∧
    (31 < s.arg0.toNat → exec .riceDecode s = .next (failed .operand 0 s)) ∧
    (∀ (q : List Nat) (low more : List Bool), s.arg0.toNat ≤ 31 → q.length = s.cfg.J → (∀ u ∈ q, u < 2 ^ 32) →
      low.length = s.cfg.J * s.arg0.toNat → more ≠ [] → q.flatMap unaryCode ++ low = s.inBits ++ more →
      ∃ t, Taken s.inBits s t ∧ exec .riceDecode s = .next (failed .eos 2 t)) ∧
    (∀ (q : List Nat) (rest : List Bool), s.arg0.toNat ≤ 31 → q.length < s.cfg.J → (∀ u ∈ q, u < 2 ^ 32) →
      s.inBits = q.flatMap unaryCode ++ zeroBits (2 ^ 32) ++ rest →
      ∃ t, Taken (q.flatMap unaryCode ++ zeroBits (2 ^ 32)) s t ∧ exec .riceDecode s = .next (failed .formatUnary 0 t))

/-- RICE_BEST answers the first cheapest of BACKUP and the split positions, for the masked block, and its cost
(41_rice.md R253, R263). -/
def Obligations.RiceBestIsTheFirstCheapest : Prop :=
  ∀ s : State, s.mode = .active → s.cfg.coder = 1 → ∃ best, firstLeast (riceCandidates s.cfg s.maskedBlk) best ∧
    exec .riceBest s =
      .next { s with result := BitVec.ofNat 32 best.1, result1 := BitVec.ofNat 32 best.2, done := true }

/-! ### Block-adaptive coder -/

/-- BA_SELECT answers ZERO_BLOCK and size 0 for a block of zeros, else the code of the first cheapest option and its size
(42_block_adaptive.md R282 to R286, R310). -/
def Obligations.BaSelectIsTheFirstCheapest : Prop :=
  ∀ s : State, s.mode = .active → s.cfg.coder = 1 →
    (allZero s.maskedBlk → exec .baSelect s = .next { s with result := 0, result1 := 0, done := true }) ∧
    (¬ allZero s.maskedBlk → ∃ option size, firstLeast (blockCandidates s.cfg s.maskedBlk) (option, size) ∧
      exec .baSelect s = .next { s with
        result := (match option with
          | .zeroBlock => 0
          | .secondExt => 1
          | .sampleSplit k => BitVec.ofNat 32 (2 + 256 * k)
          | .backup => 3),
        result1 := BitVec.ofNat 32 size, done := true })

/-- BA_CODE_BLOCK sends the pending run and the block under the chosen option, keeps a zero block pending, and at a boundary
sends the run; after a terminate it raises E_TERMINATED (42_block_adaptive.md R286 to R293, R311). -/
def Obligations.BaCodeBlockEmitsTheBlock : Prop :=
  ∀ s : State, s.mode = .active → s.cfg.coder = 1 →
    (s.terminated = true → exec .baCodeBlock s = .next (failed .terminated 0 s)) ∧
    (s.terminated = false → s.wbuf.length < 8 → s.closed = false ∨ (allZero s.maskedBlk ∧ boundaryAfter s = false) →
      ∃ option t, Chosen s.cfg s.maskedBlk option ∧
        Emitted (blockCode s.cfg s.zrun s.maskedBlk (boundaryAfter s) option) s t ∧
        exec .baCodeBlock s = .next { t with
          zrun := pendingAfter s.zrun (boundaryAfter s) option, cs := segmentAfter s, cr := referenceAfter s, done := true })

/-- BA_CODE_SAMPLE collects ARG0, and the J-th sample codes the block as BA_CODE_BLOCK would; after a terminate it raises
E_TERMINATED (42_block_adaptive.md R294, R314). That EBUF is then empty is log entry 12. -/
def Obligations.BaCodeSampleCollectsABlock : Prop :=
  ∀ s : State, s.mode = .active → s.cfg.coder = 1 → s.ebuf.length = s.efill →
    (s.terminated = true → exec .baCodeSample s = .next (failed .terminated 0 s)) ∧
    (s.terminated = false → s.efill + 1 ≠ s.cfg.J →
      exec .baCodeSample s = .next { s with ebuf := s.ebuf ++ [s.arg0], efill := s.efill + 1, done := true }) ∧
    (s.terminated = false → s.efill + 1 = s.cfg.J → s.wbuf.length < 8 → s.closed = false →
      ∃ option t, Chosen s.cfg (masked s.cfg (s.ebuf ++ [s.arg0])) option ∧
        Emitted (blockCode s.cfg s.zrun (masked s.cfg (s.ebuf ++ [s.arg0])) (boundaryAfter s) option) s t ∧
        exec .baCodeSample s = .next { t with
          zrun := pendingAfter s.zrun (boundaryAfter s) option, cs := segmentAfter s, cr := referenceAfter s, ebuf := [],
          efill := 0, done := true })

/-- BA_TERMINATE codes a partial block completed with zeros, sends the pending run as at a boundary, and fills the byte; a
second one raises E_TERMINATED (42_block_adaptive.md R295, R313). That EBUF is then empty is log entry 12. -/
def Obligations.BaTerminateSendsWhatIsPending : Prop :=
  ∀ s : State, s.mode = .active → s.cfg.coder = 1 → s.ebuf.length = s.efill →
    (s.terminated = true → exec .baTerminate s = .next (failed .terminated 0 s)) ∧
    (s.terminated = false → s.wbuf.length < 8 → s.efill = 0 → s.closed = false ∨ (s.zrun = 0 ∧ s.wbuf = []) →
      ∃ t, Emitted (boundaryRunCode s.cfg s.zrun ++ padBits (s.wbuf.length + (boundaryRunCode s.cfg s.zrun).length)) s t ∧
        exec .baTerminate s = .next { t with zrun := 0, terminated := true, done := true }) ∧
    (s.terminated = false → s.wbuf.length < 8 → 0 < s.efill → s.efill ≤ s.cfg.J → s.closed = false →
      ∃ option t, Chosen s.cfg (masked s.cfg (s.ebuf ++ List.replicate (s.cfg.J - s.efill) 0)) option ∧
        (let bits := blockCode s.cfg s.zrun (masked s.cfg (s.ebuf ++ List.replicate (s.cfg.J - s.efill) 0)) (boundaryAfter s)
            option ++ boundaryRunCode s.cfg (pendingAfter s.zrun (boundaryAfter s) option)
         Emitted (bits ++ padBits (s.wbuf.length + bits.length)) s t) ∧
        exec .baTerminate s = .next { t with
          zrun := 0, cs := segmentAfter s, cr := referenceAfter s, ebuf := [], efill := 0, terminated := true, done := true })

/-- BA_DECODE_BLOCK answers a zero block of a pending run without reading, the first block of a run, or the block a legal id and
payload stand for. An input that ends inside them raises E_EOS(2), and 2^32 zeros in the place of a unary codeword
E_FORMAT_UNARY(0), with the bits read consumed and BLK, the run and the counters as they were (42_block_adaptive.md R292, R296
to R299, R312). -/
def Obligations.BaDecodeBlockReadsTheBlock : Prop :=
  ∀ s : State, s.mode = .active → s.cfg.coder = 1 → s.rbuf.length < 8 →
    (0 < s.runrem → ∃ blk, blkWith (List.replicate s.cfg.J 0) s.blk blk ∧
      exec .baDecodeBlock s = .next { s with
        runrem := s.runrem - 1, cs := segmentAfter s, cr := referenceAfter s, blk := blk, done := true }) ∧
    (∀ n rest, s.runrem = 0 → n < 2 ^ 32 → s.inBits = idCode s.cfg .zeroBlock ++ unaryCode n ++ rest →
      ∃ t blk, Taken (idCode s.cfg .zeroBlock ++ unaryCode n) s t ∧ blkWith (List.replicate s.cfg.J 0) s.blk blk ∧
        exec .baDecodeBlock s = .next { t with
          runrem := runOf s n - 1, cs := segmentAfter s, cr := referenceAfter s, blk := blk, done := true }) ∧
    (∀ option b rest, s.runrem = 0 → idLegal s.cfg option → payloadLegal s.cfg b option → b.length = s.cfg.J →
      s.inBits = idCode s.cfg option ++ payloadCode s.cfg b option ++ rest →
      ∃ t blk, Taken (idCode s.cfg option ++ payloadCode s.cfg b option) s t ∧ blkWith b s.blk blk ∧
        exec .baDecodeBlock s = .next { t with cs := segmentAfter s, cr := referenceAfter s, blk := blk, done := true }) ∧
    (∀ (option : BlockOption) (q : List Nat) (plain more : List Bool), s.runrem = 0 → idLegal s.cfg option →
      q.length = unaryCount s.cfg option → (∀ u ∈ q, u < 2 ^ 32) → plain.length = plainCount s.cfg option → more ≠ [] →
      idCode s.cfg option ++ q.flatMap unaryCode ++ plain = s.inBits ++ more →
      ∃ t, Taken s.inBits s t ∧ exec .baDecodeBlock s = .next (failed .eos 2 t)) ∧
    (∀ (option : BlockOption) (q : List Nat) (rest : List Bool), s.runrem = 0 → idLegal s.cfg option →
      q.length < unaryCount s.cfg option → (∀ u ∈ q, u < 2 ^ 32) →
      s.inBits = idCode s.cfg option ++ q.flatMap unaryCode ++ zeroBits (2 ^ 32) ++ rest →
      ∃ t, Taken (idCode s.cfg option ++ q.flatMap unaryCode ++ zeroBits (2 ^ 32)) s t ∧
        exec .baDecodeBlock s = .next (failed .formatUnary 0 t))

/-- BA_DECODE_SAMPLE answers the next sample of the decoded block, or of the block BA_DECODE_BLOCK would answer where none is
left (42_block_adaptive.md R300, R315). -/
def Obligations.BaDecodeSampleTakesTheNext : Prop :=
  ∀ s : State, s.mode = .active → s.cfg.coder = 1 →
    (s.dbuf ≠ [] → s.dpos ≠ s.cfg.J →
      exec .baDecodeSample s = .next { s with result := s.dbuf.getD s.dpos 0, dpos := s.dpos + 1, done := true }) ∧
    (s.dbuf = [] ∨ s.dpos = s.cfg.J → 0 < s.runrem → exec .baDecodeSample s = .next { s with
      runrem := s.runrem - 1, cs := segmentAfter s, cr := referenceAfter s, dbuf := List.replicate s.cfg.J 0, dpos := 1,
      result := 0, done := true }) ∧
    (∀ t, s.dbuf = [] ∨ s.dpos = s.cfg.J → 0 < s.cfg.J → s.cfg.J ≤ 64 → s.cfg.J % 2 = 0 → exec .baDecodeBlock s = .next t →
      t.mode = .active → exec .baDecodeSample s = .next { t with
        blk := s.blk, dbuf := t.blk.toList.take s.cfg.J, dpos := 1, result := t.blk[0] })

/-! ### Sample-adaptive coder -/

/-- SA_INIT_BAND gives the band its first statistics and no other band any; a band outside the image raises E_OPERAND(0)
(43_sample_adaptive.md R340, R350). -/
def Obligations.SaInitBandSetsStatistics : Prop :=
  ∀ s : State, s.mode = .active → s.cfg.coder = 0 →
    (s.arg0.toNat < s.cfg.Z → ∃ stats : Memory BandStats,
      (let kappa := if s.cfg.K < 15 then s.cfg.K else natOf (s.ta.wordAt s.arg0.toNat)
       stats.cellAt s.arg0.toNat = some ⟨(3 * 2 ^ (kappa + 6) - 49) * 2 ^ s.cfg.G0 / 128, 2 ^ s.cfg.G0⟩) ∧
      (∀ z, z ≠ s.arg0.toNat → stats.cellAt z = s.stats.cellAt z) ∧
      exec .saInitBand s = .next { s with stats := stats, done := true }) ∧
    (s.cfg.Z ≤ s.arg0.toNat → exec .saInitBand s = .next (failed .operand 0 s))

/-- SA_UPDATE adds the residual to the band's statistics, halving them at the limit, and does nothing at t = 0; its operands
are checked in order, then the band (43_sample_adaptive.md R344, R353). -/
def Obligations.SaUpdateMovesStatistics : Prop :=
  ∀ s : State, s.mode = .active → s.cfg.coder = 0 →
    (∀ b, s.arg0.toNat < s.cfg.Z → s.arg1.toNat < s.cfg.X * s.cfg.Y → s.arg2.toNat < 2 ^ s.cfg.D →
      s.stats.cellAt s.arg0.toNat = some b → ∃ stats : Memory BandStats,
      stats.cellAt s.arg0.toNat = some
        (if s.arg1 = 0 then b
         else if b.cnt < 2 ^ s.cfg.GSTAR - 1 then ⟨b.acc + s.arg2.toNat, b.cnt + 1⟩
         else ⟨(b.acc + s.arg2.toNat + 1) / 2, (b.cnt + 1) / 2⟩) ∧
      (∀ z, z ≠ s.arg0.toNat → stats.cellAt z = s.stats.cellAt z) ∧
      exec .saUpdate s = .next { s with stats := stats, done := true }) ∧
    (s.cfg.Z ≤ s.arg0.toNat → exec .saUpdate s = .next (failed .operand 0 s)) ∧
    (s.arg0.toNat < s.cfg.Z → s.cfg.X * s.cfg.Y ≤ s.arg1.toNat → exec .saUpdate s = .next (failed .operand 1 s)) ∧
    (s.arg0.toNat < s.cfg.Z → s.arg1.toNat < s.cfg.X * s.cfg.Y → 2 ^ s.cfg.D ≤ s.arg2.toNat →
      exec .saUpdate s = .next (failed .operand 2 s)) ∧
    (s.arg0.toNat < s.cfg.Z → s.arg1.toNat < s.cfg.X * s.cfg.Y → s.arg2.toNat < 2 ^ s.cfg.D →
      s.stats.cellAt s.arg0.toNat = none → exec .saUpdate s = .next (failed .uninit s.arg0 s))

/-- SA_CODE appends the codeword of the residual and leaves the statistics; its operands are checked in order, then the band,
and on a closed stream it raises E_IO_SINK with nothing written; SA_TERMINATE fills the byte and marks the coder terminated;
after a terminate both raise E_TERMINATED (30_encoding.md R154, 43_sample_adaptive.md R342, R345, R351, R354). -/
def Obligations.SaCodeAndTerminateEmit : Prop :=
  ∀ s : State, s.mode = .active → s.cfg.coder = 0 →
    (∀ b, s.terminated = false → s.closed = false → s.wbuf.length < 8 → s.arg0.toNat < s.cfg.Z →
      s.arg1.toNat < s.cfg.X * s.cfg.Y → s.arg2.toNat < 2 ^ s.cfg.D → s.stats.cellAt s.arg0.toNat = some b →
      ∃ t, Emitted (adaptiveCode s.cfg (saK s.cfg b) s.arg1.toNat s.arg2.toNat) s t ∧
        exec .saCode s = .next { t with done := true }) ∧
    (s.terminated = false → s.arg0.toNat < s.cfg.Z → s.arg1.toNat < s.cfg.X * s.cfg.Y → s.arg2.toNat < 2 ^ s.cfg.D →
      s.stats.cellAt s.arg0.toNat = none → exec .saCode s = .next (failed .uninit s.arg0 s)) ∧
    (s.terminated = false → s.cfg.Z ≤ s.arg0.toNat → exec .saCode s = .next (failed .operand 0 s)) ∧
    (s.terminated = false → s.arg0.toNat < s.cfg.Z → s.cfg.X * s.cfg.Y ≤ s.arg1.toNat →
      exec .saCode s = .next (failed .operand 1 s)) ∧
    (s.terminated = false → s.arg0.toNat < s.cfg.Z → s.arg1.toNat < s.cfg.X * s.cfg.Y → 2 ^ s.cfg.D ≤ s.arg2.toNat →
      exec .saCode s = .next (failed .operand 2 s)) ∧
    (∀ b, s.terminated = false → s.closed = true → s.arg0.toNat < s.cfg.Z → s.arg1.toNat < s.cfg.X * s.cfg.Y →
      s.arg2.toNat < 2 ^ s.cfg.D → s.stats.cellAt s.arg0.toNat = some b → exec .saCode s = .next (failed .ioSink 0 s)) ∧
    (s.terminated = false → s.wbuf.length < 8 → (s.closed = true → s.wbuf = []) →
      ∃ t, Emitted (padBits s.wbuf.length) s t ∧ t.wbuf = [] ∧
        exec .saTerminate s = .next { t with terminated := true, done := true }) ∧
    (s.terminated = true → exec .saCode s = .next (failed .terminated 0 s) ∧
      exec .saTerminate s = .next (failed .terminated 0 s))

/-- SA_DECODE reads the codeword of a residual below 2^D back into RESULT and leaves the statistics; its operands are checked
in order, then the band. An input that ends inside a codeword raises E_EOS(2), and, but at t = 0, zero number Umax + 1 raises
E_FORMAT_UNARY(0), with the bits read consumed (43_sample_adaptive.md R341, R343, R352). -/
def Obligations.SaDecodeInvertsTheCodeword : Prop :=
  ∀ s : State, s.mode = .active → s.cfg.coder = 0 →
    (∀ b v rest, s.rbuf.length < 8 → s.arg0.toNat < s.cfg.Z → s.arg1.toNat < s.cfg.X * s.cfg.Y →
      s.stats.cellAt s.arg0.toNat = some b → v < 2 ^ s.cfg.D →
      s.inBits = adaptiveCode s.cfg (saK s.cfg b) s.arg1.toNat v ++ rest →
      ∃ t, Taken (adaptiveCode s.cfg (saK s.cfg b) s.arg1.toNat v) s t ∧
        exec .saDecode s = .next { t with result := BitVec.ofNat 32 v, done := true }) ∧
    (s.cfg.Z ≤ s.arg0.toNat → exec .saDecode s = .next (failed .operand 0 s)) ∧
    (s.arg0.toNat < s.cfg.Z → s.cfg.X * s.cfg.Y ≤ s.arg1.toNat → exec .saDecode s = .next (failed .operand 1 s)) ∧
    (s.arg0.toNat < s.cfg.Z → s.arg1.toNat < s.cfg.X * s.cfg.Y → s.stats.cellAt s.arg0.toNat = none →
      exec .saDecode s = .next (failed .uninit s.arg0 s)) ∧
    (∀ b v more, s.rbuf.length < 8 → s.arg0.toNat < s.cfg.Z → s.arg1.toNat < s.cfg.X * s.cfg.Y →
      s.stats.cellAt s.arg0.toNat = some b → more ≠ [] →
      adaptiveCode s.cfg (saK s.cfg b) s.arg1.toNat v = s.inBits ++ more →
      ∃ t, Taken s.inBits s t ∧ exec .saDecode s = .next (failed .eos 2 t)) ∧
    (∀ b rest, s.rbuf.length < 8 → s.arg0.toNat < s.cfg.Z → 0 < s.arg1.toNat → s.arg1.toNat < s.cfg.X * s.cfg.Y →
      s.stats.cellAt s.arg0.toNat = some b → s.inBits = zeroBits (s.cfg.UMAX + 1) ++ rest →
      ∃ t, Taken (zeroBits (s.cfg.UMAX + 1)) s t ∧ exec .saDecode s = .next (failed .formatUnary 0 t))

/-- The code parameter is the logarithm of the mean the statistics give, at most D − 2, and 0 where the mean is 0
(43_sample_adaptive.md R341); with γ₀ = 1 the first one of a band is min(κ, D − 2) (R347). -/
def Obligations.CodeParameterFollowsStatistics : Prop :=
  (∀ (c : Cfg) (b : BandStats), 0 < b.cnt →
    saK c b ≤ c.D - 2 ∧
    (saK c b < c.D - 2 → (b.acc + 49 * b.cnt / 128) / b.cnt < 2 ^ (saK c b + 1)) ∧
    (0 < saK c b → 2 ^ saK c b ≤ (b.acc + 49 * b.cnt / 128) / b.cnt)) ∧
  (∀ (s : State) (z : Nat), s.cfg.G0 = 1 → kappa s z ≤ 14 → saK s.cfg (initialStats s z) = min (kappa s z) (s.cfg.D - 2))

/-! ### Predictor -/

/-- PRED_INIT_BAND gives the band its default weights, or the custom weights of TW, and no other band any; a band outside the
image raises E_OPERAND(0) (44_predictor.md R381, R387 to R389, R410). -/
def Obligations.PredInitBandSetsWeights : Prop :=
  ∀ s : State, s.mode = .active →
    (s.arg0.toNat < s.cfg.Z → ∃ (weights : Memory (List Int)) (w : List Int),
      weights.cellAt s.arg0.toNat = some w ∧ w.length = (if s.cfg.pmode = 0 then 3 else 0) + min s.cfg.P s.arg0.toNat ∧
      (s.cfg.winit = 0 → (s.cfg.pmode = 0 → w.take 3 = [0, 0, 0]) ∧
        ∀ j < min s.cfg.P s.arg0.toNat, w.getD ((if s.cfg.pmode = 0 then 3 else 0) + j) 0 =
          7 * 2 ^ (s.cfg.OMEGA - 3) / 8 ^ j) ∧
      (s.cfg.winit ≠ 0 → s.cfg.Q ≤ s.cfg.OMEGA + 3 → ∀ i < w.length, w.getD i 0 =
        2 ^ (s.cfg.OMEGA + 3 - s.cfg.Q) * (s.tw.wordAt (18 * s.arg0.toNat + i)).toInt +
          (if s.cfg.Q ≤ s.cfg.OMEGA + 2 then 2 ^ (s.cfg.OMEGA + 2 - s.cfg.Q) - 1 else 0)) ∧
      (∀ z, z ≠ s.arg0.toNat → weights.cellAt z = s.weights.cellAt z) ∧
      exec .predInitBand s = .next { s with weights := weights, done := true }) ∧
    (s.cfg.Z ≤ s.arg0.toNat → exec .predInitBand s = .next (failed .operand 0 s))

/-- PRED_COMPRESS at a position whose band is initialized and whose cells are written answers the mapped residual and s_scaled,
publishes the sample and moves the weights of its band (44_predictor.md R381 to R386, R390, R400 to R404, R407, R411; the
directional formulas are the spec's passage G1, log entry 16). -/
def Obligations.PredCompressPredictsAndPublishes : Prop :=
  ∀ (s : State) (w : List Int), s.mode = .active →
    let p : Cursor := ⟨s.arg0.toNat, s.arg1.toNat / 65536, s.arg1.toNat % 65536⟩
    p.z < s.cfg.Z → p.y < s.cfg.Y → p.x < s.cfg.X → s.cfg.SMIN ≤ s.arg2.toInt → s.arg2.toInt ≤ s.cfg.SMAX →
    s.weights.cellAt p.z = some w → (∀ q ∈ neededCells s.cfg p, (s.sampleAt q).isSome) →
    ∃ t, Predicted p w s.arg2.toInt s t ∧
      t.result = BitVec.ofInt 32 (mapResidual s.cfg s.arg2.toInt (scaledOf s.cfg w s.samples p)) ∧
      exec .predCompress s = .next t

/-- PRED_DECOMPRESS at a position whose band is initialized and whose cells are written answers the sample of the residual and
s_scaled, publishes the sample and moves the weights of its band (44_predictor.md R390, R400 to R404, R408, R412; the
directional formulas are the spec's passage G1, log entry 16). -/
def Obligations.PredDecompressReconstructsAndPublishes : Prop :=
  ∀ (s : State) (w : List Int), s.mode = .active →
    let p : Cursor := ⟨s.arg0.toNat, s.arg1.toNat / 65536, s.arg1.toNat % 65536⟩
    p.z < s.cfg.Z → p.y < s.cfg.Y → p.x < s.cfg.X → s.arg2.toNat < 2 ^ s.cfg.D →
    s.weights.cellAt p.z = some w → (∀ q ∈ neededCells s.cfg p, (s.sampleAt q).isSome) →
    let v := unmapResidual s.cfg s.arg2.toNat (scaledOf s.cfg w s.samples p)
    ∃ t, Predicted p w v s t ∧ t.result = BitVec.ofInt 32 v ∧ exec .predDecompress s = .next t

/-- The errors of the predictor commands in their order: the band, the position, then with the cursor already set the sample or
residual, the uninitialized band, and the first unwritten history cell in the order of reading (20_memory.md R106,
44_predictor.md R407 to R409, R411, R412). -/
def Obligations.PredictorErrorsInOrder : Prop :=
  ∀ s : State, s.mode = .active →
    let p : Cursor := ⟨s.arg0.toNat, s.arg1.toNat / 65536, s.arg1.toNat % 65536⟩
    let both (t : State) : Prop := exec .predCompress s = .next t ∧ exec .predDecompress s = .next t
    (s.cfg.Z ≤ p.z → both (failed .operand 0 s)) ∧
    (p.z < s.cfg.Z → s.cfg.Y ≤ p.y ∨ s.cfg.X ≤ p.x → both (failed .operand 1 s)) ∧
    (p.z < s.cfg.Z → p.y < s.cfg.Y → p.x < s.cfg.X →
      (s.arg2.toInt < s.cfg.SMIN ∨ s.cfg.SMAX < s.arg2.toInt →
        exec .predCompress s = .next (failed .sampleRange s.arg2 { s with cursor := p })) ∧
      (2 ^ s.cfg.D ≤ s.arg2.toNat → exec .predDecompress s = .next (failed .formatValue s.arg2 { s with cursor := p })) ∧
      (s.cfg.SMIN ≤ s.arg2.toInt → s.arg2.toInt ≤ s.cfg.SMAX →
        (s.weights.cellAt p.z = none →
          exec .predCompress s = .next (failed .uninit s.arg0 { s with cursor := p })) ∧
        ∀ w q, s.weights.cellAt p.z = some w → (neededCells s.cfg p).find? (fun q => (s.sampleAt q).isNone) = some q →
          exec .predCompress s = .next (failed .history (BitVec.ofNat 32 (q.z % 65536 * 65536 + q.y % 65536))
            { s with cursor := p })) ∧
      (s.arg2.toNat < 2 ^ s.cfg.D →
        (s.weights.cellAt p.z = none →
          exec .predDecompress s = .next (failed .uninit s.arg0 { s with cursor := p })) ∧
        ∀ w q, s.weights.cellAt p.z = some w → (neededCells s.cfg p).find? (fun q => (s.sampleAt q).isNone) = some q →
          exec .predDecompress s = .next (failed .history (BitVec.ofNat 32 (q.z % 65536 * 65536 + q.y % 65536))
            { s with cursor := p })))

/-! ### Mapper -/

/-- RES_MAP and RES_UNMAP answer the mapped residual and the sample by the formulas of 45_mapper.md R450 and R451, change
nothing else, and raise E_OPERAND for the first operand outside its range (R460, R461). -/
def Obligations.MapCommandsAnswerTheFormulas : Prop :=
  ∀ s : State, s.mode = .active →
    let inRange : Prop := 2 * s.cfg.SMIN ≤ s.arg1.toInt ∧ s.arg1.toInt ≤ 2 * s.cfg.SMAX + 1
    let sPred := s.arg1.toInt / 2
    let m := min (sPred - s.cfg.SMIN) (s.cfg.SMAX - sPred)
    let even : Prop := s.arg1.toInt % 2 = 0
    (s.cfg.SMIN ≤ s.arg0.toInt → s.arg0.toInt ≤ s.cfg.SMAX → inRange →
      let r := s.arg0.toInt - sPred
      exec .resMap s = .next { s with
        result := BitVec.ofInt 32 (if m < |r| then |r| + m
          else if (even ∧ 0 ≤ r) ∨ (¬ even ∧ r ≤ 0) then 2 * |r| else 2 * |r| - 1),
        done := true }) ∧
    (s.arg0.toInt < s.cfg.SMIN ∨ s.cfg.SMAX < s.arg0.toInt → exec .resMap s = .next (failed .operand 0 s)) ∧
    (s.cfg.SMIN ≤ s.arg0.toInt → s.arg0.toInt ≤ s.cfg.SMAX → ¬ inRange → exec .resMap s = .next (failed .operand 1 s)) ∧
    (s.arg0.toNat < 2 ^ s.cfg.D → inRange →
      let d : Int := s.arg0.toNat
      let r := if 2 * m < d then (if m = sPred - s.cfg.SMIN then d - m else m - d)
        else if d % 2 = 0 then (if even then d / 2 else -(d / 2))
        else if even then -((d + 1) / 2) else (d + 1) / 2
      exec .resUnmap s = .next { s with result := BitVec.ofInt 32 (sPred + r), done := true }) ∧
    (2 ^ s.cfg.D ≤ s.arg0.toNat → exec .resUnmap s = .next (failed .operand 0 s)) ∧
    (s.arg0.toNat < 2 ^ s.cfg.D → ¬ inRange → exec .resUnmap s = .next (failed .operand 1 s))

/-- For every scaled prediction in range the map is a bijection from the sample range onto [0, 2^D − 1] and the inverse map is
its inverse (45_mapper.md R452, R453). -/
def Obligations.MapIsABijection : Prop :=
  ∀ (c : Cfg) (ss : Int), 1 ≤ c.D → 2 * c.SMIN ≤ ss → ss ≤ 2 * c.SMAX + 1 →
    (∀ v, c.SMIN ≤ v → v ≤ c.SMAX →
      0 ≤ mapResidual c v ss ∧ mapResidual c v ss ≤ 2 ^ c.D - 1 ∧ unmapResidual c (mapResidual c v ss) ss = v) ∧
    (∀ d : Int, 0 ≤ d → d ≤ 2 ^ c.D - 1 →
      c.SMIN ≤ unmapResidual c d ss ∧ unmapResidual c d ss ≤ c.SMAX ∧ mapResidual c (unmapResidual c d ss) ss = d)

/-! ### Header -/

/-- HDR_WRITE appends the header of the configuration, section by section, and nothing else changes; on a closed stream it
raises E_IO_SINK (30_encoding.md R155 to R160, 46_header.md R480, R490). -/
def Obligations.HdrWriteAppendsTheHeader : Prop :=
  ∀ s : State, s.mode = .active →
    (s.closed = false → s.wbuf.length < 8 → ∃ t, Emitted (headerBits s.wbuf.length s.cfg s.ta s.tw) s t ∧ t.wbuf = [] ∧
      exec .hdrWrite s = .next { t with done := true }) ∧
    (s.closed = true → exec .hdrWrite s = .next (failed .ioSink 0 s))

/-- The length of a header in bytes (46_header.md R483). -/
def Obligations.HeaderLengthInBytes : Prop :=
  (∀ (c : Cfg) (ta tw : Memory Word), (headerBits 0 c ta tw).length = 8 * (12 + 5 +
    (if c.wtable = 1 then (c.Q * ((List.range c.Z).map fun z => (if c.pmode = 0 then 3 else 0) + min c.P z).sum + 7) / 8
      else 0) +
    (if c.coder = 0 then (if c.atable = 1 then 2 + (c.Z + 1) / 2 else 2) else 2))) ∧
  (headerBits 0 State.reset.cfg [] []).length = 8 * 19 ∧
  (headerBits 0 { State.reset.cfg with coder := 1 } [] []).length = 8 * 19

/-- HDR_READ of the header of any legal configuration opens a session under it: every parameter the header carries is read
back, the tables with it, the parameters it does not carry stay, the bytes after it stay in BIN, and the header of the
configuration read is the same header. An input that ends inside a header raises E_FORMAT_HEADER with the identifier of the
field it ends in, the registers of the fields before it read; a header that carries a parameter of no legal configuration
raises the error of the first failing check, E_FORMAT_HEADER but for CFG_S, CFG_REFSAMP and CFG_PEDANTIC. DECOMPRESS raises the
same errors (30_encoding.md R155 to R161, 46_header.md R480 to R482, R484, R491, 47_pipeline.md R553). The identifier of a BSQ
depth field is log entry 11, CFG_REFSAMP outside 0 and 1 log entry 14, and a D of 1 log entry 19. -/
def Obligations.HeaderReadsBack : Prop :=
  (∀ (s : State) (c : Cfg) (ta tw : Memory Word) (more : List Byte), s.mode = .idle → Memory.wf s = true →
    ({ s with cfg := c, ta := ta, tw := tw } : State).configLegal → outOfBandLegal c s →
    bitsOfBytes s.bin = headerBits 0 c ta tw ++ bitsOfBytes more →
    ∃ t, exec .hdrRead s = .next t ∧ t.mode = .active ∧ t.done = true ∧ t.cfg = headerCfg c s.cfg ∧ t.bin = more ∧
      t.bitsIn = BitVec.ofNat 32 (headerBits 0 c ta tw).length ∧
      (∀ z < c.Z, ∀ i < c.bandLength z, c.wtable = 1 → t.tw.wordAt (18 * z + i) = tw.wordAt (18 * z + i)) ∧
      (∀ key, c.wtable = 0 ∨ (∀ z < c.Z, ∀ i < c.bandLength z, key ≠ 18 * z + i) → t.tw.wordAt key = s.tw.wordAt key) ∧
      (∀ z < c.Z, c.coder = 0 → c.atable = 1 → t.ta.wordAt z = ta.wordAt z) ∧
      (∀ z, c.coder = 1 ∨ c.atable = 0 ∨ c.Z ≤ z → t.ta.wordAt z = s.ta.wordAt z) ∧
      headerBits 0 t.cfg t.ta t.tw = headerBits 0 c ta tw ∧
      t = { s with
        cfg := t.cfg, ta := t.ta, tw := t.tw, bin := more, bitsIn := t.bitsIn, rbuf := [], mode := .active, done := true,
        wbuf := [], bytesOut := 0, closed := false, bitsOut := 0, zrun := 0, cs := 0, cr := 0, ebuf := [], efill := 0,
        runrem := 0, dbuf := [], dpos := 0, terminated := false, weights := [], stats := [], hist := [],
        idBits := BitVec.ofNat 32 (idBitsOf t.cfg), backupOpt := BitVec.ofNat 32 (2 ^ idBitsOf t.cfg - 1) }) ∧
  (∀ (s : State) (c : Cfg) (ta tw : Memory Word) (id : Word) (stop : Nat), s.mode = .idle → headerCarries c ta tw →
    bitsOfBytes s.bin <+: headerBits 0 c ta tw →
    (headerEnds c ta tw).find? (fun e => 8 * s.bin.length < e.2) = some (id, stop) →
    ∃ t, exec .hdrRead s = .next t ∧ exec .decompress s = .next t ∧
      (∀ reg : CfgReg, t.cfg.read reg =
        if (headerEnds c ta tw).any (fun e => e.1 == BitVec.ofNat 32 reg.index && decide (e.2 ≤ 8 * s.bin.length))
          then (headerCfg c s.cfg).read reg else s.cfg.read reg) ∧
      t = failed .formatHeader id { s.cleared with
        cfg := t.cfg, ta := t.ta, tw := t.tw, bin := [], bitsIn := BitVec.ofNat 32 (8 * s.bin.length) }) ∧
  (∀ (s : State) (c : Cfg) (ta tw : Memory Word) (more : List Byte) (row : Bool × Raise), s.mode = .idle →
    headerCarries c ta tw → bitsOfBytes s.bin = headerBits 0 c ta tw ++ bitsOfBytes more →
    (validationList false { s with cfg := headerCfg c s.cfg, ta := ta, tw := tw }).find? (fun r => !r.1) = some row →
    ∃ t, exec .hdrRead s = .next t ∧ exec .decompress s = .next t ∧
      t = failed (afterHeader row.2).kind (afterHeader row.2).info { s.cleared with
        cfg := headerCfg c s.cfg, ta := t.ta, tw := t.tw, bin := more,
        bitsIn := BitVec.ofNat 32 (headerBits 0 c ta tw).length })

/-! ### Pipeline -/

/-- Both traversals visit each position of the cube exactly once, BSQ by band, row and column, BI by row, group of M bands,
column and band, and every cell a prediction reads before it (44_predictor.md R409, 47_pipeline.md R541 to R543). -/
def Obligations.TraversalVisitsEachPositionOnce : Prop :=
  ∀ s : State, s.configLegal →
    (positions s.cfg).Nodup ∧
    (∀ p : Cursor, p ∈ positions s.cfg ↔ p.z < s.cfg.Z ∧ p.y < s.cfg.Y ∧ p.x < s.cfg.X) ∧
    (s.cfg.order = 1 → (positions s.cfg).Pairwise fun p q =>
      p.z < q.z ∨ (p.z = q.z ∧ (p.y < q.y ∨ (p.y = q.y ∧ p.x < q.x)))) ∧
    (s.cfg.order = 0 → (positions s.cfg).Pairwise fun p q =>
      p.y < q.y ∨ (p.y = q.y ∧ (p.z / s.cfg.M < q.z / s.cfg.M ∨ (p.z / s.cfg.M = q.z / s.cfg.M ∧
        (p.x < q.x ∨ (p.x = q.x ∧ p.z < q.z)))))) ∧
    (∀ l p r, positions s.cfg = l ++ p :: r → ∀ q ∈ neededCells s.cfg p, q ∈ l)

/-- COMPRESS on a legal configuration with every sample of the image in SIN and in range completes: the stream of the image, a
whole number of words whose first bits are the header, is appended to BOUT, the image's samples leave SIN, the coder is
terminated and the stream closed, and the core is in IDLE at the last position (30_encoding.md R162, 47_pipeline.md R540 to
R552; the directional formulas of the predictions are the spec's passage G1, log entry 16). -/
def Obligations.CompressWritesTheStream : Prop :=
  ∀ s : State, s.mode = .idle → s.compressLegal → s.cfg.X * s.cfg.Y * s.cfg.Z ≤ s.sin.length →
    (∀ v ∈ s.sin.take (s.cfg.X * s.cfg.Y * s.cfg.Z), s.cfg.SMIN ≤ v.toInt ∧ v.toInt ≤ s.cfg.SMAX) →
    ∃ t bytes, exec .compress s = .next t ∧ t.bout = s.bout ++ bytes ∧ s.cfg.B ∣ bytes.length ∧
      headerBits 0 s.cfg s.ta s.tw <+: bitsOfBytes bytes ∧
      bitsOfBytes bytes = streamBits s.cfg s.ta s.tw (imageSample s.cfg s.sin) ∧ t.bytesOut = bytes.length ∧ t.wbuf = [] ∧
      t.bitsOut = BitVec.ofNat 32 (8 * bytes.length) ∧ t.mode = .idle ∧ t.done = true ∧ t.terminated = true ∧ t.closed = true ∧
      t.cursor = ⟨s.cfg.Z - 1, s.cfg.Y - 1, s.cfg.X - 1⟩ ∧ t.sin = s.sin.drop (s.cfg.X * s.cfg.Y * s.cfg.Z) ∧
      (t.cfg = s.cfg ∧ t.ta = s.ta ∧ t.tw = s.tw ∧ t.sout = s.sout ∧ t.bin = s.bin ∧ t.blk = s.blk ∧ t.arg0 = s.arg0 ∧
        t.arg1 = s.arg1 ∧ t.arg2 = s.arg2 ∧ t.arg3 = s.arg3 ∧ t.result = s.result ∧ t.result1 = s.result1 ∧
        t.irqEn = s.irqEn ∧ t.errCode = s.errCode ∧ t.errInfo = s.errInfo)

/-- The core is lossless: DECOMPRESS of the bytes a COMPRESS wrote, under the parameters the header does not carry, completes
and pushes exactly the image's samples to SOUT, in the order COMPRESS took them; and DECOMPRESS completes so whenever BIN begins
with the stream of an image in range under a legal configuration (00_scope.md R3, 30_encoding.md R162, 47_pipeline.md R550,
R553, R554). The directional formulas in that stream are the spec's passage G1, log entry 16; the round trip does not depend on
them. -/
def Obligations.DecompressGivesTheCubeBack : Prop :=
  (∀ (s t u : State) (more : List Byte), s.mode = .idle → s.compressLegal →
    s.cfg.X * s.cfg.Y * s.cfg.Z ≤ s.sin.length →
    (∀ v ∈ s.sin.take (s.cfg.X * s.cfg.Y * s.cfg.Z), s.cfg.SMIN ≤ v.toInt ∧ v.toInt ≤ s.cfg.SMAX) →
    exec .compress s = .next t →
    u.mode = .idle → Memory.wf u = true → outOfBandLegal s.cfg u → (s.cfg.coder = 1 → u.cfg.s = s.cfg.s) →
    u.bin = t.bout.drop s.bout.length ++ more →
    ∃ v, exec .decompress u = .next v ∧ Restored s.cfg (s.sin.take (s.cfg.X * s.cfg.Y * s.cfg.Z)) more u v) ∧
  (∀ (u : State) (c : Cfg) (ta tw : Memory Word) (image : List Word) (more : List Byte), u.mode = .idle →
    Memory.wf u = true → ({ u with cfg := c, ta := ta, tw := tw } : State).configLegal → outOfBandLegal c u →
    (c.coder = 1 → u.cfg.s = c.s) → imageLegal c image →
    bitsOfBytes u.bin = streamBits c ta tw (imageSample c image) ++ bitsOfBytes more →
    ∃ v, exec .decompress u = .next v ∧ Restored c image more u v)
end

