-- ==== Sys2Proof/Laws/State.lean ====
section
/-! SUPPORT. One lemma a field for every named update of the state. -/

namespace Sys2Proof.Machine

@[simp] theorem enterFault_mode (e : Raise) (s : State) : (enterFault e s).mode = .fault := rfl
@[simp] theorem enterFault_cursor (e : Raise) (s : State) : (enterFault e s).cursor = s.cursor := rfl
@[simp] theorem enterFault_done (e : Raise) (s : State) : (enterFault e s).done = s.done := rfl
@[simp] theorem enterFault_terminated (e : Raise) (s : State) : (enterFault e s).terminated = s.terminated := rfl
@[simp] theorem enterFault_closed (e : Raise) (s : State) : (enterFault e s).closed = s.closed := rfl
@[simp] theorem enterFault_errCode (e : Raise) (s : State) : (enterFault e s).errCode = e.kind := rfl
@[simp] theorem enterFault_errInfo (e : Raise) (s : State) : (enterFault e s).errInfo = e.info := rfl
@[simp] theorem enterFault_irqEn (e : Raise) (s : State) : (enterFault e s).irqEn = s.irqEn := rfl
@[simp] theorem enterFault_arg0 (e : Raise) (s : State) : (enterFault e s).arg0 = s.arg0 := rfl
@[simp] theorem enterFault_arg1 (e : Raise) (s : State) : (enterFault e s).arg1 = s.arg1 := rfl
@[simp] theorem enterFault_arg2 (e : Raise) (s : State) : (enterFault e s).arg2 = s.arg2 := rfl
@[simp] theorem enterFault_arg3 (e : Raise) (s : State) : (enterFault e s).arg3 = s.arg3 := rfl
@[simp] theorem enterFault_result (e : Raise) (s : State) : (enterFault e s).result = s.result := rfl
@[simp] theorem enterFault_result1 (e : Raise) (s : State) : (enterFault e s).result1 = s.result1 := rfl
@[simp] theorem enterFault_blk (e : Raise) (s : State) : (enterFault e s).blk = s.blk := rfl
@[simp] theorem enterFault_bitsOut (e : Raise) (s : State) : (enterFault e s).bitsOut = s.bitsOut := rfl
@[simp] theorem enterFault_bitsIn (e : Raise) (s : State) : (enterFault e s).bitsIn = s.bitsIn := rfl
@[simp] theorem enterFault_sin (e : Raise) (s : State) : (enterFault e s).sin = s.sin := rfl
@[simp] theorem enterFault_sout (e : Raise) (s : State) : (enterFault e s).sout = s.sout := rfl
@[simp] theorem enterFault_bin (e : Raise) (s : State) : (enterFault e s).bin = s.bin := rfl
@[simp] theorem enterFault_bout (e : Raise) (s : State) : (enterFault e s).bout = s.bout := rfl
@[simp] theorem enterFault_cfg (e : Raise) (s : State) : (enterFault e s).cfg = s.cfg := rfl
@[simp] theorem enterFault_ta (e : Raise) (s : State) : (enterFault e s).ta = s.ta := rfl
@[simp] theorem enterFault_tw (e : Raise) (s : State) : (enterFault e s).tw = s.tw := rfl
@[simp] theorem enterFault_idBits (e : Raise) (s : State) : (enterFault e s).idBits = s.idBits := rfl
@[simp] theorem enterFault_backupOpt (e : Raise) (s : State) : (enterFault e s).backupOpt = s.backupOpt := rfl
@[simp] theorem enterFault_derivedHeld (e : Raise) (s : State) : (enterFault e s).derivedHeld = s.derivedHeld := rfl
@[simp] theorem enterFault_weights (e : Raise) (s : State) : (enterFault e s).weights = s.weights := rfl
@[simp] theorem enterFault_stats (e : Raise) (s : State) : (enterFault e s).stats = s.stats := rfl
@[simp] theorem enterFault_wbuf (e : Raise) (s : State) : (enterFault e s).wbuf = s.wbuf := rfl
@[simp] theorem enterFault_bytesOut (e : Raise) (s : State) : (enterFault e s).bytesOut = s.bytesOut := rfl
@[simp] theorem enterFault_rbuf (e : Raise) (s : State) : (enterFault e s).rbuf = s.rbuf := rfl
@[simp] theorem enterFault_zrun (e : Raise) (s : State) : (enterFault e s).zrun = s.zrun := rfl
@[simp] theorem enterFault_cs (e : Raise) (s : State) : (enterFault e s).cs = s.cs := rfl
@[simp] theorem enterFault_cr (e : Raise) (s : State) : (enterFault e s).cr = s.cr := rfl
@[simp] theorem enterFault_ebuf (e : Raise) (s : State) : (enterFault e s).ebuf = s.ebuf := rfl
@[simp] theorem enterFault_efill (e : Raise) (s : State) : (enterFault e s).efill = s.efill := rfl
@[simp] theorem enterFault_runrem (e : Raise) (s : State) : (enterFault e s).runrem = s.runrem := rfl
@[simp] theorem enterFault_dbuf (e : Raise) (s : State) : (enterFault e s).dbuf = s.dbuf := rfl
@[simp] theorem enterFault_dpos (e : Raise) (s : State) : (enterFault e s).dpos = s.dpos := rfl
@[simp] theorem enterFault_hist (e : Raise) (s : State) : (enterFault e s).hist = s.hist := rfl
@[simp] theorem enterFault_histCapacity (e : Raise) (s : State) : (enterFault e s).histCapacity = s.histCapacity := rfl
@[simp] theorem enterFault_script (e : Raise) (s : State) : (enterFault e s).script = s.script := rfl
@[simp] theorem enterFault_hostRead (e : Raise) (s : State) : (enterFault e s).hostRead = s.hostRead := rfl

@[simp] theorem setDone_mode (s : State) : (setDone s).mode = s.mode := rfl
@[simp] theorem setDone_cursor (s : State) : (setDone s).cursor = s.cursor := rfl
@[simp] theorem setDone_done (s : State) : (setDone s).done = true := rfl
@[simp] theorem setDone_terminated (s : State) : (setDone s).terminated = s.terminated := rfl
@[simp] theorem setDone_closed (s : State) : (setDone s).closed = s.closed := rfl
@[simp] theorem setDone_errCode (s : State) : (setDone s).errCode = s.errCode := rfl
@[simp] theorem setDone_errInfo (s : State) : (setDone s).errInfo = s.errInfo := rfl
@[simp] theorem setDone_irqEn (s : State) : (setDone s).irqEn = s.irqEn := rfl
@[simp] theorem setDone_arg0 (s : State) : (setDone s).arg0 = s.arg0 := rfl
@[simp] theorem setDone_arg1 (s : State) : (setDone s).arg1 = s.arg1 := rfl
@[simp] theorem setDone_arg2 (s : State) : (setDone s).arg2 = s.arg2 := rfl
@[simp] theorem setDone_arg3 (s : State) : (setDone s).arg3 = s.arg3 := rfl
@[simp] theorem setDone_result (s : State) : (setDone s).result = s.result := rfl
@[simp] theorem setDone_result1 (s : State) : (setDone s).result1 = s.result1 := rfl
@[simp] theorem setDone_blk (s : State) : (setDone s).blk = s.blk := rfl
@[simp] theorem setDone_bitsOut (s : State) : (setDone s).bitsOut = s.bitsOut := rfl
@[simp] theorem setDone_bitsIn (s : State) : (setDone s).bitsIn = s.bitsIn := rfl
@[simp] theorem setDone_sin (s : State) : (setDone s).sin = s.sin := rfl
@[simp] theorem setDone_sout (s : State) : (setDone s).sout = s.sout := rfl
@[simp] theorem setDone_bin (s : State) : (setDone s).bin = s.bin := rfl
@[simp] theorem setDone_bout (s : State) : (setDone s).bout = s.bout := rfl
@[simp] theorem setDone_cfg (s : State) : (setDone s).cfg = s.cfg := rfl
@[simp] theorem setDone_ta (s : State) : (setDone s).ta = s.ta := rfl
@[simp] theorem setDone_tw (s : State) : (setDone s).tw = s.tw := rfl
@[simp] theorem setDone_idBits (s : State) : (setDone s).idBits = s.idBits := rfl
@[simp] theorem setDone_backupOpt (s : State) : (setDone s).backupOpt = s.backupOpt := rfl
@[simp] theorem setDone_derivedHeld (s : State) : (setDone s).derivedHeld = s.derivedHeld := rfl
@[simp] theorem setDone_weights (s : State) : (setDone s).weights = s.weights := rfl
@[simp] theorem setDone_stats (s : State) : (setDone s).stats = s.stats := rfl
@[simp] theorem setDone_wbuf (s : State) : (setDone s).wbuf = s.wbuf := rfl
@[simp] theorem setDone_bytesOut (s : State) : (setDone s).bytesOut = s.bytesOut := rfl
@[simp] theorem setDone_rbuf (s : State) : (setDone s).rbuf = s.rbuf := rfl
@[simp] theorem setDone_zrun (s : State) : (setDone s).zrun = s.zrun := rfl
@[simp] theorem setDone_cs (s : State) : (setDone s).cs = s.cs := rfl
@[simp] theorem setDone_cr (s : State) : (setDone s).cr = s.cr := rfl
@[simp] theorem setDone_ebuf (s : State) : (setDone s).ebuf = s.ebuf := rfl
@[simp] theorem setDone_efill (s : State) : (setDone s).efill = s.efill := rfl
@[simp] theorem setDone_runrem (s : State) : (setDone s).runrem = s.runrem := rfl
@[simp] theorem setDone_dbuf (s : State) : (setDone s).dbuf = s.dbuf := rfl
@[simp] theorem setDone_dpos (s : State) : (setDone s).dpos = s.dpos := rfl
@[simp] theorem setDone_hist (s : State) : (setDone s).hist = s.hist := rfl
@[simp] theorem setDone_histCapacity (s : State) : (setDone s).histCapacity = s.histCapacity := rfl
@[simp] theorem setDone_script (s : State) : (setDone s).script = s.script := rfl
@[simp] theorem setDone_hostRead (s : State) : (setDone s).hostRead = s.hostRead := rfl

@[simp] theorem setMode_mode (m : Mode) (s : State) : (setMode m s).mode = m := rfl
@[simp] theorem setMode_cursor (m : Mode) (s : State) : (setMode m s).cursor = s.cursor := rfl
@[simp] theorem setMode_done (m : Mode) (s : State) : (setMode m s).done = s.done := rfl
@[simp] theorem setMode_terminated (m : Mode) (s : State) : (setMode m s).terminated = s.terminated := rfl
@[simp] theorem setMode_closed (m : Mode) (s : State) : (setMode m s).closed = s.closed := rfl
@[simp] theorem setMode_errCode (m : Mode) (s : State) : (setMode m s).errCode = s.errCode := rfl
@[simp] theorem setMode_errInfo (m : Mode) (s : State) : (setMode m s).errInfo = s.errInfo := rfl
@[simp] theorem setMode_irqEn (m : Mode) (s : State) : (setMode m s).irqEn = s.irqEn := rfl
@[simp] theorem setMode_arg0 (m : Mode) (s : State) : (setMode m s).arg0 = s.arg0 := rfl
@[simp] theorem setMode_arg1 (m : Mode) (s : State) : (setMode m s).arg1 = s.arg1 := rfl
@[simp] theorem setMode_arg2 (m : Mode) (s : State) : (setMode m s).arg2 = s.arg2 := rfl
@[simp] theorem setMode_arg3 (m : Mode) (s : State) : (setMode m s).arg3 = s.arg3 := rfl
@[simp] theorem setMode_result (m : Mode) (s : State) : (setMode m s).result = s.result := rfl
@[simp] theorem setMode_result1 (m : Mode) (s : State) : (setMode m s).result1 = s.result1 := rfl
@[simp] theorem setMode_blk (m : Mode) (s : State) : (setMode m s).blk = s.blk := rfl
@[simp] theorem setMode_bitsOut (m : Mode) (s : State) : (setMode m s).bitsOut = s.bitsOut := rfl
@[simp] theorem setMode_bitsIn (m : Mode) (s : State) : (setMode m s).bitsIn = s.bitsIn := rfl
@[simp] theorem setMode_sin (m : Mode) (s : State) : (setMode m s).sin = s.sin := rfl
@[simp] theorem setMode_sout (m : Mode) (s : State) : (setMode m s).sout = s.sout := rfl
@[simp] theorem setMode_bin (m : Mode) (s : State) : (setMode m s).bin = s.bin := rfl
@[simp] theorem setMode_bout (m : Mode) (s : State) : (setMode m s).bout = s.bout := rfl
@[simp] theorem setMode_cfg (m : Mode) (s : State) : (setMode m s).cfg = s.cfg := rfl
@[simp] theorem setMode_ta (m : Mode) (s : State) : (setMode m s).ta = s.ta := rfl
@[simp] theorem setMode_tw (m : Mode) (s : State) : (setMode m s).tw = s.tw := rfl
@[simp] theorem setMode_idBits (m : Mode) (s : State) : (setMode m s).idBits = s.idBits := rfl
@[simp] theorem setMode_backupOpt (m : Mode) (s : State) : (setMode m s).backupOpt = s.backupOpt := rfl
@[simp] theorem setMode_derivedHeld (m : Mode) (s : State) : (setMode m s).derivedHeld = s.derivedHeld := rfl
@[simp] theorem setMode_weights (m : Mode) (s : State) : (setMode m s).weights = s.weights := rfl
@[simp] theorem setMode_stats (m : Mode) (s : State) : (setMode m s).stats = s.stats := rfl
@[simp] theorem setMode_wbuf (m : Mode) (s : State) : (setMode m s).wbuf = s.wbuf := rfl
@[simp] theorem setMode_bytesOut (m : Mode) (s : State) : (setMode m s).bytesOut = s.bytesOut := rfl
@[simp] theorem setMode_rbuf (m : Mode) (s : State) : (setMode m s).rbuf = s.rbuf := rfl
@[simp] theorem setMode_zrun (m : Mode) (s : State) : (setMode m s).zrun = s.zrun := rfl
@[simp] theorem setMode_cs (m : Mode) (s : State) : (setMode m s).cs = s.cs := rfl
@[simp] theorem setMode_cr (m : Mode) (s : State) : (setMode m s).cr = s.cr := rfl
@[simp] theorem setMode_ebuf (m : Mode) (s : State) : (setMode m s).ebuf = s.ebuf := rfl
@[simp] theorem setMode_efill (m : Mode) (s : State) : (setMode m s).efill = s.efill := rfl
@[simp] theorem setMode_runrem (m : Mode) (s : State) : (setMode m s).runrem = s.runrem := rfl
@[simp] theorem setMode_dbuf (m : Mode) (s : State) : (setMode m s).dbuf = s.dbuf := rfl
@[simp] theorem setMode_dpos (m : Mode) (s : State) : (setMode m s).dpos = s.dpos := rfl
@[simp] theorem setMode_hist (m : Mode) (s : State) : (setMode m s).hist = s.hist := rfl
@[simp] theorem setMode_histCapacity (m : Mode) (s : State) : (setMode m s).histCapacity = s.histCapacity := rfl
@[simp] theorem setMode_script (m : Mode) (s : State) : (setMode m s).script = s.script := rfl
@[simp] theorem setMode_hostRead (m : Mode) (s : State) : (setMode m s).hostRead = s.hostRead := rfl

@[simp] theorem derive_mode (s : State) : (derive s).mode = s.mode := rfl
@[simp] theorem derive_cursor (s : State) : (derive s).cursor = s.cursor := rfl
@[simp] theorem derive_done (s : State) : (derive s).done = s.done := rfl
@[simp] theorem derive_terminated (s : State) : (derive s).terminated = s.terminated := rfl
@[simp] theorem derive_closed (s : State) : (derive s).closed = s.closed := rfl
@[simp] theorem derive_errCode (s : State) : (derive s).errCode = s.errCode := rfl
@[simp] theorem derive_errInfo (s : State) : (derive s).errInfo = s.errInfo := rfl
@[simp] theorem derive_irqEn (s : State) : (derive s).irqEn = s.irqEn := rfl
@[simp] theorem derive_arg0 (s : State) : (derive s).arg0 = s.arg0 := rfl
@[simp] theorem derive_arg1 (s : State) : (derive s).arg1 = s.arg1 := rfl
@[simp] theorem derive_arg2 (s : State) : (derive s).arg2 = s.arg2 := rfl
@[simp] theorem derive_arg3 (s : State) : (derive s).arg3 = s.arg3 := rfl
@[simp] theorem derive_result (s : State) : (derive s).result = s.result := rfl
@[simp] theorem derive_result1 (s : State) : (derive s).result1 = s.result1 := rfl
@[simp] theorem derive_blk (s : State) : (derive s).blk = s.blk := rfl
@[simp] theorem derive_bitsOut (s : State) : (derive s).bitsOut = s.bitsOut := rfl
@[simp] theorem derive_bitsIn (s : State) : (derive s).bitsIn = s.bitsIn := rfl
@[simp] theorem derive_sin (s : State) : (derive s).sin = s.sin := rfl
@[simp] theorem derive_sout (s : State) : (derive s).sout = s.sout := rfl
@[simp] theorem derive_bin (s : State) : (derive s).bin = s.bin := rfl
@[simp] theorem derive_bout (s : State) : (derive s).bout = s.bout := rfl
@[simp] theorem derive_cfg (s : State) : (derive s).cfg = s.cfg := rfl
@[simp] theorem derive_ta (s : State) : (derive s).ta = s.ta := rfl
@[simp] theorem derive_tw (s : State) : (derive s).tw = s.tw := rfl
@[simp] theorem derive_idBits (s : State) : (derive s).idBits = wordOfNat s.cfg.idBits := rfl
@[simp] theorem derive_backupOpt (s : State) : (derive s).backupOpt = wordOfNat s.cfg.backupOption := rfl
@[simp] theorem derive_derivedHeld (s : State) : (derive s).derivedHeld = s.derivedHeld := rfl
@[simp] theorem derive_weights (s : State) : (derive s).weights = s.weights := rfl
@[simp] theorem derive_stats (s : State) : (derive s).stats = s.stats := rfl
@[simp] theorem derive_wbuf (s : State) : (derive s).wbuf = s.wbuf := rfl
@[simp] theorem derive_bytesOut (s : State) : (derive s).bytesOut = s.bytesOut := rfl
@[simp] theorem derive_rbuf (s : State) : (derive s).rbuf = s.rbuf := rfl
@[simp] theorem derive_zrun (s : State) : (derive s).zrun = s.zrun := rfl
@[simp] theorem derive_cs (s : State) : (derive s).cs = s.cs := rfl
@[simp] theorem derive_cr (s : State) : (derive s).cr = s.cr := rfl
@[simp] theorem derive_ebuf (s : State) : (derive s).ebuf = s.ebuf := rfl
@[simp] theorem derive_efill (s : State) : (derive s).efill = s.efill := rfl
@[simp] theorem derive_runrem (s : State) : (derive s).runrem = s.runrem := rfl
@[simp] theorem derive_dbuf (s : State) : (derive s).dbuf = s.dbuf := rfl
@[simp] theorem derive_dpos (s : State) : (derive s).dpos = s.dpos := rfl
@[simp] theorem derive_hist (s : State) : (derive s).hist = s.hist := rfl
@[simp] theorem derive_histCapacity (s : State) : (derive s).histCapacity = s.histCapacity := rfl
@[simp] theorem derive_script (s : State) : (derive s).script = s.script := rfl
@[simp] theorem derive_hostRead (s : State) : (derive s).hostRead = s.hostRead := rfl

@[simp] theorem closePipeline_mode (s : State) : (closePipeline s).mode = .idle := rfl
@[simp] theorem closePipeline_cursor (s : State) : (closePipeline s).cursor = s.cursor := rfl
@[simp] theorem closePipeline_done (s : State) : (closePipeline s).done = s.done := rfl
@[simp] theorem closePipeline_terminated (s : State) : (closePipeline s).terminated = s.terminated := rfl
@[simp] theorem closePipeline_closed (s : State) : (closePipeline s).closed = s.closed := rfl
@[simp] theorem closePipeline_errCode (s : State) : (closePipeline s).errCode = s.errCode := rfl
@[simp] theorem closePipeline_errInfo (s : State) : (closePipeline s).errInfo = s.errInfo := rfl
@[simp] theorem closePipeline_irqEn (s : State) : (closePipeline s).irqEn = s.irqEn := rfl
@[simp] theorem closePipeline_arg0 (s : State) : (closePipeline s).arg0 = s.arg0 := rfl
@[simp] theorem closePipeline_arg1 (s : State) : (closePipeline s).arg1 = s.arg1 := rfl
@[simp] theorem closePipeline_arg2 (s : State) : (closePipeline s).arg2 = s.arg2 := rfl
@[simp] theorem closePipeline_arg3 (s : State) : (closePipeline s).arg3 = s.arg3 := rfl
@[simp] theorem closePipeline_result (s : State) : (closePipeline s).result = s.result := rfl
@[simp] theorem closePipeline_result1 (s : State) : (closePipeline s).result1 = s.result1 := rfl
@[simp] theorem closePipeline_blk (s : State) : (closePipeline s).blk = s.blk := rfl
@[simp] theorem closePipeline_bitsOut (s : State) : (closePipeline s).bitsOut = s.bitsOut := rfl
@[simp] theorem closePipeline_bitsIn (s : State) : (closePipeline s).bitsIn = s.bitsIn := rfl
@[simp] theorem closePipeline_sin (s : State) : (closePipeline s).sin = s.sin := rfl
@[simp] theorem closePipeline_sout (s : State) : (closePipeline s).sout = s.sout := rfl
@[simp] theorem closePipeline_bin (s : State) : (closePipeline s).bin = s.bin := rfl
@[simp] theorem closePipeline_bout (s : State) : (closePipeline s).bout = s.bout := rfl
@[simp] theorem closePipeline_cfg (s : State) : (closePipeline s).cfg = s.cfg := rfl
@[simp] theorem closePipeline_ta (s : State) : (closePipeline s).ta = s.ta := rfl
@[simp] theorem closePipeline_tw (s : State) : (closePipeline s).tw = s.tw := rfl
@[simp] theorem closePipeline_idBits (s : State) : (closePipeline s).idBits = s.idBits := rfl
@[simp] theorem closePipeline_backupOpt (s : State) : (closePipeline s).backupOpt = s.backupOpt := rfl
@[simp] theorem closePipeline_derivedHeld (s : State) : (closePipeline s).derivedHeld = true := rfl
@[simp] theorem closePipeline_weights (s : State) : (closePipeline s).weights = s.weights := rfl
@[simp] theorem closePipeline_stats (s : State) : (closePipeline s).stats = s.stats := rfl
@[simp] theorem closePipeline_wbuf (s : State) : (closePipeline s).wbuf = s.wbuf := rfl
@[simp] theorem closePipeline_bytesOut (s : State) : (closePipeline s).bytesOut = s.bytesOut := rfl
@[simp] theorem closePipeline_rbuf (s : State) : (closePipeline s).rbuf = s.rbuf := rfl
@[simp] theorem closePipeline_zrun (s : State) : (closePipeline s).zrun = s.zrun := rfl
@[simp] theorem closePipeline_cs (s : State) : (closePipeline s).cs = s.cs := rfl
@[simp] theorem closePipeline_cr (s : State) : (closePipeline s).cr = s.cr := rfl
@[simp] theorem closePipeline_ebuf (s : State) : (closePipeline s).ebuf = s.ebuf := rfl
@[simp] theorem closePipeline_efill (s : State) : (closePipeline s).efill = s.efill := rfl
@[simp] theorem closePipeline_runrem (s : State) : (closePipeline s).runrem = s.runrem := rfl
@[simp] theorem closePipeline_dbuf (s : State) : (closePipeline s).dbuf = s.dbuf := rfl
@[simp] theorem closePipeline_dpos (s : State) : (closePipeline s).dpos = s.dpos := rfl
@[simp] theorem closePipeline_hist (s : State) : (closePipeline s).hist = s.hist := rfl
@[simp] theorem closePipeline_histCapacity (s : State) : (closePipeline s).histCapacity = s.histCapacity := rfl
@[simp] theorem closePipeline_script (s : State) : (closePipeline s).script = s.script := rfl
@[simp] theorem closePipeline_hostRead (s : State) : (closePipeline s).hostRead = s.hostRead := rfl

@[simp] theorem pushByte_mode (b : Byte) (s : State) : (pushByte b s).mode = s.mode := rfl
@[simp] theorem pushByte_cursor (b : Byte) (s : State) : (pushByte b s).cursor = s.cursor := rfl
@[simp] theorem pushByte_done (b : Byte) (s : State) : (pushByte b s).done = s.done := rfl
@[simp] theorem pushByte_terminated (b : Byte) (s : State) : (pushByte b s).terminated = s.terminated := rfl
@[simp] theorem pushByte_closed (b : Byte) (s : State) : (pushByte b s).closed = s.closed := rfl
@[simp] theorem pushByte_errCode (b : Byte) (s : State) : (pushByte b s).errCode = s.errCode := rfl
@[simp] theorem pushByte_errInfo (b : Byte) (s : State) : (pushByte b s).errInfo = s.errInfo := rfl
@[simp] theorem pushByte_irqEn (b : Byte) (s : State) : (pushByte b s).irqEn = s.irqEn := rfl
@[simp] theorem pushByte_arg0 (b : Byte) (s : State) : (pushByte b s).arg0 = s.arg0 := rfl
@[simp] theorem pushByte_arg1 (b : Byte) (s : State) : (pushByte b s).arg1 = s.arg1 := rfl
@[simp] theorem pushByte_arg2 (b : Byte) (s : State) : (pushByte b s).arg2 = s.arg2 := rfl
@[simp] theorem pushByte_arg3 (b : Byte) (s : State) : (pushByte b s).arg3 = s.arg3 := rfl
@[simp] theorem pushByte_result (b : Byte) (s : State) : (pushByte b s).result = s.result := rfl
@[simp] theorem pushByte_result1 (b : Byte) (s : State) : (pushByte b s).result1 = s.result1 := rfl
@[simp] theorem pushByte_blk (b : Byte) (s : State) : (pushByte b s).blk = s.blk := rfl
@[simp] theorem pushByte_bitsOut (b : Byte) (s : State) : (pushByte b s).bitsOut = s.bitsOut := rfl
@[simp] theorem pushByte_bitsIn (b : Byte) (s : State) : (pushByte b s).bitsIn = s.bitsIn := rfl
@[simp] theorem pushByte_sin (b : Byte) (s : State) : (pushByte b s).sin = s.sin := rfl
@[simp] theorem pushByte_sout (b : Byte) (s : State) : (pushByte b s).sout = s.sout := rfl
@[simp] theorem pushByte_bin (b : Byte) (s : State) : (pushByte b s).bin = s.bin := rfl
@[simp] theorem pushByte_bout (b : Byte) (s : State) : (pushByte b s).bout = s.bout ++ [b] := rfl
@[simp] theorem pushByte_cfg (b : Byte) (s : State) : (pushByte b s).cfg = s.cfg := rfl
@[simp] theorem pushByte_ta (b : Byte) (s : State) : (pushByte b s).ta = s.ta := rfl
@[simp] theorem pushByte_tw (b : Byte) (s : State) : (pushByte b s).tw = s.tw := rfl
@[simp] theorem pushByte_idBits (b : Byte) (s : State) : (pushByte b s).idBits = s.idBits := rfl
@[simp] theorem pushByte_backupOpt (b : Byte) (s : State) : (pushByte b s).backupOpt = s.backupOpt := rfl
@[simp] theorem pushByte_derivedHeld (b : Byte) (s : State) : (pushByte b s).derivedHeld = s.derivedHeld := rfl
@[simp] theorem pushByte_weights (b : Byte) (s : State) : (pushByte b s).weights = s.weights := rfl
@[simp] theorem pushByte_stats (b : Byte) (s : State) : (pushByte b s).stats = s.stats := rfl
@[simp] theorem pushByte_wbuf (b : Byte) (s : State) : (pushByte b s).wbuf = s.wbuf := rfl
@[simp] theorem pushByte_bytesOut (b : Byte) (s : State) : (pushByte b s).bytesOut = s.bytesOut := rfl
@[simp] theorem pushByte_rbuf (b : Byte) (s : State) : (pushByte b s).rbuf = s.rbuf := rfl
@[simp] theorem pushByte_zrun (b : Byte) (s : State) : (pushByte b s).zrun = s.zrun := rfl
@[simp] theorem pushByte_cs (b : Byte) (s : State) : (pushByte b s).cs = s.cs := rfl
@[simp] theorem pushByte_cr (b : Byte) (s : State) : (pushByte b s).cr = s.cr := rfl
@[simp] theorem pushByte_ebuf (b : Byte) (s : State) : (pushByte b s).ebuf = s.ebuf := rfl
@[simp] theorem pushByte_efill (b : Byte) (s : State) : (pushByte b s).efill = s.efill := rfl
@[simp] theorem pushByte_runrem (b : Byte) (s : State) : (pushByte b s).runrem = s.runrem := rfl
@[simp] theorem pushByte_dbuf (b : Byte) (s : State) : (pushByte b s).dbuf = s.dbuf := rfl
@[simp] theorem pushByte_dpos (b : Byte) (s : State) : (pushByte b s).dpos = s.dpos := rfl
@[simp] theorem pushByte_hist (b : Byte) (s : State) : (pushByte b s).hist = s.hist := rfl
@[simp] theorem pushByte_histCapacity (b : Byte) (s : State) : (pushByte b s).histCapacity = s.histCapacity := rfl
@[simp] theorem pushByte_script (b : Byte) (s : State) : (pushByte b s).script = s.script := rfl
@[simp] theorem pushByte_hostRead (b : Byte) (s : State) : (pushByte b s).hostRead = s.hostRead := rfl

@[simp] theorem pushSample_mode (v : Word) (s : State) : (pushSample v s).mode = s.mode := rfl
@[simp] theorem pushSample_cursor (v : Word) (s : State) : (pushSample v s).cursor = s.cursor := rfl
@[simp] theorem pushSample_done (v : Word) (s : State) : (pushSample v s).done = s.done := rfl
@[simp] theorem pushSample_terminated (v : Word) (s : State) : (pushSample v s).terminated = s.terminated := rfl
@[simp] theorem pushSample_closed (v : Word) (s : State) : (pushSample v s).closed = s.closed := rfl
@[simp] theorem pushSample_errCode (v : Word) (s : State) : (pushSample v s).errCode = s.errCode := rfl
@[simp] theorem pushSample_errInfo (v : Word) (s : State) : (pushSample v s).errInfo = s.errInfo := rfl
@[simp] theorem pushSample_irqEn (v : Word) (s : State) : (pushSample v s).irqEn = s.irqEn := rfl
@[simp] theorem pushSample_arg0 (v : Word) (s : State) : (pushSample v s).arg0 = s.arg0 := rfl
@[simp] theorem pushSample_arg1 (v : Word) (s : State) : (pushSample v s).arg1 = s.arg1 := rfl
@[simp] theorem pushSample_arg2 (v : Word) (s : State) : (pushSample v s).arg2 = s.arg2 := rfl
@[simp] theorem pushSample_arg3 (v : Word) (s : State) : (pushSample v s).arg3 = s.arg3 := rfl
@[simp] theorem pushSample_result (v : Word) (s : State) : (pushSample v s).result = s.result := rfl
@[simp] theorem pushSample_result1 (v : Word) (s : State) : (pushSample v s).result1 = s.result1 := rfl
@[simp] theorem pushSample_blk (v : Word) (s : State) : (pushSample v s).blk = s.blk := rfl
@[simp] theorem pushSample_bitsOut (v : Word) (s : State) : (pushSample v s).bitsOut = s.bitsOut := rfl
@[simp] theorem pushSample_bitsIn (v : Word) (s : State) : (pushSample v s).bitsIn = s.bitsIn := rfl
@[simp] theorem pushSample_sin (v : Word) (s : State) : (pushSample v s).sin = s.sin := rfl
@[simp] theorem pushSample_sout (v : Word) (s : State) : (pushSample v s).sout = s.sout ++ [v] := rfl
@[simp] theorem pushSample_bin (v : Word) (s : State) : (pushSample v s).bin = s.bin := rfl
@[simp] theorem pushSample_bout (v : Word) (s : State) : (pushSample v s).bout = s.bout := rfl
@[simp] theorem pushSample_cfg (v : Word) (s : State) : (pushSample v s).cfg = s.cfg := rfl
@[simp] theorem pushSample_ta (v : Word) (s : State) : (pushSample v s).ta = s.ta := rfl
@[simp] theorem pushSample_tw (v : Word) (s : State) : (pushSample v s).tw = s.tw := rfl
@[simp] theorem pushSample_idBits (v : Word) (s : State) : (pushSample v s).idBits = s.idBits := rfl
@[simp] theorem pushSample_backupOpt (v : Word) (s : State) : (pushSample v s).backupOpt = s.backupOpt := rfl
@[simp] theorem pushSample_derivedHeld (v : Word) (s : State) : (pushSample v s).derivedHeld = s.derivedHeld := rfl
@[simp] theorem pushSample_weights (v : Word) (s : State) : (pushSample v s).weights = s.weights := rfl
@[simp] theorem pushSample_stats (v : Word) (s : State) : (pushSample v s).stats = s.stats := rfl
@[simp] theorem pushSample_wbuf (v : Word) (s : State) : (pushSample v s).wbuf = s.wbuf := rfl
@[simp] theorem pushSample_bytesOut (v : Word) (s : State) : (pushSample v s).bytesOut = s.bytesOut := rfl
@[simp] theorem pushSample_rbuf (v : Word) (s : State) : (pushSample v s).rbuf = s.rbuf := rfl
@[simp] theorem pushSample_zrun (v : Word) (s : State) : (pushSample v s).zrun = s.zrun := rfl
@[simp] theorem pushSample_cs (v : Word) (s : State) : (pushSample v s).cs = s.cs := rfl
@[simp] theorem pushSample_cr (v : Word) (s : State) : (pushSample v s).cr = s.cr := rfl
@[simp] theorem pushSample_ebuf (v : Word) (s : State) : (pushSample v s).ebuf = s.ebuf := rfl
@[simp] theorem pushSample_efill (v : Word) (s : State) : (pushSample v s).efill = s.efill := rfl
@[simp] theorem pushSample_runrem (v : Word) (s : State) : (pushSample v s).runrem = s.runrem := rfl
@[simp] theorem pushSample_dbuf (v : Word) (s : State) : (pushSample v s).dbuf = s.dbuf := rfl
@[simp] theorem pushSample_dpos (v : Word) (s : State) : (pushSample v s).dpos = s.dpos := rfl
@[simp] theorem pushSample_hist (v : Word) (s : State) : (pushSample v s).hist = s.hist := rfl
@[simp] theorem pushSample_histCapacity (v : Word) (s : State) : (pushSample v s).histCapacity = s.histCapacity := rfl
@[simp] theorem pushSample_script (v : Word) (s : State) : (pushSample v s).script = s.script := rfl
@[simp] theorem pushSample_hostRead (v : Word) (s : State) : (pushSample v s).hostRead = s.hostRead := rfl

@[simp] theorem alignReader_mode (s : State) : (alignReader s).mode = s.mode := rfl
@[simp] theorem alignReader_cursor (s : State) : (alignReader s).cursor = s.cursor := rfl
@[simp] theorem alignReader_done (s : State) : (alignReader s).done = s.done := rfl
@[simp] theorem alignReader_terminated (s : State) : (alignReader s).terminated = s.terminated := rfl
@[simp] theorem alignReader_closed (s : State) : (alignReader s).closed = s.closed := rfl
@[simp] theorem alignReader_errCode (s : State) : (alignReader s).errCode = s.errCode := rfl
@[simp] theorem alignReader_errInfo (s : State) : (alignReader s).errInfo = s.errInfo := rfl
@[simp] theorem alignReader_irqEn (s : State) : (alignReader s).irqEn = s.irqEn := rfl
@[simp] theorem alignReader_arg0 (s : State) : (alignReader s).arg0 = s.arg0 := rfl
@[simp] theorem alignReader_arg1 (s : State) : (alignReader s).arg1 = s.arg1 := rfl
@[simp] theorem alignReader_arg2 (s : State) : (alignReader s).arg2 = s.arg2 := rfl
@[simp] theorem alignReader_arg3 (s : State) : (alignReader s).arg3 = s.arg3 := rfl
@[simp] theorem alignReader_result (s : State) : (alignReader s).result = s.result := rfl
@[simp] theorem alignReader_result1 (s : State) : (alignReader s).result1 = s.result1 := rfl
@[simp] theorem alignReader_blk (s : State) : (alignReader s).blk = s.blk := rfl
@[simp] theorem alignReader_bitsOut (s : State) : (alignReader s).bitsOut = s.bitsOut := rfl
@[simp] theorem alignReader_bitsIn (s : State) : (alignReader s).bitsIn = s.bitsIn + wordOfNat s.rcnt := rfl
@[simp] theorem alignReader_sin (s : State) : (alignReader s).sin = s.sin := rfl
@[simp] theorem alignReader_sout (s : State) : (alignReader s).sout = s.sout := rfl
@[simp] theorem alignReader_bin (s : State) : (alignReader s).bin = s.bin := rfl
@[simp] theorem alignReader_bout (s : State) : (alignReader s).bout = s.bout := rfl
@[simp] theorem alignReader_cfg (s : State) : (alignReader s).cfg = s.cfg := rfl
@[simp] theorem alignReader_ta (s : State) : (alignReader s).ta = s.ta := rfl
@[simp] theorem alignReader_tw (s : State) : (alignReader s).tw = s.tw := rfl
@[simp] theorem alignReader_idBits (s : State) : (alignReader s).idBits = s.idBits := rfl
@[simp] theorem alignReader_backupOpt (s : State) : (alignReader s).backupOpt = s.backupOpt := rfl
@[simp] theorem alignReader_derivedHeld (s : State) : (alignReader s).derivedHeld = s.derivedHeld := rfl
@[simp] theorem alignReader_weights (s : State) : (alignReader s).weights = s.weights := rfl
@[simp] theorem alignReader_stats (s : State) : (alignReader s).stats = s.stats := rfl
@[simp] theorem alignReader_wbuf (s : State) : (alignReader s).wbuf = s.wbuf := rfl
@[simp] theorem alignReader_bytesOut (s : State) : (alignReader s).bytesOut = s.bytesOut := rfl
@[simp] theorem alignReader_rbuf (s : State) : (alignReader s).rbuf = [] := rfl
@[simp] theorem alignReader_zrun (s : State) : (alignReader s).zrun = s.zrun := rfl
@[simp] theorem alignReader_cs (s : State) : (alignReader s).cs = s.cs := rfl
@[simp] theorem alignReader_cr (s : State) : (alignReader s).cr = s.cr := rfl
@[simp] theorem alignReader_ebuf (s : State) : (alignReader s).ebuf = s.ebuf := rfl
@[simp] theorem alignReader_efill (s : State) : (alignReader s).efill = s.efill := rfl
@[simp] theorem alignReader_runrem (s : State) : (alignReader s).runrem = s.runrem := rfl
@[simp] theorem alignReader_dbuf (s : State) : (alignReader s).dbuf = s.dbuf := rfl
@[simp] theorem alignReader_dpos (s : State) : (alignReader s).dpos = s.dpos := rfl
@[simp] theorem alignReader_hist (s : State) : (alignReader s).hist = s.hist := rfl
@[simp] theorem alignReader_histCapacity (s : State) : (alignReader s).histCapacity = s.histCapacity := rfl
@[simp] theorem alignReader_script (s : State) : (alignReader s).script = s.script := rfl
@[simp] theorem alignReader_hostRead (s : State) : (alignReader s).hostRead = s.hostRead := rfl

@[simp] theorem clearSession_mode (s : State) : (clearSession s).mode = s.mode := rfl
@[simp] theorem clearSession_cursor (s : State) : (clearSession s).cursor = s.cursor := rfl
@[simp] theorem clearSession_done (s : State) : (clearSession s).done = s.done := rfl
@[simp] theorem clearSession_terminated (s : State) : (clearSession s).terminated = false := rfl
@[simp] theorem clearSession_closed (s : State) : (clearSession s).closed = false := rfl
@[simp] theorem clearSession_errCode (s : State) : (clearSession s).errCode = s.errCode := rfl
@[simp] theorem clearSession_errInfo (s : State) : (clearSession s).errInfo = s.errInfo := rfl
@[simp] theorem clearSession_irqEn (s : State) : (clearSession s).irqEn = s.irqEn := rfl
@[simp] theorem clearSession_arg0 (s : State) : (clearSession s).arg0 = s.arg0 := rfl
@[simp] theorem clearSession_arg1 (s : State) : (clearSession s).arg1 = s.arg1 := rfl
@[simp] theorem clearSession_arg2 (s : State) : (clearSession s).arg2 = s.arg2 := rfl
@[simp] theorem clearSession_arg3 (s : State) : (clearSession s).arg3 = s.arg3 := rfl
@[simp] theorem clearSession_result (s : State) : (clearSession s).result = s.result := rfl
@[simp] theorem clearSession_result1 (s : State) : (clearSession s).result1 = s.result1 := rfl
@[simp] theorem clearSession_blk (s : State) : (clearSession s).blk = s.blk := rfl
@[simp] theorem clearSession_bitsOut (s : State) : (clearSession s).bitsOut = 0 := rfl
@[simp] theorem clearSession_bitsIn (s : State) : (clearSession s).bitsIn = 0 := rfl
@[simp] theorem clearSession_sin (s : State) : (clearSession s).sin = s.sin := rfl
@[simp] theorem clearSession_sout (s : State) : (clearSession s).sout = s.sout := rfl
@[simp] theorem clearSession_bin (s : State) : (clearSession s).bin = s.bin := rfl
@[simp] theorem clearSession_bout (s : State) : (clearSession s).bout = s.bout := rfl
@[simp] theorem clearSession_cfg (s : State) : (clearSession s).cfg = s.cfg := rfl
@[simp] theorem clearSession_ta (s : State) : (clearSession s).ta = s.ta := rfl
@[simp] theorem clearSession_tw (s : State) : (clearSession s).tw = s.tw := rfl
@[simp] theorem clearSession_idBits (s : State) : (clearSession s).idBits = s.idBits := rfl
@[simp] theorem clearSession_backupOpt (s : State) : (clearSession s).backupOpt = s.backupOpt := rfl
@[simp] theorem clearSession_derivedHeld (s : State) : (clearSession s).derivedHeld = s.derivedHeld := rfl
@[simp] theorem clearSession_weights (s : State) : (clearSession s).weights = [] := rfl
@[simp] theorem clearSession_stats (s : State) : (clearSession s).stats = [] := rfl
@[simp] theorem clearSession_wbuf (s : State) : (clearSession s).wbuf = [] := rfl
@[simp] theorem clearSession_bytesOut (s : State) : (clearSession s).bytesOut = 0 := rfl
@[simp] theorem clearSession_rbuf (s : State) : (clearSession s).rbuf = [] := rfl
@[simp] theorem clearSession_zrun (s : State) : (clearSession s).zrun = 0 := rfl
@[simp] theorem clearSession_cs (s : State) : (clearSession s).cs = 0 := rfl
@[simp] theorem clearSession_cr (s : State) : (clearSession s).cr = 0 := rfl
@[simp] theorem clearSession_ebuf (s : State) : (clearSession s).ebuf = [] := rfl
@[simp] theorem clearSession_efill (s : State) : (clearSession s).efill = 0 := rfl
@[simp] theorem clearSession_runrem (s : State) : (clearSession s).runrem = 0 := rfl
@[simp] theorem clearSession_dbuf (s : State) : (clearSession s).dbuf = [] := rfl
@[simp] theorem clearSession_dpos (s : State) : (clearSession s).dpos = 0 := rfl
@[simp] theorem clearSession_hist (s : State) : (clearSession s).hist = [] := rfl
@[simp] theorem clearSession_histCapacity (s : State) : (clearSession s).histCapacity = s.histCapacity := rfl
@[simp] theorem clearSession_script (s : State) : (clearSession s).script = s.script := rfl
@[simp] theorem clearSession_hostRead (s : State) : (clearSession s).hostRead = s.hostRead := rfl

@[simp] theorem resetCore_mode (s : State) : (resetCore s).mode = State.reset.mode := rfl
@[simp] theorem resetCore_cursor (s : State) : (resetCore s).cursor = State.reset.cursor := rfl
@[simp] theorem resetCore_done (s : State) : (resetCore s).done = State.reset.done := rfl
@[simp] theorem resetCore_terminated (s : State) : (resetCore s).terminated = State.reset.terminated := rfl
@[simp] theorem resetCore_closed (s : State) : (resetCore s).closed = State.reset.closed := rfl
@[simp] theorem resetCore_errCode (s : State) : (resetCore s).errCode = State.reset.errCode := rfl
@[simp] theorem resetCore_errInfo (s : State) : (resetCore s).errInfo = State.reset.errInfo := rfl
@[simp] theorem resetCore_irqEn (s : State) : (resetCore s).irqEn = s.irqEn := rfl
@[simp] theorem resetCore_arg0 (s : State) : (resetCore s).arg0 = State.reset.arg0 := rfl
@[simp] theorem resetCore_arg1 (s : State) : (resetCore s).arg1 = State.reset.arg1 := rfl
@[simp] theorem resetCore_arg2 (s : State) : (resetCore s).arg2 = State.reset.arg2 := rfl
@[simp] theorem resetCore_arg3 (s : State) : (resetCore s).arg3 = State.reset.arg3 := rfl
@[simp] theorem resetCore_result (s : State) : (resetCore s).result = State.reset.result := rfl
@[simp] theorem resetCore_result1 (s : State) : (resetCore s).result1 = State.reset.result1 := rfl
@[simp] theorem resetCore_blk (s : State) : (resetCore s).blk = State.reset.blk := rfl
@[simp] theorem resetCore_bitsOut (s : State) : (resetCore s).bitsOut = State.reset.bitsOut := rfl
@[simp] theorem resetCore_bitsIn (s : State) : (resetCore s).bitsIn = State.reset.bitsIn := rfl
@[simp] theorem resetCore_sin (s : State) : (resetCore s).sin = State.reset.sin := rfl
@[simp] theorem resetCore_sout (s : State) : (resetCore s).sout = State.reset.sout := rfl
@[simp] theorem resetCore_bin (s : State) : (resetCore s).bin = State.reset.bin := rfl
@[simp] theorem resetCore_bout (s : State) : (resetCore s).bout = State.reset.bout := rfl
@[simp] theorem resetCore_cfg (s : State) : (resetCore s).cfg = s.cfg := rfl
@[simp] theorem resetCore_ta (s : State) : (resetCore s).ta = s.ta := rfl
@[simp] theorem resetCore_tw (s : State) : (resetCore s).tw = s.tw := rfl
@[simp] theorem resetCore_idBits (s : State) : (resetCore s).idBits = State.reset.idBits := rfl
@[simp] theorem resetCore_backupOpt (s : State) : (resetCore s).backupOpt = State.reset.backupOpt := rfl
@[simp] theorem resetCore_derivedHeld (s : State) : (resetCore s).derivedHeld = State.reset.derivedHeld := rfl
@[simp] theorem resetCore_weights (s : State) : (resetCore s).weights = State.reset.weights := rfl
@[simp] theorem resetCore_stats (s : State) : (resetCore s).stats = State.reset.stats := rfl
@[simp] theorem resetCore_wbuf (s : State) : (resetCore s).wbuf = State.reset.wbuf := rfl
@[simp] theorem resetCore_bytesOut (s : State) : (resetCore s).bytesOut = State.reset.bytesOut := rfl
@[simp] theorem resetCore_rbuf (s : State) : (resetCore s).rbuf = State.reset.rbuf := rfl
@[simp] theorem resetCore_zrun (s : State) : (resetCore s).zrun = State.reset.zrun := rfl
@[simp] theorem resetCore_cs (s : State) : (resetCore s).cs = State.reset.cs := rfl
@[simp] theorem resetCore_cr (s : State) : (resetCore s).cr = State.reset.cr := rfl
@[simp] theorem resetCore_ebuf (s : State) : (resetCore s).ebuf = State.reset.ebuf := rfl
@[simp] theorem resetCore_efill (s : State) : (resetCore s).efill = State.reset.efill := rfl
@[simp] theorem resetCore_runrem (s : State) : (resetCore s).runrem = State.reset.runrem := rfl
@[simp] theorem resetCore_dbuf (s : State) : (resetCore s).dbuf = State.reset.dbuf := rfl
@[simp] theorem resetCore_dpos (s : State) : (resetCore s).dpos = State.reset.dpos := rfl
@[simp] theorem resetCore_hist (s : State) : (resetCore s).hist = State.reset.hist := rfl
@[simp] theorem resetCore_histCapacity (s : State) : (resetCore s).histCapacity = s.histCapacity := rfl
@[simp] theorem resetCore_script (s : State) : (resetCore s).script = s.script := rfl
@[simp] theorem resetCore_hostRead (s : State) : (resetCore s).hostRead = s.hostRead := rfl

end Sys2Proof.Machine
end

