-- ==== Sys2Proof/Laws/Ops.lean ====
section
/-! SUPPORT. What the shared operations do: the operation type, loops, the command cycle, and the storage with its canonical
form. -/

namespace Sys2Proof.Machine

/-! ### Operations -/

variable {α β : Type}

theorem bind_apply (x : Op α) (f : α → Op β) (s : State) :
    (x >>= f) s = match x s with | .ok a t => f a t | .error e t => .error e t := by
  show EStateM.bind x f s = _
  unfold EStateM.bind
  cases x s <;> rfl

theorem bind_ok {x : Op α} {f : α → Op β} {s t : State} {a : α} (h : x s = .ok a t) : (x >>= f) s = f a t := by
  rw [bind_apply, h]

theorem bind_error {x : Op α} {f : α → Op β} {s t : State} {e : Raise} (h : x s = .error e t) :
    (x >>= f) s = .error e t := by
  rw [bind_apply, h]

/-- What a sequence can do: both parts end well, or one of them raises. -/
theorem bind_cases {x : Op α} {f : α → Op β} {s : State} {r : EStateM.Result Raise State β} (h : (x >>= f) s = r) :
    (∃ a t, x s = .ok a t ∧ f a t = r) ∨ ∃ e t, x s = .error e t ∧ r = .error e t := by
  rw [bind_apply] at h
  cases hx : x s with
  | ok a t => rw [hx] at h; exact .inl ⟨a, t, rfl, h⟩
  | error e t => rw [hx] at h; exact .inr ⟨e, t, rfl, h.symm⟩

@[simp] theorem pure_apply (a : α) (s : State) : (pure a : Op α) s = .ok a s := rfl
@[simp] theorem get_apply (s : State) : Op.get s = .ok s s := rfl
@[simp] theorem modify_apply (f : State → State) (s : State) : Op.modify f s = .ok () (f s) := rfl
@[simp] theorem raise_apply (k : ErrKind) (i : Word) (s : State) : (raise k i : Op α) s = .error ⟨k, i⟩ s := rfl
@[simp] theorem get_bind (f : State → Op β) (s : State) : (Op.get >>= f) s = f s s := rfl
@[simp] theorem modify_bind (g : State → State) (f : Unit → Op β) (s : State) : (Op.modify g >>= f) s = f () (g s) := rfl
@[simp] theorem pure_bind_apply (a : α) (f : α → Op β) (s : State) : ((pure a : Op α) >>= f) s = f a s := rfl
@[simp] theorem raise_bind (k : ErrKind) (i : Word) (f : α → Op β) (s : State) :
    ((raise k i : Op α) >>= f) s = .error ⟨k, i⟩ s := rfl

theorem require_apply (c : Prop) [Decidable c] (k : ErrKind) (i : Word) (s : State) :
    require c k i s = if c then .ok () s else .error ⟨k, i⟩ s := by
  unfold require; split <;> rfl

theorem require_ok {c : Prop} [Decidable c] (h : c) (k : ErrKind) (i : Word) (s : State) : require c k i s = .ok () s := by
  rw [require_apply, if_pos h]

theorem require_error {c : Prop} [Decidable c] (h : ¬ c) (k : ErrKind) (i : Word) (s : State) :
    require c k i s = .error ⟨k, i⟩ s := by
  rw [require_apply, if_neg h]

theorem require_bind_ok {c : Prop} [Decidable c] (h : c) (k : ErrKind) (i : Word) (f : Unit → Op β) (s : State) :
    (require c k i >>= f) s = f () s := bind_ok (require_ok h k i s)

theorem require_bind_error {c : Prop} [Decidable c] (h : ¬ c) (k : ErrKind) (i : Word) (f : Unit → Op β) (s : State) :
    (require c k i >>= f) s = .error ⟨k, i⟩ s := bind_error (require_error h k i s)

theorem forEach_nil (f : α → Op Unit) (s : State) : forEach [] f s = .ok () s := rfl

theorem forEach_cons (a : α) (as : List α) (f : α → Op Unit) (s : State) :
    forEach (a :: as) f s = (f a >>= fun _ => forEach as f) s := rfl

theorem collect_nil (f : α → Op β) (s : State) : collect [] f s = .ok [] s := rfl

theorem collect_cons_ok {a : α} {as : List α} {f : α → Op β} {s t u : State} {b : β} {bs : List β} (h : f a s = .ok b t)
    (hs : collect as f t = .ok bs u) : collect (a :: as) f s = .ok (b :: bs) u := by
  show (f a >>= fun b => collect as f >>= fun bs => pure (b :: bs)) s = _
  rw [bind_ok h, bind_ok hs]
  rfl

/-! ### Properties an operation keeps, whether it ends well or raises -/

/-- Every end of the operation, good or bad, is related to the state it began in. -/
def Ends (R : State → State → Prop) (x : Op α) : Prop :=
  ∀ s, match x s with
    | .ok _ t => R s t
    | .error _ t => R s t

theorem ends_pure {R : State → State → Prop} (refl : ∀ s, R s s) (a : α) : Ends R (pure a : Op α) := fun s => refl s

theorem ends_get {R : State → State → Prop} (refl : ∀ s, R s s) : Ends R Op.get := fun s => refl s

theorem ends_raise {R : State → State → Prop} (refl : ∀ s, R s s) (k : ErrKind) (i : Word) :
    Ends R (raise k i : Op α) := fun s => refl s

theorem ends_modify {R : State → State → Prop} {f : State → State} (h : ∀ s, R s (f s)) : Ends R (Op.modify f) := h

theorem ends_require {R : State → State → Prop} (refl : ∀ s, R s s) (c : Prop) [Decidable c] (k : ErrKind) (i : Word) :
    Ends R (require c k i) := by
  intro s
  rw [require_apply]
  split <;> rename_i h <;> split at h <;> cases h <;> exact refl s

theorem ends_bind {R : State → State → Prop} (trans : ∀ s t u, R s t → R t u → R s u) {x : Op α} {f : α → Op β}
    (hx : Ends R x) (hf : ∀ a, Ends R (f a)) : Ends R (x >>= f) := by
  intro s
  rw [bind_apply]
  have h1 := hx s
  cases hxs : x s with
  | ok a t =>
    rw [hxs] at h1
    have h2 := hf a t
    show match f a t with | .ok _ u => R s u | .error _ u => R s u
    cases hfa : f a t with
    | ok b u => rw [hfa] at h2; exact trans s t u h1 h2
    | error e u => rw [hfa] at h2; exact trans s t u h1 h2
  | error e t => rw [hxs] at h1; exact h1

theorem ends_forEach {R : State → State → Prop} (refl : ∀ s, R s s) (trans : ∀ s t u, R s t → R t u → R s u)
    {f : α → Op Unit} (h : ∀ a, Ends R (f a)) : ∀ l : List α, Ends R (forEach l f)
  | [] => ends_pure refl ()
  | a :: as => ends_bind trans (h a) fun _ => ends_forEach refl trans h as

theorem ends_collect {R : State → State → Prop} (refl : ∀ s, R s s) (trans : ∀ s t u, R s t → R t u → R s u)
    {f : α → Op β} (h : ∀ a, Ends R (f a)) : ∀ l : List α, Ends R (collect l f)
  | [] => ends_pure refl []
  | a :: as => ends_bind trans (h a) fun b => ends_bind trans (ends_collect refl trans h as) fun bs => ends_pure refl (b :: bs)

theorem ends_ite {R : State → State → Prop} {c : Prop} [Decidable c] {x y : Op α} (hx : Ends R x) (hy : Ends R y) :
    Ends R (if c then x else y) := by
  split
  · exact hx
  · exact hy

/-! ### The command cycle -/

/-- Everything a command does: it is ignored in FAULT, refused by its row, or its pseudocode ends well or raises. -/
theorem runCommand_eq (i : Instr) (body : Op Unit) (s : State) :
    runCommand i body s = .next
      (if s.mode = .fault ∧ i ≠ .reset then s
       else if runsIn i s.mode = false ∨ coderOk i s.cfg = false then enterFault ⟨.mode, encode i⟩ s
       else finishCommand (body s)) := by
  unfold runCommand
  split
  · rfl
  · by_cases h1 : runsIn i s.mode = false
    · simp [h1]
    · by_cases h2 : coderOk i s.cfg = false
      · simp [h1, h2]
      · simp [h1, h2]

theorem runCommand_of_ok {i : Instr} {body : Op Unit} {s t : State} (hm : s.mode ≠ .fault) (hr : runsIn i s.mode = true)
    (hc : coderOk i s.cfg = true) (h : body s = .ok () t) : runCommand i body s = .next (setDone t) := by
  simp [runCommand_eq, hm, hr, hc, h, finishCommand]

theorem runCommand_of_error {i : Instr} {body : Op Unit} {s t : State} {e : Raise} (hm : s.mode ≠ .fault)
    (hr : runsIn i s.mode = true) (hc : coderOk i s.cfg = true) (h : body s = .error e t) :
    runCommand i body s = .next (enterFault e t) := by
  simp [runCommand_eq, hm, hr, hc, h, finishCommand]

/-! ### Storage -/

namespace Memory

theorem cellAt_putCell_same (m : Memory α) (k : Nat) (v : α) : (m.putCell k v).cellAt k = some v := by
  induction m with
  | nil => simp [putCell, cellAt]
  | cons e m ih =>
    obtain ⟨k', v'⟩ := e
    unfold putCell
    split
    · simp [cellAt]
    · split
      · simp [cellAt]
      · simp [cellAt, *]

theorem cellAt_putCell_other (m : Memory α) {k k' : Nat} (h : k' ≠ k) (v : α) : (m.putCell k v).cellAt k' = m.cellAt k' := by
  induction m with
  | nil => simp [putCell, cellAt, h]
  | cons e m ih =>
    obtain ⟨k1, v1⟩ := e
    unfold putCell
    split
    · simp [cellAt, h]
    · split
      · rename_i h2; subst h2; simp [cellAt, h]
      · simp [cellAt, ih]

theorem cellAt_dropCell_other (m : Memory α) {k k' : Nat} (h : k' ≠ k) : (m.dropCell k).cellAt k' = m.cellAt k' := by
  induction m with
  | nil => rfl
  | cons e m ih =>
    obtain ⟨k1, v1⟩ := e
    unfold dropCell
    split
    · rename_i h2; subst h2; simp [cellAt, h]
    · simp [cellAt, ih]

/-- Sorted storage, as a relation between every two cells. -/
theorem sorted_iff (m : Memory α) : m.sorted = true ↔ m.Pairwise fun a b => a.1 < b.1 := by
  induction m with
  | nil => simp [sorted]
  | cons a m ih =>
    cases m with
    | nil => simp [sorted]
    | cons b m =>
      simp only [sorted, Bool.and_eq_true, decide_eq_true_eq, ih, List.pairwise_cons]
      constructor
      · rintro ⟨h, h1, h2⟩
        refine ⟨fun c hc => ?_, h1, h2⟩
        rcases List.mem_cons.mp hc with rfl | hc
        · exact h
        · exact lt_trans h (h1 c hc)
      · rintro ⟨h, h1, h2⟩
        exact ⟨h b (by simp), h1, h2⟩

theorem mem_putCell {m : Memory α} {k : Nat} {v : α} {e : Nat × α} (h : e ∈ m.putCell k v) : e = (k, v) ∨ e ∈ m := by
  induction m with
  | nil => simp [putCell] at h; exact .inl h
  | cons a m ih =>
    obtain ⟨k1, v1⟩ := a
    unfold putCell at h
    split at h
    · rcases List.mem_cons.mp h with h | h
      · exact .inl h
      · exact .inr h
    · split at h
      · rcases List.mem_cons.mp h with h | h
        · exact .inl h
        · exact .inr (List.mem_cons_of_mem _ h)
      · rcases List.mem_cons.mp h with h | h
        · exact .inr (h ▸ List.mem_cons_self ..)
        · exact (ih h).imp id (List.mem_cons_of_mem _)

theorem mem_dropCell {m : Memory α} {k : Nat} {e : Nat × α} (h : e ∈ m.dropCell k) : e ∈ m := by
  induction m with
  | nil => exact h
  | cons a m ih =>
    obtain ⟨k1, v1⟩ := a
    unfold dropCell at h
    split at h
    · exact List.mem_cons_of_mem _ h
    · rcases List.mem_cons.mp h with h | h
      · exact h ▸ List.mem_cons_self ..
      · exact List.mem_cons_of_mem _ (ih h)

theorem sorted_putCell {m : Memory α} (h : m.sorted = true) (k : Nat) (v : α) : (m.putCell k v).sorted = true := by
  rw [sorted_iff] at *
  induction m with
  | nil => simp [putCell]
  | cons a m ih =>
    obtain ⟨k1, v1⟩ := a
    rw [List.pairwise_cons] at h
    unfold putCell
    split
    · rename_i hk
      refine List.pairwise_cons.mpr ⟨fun e he => ?_, List.pairwise_cons.mpr h⟩
      rcases List.mem_cons.mp he with rfl | he
      · exact hk
      · exact lt_trans hk (h.1 e he)
    · split
      · rename_i hk; subst hk
        exact List.pairwise_cons.mpr ⟨h.1, h.2⟩
      · refine List.pairwise_cons.mpr ⟨fun e he => ?_, ih h.2⟩
        rcases mem_putCell he with rfl | he
        · show k1 < k
          omega
        · exact h.1 e he

theorem sorted_dropCell {m : Memory α} (h : m.sorted = true) (k : Nat) : (m.dropCell k).sorted = true := by
  rw [sorted_iff] at *
  induction m with
  | nil => exact h
  | cons a m ih =>
    obtain ⟨k1, v1⟩ := a
    rw [List.pairwise_cons] at h
    unfold dropCell
    split
    · exact h.2
    · exact List.pairwise_cons.mpr ⟨fun e he => h.1 e (mem_dropCell he), ih h.2⟩

theorem cellAt_dropCell_same {m : Memory α} (h : m.sorted = true) (k : Nat) : (m.dropCell k).cellAt k = none := by
  have key : ∀ m : Memory α, (∀ e ∈ m, e.1 ≠ k) → m.cellAt k = none := by
    intro m hm
    induction m with
    | nil => rfl
    | cons a m ih =>
      have := hm a (by simp)
      simp [cellAt, Ne.symm this, ih fun e he => hm e (by simp [he])]
  rw [sorted_iff] at h
  induction m with
  | nil => rfl
  | cons a m ih =>
    obtain ⟨k1, v1⟩ := a
    rw [List.pairwise_cons] at h
    unfold dropCell
    split
    · rename_i hk
      exact key m fun e he => by have := h.1 e he; simp at this; omega
    · rename_i hk
      simp [cellAt, hk, ih h.2]

/-! Tables: reading after writing, and the canonical form. -/

theorem wordAt_putWord_same {m : Memory Word} (h : m.tableWf = true) (k : Nat) (v : Word) : (m.putWord k v).wordAt k = v := by
  unfold putWord wordAt
  split
  · rename_i hv
    rw [cellAt_dropCell_same (by simp [tableWf] at h; exact h.1)]
    exact hv.symm
  · rw [cellAt_putCell_same]; rfl

theorem wordAt_putWord_other (m : Memory Word) {k k' : Nat} (h : k' ≠ k) (v : Word) :
    (m.putWord k v).wordAt k' = m.wordAt k' := by
  unfold putWord wordAt
  split
  · rw [cellAt_dropCell_other m h]
  · rw [cellAt_putCell_other m h]

theorem tableWf_putWord {m : Memory Word} (h : m.tableWf = true) (k : Nat) (v : Word) : (m.putWord k v).tableWf = true := by
  simp only [tableWf, Bool.and_eq_true, List.all_eq_true] at *
  unfold putWord
  split
  · exact ⟨sorted_dropCell h.1 k, fun e he => h.2 e (mem_dropCell he)⟩
  · rename_i hv
    refine ⟨sorted_putCell h.1 k v, fun e he => ?_⟩
    rcases mem_putCell he with rfl | he
    · simpa using hv
    · exact h.2 e he

end Memory

/-- The canonical form depends on the storage alone. -/
theorem wf_iff (s : State) : Memory.wf s = true ↔
    s.ta.tableWf = true ∧ s.tw.tableWf = true ∧ s.weights.sorted = true ∧ s.stats.sorted = true ∧ s.hist.sorted = true := by
  simp [Memory.wf, and_assoc]

/-- The storage after reset has its canonical form. -/
theorem wf_reset : Memory.wf State.reset = true := rfl

/-! The operations on storage: what each answers, and that it keeps the canonical form. -/

theorem readWeights_eq (z : Nat) (s : State) : readWeights z s =
    match s.weights.cellAt z with | some w => .ok w s | none => .error ⟨.uninit, wordOfNat z⟩ s := rfl

theorem readStats_eq (z : Nat) (s : State) : readStats z s =
    match s.stats.cellAt z with | some b => .ok b s | none => .error ⟨.uninit, wordOfNat z⟩ s := rfl

theorem histRead_eq (z y x : Nat) (s : State) : histRead z y x s =
    match s.hist.cellAt (histKey z y x) with
    | some v => .ok v s
    | none => .error ⟨.history, wordOfNat (lowbits z 16 * 65536 + lowbits y 16)⟩ s := rfl

theorem wf_writeWeights {s : State} (h : Memory.wf s = true) (z : Nat) (w : List Int) :
    ∃ t, writeWeights z w s = .ok () t ∧ t = { s with weights := s.weights.putCell z w } ∧ Memory.wf t = true := by
  refine ⟨_, rfl, rfl, ?_⟩
  rw [wf_iff] at *
  exact ⟨h.1, h.2.1, Memory.sorted_putCell h.2.2.1 z w, h.2.2.2⟩

theorem wf_writeStats {s : State} (h : Memory.wf s = true) (z : Nat) (b : BandStats) :
    ∃ t, writeStats z b s = .ok () t ∧ t = { s with stats := s.stats.putCell z b } ∧ Memory.wf t = true := by
  refine ⟨_, rfl, rfl, ?_⟩
  rw [wf_iff] at *
  exact ⟨h.1, h.2.1, h.2.2.1, Memory.sorted_putCell h.2.2.2.1 z b, h.2.2.2.2⟩

theorem wf_histWrite {s : State} (h : Memory.wf s = true) (z y x : Nat) (v : Int) :
    ∃ t, histWrite z y x v s = .ok () t ∧ t = { s with hist := s.hist.putCell (histKey z y x) v } ∧ Memory.wf t = true := by
  refine ⟨_, rfl, rfl, ?_⟩
  rw [wf_iff] at *
  exact ⟨h.1, h.2.1, h.2.2.1, h.2.2.2.1, Memory.sorted_putCell h.2.2.2.2 _ v⟩

theorem wf_putTa {s : State} (h : Memory.wf s = true) (z : Nat) (v : Word) :
    Memory.wf { s with ta := s.ta.putWord z v } = true := by
  rw [wf_iff] at *
  exact ⟨Memory.tableWf_putWord h.1 z v, h.2⟩

theorem wf_putTw {s : State} (h : Memory.wf s = true) (key : Nat) (v : Word) :
    Memory.wf { s with tw := s.tw.putWord key v } = true := by
  rw [wf_iff] at *
  exact ⟨h.1, Memory.tableWf_putWord h.2.1 key v, h.2.2⟩

theorem wf_clearSession {s : State} (h : Memory.wf s = true) : Memory.wf (clearSession s) = true := by
  rw [wf_iff] at *
  exact ⟨h.1, h.2.1, rfl, rfl, rfl⟩

theorem wf_resetCore {s : State} (h : Memory.wf s = true) : Memory.wf (resetCore s) = true := by
  rw [wf_iff] at *
  exact ⟨h.1, h.2.1, rfl, rfl, rfl⟩

end Sys2Proof.Machine
end

