-- ==== Sys2Proof/Laws/Bitstream.lean ====
section
/-! SUPPORT. What the bit writer, the bit reader and the unary codec do, said once in bits. -/

namespace Sys2Proof.Machine

/-! ### Fields -/

@[simp] theorem length_rawBits (n v : Nat) : (rawBits n v).length = n := by
  induction n with
  | zero => rfl
  | succ n ih => simp [rawBits, ih]

theorem bitsOfByte_eq (b : Byte) : bitsOfByte b = rawBits 8 b.toNat := by
  simp [bitsOfByte, rawBits, BitVec.getLsbD]

@[simp] theorem length_bitsOfByte (b : Byte) : (bitsOfByte b).length = 8 := rfl

theorem length_bitsOfBytes (l : List Byte) : (bitsOfBytes l).length = 8 * l.length := by
  induction l with
  | nil => rfl
  | cons b l ih => simp only [bitsOfBytes, List.flatMap_cons, List.length_append, length_bitsOfByte, List.length_cons] at *; omega

theorem bitsOfBytes_append (l m : List Byte) : bitsOfBytes (l ++ m) = bitsOfBytes l ++ bitsOfBytes m := by
  simp [bitsOfBytes]

@[simp] theorem length_zeroBits (n : Nat) : (zeroBits n).length = n := by simp [zeroBits]

theorem zeroBits_add (m n : Nat) : zeroBits (m + n) = zeroBits m ++ zeroBits n :=
  List.replicate_add ..

theorem rawBits_zero (n : Nat) : rawBits n 0 = zeroBits n := by
  induction n with
  | zero => rfl
  | succ n ih => simp [rawBits, zeroBits, List.replicate_succ] at *; exact ih

@[simp] theorem length_unaryCode (u : Nat) : (unaryCode u).length = u + 1 := by simp [unaryCode]

theorem numberOfBits_snoc (l : List Bool) (b : Bool) : numberOfBits (l ++ [b]) = 2 * numberOfBits l + b.toNat := by
  simp [numberOfBits]

theorem bitsValue_snoc (l : List Bool) (b : Bool) : bitsValue (l ++ [b]) = 2 * bitsValue l + b.toNat := by
  induction l with
  | nil => simp [bitsValue]
  | cons a l ih => simp [bitsValue, ih, pow_succ]; ring

theorem numberOfBits_eq (l : List Bool) : numberOfBits l = bitsValue l := by
  induction l using List.reverseRecOn with
  | nil => rfl
  | append_singleton l b ih => rw [numberOfBits_snoc, bitsValue_snoc, ih]

theorem bitsValue_append (l m : List Bool) : bitsValue (l ++ m) = bitsValue l * 2 ^ m.length + bitsValue m := by
  induction l with
  | nil => simp [bitsValue]
  | cons a l ih => simp [bitsValue, ih, pow_add]; ring

theorem bitsValue_lt (l : List Bool) : bitsValue l < 2 ^ l.length := by
  induction l with
  | nil => simp [bitsValue]
  | cons a l ih =>
    have : a.toNat ≤ 1 := Bool.toNat_le a
    simp only [bitsValue, List.length_cons, pow_succ]
    nlinarith

/-- A field carries the low bits of its value. -/
theorem bitsValue_rawBits (n v : Nat) : bitsValue (rawBits n v) = v % 2 ^ n := by
  induction n with
  | zero => simp [rawBits, bitsValue, Nat.mod_one]
  | succ n ih =>
    rw [rawBits, bitsValue, ih, length_rawBits]
    rw [Nat.testBit_eq_decide_div_mod_eq, pow_succ, Nat.mod_mul]
    rcases Nat.mod_two_eq_zero_or_one (v / 2 ^ n) with h | h <;> simp [h, add_comm]

theorem bitsValue_rawBits_of_lt {n v : Nat} (h : v < 2 ^ n) : bitsValue (rawBits n v) = v := by
  rw [bitsValue_rawBits, Nat.mod_eq_of_lt h]

/-- Eight bits are the bits of their byte. -/
theorem bitsOfByte_byteOfBits {l : List Bool} (h : l.length = 8) : bitsOfByte (byteOfBits l) = l := by
  obtain ⟨a, b, c, d, e, f, g, i, rfl⟩ : ∃ a b c d e f g i, l = [a, b, c, d, e, f, g, i] := by
    match l, h with
    | [a, b, c, d, e, f, g, i], _ => exact ⟨a, b, c, d, e, f, g, i, rfl⟩
  revert a b c d e f g i
  decide

theorem byteOfBits_bitsOfByte (b : Byte) : byteOfBits (bitsOfByte b) = b := by
  rw [byteOfBits, numberOfBits_eq, bitsOfByte_eq, bitsValue_rawBits_of_lt b.isLt, BitVec.ofNat_toNat, BitVec.setWidth_eq]

theorem bitsOfByte_inj {a b : Byte} (h : bitsOfByte a = bitsOfByte b) : a = b := by
  rw [← byteOfBits_bitsOfByte a, h, byteOfBits_bitsOfByte]

/-! ### The writer -/

/-- The fields of the writer taken from `t`, BITS_OUT advanced by `n`, all else from `s`. -/
def writerOf (n : Word) (s t : State) : State :=
  { s with wbuf := t.wbuf, bout := t.bout, bytesOut := t.bytesOut, bitsOut := s.bitsOut + n }

theorem writerOf_trans {m n : Word} {s t u : State} (h : t = writerOf m s t) (k : u = writerOf n t u) :
    u = writerOf (m + n) s u := by
  refine k.trans ((congrArg (fun x => writerOf n x u) h).trans ?_)
  simp [writerOf, BitVec.add_assoc]

theorem emitted_refl {s : State} (h : s.wbuf.length < 8) : Emitted [] s s :=
  ⟨by simp, List.prefix_refl _, by simp, h, rfl⟩

theorem emitted_trans {a b : List Bool} {s t u : State} (h : Emitted a s t) (k : Emitted b t u) : Emitted (a ++ b) s u := by
  obtain ⟨h1, h2, h3, h4, h5⟩ := h
  obtain ⟨k1, k2, k3, k4, k5⟩ := k
  refine ⟨?_, h2.trans k2, by rw [k3, h3, List.append_assoc], k4, by omega⟩
  have h := writerOf_trans h1 k1
  rwa [← BitVec.ofNat_add, ← List.length_append] at h

/-- The writer's bits leave every field but the writer's own. -/
theorem emitted_frame {bits : List Bool} {s t : State} (h : Emitted bits s t) :
    t = { s with wbuf := t.wbuf, bout := t.bout, bytesOut := t.bytesOut, bitsOut := s.bitsOut + BitVec.ofNat 32 bits.length } :=
  h.1

theorem emitted_wbuf_length {bits : List Bool} {s t : State} (h : Emitted bits s t) :
    t.wbuf.length = (s.wbuf.length + bits.length) % 8 := by
  obtain ⟨-, ⟨l, hl⟩, h3, h4, -⟩ := h
  have := congrArg List.length h3
  simp only [State.outBits, List.length_append, length_bitsOfBytes, ← hl] at this
  omega

/-- How many bytes were completed. -/
theorem emitted_bytes {bits : List Bool} {s t : State} (h : Emitted bits s t) :
    8 * t.bytesOut + t.wbuf.length = 8 * s.bytesOut + s.wbuf.length + bits.length := by
  obtain ⟨-, -, h3, -, h5⟩ := h
  have := congrArg List.length h3
  simp only [State.outBits, List.length_append, length_bitsOfBytes] at this
  omega

theorem pushBits_eq (bits : List Bool) : ∀ s : State, s.wbuf.length < 8 →
    let t := pushBits bits s
    t = writerOf 0 s t ∧ s.bout <+: t.bout ∧
      t.outBits = s.outBits ++ bits ∧ t.wbuf.length < 8 ∧ t.bytesOut + s.bout.length = s.bytesOut + t.bout.length := by
  induction bits with
  | nil => intro s h; exact ⟨by simp [pushBits, writerOf], List.prefix_refl _, by simp [pushBits], h, rfl⟩
  | cons b bs ih =>
    intro s h
    have step : let t := pushBit b s
        t = writerOf 0 s t ∧ s.bout <+: t.bout ∧
          t.outBits = s.outBits ++ [b] ∧ t.wbuf.length < 8 ∧ t.bytesOut + s.bout.length = s.bytesOut + t.bout.length := by
      by_cases h8 : s.wbuf.length + 1 = 8
      · have hb : bitsOfByte (byteOfBits (s.wbuf ++ [b])) = s.wbuf ++ [b] := bitsOfByte_byteOfBits (by simp [h8])
        simp [pushBit, h8, pushByte, State.outBits, writerOf, bitsOfBytes_append]
        simp [bitsOfBytes, hb]
        omega
      · simp [pushBit, h8, State.outBits, writerOf]; omega
    obtain ⟨e1, e2, e3, e4, e5⟩ := step
    obtain ⟨f1, f2, f3, f4, f5⟩ := ih (pushBit b s) e4
    refine ⟨?_, e2.trans f2, ?_, f4, ?_⟩
    · have h := writerOf_trans e1 f1
      exact h
    · show (pushBits bs (pushBit b s)).outBits = _
      rw [f3, e3, List.append_assoc]; rfl
    · show (pushBits bs (pushBit b s)).bytesOut + _ = _ + (pushBits bs (pushBit b s)).bout.length
      omega

def withBitsOut (v : Word) (s : State) : State := { s with bitsOut := v }

/-- Appending bits and counting them is `Emitted`. -/
theorem emitBits_emitted (bits : List Bool) {s : State} (h : s.wbuf.length < 8) : Emitted bits s (emitBits bits s) := by
  obtain ⟨h1, h2, h3, h4, h5⟩ := pushBits_eq bits s h
  refine ⟨?_, h2, h3, h4, h5⟩
  exact congrArg (withBitsOut (s.bitsOut + wordOfNat bits.length)) h1

/-- `WriteBits`: an open stream takes the low bits of the value; a closed one raises E_IO_SINK and nothing changes. -/
theorem writeBits_ok (n v : Nat) {s : State} (hc : s.closed = false) (hw : s.wbuf.length < 8) :
    ∃ t, writeBits n v s = .ok () t ∧ Emitted (rawBits n v) s t := by
  refine ⟨emitBits (rawBits n v) s, ?_, emitBits_emitted _ hw⟩
  unfold writeBits
  rw [get_bind, require_bind_ok hc]
  rfl

theorem writeBits_closed (n v : Nat) {s : State} (hc : s.closed = true) : writeBits n v s = .error ⟨.ioSink, 0⟩ s := by
  unfold writeBits
  rw [get_bind, require_bind_error (by simp [hc])]

/-- An operation that appends `bits` to every open stream. -/
def Writes (bits : List Bool) (x : Op Unit) : Prop :=
  ∀ s : State, s.closed = false → s.wbuf.length < 8 → ∃ t, x s = .ok () t ∧ Emitted bits s t

theorem emitted_closed {bits : List Bool} {s t : State} (h : Emitted bits s t) : t.closed = s.closed := by rw [h.1]

theorem writes_writeBits (n v : Nat) : Writes (rawBits n v) (writeBits n v) := fun _ hc hw => writeBits_ok n v hc hw

theorem writes_pure : Writes [] (pure ()) := fun s _ hw => ⟨s, rfl, emitted_refl hw⟩

theorem writes_seq {a b : List Bool} {x : Op Unit} {f : Unit → Op Unit} (hx : Writes a x) (hf : Writes b (f ())) :
    Writes (a ++ b) (x >>= f) := by
  intro s hc hw
  obtain ⟨t, h1, h2⟩ := hx s hc hw
  obtain ⟨u, k1, k2⟩ := hf t (by rw [emitted_closed h2, hc]) h2.2.2.2.1
  exact ⟨u, by rw [bind_ok h1, k1], emitted_trans h2 k2⟩

theorem writes_forEach {α : Type} {f : α → Op Unit} {bits : α → List Bool} (h : ∀ a, Writes (bits a) (f a)) :
    ∀ l : List α, Writes (l.flatMap bits) (forEach l f)
  | [] => writes_pure
  | a :: as => by
    rw [List.flatMap_cons]
    exact writes_seq (h a) (writes_forEach h as)

/-- `UnaryWrite`. -/
theorem writes_unaryWrite : ∀ u : Nat, Writes (unaryCode u) (unaryWrite u)
  | 0 => writes_writeBits 1 1
  | u + 1 => writes_seq (a := [false]) (writes_writeBits 1 0) (writes_unaryWrite u)

/-- `Flush`, which depends on the bits buffered: it completes the byte, and a second one would write nothing. -/
theorem flush_ok {s : State} (hc : s.closed = true → s.wbuf = []) (hw : s.wbuf.length < 8) :
    ∃ t, flush s = .ok () t ∧ Emitted (padBits s.wbuf.length) s t ∧ t.wbuf = [] := by
  have empty : ∀ t, Emitted (padBits s.wbuf.length) s t → t.wbuf = [] := by
    intro t h
    have := emitted_wbuf_length h
    simp only [padBits, length_zeroBits] at this
    exact List.length_eq_zero_iff.mp (by omega)
  unfold flush
  rw [get_bind]
  by_cases h0 : 0 < s.wcnt
  · rw [if_pos h0]
    have hne : s.wbuf ≠ [] := by intro h; simp [State.wcnt, h] at h0
    have hcl : s.closed = false := by
      cases h : s.closed with
      | false => rfl
      | true => exact absurd (hc h) hne
    obtain ⟨t, h1, h2⟩ := writeBits_ok (8 - s.wcnt) 0 hcl hw
    have hp : rawBits (8 - s.wcnt) 0 = padBits s.wbuf.length := by
      rw [rawBits_zero, padBits]
      unfold State.wcnt at h0 ⊢
      congr 1
      omega
    rw [hp] at h2
    exact ⟨t, h1, h2, empty t h2⟩
  · rw [if_neg h0]
    have hl : s.wbuf.length = 0 := by unfold State.wcnt at h0; omega
    have hp : padBits s.wbuf.length = [] := by rw [hl]; rfl
    exact ⟨s, rfl, by rw [hp]; exact emitted_refl hw, List.length_eq_zero_iff.mp hl⟩

theorem writeZeroBytes_ok : ∀ n : Nat, Writes (zeroBits (8 * n)) (writeZeroBytes n)
  | 0 => writes_pure
  | n + 1 => by
    rw [show 8 * (n + 1) = 8 + 8 * n by ring, zeroBits_add]
    have h := writes_writeBits 8 0
    rw [rawBits_zero] at h
    exact writes_seq h (writeZeroBytes_ok n)

theorem wordPad_eq {b pos : Nat} (hb : 0 < b) :
    wordPad b pos = (8 - pos % 8) % 8 + 8 * padCount b ((pos + (8 - pos % 8) % 8) / 8) := by
  unfold wordPad padCount
  set q := pos / 8 with hq
  have hpos : pos = 8 * q + pos % 8 := by omega
  have hr : pos % 8 < 8 := Nat.mod_lt _ (by norm_num)
  set r := pos % 8 with hr'
  have hmod : pos % (8 * b) = 8 * (q % b) + r := by
    rw [Nat.mod_mul, ← hq, ← hr']; ring
  have hqb : q % b < b := Nat.mod_lt _ hb
  rw [hmod]
  rcases Nat.eq_zero_or_pos r with h0 | h0
  · have hz : (8 - r) % 8 = 0 := by omega
    rw [hz, h0]
    have hd : (pos + 0) / 8 = q := by omega
    rw [hd]
    rcases Nat.eq_zero_or_pos (q % b) with h1 | h1
    · simp [h1]
    · rw [Nat.mod_eq_of_lt (a := 8 * b - _) (by omega), Nat.mod_eq_of_lt (a := b - q % b) (by omega)]; omega
  · have hz : (8 - r) % 8 = 8 - r := by omega
    rw [hz]
    have hd : (pos + (8 - r)) / 8 = q + 1 := by omega
    rw [hd]
    rw [Nat.mod_eq_of_lt (a := 8 * b - _) (by omega)]
    rcases Nat.lt_or_ge (q % b + 1) b with h1 | h1
    · have : (q + 1) % b = q % b + 1 := by
        rw [Nat.add_mod, Nat.mod_eq_of_lt (a := 1) (by omega), Nat.mod_eq_of_lt (by omega)]
      rw [this, Nat.mod_eq_of_lt (a := b - _) (by omega)]
      omega
    · have h2 : q % b + 1 = b := by omega
      have : (q + 1) % b = 0 := by
        have : (q + 1) % b = (q % b + 1) % b := by simp [Nat.add_mod]
        rw [this, h2, Nat.mod_self]
      rw [this]
      simp
      omega

/-- `PadWord`: the fewest zero bits that make the bytes written a multiple of B. -/
theorem padWord_ok {b : Nat} (hb : 0 < b) {s : State} (hc : s.closed = true → s.wbuf = [] ∧ b ∣ s.bytesOut)
    (hw : s.wbuf.length < 8) :
    ∃ t, padWord b s = .ok () t ∧ Emitted (zeroBits (wordPad b (8 * s.bytesOut + s.wbuf.length))) s t ∧ t.wbuf = [] := by
  obtain ⟨t, h1, h2, h3⟩ := flush_ok (fun h => (hc h).1) hw
  have hbytes : 8 * t.bytesOut = 8 * s.bytesOut + s.wbuf.length + (8 - s.wbuf.length % 8) % 8 := by
    have := emitted_bytes h2
    rw [h3] at this
    simpa [padBits] using this
  have hpad : wordPad b (8 * s.bytesOut + s.wbuf.length) = (8 - s.wbuf.length % 8) % 8 + 8 * padCount b t.bytesOut := by
    have e1 : (8 * s.bytesOut + s.wbuf.length) % 8 = s.wbuf.length % 8 := by omega
    rw [wordPad_eq hb, e1]
    congr 3
    omega
  have hz : ∃ u, writeZeroBytes (padCount b t.bytesOut) t = .ok () u ∧ Emitted (zeroBits (8 * padCount b t.bytesOut)) t u := by
    cases hcl : s.closed with
    | false => exact writeZeroBytes_ok _ t (by rw [emitted_closed h2, hcl]) h2.2.2.2.1
    | true =>
      obtain ⟨hwb, hd⟩ := hc hcl
      have hto : t.bytesOut = s.bytesOut := by simp [hwb] at hbytes; omega
      have hp0 : padCount b t.bytesOut = 0 := by
        rw [hto, padCount, Nat.mod_eq_zero_of_dvd hd]; simp
      rw [hp0]
      exact ⟨t, rfl, emitted_refl (by simp [h3])⟩
  obtain ⟨u, k1, k2⟩ := hz
  refine ⟨u, ?_, ?_, ?_⟩
  · unfold padWord
    rw [bind_ok h1, get_bind, k1]
  · rw [hpad, zeroBits_add]
    exact emitted_trans h2 k2
  · have := emitted_wbuf_length k2
    simp [h3] at this
    exact this

/-- `Close`. -/
theorem close_ok {s : State} (hc : s.closed = true → s.wbuf = []) (hw : s.wbuf.length < 8) :
    ∃ t, close s = .ok () { t with closed := true } ∧ Emitted (padBits s.wbuf.length) s t ∧ t.wbuf = [] := by
  obtain ⟨t, h1, h2, h3⟩ := flush_ok hc hw
  exact ⟨t, by unfold close; rw [bind_ok h1]; rfl, h2, h3⟩

/-! The bits fix the state the writer leaves. -/

theorem bitsOfBytes_inj : ∀ {l m : List Byte}, bitsOfBytes l = bitsOfBytes m → l = m
  | [], [], _ => rfl
  | [], b :: m, h => by simpa [length_bitsOfBytes] using congrArg List.length h
  | a :: l, [], h => by simpa [length_bitsOfBytes] using congrArg List.length h
  | a :: l, b :: m, h => by
    have h' : bitsOfByte a ++ bitsOfBytes l = bitsOfByte b ++ bitsOfBytes m := by simpa [bitsOfBytes] using h
    obtain ⟨h1, h2⟩ := List.append_inj h' (by simp)
    rw [bitsOfByte_inj h1, bitsOfBytes_inj h2]

theorem emitted_unique {bits : List Bool} {s t u : State} (h : Emitted bits s t) (k : Emitted bits s u) : t = u := by
  have hl : t.wbuf.length = u.wbuf.length := by rw [emitted_wbuf_length h, emitted_wbuf_length k]
  obtain ⟨h1, -, h3, -, h5⟩ := h
  obtain ⟨k1, -, k3, -, k5⟩ := k
  have e : bitsOfBytes t.bout ++ t.wbuf = bitsOfBytes u.bout ++ u.wbuf := by
    rw [← State.outBits, ← State.outBits, h3, k3]
  obtain ⟨e1, e2⟩ := List.append_inj' e hl
  have e3 := bitsOfBytes_inj e1
  have e4 : t.bytesOut = u.bytesOut := by rw [e3] at h5; omega
  refine h1.trans (Eq.trans ?_ k1.symm)
  rw [e2, e3, e4]

theorem emitted_eq {bits : List Bool} {s t : State} (h : Emitted bits s t) (hw : s.wbuf.length < 8) : t = emitBits bits s :=
  emitted_unique h (emitBits_emitted bits hw)

/-- The result of an operation that writes, as a function. -/
theorem writes_eq {bits : List Bool} {x : Op Unit} (h : Writes bits x) {s : State} (hc : s.closed = false)
    (hw : s.wbuf.length < 8) : x s = .ok () (emitBits bits s) := by
  obtain ⟨t, h1, h2⟩ := h s hc hw
  rw [h1, emitted_eq h2 hw]

theorem emitBits_append (a b : List Bool) {s : State} (hw : s.wbuf.length < 8) :
    emitBits b (emitBits a s) = emitBits (a ++ b) s := by
  have h := emitBits_emitted a hw
  exact emitted_eq (emitted_trans h (emitBits_emitted b h.2.2.2.1)) hw

/-! ### The reader -/

/-- The fields of the reader taken from `t`, BITS_IN advanced by `n`, all else from `s`. -/
def readerOf (n : Word) (s t : State) : State := { s with rbuf := t.rbuf, bin := t.bin, bitsIn := s.bitsIn + n }

theorem readerOf_trans {m n : Word} {s t u : State} (h : t = readerOf m s t) (k : u = readerOf n t u) :
    u = readerOf (m + n) s u := by
  refine k.trans ((congrArg (fun x => readerOf n x u) h).trans ?_)
  simp [readerOf, BitVec.add_assoc]

theorem taken_refl {s : State} (h : s.rbuf.length < 8) : Taken [] s s := ⟨by simp, List.suffix_refl _, by simp, h⟩

theorem taken_trans {a b : List Bool} {s t u : State} (h : Taken a s t) (k : Taken b t u) : Taken (a ++ b) s u := by
  obtain ⟨h1, h2, h3, h4⟩ := h
  obtain ⟨k1, k2, k3, k4⟩ := k
  refine ⟨?_, k2.trans h2, by rw [h3, k3, List.append_assoc], k4⟩
  have h := readerOf_trans h1 k1
  rwa [← BitVec.ofNat_add, ← List.length_append] at h

/-- One bit: the first of those left, or the error when none is. -/
theorem readBit_ok (eof : Raise) {s : State} {b : Bool} {rest : List Bool} (hr : s.rbuf.length < 8)
    (h : s.inBits = b :: rest) : ∃ t, readBit eof s = .ok b t ∧ Taken [b] s t ∧ t.inBits = rest := by
  cases hrb : s.rbuf with
  | cons c cs =>
    have e : c :: (cs ++ bitsOfBytes s.bin) = b :: rest := by rw [← h, State.inBits, hrb]; rfl
    injection e with e1 e2
    subst e1
    refine ⟨{ s with rbuf := cs, bitsIn := s.bitsIn + 1 }, ?_, ⟨?_, List.suffix_refl _, ?_, ?_⟩, e2⟩
    · simp [readBit, hrb]
    · rfl
    · rw [h, ← e2]; rfl
    · rw [hrb] at hr; simp at hr ⊢; omega
  | nil =>
    cases hbin : s.bin with
    | nil => simp [State.inBits, hrb, hbin, bitsOfBytes] at h
    | cons y ys =>
      have hy : bitsOfByte y = y.getLsbD 7 :: rawBits 7 y.toNat := by rw [bitsOfByte_eq]; rfl
      have e : y.getLsbD 7 :: (rawBits 7 y.toNat ++ bitsOfBytes ys) = b :: rest := by
        rw [← h, State.inBits, hrb, hbin]
        simp [bitsOfBytes, hy]
      injection e with e1 e2
      subst e1
      refine ⟨{ s with rbuf := rawBits 7 y.toNat, bin := ys, bitsIn := s.bitsIn + 1 }, ?_, ⟨?_, ?_, ?_, ?_⟩, e2⟩
      · simp [readBit, hrb, hbin]
      · rfl
      · rw [hbin]; exact List.suffix_cons _ _
      · rw [h, ← e2]; rfl
      · simp

theorem readBit_error (eof : Raise) {s : State} (h : s.inBits = []) : readBit eof s = .error eof s := by
  have hrb : s.rbuf = [] := by
    cases hb : s.rbuf with
    | nil => rfl
    | cons c cs => rw [State.inBits, hb] at h; simp at h
  have hbin : s.bin = [] := by
    cases hb : s.bin with
    | nil => rfl
    | cons c cs =>
      have := congrArg List.length h
      simp [State.inBits, length_bitsOfBytes, hb] at this
  simp [readBit, hrb, hbin]

/-- An operation that, where the input begins with `bits`, consumes them and answers `a`. -/
def Reads {α : Type} (bits : List Bool) (a : α) (x : Op α) : Prop :=
  ∀ (s : State) (rest : List Bool), s.rbuf.length < 8 → s.inBits = bits ++ rest →
    ∃ t, x s = .ok a t ∧ Taken bits s t ∧ t.inBits = rest

theorem reads_pure {α : Type} (a : α) : Reads [] a (pure a : Op α) := fun s _ hr h => ⟨s, rfl, taken_refl hr, h⟩

theorem reads_bind {α β : Type} {l m : List Bool} {a : α} {b : β} {x : Op α} {f : α → Op β} (hx : Reads l a x)
    (hf : Reads m b (f a)) : Reads (l ++ m) b (x >>= f) := by
  intro s rest hr h
  obtain ⟨t, h1, h2, h3⟩ := hx s (m ++ rest) hr (by rw [h, List.append_assoc])
  obtain ⟨u, k1, k2, k3⟩ := hf t rest h2.2.2.2 h3
  exact ⟨u, by rw [bind_ok h1, k1], taken_trans h2 k2, k3⟩

theorem reads_readBit (eof : Raise) (b : Bool) : Reads [b] b (readBit eof) := by
  intro s rest hr h
  exact readBit_ok eof hr h

theorem reads_readBitsFrom (eof : Raise) : ∀ (bits : List Bool) (v : Nat),
    Reads bits (v * 2 ^ bits.length + bitsValue bits) (readBitsFrom eof bits.length v)
  | [], v => by
    have h : v * 2 ^ ([] : List Bool).length + bitsValue [] = v := by simp [bitsValue]
    rw [h]
    exact reads_pure v
  | b :: bs, v => by
    have h := reads_bind (f := fun b => readBitsFrom eof bs.length (2 * v + b.toNat)) (reads_readBit eof b)
      (reads_readBitsFrom eof bs (2 * v + b.toNat))
    have e : (2 * v + b.toNat) * 2 ^ bs.length + bitsValue bs = v * 2 ^ (b :: bs).length + bitsValue (b :: bs) := by
      simp [bitsValue, pow_succ]; ring
    rw [e] at h
    exact h

/-- `ReadBits(n)`: the n first bits as a number. -/
theorem reads_readBitsOr (eof : Raise) {n : Nat} (bits : List Bool) (h : bits.length = n) :
    Reads bits (bitsValue bits) (readBitsOr eof n) := by
  subst h
  simpa [readBitsOr] using reads_readBitsFrom eof bits 0

theorem reads_readBits {n : Nat} (bits : List Bool) (h : bits.length = n) : Reads bits (bitsValue bits) (readBits n) :=
  reads_readBitsOr eosBin bits h

/-- A field of the writer is read back. -/
theorem reads_rawBits (eof : Raise) {n v : Nat} (h : v < 2 ^ n) : Reads (rawBits n v) v (readBitsOr eof n) := by
  have := reads_readBitsOr eof (rawBits n v) (length_rawBits n v)
  rwa [bitsValue_rawBits_of_lt h] at this

/-- `ReadBits(n)` on too little input: what is left is consumed, and the error raised. -/
theorem readBitsFrom_error (eof : Raise) : ∀ (n v : Nat) (s : State), s.rbuf.length < 8 → s.inBits.length < n →
    ∃ t, readBitsFrom eof n v s = .error eof t ∧ Taken s.inBits s t
  | 0, _, _, _, h => absurd h (Nat.not_lt_zero _)
  | n + 1, v, s, hr, h => by
    cases hb : s.inBits with
    | nil =>
      exact ⟨s, by unfold readBitsFrom; rw [bind_error (readBit_error eof hb)], taken_refl hr⟩
    | cons b rest =>
      obtain ⟨t, h1, h2, h3⟩ := readBit_ok eof hr hb
      obtain ⟨u, k1, k2⟩ := readBitsFrom_error eof n (2 * v + b.toNat) t h2.2.2.2 (by rw [h3]; rw [hb] at h; simp at h; omega)
      rw [h3] at k2
      exact ⟨u, by unfold readBitsFrom; rw [bind_ok h1, k1], taken_trans h2 k2⟩

/-- `UnaryRead` of a codeword no longer than the cap allows. -/
theorem reads_unaryReadFrom (err : Raise) : ∀ (u left n : Nat), u ≤ left →
    Reads (unaryCode u) (n + u) (unaryReadFrom err left n)
  | 0, 0, n, _ => by
    have h := reads_bind (reads_readBit eosBin true) (f := fun b => if b then (pure n : Op Nat) else raise err.kind err.info)
      (m := []) (b := n) (by simpa using reads_pure n)
    exact h
  | 0, left + 1, n, _ => by
    have h := reads_bind (reads_readBit eosBin true) (f := fun b => if b then (pure n : Op Nat) else unaryReadFrom err left (n + 1))
      (m := []) (b := n) (by simpa using reads_pure n)
    exact h
  | u + 1, left + 1, n, hu => by
    have ih := reads_unaryReadFrom err u left (n + 1) (by omega)
    have h := reads_bind (reads_readBit eosBin false) (f := fun b => if b then (pure n : Op Nat) else unaryReadFrom err left (n + 1))
      (m := unaryCode u) (b := n + (u + 1)) (by simpa [add_assoc, add_comm, add_left_comm] using ih)
    exact h
  | u + 1, 0, _, hu => absurd hu (by omega)

theorem reads_unaryRead (err : Raise) {u cap : Nat} (h : u ≤ cap) : Reads (unaryCode u) u (unaryRead cap err) := by
  simpa [unaryRead] using reads_unaryReadFrom err u cap 0 h

theorem reads_unaryReadWord {u : Nat} (h : u < 2 ^ 32) : Reads (unaryCode u) u unaryReadWord :=
  reads_unaryRead badUnary (by omega)

theorem reads_collect {α β γ : Type} {g : γ → α} {f : α → Op β} {bits : γ → List Bool} {val : γ → β}
    (h : ∀ c, Reads (bits c) (val c) (f (g c))) : ∀ l : List γ, Reads (l.flatMap bits) (l.map val) (collect (l.map g) f)
  | [] => reads_pure []
  | c :: l => by
    rw [List.flatMap_cons]
    have inner := reads_bind (reads_collect h l) (f := fun bs => (pure (val c :: bs) : Op (List β))) (m := [])
      (reads_pure (val c :: l.map val))
    rw [List.append_nil] at inner
    exact reads_bind (h c) inner

/-- `collect` where the items read may need a condition. -/
theorem reads_collect_of {α β γ : Type} {g : γ → α} {f : α → Op β} {bits : γ → List Bool} {val : γ → β} :
    ∀ l : List γ, (∀ c ∈ l, Reads (bits c) (val c) (f (g c))) → Reads (l.flatMap bits) (l.map val) (collect (l.map g) f)
  | [], _ => reads_pure []
  | c :: l, h => by
    rw [List.flatMap_cons]
    have inner := reads_bind (reads_collect_of l fun d hd => h d (List.mem_cons_of_mem _ hd))
      (f := fun bs => (pure (val c :: bs) : Op (List β))) (m := []) (reads_pure (val c :: l.map val))
    rw [List.append_nil] at inner
    exact reads_bind (h c (List.mem_cons_self ..)) inner

end Sys2Proof.Machine
end

