-- ==== Sys2Proof/Laws/Coders.lean ====
section
/-! SUPPORT. What the sample-split codec, the block-adaptive coder and the sample-adaptive coder write and read, in codewords. -/

namespace Sys2Proof.Machine

/-! ### Constants and words -/

theorem idBits_pos (c : Cfg) : 0 < c.idBits := by
  unfold Cfg.idBits
  simp only
  split <;> omega

theorem backupOption_eq (c : Cfg) : c.backupOption = 2 ^ c.idBits - 1 := rfl

theorem rawBits_ones (n : Nat) : ∀ m, m ≤ n → rawBits m (2 ^ n - 1) = List.replicate m true
  | 0, _ => rfl
  | m + 1, h => by
    rw [rawBits, rawBits_ones n m (by omega), Nat.testBit_two_pow_sub_one, List.replicate_succ]
    simp
    omega

theorem rawBits_one : ∀ n, rawBits (n + 1) 1 = zeroBits n ++ [true]
  | 0 => rfl
  | n + 1 => by
    have h : Nat.testBit 1 (n + 1) = false := by rw [Nat.testBit_succ]; exact Nat.zero_testBit n
    rw [rawBits, rawBits_one n, h]
    simp [zeroBits, List.replicate_succ]

theorem wordOfNat_toNat (w : Word) : wordOfNat w.toNat = w := by simp [wordOfNat]

/-- A word is its high part and its low bits. -/
theorem splitWord (w : Word) (k : Nat) : wordOfNat ((w.toNat >>> k) * 2 ^ k + w.toNat % 2 ^ k) = w := by
  rw [Nat.shiftRight_eq_div_pow, Nat.div_add_mod', wordOfNat_toNat]

/-! ### Sample split (41_rice.md) -/

/-- `RiceCode` writes the split block. -/
theorem writes_riceCode (b : List Word) (k : Nat) : Writes (splitCode b k) (riceCode b k) :=
  writes_seq (writes_forEach (fun w : Word => writes_unaryWrite (w.toNat >>> k)) b)
    (writes_forEach (fun w : Word => writes_writeBits k w.toNat) b)

/-- `RiceDecode` reads the split block back, whatever its samples (41_rice.md R254). -/
theorem reads_riceDecode (b : List Word) (k : Nat) : Reads (splitCode b k) b (riceDecode b.length k) := by
  have h1 : Reads (b.flatMap fun w => unaryCode (w.toNat >>> k)) (b.map fun w => w.toNat >>> k)
      (collect (List.replicate b.length ()) fun _ => unaryReadWord) := by
    have := reads_collect (g := fun _ : Word => ()) (f := fun _ : Unit => unaryReadWord)
      (bits := fun w : Word => unaryCode (w.toNat >>> k)) (val := fun w => w.toNat >>> k)
      (fun w => reads_unaryReadWord (lt_of_le_of_lt (Nat.shiftRight_le _ _) w.isLt)) b
    rwa [List.map_const'] at this
  have h2 : Reads (b.flatMap fun w => rawBits k w.toNat) (b.map fun w => w)
      (collect (b.map fun w => w.toNat >>> k) fun u => do
        let low ← readBits k
        pure (wordOfNat (u * 2 ^ k + low))) := by
    apply reads_collect
    intro w
    have h := reads_bind (reads_readBits (rawBits k w.toNat) (length_rawBits _ _))
      (f := fun low => (pure (wordOfNat ((w.toNat >>> k) * 2 ^ k + low)) : Op Word)) (m := []) (b := w)
      (by rw [bitsValue_rawBits, splitWord]; exact reads_pure w)
    rwa [List.append_nil] at h
  rw [List.map_id'] at h2
  exact reads_bind h1 h2

/-! ### The block coder's writer (42_block_adaptive.md) -/

/-- `EmitId` writes the id of its option. -/
theorem writes_emitId (c : Cfg) (option : BlockOption) : Writes (idCode c option) (emitId c option) := by
  cases option with
  | zeroBlock =>
    have h := writes_writeBits (c.idBits + 1) 0
    rw [rawBits_zero, zeroBits_add] at h
    exact h
  | secondExt =>
    have h := writes_writeBits (c.idBits + 1) 1
    rw [rawBits_one] at h
    exact h
  | sampleSplit k => exact writes_writeBits _ _
  | backup =>
    have h := writes_writeBits c.idBits c.backupOption
    rw [backupOption_eq, rawBits_ones _ _ le_rfl] at h
    exact h

/-- `EmitPayload` writes the payload of its option. -/
theorem writes_emitPayload (c : Cfg) (b : List Word) (option : BlockOption) :
    Writes (payloadCode c b option) (emitPayload c b option) := by
  cases option with
  | zeroBlock => exact writes_pure
  | secondExt => exact writes_forEach (fun g => writes_unaryWrite g) _
  | sampleSplit k => exact writes_riceCode b k
  | backup => exact writes_forEach (fun w : Word => writes_writeBits c.D w.toNat) b

/-- The block coder's counters set. -/
def counters (z a b : Nat) (s : State) : State := { s with zrun := z, cs := a, cr := b }

theorem emitted_counters {bits : List Bool} {s t : State} (z a b : Nat) (h : Emitted bits s t) :
    Emitted bits (counters z a b s) (counters z a b t) :=
  ⟨congrArg (counters z a b) h.1, h.2⟩

theorem emitBits_counters (bits : List Bool) (z a b : Nat) {s : State} (hw : s.wbuf.length < 8) :
    emitBits bits (counters z a b s) = counters z a b (emitBits bits s) :=
  (emitted_eq (emitted_counters z a b (emitBits_emitted bits hw)) hw).symm

theorem emitBits_nil {s : State} (hw : s.wbuf.length < 8) : emitBits [] s = s := (emitted_eq (emitted_refl hw) hw).symm

theorem emitBits_fields (bits : List Bool) {s : State} (hw : s.wbuf.length < 8) :
    (emitBits bits s).cfg = s.cfg ∧ (emitBits bits s).zrun = s.zrun ∧ (emitBits bits s).cs = s.cs ∧
      (emitBits bits s).cr = s.cr ∧ (emitBits bits s).closed = s.closed ∧ (emitBits bits s).wbuf.length < 8 := by
  have h := emitBits_emitted bits hw
  refine ⟨?_, ?_, ?_, ?_, ?_, h.2.2.2.1⟩ <;> rw [h.1]

theorem idCode_ne_nil (c : Cfg) (option : BlockOption) : idCode c option ≠ [] := by
  have := idBits_pos c
  intro h
  have hl := congrArg List.length h
  cases option <;> simp [idCode] at hl
  all_goals omega

theorem boundaryRunCode_ne_nil (c : Cfg) {n : Nat} (h : 0 < n) : boundaryRunCode c n ≠ [] := by
  intro e
  unfold boundaryRunCode runCode at e
  split at e
  · rw [if_neg (by omega)] at e
    exact idCode_ne_nil c _ (List.append_eq_nil_iff.mp e).1
  · exact idCode_ne_nil c _ (List.append_eq_nil_iff.mp e).1

/-- `FlushBlocks` sends the pending run. -/
theorem flushBlocks_ok {s : State} (hc : s.closed = true → s.zrun = 0) (hw : s.wbuf.length < 8) :
    flushBlocks s = .ok () (counters 0 s.cs s.cr (emitBits (runCode s.cfg s.zrun) s)) := by
  unfold flushBlocks
  rw [get_bind]
  by_cases h0 : s.zrun = 0
  · rw [if_pos h0]
    have : runCode s.cfg s.zrun = [] := by simp [runCode, h0]
    rw [this, emitBits_nil hw, pure_apply]
    simp [counters, ← h0]
  · rw [if_neg h0]
    have hcl : s.closed = false := by
      cases h : s.closed with
      | false => rfl
      | true => exact absurd (hc h) h0
    have h := writes_eq (writes_seq (writes_emitId s.cfg .zeroBlock)
      (f := fun _ => unaryWrite (if s.zrun ≤ 4 then s.zrun - 1 else s.zrun)) (writes_unaryWrite _)) hcl hw
    have he : runCode s.cfg s.zrun = idCode s.cfg .zeroBlock ++ unaryCode (if s.zrun ≤ 4 then s.zrun - 1 else s.zrun) := by
      simp [runCode, h0]
    rw [he]
    have step : (emitId s.cfg .zeroBlock >>= fun _ => unaryWrite (if s.zrun ≤ 4 then s.zrun - 1 else s.zrun) >>= fun _ => clearRun) s
        = .ok () (counters 0 s.cs s.cr (emitBits (idCode s.cfg .zeroBlock ++
            unaryCode (if s.zrun ≤ 4 then s.zrun - 1 else s.zrun)) s)) := by
      rcases bind_cases h with ⟨a, t, k1, k2⟩ | ⟨e, t, k1, k2⟩
      · rw [bind_ok k1, bind_ok k2]
        have hf := emitBits_fields (idCode s.cfg .zeroBlock ++ unaryCode (if s.zrun ≤ 4 then s.zrun - 1 else s.zrun)) hw
        simp only [clearRun, modify_apply, counters]
        rw [← hf.2.2.1, ← hf.2.2.2.1]
      · cases k2
    exact step

/-- `FlushRos` sends the pending run as a boundary or the end sends it. -/
theorem flushRos_ok {s : State} (hc : s.closed = true → s.zrun = 0) (hw : s.wbuf.length < 8) :
    flushRos s = .ok () (counters 0 s.cs s.cr (emitBits (boundaryRunCode s.cfg s.zrun) s)) := by
  unfold flushRos
  rw [get_bind]
  by_cases h4 : s.zrun ≤ 4
  · rw [if_pos h4, flushBlocks_ok hc hw]
    simp [boundaryRunCode, h4]
  · rw [if_neg h4]
    have hcl : s.closed = false := by
      cases h : s.closed with
      | false => rfl
      | true => have := hc h; omega
    have h := writes_eq (writes_seq (writes_emitId s.cfg .zeroBlock) (f := fun _ => unaryWrite 4) (writes_unaryWrite 4)) hcl hw
    have he : boundaryRunCode s.cfg s.zrun = idCode s.cfg .zeroBlock ++ unaryCode 4 := by simp [boundaryRunCode, h4]
    rw [he]
    have step : (emitId s.cfg .zeroBlock >>= fun _ => unaryWrite 4 >>= fun _ => clearRun) s
        = .ok () (counters 0 s.cs s.cr (emitBits (idCode s.cfg .zeroBlock ++ unaryCode 4) s)) := by
      rcases bind_cases h with ⟨a, t, k1, k2⟩ | ⟨e, t, k1, k2⟩
      · rw [bind_ok k1, bind_ok k2]
        have hf := emitBits_fields (idCode s.cfg .zeroBlock ++ unaryCode 4) hw
        simp only [clearRun, modify_apply, counters]
        rw [← hf.2.2.1, ← hf.2.2.2.1]
      · cases k2
    exact step

/-- `Advance`. -/
theorem advance_ok (s : State) :
    advance s = .ok (boundaryAfter s) { s with cs := segmentAfter s, cr := referenceAfter s } := rfl

/-- The coding of a block before the counters move. -/
theorem codeOption_ok {s : State} (b : List Word) (option : BlockOption) (hc : s.closed = true → option = .zeroBlock)
    (hw : s.wbuf.length < 8) :
    codeOption s.cfg b option s = .ok ()
      (if option = .zeroBlock then counters (s.zrun + 1) s.cs s.cr s
       else counters 0 s.cs s.cr (emitBits (runCode s.cfg s.zrun ++ idCode s.cfg option ++ payloadCode s.cfg b option) s)) := by
  have main : option ≠ .zeroBlock →
      (flushBlocks >>= fun _ => emitId s.cfg option >>= fun _ => emitPayload s.cfg b option) s = .ok ()
        (counters 0 s.cs s.cr (emitBits (runCode s.cfg s.zrun ++ idCode s.cfg option ++ payloadCode s.cfg b option) s)) := by
    intro hne
    have hcl : s.closed = false := by
      cases h : s.closed with
      | false => rfl
      | true => exact absurd (hc h) hne
    rw [bind_ok (flushBlocks_ok (by simp [hcl]) hw)]
    have hf := emitBits_fields (runCode s.cfg s.zrun) hw
    have h := writes_eq (writes_seq (writes_emitId s.cfg option) (f := fun _ => emitPayload s.cfg b option)
      (writes_emitPayload s.cfg b option)) (s := counters 0 s.cs s.cr (emitBits (runCode s.cfg s.zrun) s))
      (by show (emitBits (runCode s.cfg s.zrun) s).closed = false; rw [hf.2.2.2.2.1, hcl]) hf.2.2.2.2.2
    rw [h, emitBits_counters _ _ _ _ hf.2.2.2.2.2, emitBits_append _ _ hw, List.append_assoc]
  cases option with
  | zeroBlock => rfl
  | secondExt => rw [if_neg (by simp)]; exact main (by simp)
  | sampleSplit k => rw [if_neg (by simp)]; exact main (by simp)
  | backup => rw [if_neg (by simp)]; exact main (by simp)

/-- `CodeBlock`: the bits of the block, the pending run, and the counters. -/
theorem codeBlock_ok {s : State} (b : List Word) (hw : s.wbuf.length < 8)
    (hc : s.closed = true → blockCode s.cfg s.zrun (maskBlock s.cfg.D b) (boundaryAfter s)
      (select s.cfg (maskBlock s.cfg.D b)).1 = []) :
    codeBlock b s = .ok () (counters (pendingAfter s.zrun (boundaryAfter s) (select s.cfg (maskBlock s.cfg.D b)).1)
      (segmentAfter s) (referenceAfter s)
      (emitBits (blockCode s.cfg s.zrun (maskBlock s.cfg.D b) (boundaryAfter s) (select s.cfg (maskBlock s.cfg.D b)).1) s)) := by
  generalize hm : maskBlock s.cfg.D b = mb at hc ⊢
  generalize ho : (select s.cfg mb).1 = option at hc ⊢
  unfold codeBlock
  rw [get_bind, hm, ho]
  have hz : s.closed = true → option = .zeroBlock ∧ boundaryAfter s = false := by
    intro h
    have h1 := hc h
    have hne := idCode_ne_nil s.cfg
    cases option with
    | zeroBlock =>
      refine ⟨rfl, ?_⟩
      cases hb : boundaryAfter s with
      | false => rfl
      | true =>
        simp [blockCode, hb] at h1
        exact absurd h1 (boundaryRunCode_ne_nil _ (by omega))
    | secondExt => simp [blockCode, hne] at h1
    | sampleSplit k => simp [blockCode, hne] at h1
    | backup => simp [blockCode, hne] at h1
  rw [bind_ok (codeOption_ok mb option (fun h => (hz h).1) hw)]
  by_cases h0 : option = .zeroBlock
  · subst h0
    simp only [if_true]
    rw [bind_ok (advance_ok _)]
    have hb : boundaryAfter (counters (s.zrun + 1) s.cs s.cr s) = boundaryAfter s := rfl
    rw [hb]
    cases hbs : boundaryAfter s with
    | false =>
      simp only [Bool.false_eq_true, if_false, pure_apply, blockCode, pendingAfter, if_true, and_self]
      rw [emitBits_nil hw]
      rfl
    | true =>
      simp only [if_true]
      have hcl : s.closed = false := by
        cases h : s.closed with
        | false => rfl
        | true => have := (hz h).2; rw [hbs] at this; cases this
      have h := flushRos_ok (s := counters (s.zrun + 1) (segmentAfter s) (referenceAfter s) s) (fun h => by
        have : s.closed = true := h
        rw [hcl] at this; cases this) hw
      have e := emitBits_counters (boundaryRunCode s.cfg (s.zrun + 1)) (s.zrun + 1) (segmentAfter s) (referenceAfter s) hw
      show flushRos (counters (s.zrun + 1) (segmentAfter s) (referenceAfter s) s) = _
      rw [h]
      show EStateM.Result.ok () (counters 0 (segmentAfter s) (referenceAfter s) (emitBits (boundaryRunCode s.cfg (s.zrun + 1))
        (counters (s.zrun + 1) (segmentAfter s) (referenceAfter s) s))) = _
      rw [e]
      simp [blockCode, pendingAfter, counters]
  · rw [if_neg h0]
    have hcl : s.closed = false := by
      cases h : s.closed with
      | false => rfl
      | true => exact absurd (hz h).1 h0
    have hbits : blockCode s.cfg s.zrun mb (boundaryAfter s) option =
        runCode s.cfg s.zrun ++ idCode s.cfg option ++ payloadCode s.cfg mb option := by
      cases option <;> simp_all [blockCode]
    rw [hbits]
    generalize runCode s.cfg s.zrun ++ idCode s.cfg option ++ payloadCode s.cfg mb option = bits
    obtain ⟨f1, f2, f3, f4, f5, f6⟩ := emitBits_fields bits hw
    rw [bind_ok (advance_ok _)]
    have hb : boundaryAfter (counters 0 s.cs s.cr (emitBits bits s)) = boundaryAfter s := by
      simp [boundaryAfter, segmentAfter, referenceAfter, counters, f1]
    have hs : segmentAfter (counters 0 s.cs s.cr (emitBits bits s)) = segmentAfter s := by
      simp [segmentAfter, counters, f1]
    have hr : referenceAfter (counters 0 s.cs s.cr (emitBits bits s)) = referenceAfter s := by
      simp [referenceAfter, counters, f1]
    rw [hb, hs, hr]
    have hp : pendingAfter s.zrun (boundaryAfter s) option = 0 := by simp [pendingAfter, h0]
    rw [hp]
    cases boundaryAfter s with
    | false => rfl
    | true =>
      simp only [if_true]
      show flushRos (counters 0 (segmentAfter s) (referenceAfter s) (emitBits bits s)) = _
      rw [flushRos_ok (s := counters 0 (segmentAfter s) (referenceAfter s) (emitBits bits s)) (fun _ => rfl) f6]
      have : boundaryRunCode (counters 0 (segmentAfter s) (referenceAfter s) (emitBits bits s)).cfg
          (counters 0 (segmentAfter s) (referenceAfter s) (emitBits bits s)).zrun = [] := by
        simp [counters, boundaryRunCode, runCode]
      rw [this, emitBits_nil (s := counters 0 (segmentAfter s) (referenceAfter s) (emitBits bits s)) f6]
      rfl

/-! ### The block coder's reader -/

/-- `DecodeId` reads the id of its option. -/
theorem decodeId_ok {s : State} (option : BlockOption) (rest : List Bool) (hl : idLegal s.cfg option) (hr : s.rbuf.length < 8)
    (h : s.inBits = idCode s.cfg option ++ rest) :
    ∃ t, decodeId s = .ok option t ∧ Taken (idCode s.cfg option) s t ∧ t.inBits = rest := by
  have hib := idBits_pos s.cfg
  unfold decodeId
  rw [get_bind]
  have two : ∀ b : Bool, Reads (zeroBits s.cfg.idBits ++ [b]) (if b then BlockOption.secondExt else .zeroBlock)
      (readBits s.cfg.idBits >>= fun i => if i = 0 then (readBits 1 >>= fun b => pure (if b = 0 then BlockOption.zeroBlock else .secondExt))
        else pure (if i = s.cfg.backupOption then .backup else .sampleSplit (i - 1))) := by
    intro b
    have h0 : bitsValue (zeroBits s.cfg.idBits) = 0 := by rw [← rawBits_zero, bitsValue_rawBits]; simp
    refine reads_bind (reads_readBits (zeroBits s.cfg.idBits) (by simp)) ?_
    rw [h0, if_pos rfl]
    have h1 := reads_bind (reads_readBits [b] rfl) (f := fun v => (pure (if v = 0 then BlockOption.zeroBlock else .secondExt) : Op _))
      (m := []) (b := if b then BlockOption.secondExt else .zeroBlock) (by cases b <;> exact reads_pure _)
    exact h1
  have one : ∀ (bits : List Bool), bits.length = s.cfg.idBits → bitsValue bits ≠ 0 →
      Reads bits (if bitsValue bits = s.cfg.backupOption then BlockOption.backup else .sampleSplit (bitsValue bits - 1))
      (readBits s.cfg.idBits >>= fun i => if i = 0 then (readBits 1 >>= fun b => pure (if b = 0 then BlockOption.zeroBlock else .secondExt))
        else pure (if i = s.cfg.backupOption then .backup else .sampleSplit (i - 1))) := by
    intro bits hb hne
    have h1 := reads_bind (reads_readBits bits hb) (f := fun i => if i = 0 then
        (readBits 1 >>= fun b => pure (if b = 0 then BlockOption.zeroBlock else .secondExt))
        else (pure (if i = s.cfg.backupOption then .backup else .sampleSplit (i - 1)) : Op _)) (m := [])
        (b := if bitsValue bits = s.cfg.backupOption then .backup else .sampleSplit (bitsValue bits - 1))
        (by rw [if_neg hne]; exact reads_pure _)
    rwa [List.append_nil] at h1
  have hpow : 2 ≤ 2 ^ s.cfg.idBits := by
    calc 2 = 2 ^ 1 := rfl
    _ ≤ 2 ^ s.cfg.idBits := Nat.pow_le_pow_right (by norm_num) hib
  cases option with
  | zeroBlock => exact two false s rest hr h
  | secondExt => exact two true s rest hr h
  | sampleSplit k =>
    have hk : k + 1 < 2 ^ s.cfg.idBits := by
      have : k + 1 < s.cfg.backupOption := hl
      rw [backupOption_eq] at this
      omega
    have hv : bitsValue (rawBits s.cfg.idBits (k + 1)) = k + 1 := bitsValue_rawBits_of_lt hk
    have := one (rawBits s.cfg.idBits (k + 1)) (by simp) (by rw [hv]; omega) s rest hr h
    rw [hv, if_neg (by have : k + 1 < s.cfg.backupOption := hl; omega)] at this
    exact this
  | backup =>
    have hb : List.replicate s.cfg.idBits true = rawBits s.cfg.idBits (2 ^ s.cfg.idBits - 1) := (rawBits_ones _ _ le_rfl).symm
    have hv : bitsValue (rawBits s.cfg.idBits (2 ^ s.cfg.idBits - 1)) = 2 ^ s.cfg.idBits - 1 :=
      bitsValue_rawBits_of_lt (by omega)
    have := one (rawBits s.cfg.idBits (2 ^ s.cfg.idBits - 1)) (by simp) (by rw [hv]; omega) s rest hr
      (by rw [← hb]; exact h)
    rw [hv, if_pos (backupOption_eq s.cfg).symm] at this
    rw [idCode, hb]
    exact this

theorem triangle_succ (n : Nat) : triangle (n + 1) = triangle n + (n + 1) := by
  unfold triangle
  rw [show (n + 1) * (n + 1 + 1) = n * (n + 1) + (n + 1) * 2 by ring, Nat.add_mul_div_right _ _ (by norm_num)]

theorem triangle_mono {m n : Nat} (h : m ≤ n) : triangle m ≤ triangle n := by
  induction h with
  | refl => exact le_rfl
  | step _ ih => rw [triangle_succ]; omega

theorem triangle_ge (n : Nat) : n ≤ triangle n := by
  cases n with
  | zero => exact Nat.zero_le _
  | succ n => rw [triangle_succ]; omega

theorem triangleRootFrom_spec (g : Nat) : ∀ n acc, triangle acc ≤ g → g < triangle (acc + 2 ^ n) →
    triangle (triangleRootFrom g n acc) ≤ g ∧ g < triangle (triangleRootFrom g n acc + 1)
  | 0, acc, h1, h2 => ⟨h1, h2⟩
  | n + 1, acc, h1, h2 => by
    unfold triangleRootFrom
    split
    · rename_i h
      exact triangleRootFrom_spec g n _ h (by rw [add_assoc, ← two_mul, ← pow_succ']; exact h2)
    · exact triangleRootFrom_spec g n _ h1 (by omega)

/-- The root is the largest β with β(β+1)/2 ≤ γ (42_block_adaptive.md R298). -/
theorem triangleRoot_spec (g : Nat) : triangle (triangleRoot g) ≤ g ∧ g < triangle (triangleRoot g + 1) := by
  refine triangleRootFrom_spec g _ 0 (Nat.zero_le g) (lt_of_lt_of_le Nat.lt_log2_self ?_)
  rw [Nat.zero_add]
  exact triangle_ge _

/-- A pair is read back from its codeword (42_block_adaptive.md R298). -/
theorem pairOfCode_pairCode (a b : Word) : pairOfCode (pairCode a.toNat b.toNat) = [a, b] := by
  have h := triangleRoot_spec (pairCode a.toNat b.toNat)
  set x := a.toNat
  set y := b.toNat
  have hr : triangleRoot (pairCode x y) = x + y := by
    have h1 : ¬ triangleRoot (pairCode x y) < x + y := by
      intro hlt
      have := triangle_mono (show triangleRoot (pairCode x y) + 1 ≤ x + y by omega)
      unfold pairCode at h this
      omega
    have h2 : ¬ x + y < triangleRoot (pairCode x y) := by
      intro hlt
      have := triangle_mono (show x + y + 1 ≤ triangleRoot (pairCode x y) by omega)
      rw [triangle_succ] at this
      unfold pairCode at h this
      omega
    omega
  unfold pairOfCode
  rw [hr]
  have e1 : pairCode x y - triangle (x + y) = y := by unfold pairCode; omega
  simp only [e1, show x + y - y = x by omega]
  rw [wordOfNat_toNat, wordOfNat_toNat]

theorem secondExt_flatten : ∀ b : List Word, b.length % 2 = 0 → (secondExtCodes b).length = b.length / 2 ∧
    ((secondExtCodes b).map pairOfCode).flatten = b
  | [], _ => ⟨rfl, rfl⟩
  | [_], h => by simp at h
  | x :: y :: rest, h => by
    obtain ⟨h1, h2⟩ := secondExt_flatten rest (by simp at h; omega)
    constructor
    · simp only [secondExtCodes, List.length_cons, h1]; omega
    · simp [secondExtCodes, h2, pairOfCode_pairCode]

/-- A block other than a zero block is read back from its payload (42_block_adaptive.md R299). -/
theorem reads_decodePayload (c : Cfg) (b : List Word) (option : BlockOption) (hl : payloadLegal c b option) :
    Reads (payloadCode c b option) b (decodePayload b.length c.D option) := by
  cases option with
  | zeroBlock => exact absurd hl id
  | secondExt =>
    obtain ⟨he, hg⟩ := hl
    obtain ⟨h1, h2⟩ := secondExt_flatten b he
    have h := reads_collect_of (g := fun _ : Nat => ()) (f := fun _ : Unit => unaryReadWord >>= fun g => pure (pairOfCode g))
      (bits := unaryCode) (val := pairOfCode) (secondExtCodes b) (fun g hm => by
        have := reads_bind (reads_unaryReadWord (hg g hm)) (f := fun g => (pure (pairOfCode g) : Op (List Word))) (m := [])
          (reads_pure (pairOfCode g))
        rwa [List.append_nil] at this)
    rw [List.map_const', h1] at h
    have k := reads_bind h (f := fun pairs => (pure pairs.flatten : Op (List Word))) (m := []) (b := b)
      (by rw [h2]; exact reads_pure b)
    rwa [List.append_nil] at k
  | sampleSplit k => exact reads_riceDecode b k
  | backup =>
    have h := reads_collect_of (g := fun _ : Word => ()) (f := fun _ : Unit => readBits c.D >>= fun v => pure (wordOfNat v))
      (bits := fun w : Word => rawBits c.D w.toNat) (val := fun w => w) b (fun w hm => by
        have := reads_bind (reads_readBits (rawBits c.D w.toNat) (length_rawBits _ _))
          (f := fun v => (pure (wordOfNat v) : Op Word)) (m := []) (b := w)
          (by rw [bitsValue_rawBits_of_lt (hl w hm), wordOfNat_toNat]; exact reads_pure w)
        rwa [List.append_nil] at this)
    rw [List.map_const', List.map_id'] at h
    exact h

/-! ### The sample-adaptive coder (43_sample_adaptive.md) -/

theorem writes_saCodeword (c : Cfg) (k v : Nat) {t : Nat} (ht : t ≠ 0) : Writes (adaptiveCode c k t v) (saCodeword c k v) := by
  unfold saCodeword adaptiveCode
  rw [if_neg ht]
  split
  · exact writes_seq (writes_unaryWrite _) (writes_writeBits _ _)
  · exact writes_seq (writes_unaryWrite _) (writes_writeBits _ _)

/-- `SaCode`: the codeword of the residual, and nothing else. -/
theorem saCode_ok {s : State} {z : Nat} (t v : Nat) {b : BandStats} (hc : s.closed = false) (hw : s.wbuf.length < 8)
    (hb : s.stats.cellAt z = some b) : saCode z t v s = .ok () (emitBits (adaptiveCode s.cfg (saK s.cfg b) t v) s) := by
  unfold saCode
  rw [get_bind]
  by_cases ht : t = 0
  · rw [if_pos ht]
    have h := writes_eq (writes_writeBits s.cfg.D v) hc hw
    rw [h]
    simp [adaptiveCode, ht]
  · rw [if_neg ht]
    have hrd : readStats z s = .ok b s := by rw [readStats_eq, hb]
    rw [bind_ok hrd]
    exact writes_eq (writes_saCodeword s.cfg (saK s.cfg b) v ht) hc hw

/-- `SaDecode` reads a residual below 2^D back from its codeword. -/
theorem saDecode_ok {s : State} {z : Nat} (t v : Nat) {b : BandStats} (rest : List Bool) (hr : s.rbuf.length < 8)
    (hb : s.stats.cellAt z = some b) (hv : v < 2 ^ s.cfg.D)
    (h : s.inBits = adaptiveCode s.cfg (saK s.cfg b) t v ++ rest) :
    ∃ u, saDecode z t s = .ok v u ∧ Taken (adaptiveCode s.cfg (saK s.cfg b) t v) s u ∧ u.inBits = rest := by
  unfold saDecode
  rw [get_bind]
  by_cases ht : t = 0
  · rw [if_pos ht]
    have e : adaptiveCode s.cfg (saK s.cfg b) t v = rawBits s.cfg.D v := by simp [adaptiveCode, ht]
    rw [e] at h ⊢
    exact reads_rawBits eosBin hv s rest hr h
  · rw [if_neg ht]
    have hrd : readStats z s = .ok b s := by rw [readStats_eq, hb]
    rw [bind_ok hrd]
    set c := s.cfg
    set k := saK c b
    by_cases hu : v >>> k < c.UMAX
    · have e : adaptiveCode c k t v = unaryCode (v >>> k) ++ rawBits k v := by simp [adaptiveCode, ht, hu]
      rw [e] at h ⊢
      refine reads_bind (reads_unaryRead badUnary (le_of_lt hu)) (f := fun n => if n < c.UMAX then
        (readBits k >>= fun low => pure (n * 2 ^ k + low)) else readBits c.D) ?_ s rest hr h
      rw [if_pos hu]
      have := reads_bind (reads_readBits (rawBits k v) (length_rawBits _ _))
        (f := fun low => (pure ((v >>> k) * 2 ^ k + low) : Op Nat)) (m := []) (b := v)
        (by rw [bitsValue_rawBits, Nat.shiftRight_eq_div_pow, Nat.div_add_mod']; exact reads_pure v)
      rwa [List.append_nil] at this
    · have e : adaptiveCode c k t v = unaryCode c.UMAX ++ rawBits c.D v := by simp [adaptiveCode, ht, hu]
      rw [e] at h ⊢
      refine reads_bind (reads_unaryRead badUnary le_rfl) (f := fun n => if n < c.UMAX then
        (readBits k >>= fun low => pure (n * 2 ^ k + low)) else readBits c.D) ?_ s rest hr h
      rw [if_neg (lt_irrefl _)]
      exact reads_rawBits eosBin hv

end Sys2Proof.Machine
end

