-- ==== Sys2Proof/Laws/Predictor.lean ====
section
/-! SUPPORT. What the predictor reads and answers: it reads its history cells in the order of 44_predictor.md R409, the first
unwritten one is the error, and with all of them written the result is the pure prediction of Safety.lean. -/

namespace Sys2Proof.Machine

variable {α β : Type}

/-- The error of an unwritten cell (20_memory.md R106). -/
def cellError (p : Cursor) : Raise := ⟨.history, wordOfNat (lowbits p.z 16 * 65536 + lowbits p.y 16)⟩

/-- An operation that reads these cells in this order, changes nothing, and answers a function of the samples. -/
def Looks (cells : List Cursor) (val : (Nat → Nat → Nat → Int) → α) (x : Op α) : Prop :=
  ∀ s : State, x s = match cells.find? fun p => (s.sampleAt p).isNone with
    | none => .ok (val s.samples) s
    | some p => .error (cellError p) s

theorem looks_pure (a : α) : Looks [] (fun _ => a) (pure a : Op α) := fun _ => rfl

theorem looks_histRead (z y x : Nat) : Looks [⟨z, y, x⟩] (fun h => h z y x) (histRead z y x) := by
  intro s
  rw [histRead_eq]
  simp only [State.samples, State.sampleAt, List.find?_cons, List.find?_nil]
  cases h : s.hist.cellAt (histKey z y x) <;> simp [cellError]

/-- A sequence whose second part answers from the first part's value. -/
theorem looks_seq {l m : List Cursor} {v : (Nat → Nat → Nat → Int) → α} {u : α → (Nat → Nat → Nat → Int) → β} {x : Op α}
    {f : α → Op β} (hx : Looks l v x) (hf : ∀ a, Looks m (u a) (f a)) : Looks (l ++ m) (fun h => u (v h) h) (x >>= f) := by
  intro s
  rw [bind_apply, hx s, List.find?_append]
  cases hl : l.find? fun p => (s.sampleAt p).isNone with
  | some p => rfl
  | none => exact hf (v s.samples) s

/-- A last step that only computes. -/
theorem looks_map {l : List Cursor} {v : (Nat → Nat → Nat → Int) → α} {x : Op α} (g : α → β) (hx : Looks l v x) :
    Looks l (fun h => g (v h)) (x >>= fun a => pure (g a)) := by
  have h := looks_seq hx (u := fun a _ => g a) (f := fun a => (pure (g a) : Op β)) (m := []) fun a => looks_pure (g a)
  rwa [List.append_nil] at h

theorem looks_congr {l m : List Cursor} {v u : (Nat → Nat → Nat → Int) → α} {x : Op α} (h : Looks l v x) (hl : l = m)
    (hv : v = u) : Looks m u x := hl ▸ hv ▸ h

theorem looks_collect {f : α → Op β} {cells : α → List Cursor} {val : α → (Nat → Nat → Nat → Int) → β}
    (h : ∀ a, Looks (cells a) (val a) (f a)) : ∀ l : List α,
    Looks (l.flatMap cells) (fun g => l.map fun a => val a g) (collect l f)
  | [] => looks_pure []
  | a :: as => by
    rw [List.flatMap_cons]
    refine looks_congr (looks_seq (h a) (u := fun b g => b :: as.map fun a => val a g)
      (f := fun b => collect as f >>= fun bs => pure (b :: bs)) fun b => ?_) rfl rfl
    have ih := looks_collect h as
    exact looks_map (fun bs => b :: bs) ih

/-- `L(b, y, x)` at a position other than the origin. -/
theorem looks_localSum (c : Cfg) (b y x : Nat) (hp : ¬ (y = 0 ∧ x = 0)) :
    Looks ((sumCells c y x).map fun q => ⟨b, q.1, q.2⟩) (fun h => sumOf c (h b) y x) (localSum c b y x) := by
  unfold localSum sumCells sumOf
  by_cases hm : c.lsmode = 0
  · simp only [if_pos hm]
    match y, x, hp with
    | 0, 0, hp => exact absurd ⟨rfl, rfl⟩ hp
    | 0, x + 1, _ =>
      simp only [lt_irrefl, false_and, if_false, if_true]
      exact looks_map (fun w => 4 * w) (looks_histRead b 0 x)
    | y + 1, 0, _ =>
      simp only [lt_irrefl, false_and, and_false, if_false, Nat.succ_ne_zero, if_true, Nat.add_sub_cancel]
      exact looks_seq (looks_histRead b y 0) (u := fun n h => 2 * (n + h b y 1)) fun n =>
        looks_map (fun ne => 2 * (n + ne)) (looks_histRead b y 1)
    | y + 1, x + 1, _ =>
      simp only [Nat.succ_pos, true_and, Nat.succ_ne_zero, if_false, Nat.add_sub_cancel, neighbourSum]
      by_cases hx : x + 2 < c.X
      · simp only [if_pos hx]
        exact looks_seq (looks_histRead b (y + 1) x) (u := fun w h => w + h b y x + h b y (x + 1) + h b y (x + 2)) fun w =>
          looks_seq (looks_histRead b y x) (u := fun nw h => w + nw + h b y (x + 1) + h b y (x + 2)) fun nw =>
          looks_seq (looks_histRead b y (x + 1)) (u := fun n h => w + nw + n + h b y (x + 2)) fun n =>
          looks_map (fun ne => w + nw + n + ne) (looks_histRead b y (x + 2))
      · simp only [if_neg hx]
        exact looks_seq (looks_histRead b (y + 1) x) (u := fun w h => w + h b y x + 2 * h b y (x + 1)) fun w =>
          looks_seq (looks_histRead b y x) (u := fun nw h => w + nw + 2 * h b y (x + 1)) fun nw =>
          looks_map (fun n => w + nw + 2 * n) (looks_histRead b y (x + 1))
  · simp only [if_neg hm]
    match y, x, hp with
    | 0, 0, hp => exact absurd ⟨rfl, rfl⟩ hp
    | 0, x + 1, _ => exact looks_map (fun w => 4 * w) (looks_histRead b 0 x)
    | y + 1, x, _ =>
      simp only [Nat.succ_pos, if_true, Nat.add_sub_cancel]
      exact looks_map (fun n => 4 * n) (looks_histRead b y x)

/-- The directional entries, given the local sum. -/
theorem looks_directional (z y x : Nat) (sigma : Int) :
    Looks ((if y = 0 then [] else if x = 0 then [(y - 1, 0)] else [(y - 1, x), (y, x - 1), (y - 1, x - 1)]).map
        fun q : Nat × Nat => (⟨z, q.1, q.2⟩ : Cursor))
      (fun h => if y = 0 then [0, 0, 0] else if x = 0 then List.replicate 3 (4 * h z (y - 1) 0 - sigma)
        else [4 * h z (y - 1) x - sigma, 4 * h z y (x - 1) - sigma, 4 * h z (y - 1) (x - 1) - sigma])
      (directional z sigma y x) := by
  match y, x with
  | 0, x => exact looks_pure _
  | y + 1, 0 =>
    simp only [Nat.succ_ne_zero, if_false, if_true, Nat.add_sub_cancel]
    exact looks_map (fun n => [4 * n - sigma, 4 * n - sigma, 4 * n - sigma]) (looks_histRead z y 0)
  | y + 1, x + 1 =>
    simp only [Nat.succ_ne_zero, if_false, Nat.add_sub_cancel]
    exact looks_seq (looks_histRead z y (x + 1)) (u := fun n h => [4 * n - sigma, 4 * h z (y + 1) x - sigma, 4 * h z y x - sigma])
      fun n => looks_seq (looks_histRead z (y + 1) x) (u := fun w h => [4 * n - sigma, 4 * w - sigma, 4 * h z y x - sigma])
      fun w => looks_map (fun nw => [4 * n - sigma, 4 * w - sigma, 4 * nw - sigma]) (looks_histRead z y x)

/-- The prediction: its differences and s_scaled (44_predictor.md R390, R401). -/
theorem looks_predict (c : Cfg) (w : List Int) (p : Cursor) :
    Looks (neededCells c p) (fun h => (differencesOf c h p, scaledOf c w h p)) (predict c w p.z p.y p.x) := by
  unfold predict
  by_cases h0 : p.y = 0 ∧ p.x = 0
  · rw [if_pos h0]
    unfold neededCells differencesOf scaledOf predictOrigin
    simp only [if_pos h0]
    by_cases hz : p.z = 0 ∨ c.P = 0
    · simp only [if_pos hz]
      exact looks_pure _
    · simp only [if_neg hz]
      exact looks_map (fun ss => (([] : List Int), ss)) (looks_map (fun v => 2 * v) (looks_histRead (p.z - 1) 0 0))
  · rw [if_neg h0]
    have hsum := looks_localSum c p.z p.y p.x h0
    have hdir : ∀ sigma, Looks ((directionalCells c p.y p.x).map fun q => (⟨p.z, q.1, q.2⟩ : Cursor))
        (fun h => if c.pmode = 0 then (if p.y = 0 then [0, 0, 0] else if p.x = 0 then
          List.replicate 3 (4 * h p.z (p.y - 1) 0 - sigma) else [4 * h p.z (p.y - 1) p.x - sigma,
            4 * h p.z p.y (p.x - 1) - sigma, 4 * h p.z (p.y - 1) (p.x - 1) - sigma]) else [])
        (directionalPart c p.z sigma p.y p.x) := by
      intro sigma
      unfold directionalPart directionalCells
      by_cases hm : c.pmode = 0
      · simp only [if_pos hm]; exact looks_directional p.z p.y p.x sigma
      · simp only [if_neg hm]; exact looks_pure _
    have hinter : ∀ b, Looks (⟨b, p.y, p.x⟩ :: (sumCells c p.y p.x).map fun q => (⟨b, q.1, q.2⟩ : Cursor))
        (fun h => 4 * h b p.y p.x - sumOf c (h b) p.y p.x) (interBand c p.y p.x b) := fun b =>
      looks_seq (looks_histRead b p.y p.x) (u := fun v h => 4 * v - sumOf c (h b) p.y p.x) fun v =>
        looks_map (fun l => 4 * v - l) (looks_localSum c b p.y p.x h0)
    have hall := looks_collect hinter (previousBands c p.z)
    have hdiffs : ∀ sigma, Looks _ _ (localDiffs c p.z sigma p.y p.x) := fun sigma =>
      looks_seq (hdir sigma) (u := fun d h => d ++ (previousBands c p.z).map fun b => 4 * h b p.y p.x - sumOf c (h b) p.y p.x)
        fun d => looks_map (fun e => d ++ e) hall
    have hlast : ∀ sigma, Looks _ _ (localDiffs c p.z sigma p.y p.x >>= fun d =>
        pure (d, scaledPrediction c (dotProduct w d) sigma)) := fun sigma =>
      looks_map (fun d => (d, scaledPrediction c (dotProduct w d) sigma)) (hdiffs sigma)
    refine looks_congr (looks_seq hsum hlast) ?_ ?_
    · unfold neededCells
      rw [if_neg h0, previousBands, List.flatMap_map, List.append_assoc]
    · funext h
      have hd : (if c.pmode = 0 then (if p.y = 0 then [0, 0, 0] else if p.x = 0 then
          List.replicate 3 (4 * h p.z (p.y - 1) 0 - sumOf c (h p.z) p.y p.x) else
            [4 * h p.z (p.y - 1) p.x - sumOf c (h p.z) p.y p.x, 4 * h p.z p.y (p.x - 1) - sumOf c (h p.z) p.y p.x,
              4 * h p.z (p.y - 1) (p.x - 1) - sumOf c (h p.z) p.y p.x]) else []) ++
          ((previousBands c p.z).map fun b => 4 * h b p.y p.x - sumOf c (h b) p.y p.x) = differencesOf c h p := by
        unfold differencesOf directionalOf previousBands
        rw [if_neg h0, List.map_map]
        rfl
      simp only [hd]
      unfold scaledOf scaledPrediction dotProduct modR asr clamp
      rw [if_neg h0]

/-- The sign of the scaled error (44_predictor.md R404). -/
theorem errorSign_eq (v ss : Int) : errorSign v ss = if 2 * v < ss then -1 else 1 := by
  unfold errorSign
  simp only [sub_neg]

/-- The weights after a sample away from the origin (44_predictor.md R403, R404). -/
theorem nextWeights_eq (c : Cfg) (w : List Int) (h : Nat → Nat → Nat → Int) (p : Cursor) (v : Int) (h0 : ¬ (p.y = 0 ∧ p.x = 0)) :
    nextWeights c w (differencesOf c h p) p.y p.x v (scaledOf c w h p) = weightsOf c w h p v := by
  unfold weightsOf nextWeights
  rw [if_neg h0, errorSign_eq]
  rfl

/-- The publishing of a sample: HIST at the position, and the weights of the band (44_predictor.md R407, R408). -/
theorem publishSample_ok (c : Cfg) (w : List Int) (h : Nat → Nat → Nat → Int) (p : Cursor) (v : Int) {s : State}
    (hw : s.weights.cellAt p.z = some w) :
    ∃ t, publishSample c w (differencesOf c h p) p.z p.y p.x v (scaledOf c w h p) s = .ok () t ∧
      t = { s with hist := t.hist, weights := t.weights } ∧ t.sampleAt p = some v ∧
      (∀ q : Cursor, histKey q.z q.y q.x ≠ histKey p.z p.y p.x → t.sampleAt q = s.sampleAt q) ∧
      t.weights.cellAt p.z = some (weightsOf c w h p v) ∧ ∀ z, z ≠ p.z → t.weights.cellAt z = s.weights.cellAt z := by
  unfold publishSample
  by_cases h0 : p.y = 0 ∧ p.x = 0
  · rw [if_pos h0]
    refine ⟨_, rfl, rfl, Memory.cellAt_putCell_same .., fun q hq => Memory.cellAt_putCell_other _ hq _, ?_, fun z _ => rfl⟩
    show s.weights.cellAt p.z = _
    rw [hw, weightsOf, if_pos h0]
  · rw [if_neg h0, nextWeights_eq c w h p v h0]
    exact ⟨_, rfl, rfl, Memory.cellAt_putCell_same .., fun q hq => Memory.cellAt_putCell_other _ hq _,
      Memory.cellAt_putCell_same .., fun z hz => Memory.cellAt_putCell_other _ hz _⟩

/-- `PredCompress` with its band initialized and every cell it needs written. -/
theorem predCompress_ok {s : State} {p : Cursor} {v : Int} {w : List Int} (hv : s.cfg.SMIN ≤ v ∧ v ≤ s.cfg.SMAX)
    (hw : s.weights.cellAt p.z = some w) (hn : ∀ q ∈ neededCells s.cfg p, (s.sampleAt q).isSome) :
    ∃ t, predCompress p.z p.y p.x v s =
        .ok (mapResidual s.cfg v (scaledOf s.cfg w s.samples p), scaledOf s.cfg w s.samples p) t ∧
      t = { s with hist := t.hist, weights := t.weights } ∧ t.sampleAt p = some v ∧
      (∀ q : Cursor, histKey q.z q.y q.x ≠ histKey p.z p.y p.x → t.sampleAt q = s.sampleAt q) ∧
      t.weights.cellAt p.z = some (weightsOf s.cfg w s.samples p v) ∧ ∀ z, z ≠ p.z → t.weights.cellAt z = s.weights.cellAt z := by
  have hp : predict s.cfg w p.z p.y p.x s = .ok (differencesOf s.cfg s.samples p, scaledOf s.cfg w s.samples p) s := by
    rw [looks_predict s.cfg w p s, List.find?_eq_none.mpr]
    intro q hq
    have := hn q hq
    rw [Option.isSome_iff_ne_none] at this
    simpa [Option.isNone_iff_eq_none] using this
  obtain ⟨t, h1, h2⟩ := publishSample_ok s.cfg w s.samples p v hw
  refine ⟨t, ?_, h2⟩
  unfold predCompress
  rw [get_bind, require_bind_ok hv, bind_ok (show readWeights p.z s = .ok w s by rw [readWeights_eq, hw]), bind_ok hp, bind_ok h1]
  rfl

/-- `PredDecompress` with its band initialized and every cell it needs written. -/
theorem predDecompress_ok {s : State} {p : Cursor} {d : Nat} {w : List Int} (hd : d < 2 ^ s.cfg.D)
    (hw : s.weights.cellAt p.z = some w) (hn : ∀ q ∈ neededCells s.cfg p, (s.sampleAt q).isSome) :
    let v := unmapResidual s.cfg d (scaledOf s.cfg w s.samples p)
    ∃ t, predDecompress p.z p.y p.x d s = .ok (v, scaledOf s.cfg w s.samples p) t ∧
      t = { s with hist := t.hist, weights := t.weights } ∧ t.sampleAt p = some v ∧
      (∀ q : Cursor, histKey q.z q.y q.x ≠ histKey p.z p.y p.x → t.sampleAt q = s.sampleAt q) ∧
      t.weights.cellAt p.z = some (weightsOf s.cfg w s.samples p v) ∧ ∀ z, z ≠ p.z → t.weights.cellAt z = s.weights.cellAt z := by
  have hp : predict s.cfg w p.z p.y p.x s = .ok (differencesOf s.cfg s.samples p, scaledOf s.cfg w s.samples p) s := by
    rw [looks_predict s.cfg w p s, List.find?_eq_none.mpr]
    intro q hq
    have := hn q hq
    rw [Option.isSome_iff_ne_none] at this
    simpa [Option.isNone_iff_eq_none] using this
  obtain ⟨t, h1, h2⟩ := publishSample_ok s.cfg w s.samples p
    (unmapResidual s.cfg d (scaledOf s.cfg w s.samples p)) hw
  refine ⟨t, ?_, h2⟩
  unfold predDecompress
  rw [get_bind, require_bind_ok hd, bind_ok (show readWeights p.z s = .ok w s by rw [readWeights_eq, hw]), bind_ok hp, bind_ok h1]
  rfl

end Sys2Proof.Machine
end

