-- ==== Sys2Proof/Laws/Header.lean ====
section
/-! SUPPORT. What the header serializer writes, section by section, and that it is the layout of Safety.lean. -/

namespace Sys2Proof.Machine

/-- The bits of the fields a section of the machine writes. -/
def fieldBits (fields : List Field) : List Bool := fields.flatMap fun f => rawBits f.1 f.2

/-- A section as the machine writes it, from a writer that holds `pos` bits. -/
def writtenSection (pos : Nat) (fields : List Field) : List Bool :=
  fieldBits fields ++ padBits (pos + (fieldBits fields).length)

/-- The header as the machine writes it. -/
def writtenHeader (pos : Nat) (c : Cfg) (ta tw : Memory Word) : List Bool :=
  writtenSection pos (imageFields c) ++ writtenSection 0 (predictorFields c) ++
    (if c.wtable = 1 then writtenSection 0 (weightTableFields c tw) else []) ++ writtenSection 0 (coderFields c ta)

/-- `Flush` of an open writer, as a function. -/
theorem flush_eq {s : State} (hc : s.closed = false) (hw : s.wbuf.length < 8) :
    flush s = .ok () (emitBits (padBits s.wbuf.length) s) ∧ (emitBits (padBits s.wbuf.length) s).wbuf = [] := by
  obtain ⟨t, h1, h2, h3⟩ := flush_ok (s := s) (by simp [hc]) hw
  rw [h1, ← emitted_eq h2 hw]
  exact ⟨rfl, h3⟩

/-- A section is its fields and the zero bits to the next byte. -/
theorem writeSection_ok (fields : List Field) {s : State} (hc : s.closed = false) (hw : s.wbuf.length < 8) :
    writeSection fields s = .ok () (emitBits (writtenSection s.wbuf.length fields) s) ∧
      (emitBits (writtenSection s.wbuf.length fields) s).wbuf = [] := by
  have h1 := writes_eq (writes_forEach (fun f : Field => writes_writeBits f.1 f.2) fields) hc hw
  have hf := emitBits_fields (fieldBits fields) hw
  have hl := emitted_wbuf_length (emitBits_emitted (fieldBits fields) hw)
  obtain ⟨h2, h3⟩ := flush_eq (s := emitBits (fieldBits fields) s) (by rw [hf.2.2.2.2.1, hc]) hf.2.2.2.2.2
  have hp : padBits (emitBits (fieldBits fields) s).wbuf.length = padBits (s.wbuf.length + (fieldBits fields).length) := by
    rw [hl]; simp only [padBits, Nat.mod_mod]
  rw [hp, emitBits_append _ _ hw] at h2 h3
  refine ⟨?_, h3⟩
  unfold writeSection
  rw [bind_ok h1]
  exact h2

/-- `HdrWrite` of an open writer appends its sections and leaves it at a byte boundary. -/
theorem hdrWrite_written {s : State} (hc : s.closed = false) (hw : s.wbuf.length < 8) :
    hdrWrite s = .ok () (emitBits (writtenHeader s.wbuf.length s.cfg s.ta s.tw) s) ∧
      (emitBits (writtenHeader s.wbuf.length s.cfg s.ta s.tw) s).wbuf = [] := by
  have next : ∀ (bits : List Bool) (fields : List Field), (emitBits bits s).wbuf = [] →
      writeSection fields (emitBits bits s) = .ok () (emitBits (bits ++ writtenSection 0 fields) s) ∧
        (emitBits (bits ++ writtenSection 0 fields) s).wbuf = [] := by
    intro bits fields h0
    have hf := emitBits_fields bits hw
    have h := writeSection_ok fields (s := emitBits bits s) (by rw [hf.2.2.2.2.1, hc]) hf.2.2.2.2.2
    rw [h0, List.length_nil, emitBits_append _ _ hw] at h
    exact h
  have fieldsOf : ∀ bits : List Bool, (emitBits bits s).cfg = s.cfg ∧ (emitBits bits s).ta = s.ta ∧ (emitBits bits s).tw = s.tw := by
    intro bits
    have h := (emitBits_emitted bits hw).1
    refine ⟨?_, ?_, ?_⟩ <;> rw [h]
  obtain ⟨a1, a2⟩ := writeSection_ok (imageFields s.cfg) hc hw
  obtain ⟨b1, b2⟩ := next _ (predictorFields s.cfg) a2
  unfold hdrWrite writtenHeader
  rw [get_bind, bind_ok a1, bind_ok b1]
  have third : ∀ bits : List Bool, (emitBits bits s).wbuf = [] →
      writeWeightSection (emitBits bits s) = .ok () (emitBits (bits ++
        if s.cfg.wtable = 1 then writtenSection 0 (weightTableFields s.cfg s.tw) else []) s) ∧
      (emitBits (bits ++ if s.cfg.wtable = 1 then writtenSection 0 (weightTableFields s.cfg s.tw) else []) s).wbuf = [] := by
    intro bits h0
    unfold writeWeightSection
    rw [get_bind, (fieldsOf bits).1, (fieldsOf bits).2.2]
    by_cases hwt : s.cfg.wtable = 1
    · rw [if_pos hwt, if_pos hwt]; exact next bits _ h0
    · rw [if_neg hwt, if_neg hwt, List.append_nil]; exact ⟨rfl, h0⟩
  obtain ⟨c1, c2⟩ := third _ b2
  rw [bind_ok c1]
  exact next _ (coderFields s.cfg s.ta) c2

/-! ### The machine's fields are the layout's -/

/-- A field carries the low bits of its value. -/
theorem rawBits_mod {n m : Nat} (v : Nat) (h : n ≤ m) : rawBits n (v % 2 ^ m) = rawBits n v := by
  induction n with
  | zero => rfl
  | succ n ih => rw [rawBits, rawBits, ih (by omega), Nat.testBit_mod_two_pow, decide_eq_true (by omega : n < m), Bool.true_and]

theorem bits_imageSection (c : Cfg) : sectionBits (imageSection c) = fieldBits (imageFields c) := by
  have h16 : ∀ v : Nat, rawBits 16 (v % 65536) = rawBits 16 v := fun v => rawBits_mod v (Nat.le_refl 16)
  have h4 : ∀ v : Nat, rawBits 4 (v % 16) = rawBits 4 v := fun v => rawBits_mod v (Nat.le_refl 4)
  have h3 : ∀ v : Nat, rawBits 3 (v % 8) = rawBits 3 v := fun v => rawBits_mod v (Nat.le_refl 3)
  have hm : rawBits 16 (if c.order = 0 then c.M % 65536 else 0) = rawBits 16 (if c.order = 0 then c.M else 0) := by
    by_cases h : c.order = 0
    · rw [if_pos h, if_pos h, h16]
    · rw [if_neg h, if_neg h]
  simp only [sectionBits, fieldBits, imageSection, imageFields, fillField, List.flatMap_cons, List.flatMap_nil, h16, h4, h3, hm]

theorem bits_predictorSection (c : Cfg) : sectionBits (predictorSection c) = fieldBits (predictorFields c) := by
  have h6 : ∀ v : Nat, rawBits 6 (v % 64) = rawBits 6 v := fun v => rawBits_mod v (Nat.le_refl 6)
  simp only [sectionBits, fieldBits, predictorSection, predictorFields, fillField, List.flatMap_cons, List.flatMap_nil, h6]

theorem bits_weightSection (c : Cfg) (tw : Memory Word) :
    sectionBits (weightSection c tw) = fieldBits (weightTableFields c tw) := by
  have h : ∀ z, min c.P z + (if c.pmode = 0 then 3 else 0) = c.bandLength z := fun z => Nat.add_comm _ _
  simp only [sectionBits, fieldBits, weightSection, weightTableFields, List.flatMap_assoc, List.flatMap_map, h, twKey]

theorem bits_coderSection (c : Cfg) (ta : Memory Word) :
    sectionBits (if c.coder = 0 then adaptiveSection c ta else blockSection c) = fieldBits (coderFields c ta) := by
  have h5 : ∀ v : Nat, rawBits 5 (v % 32) = rawBits 5 v := fun v => rawBits_mod v (Nat.le_refl 5)
  have h3 : ∀ v : Nat, rawBits 3 (v % 8) = rawBits 3 v := fun v => rawBits_mod v (Nat.le_refl 3)
  have h12 : ∀ v : Nat, rawBits 12 (v % 4096) = rawBits 12 v := fun v => rawBits_mod v (Nat.le_refl 12)
  unfold coderFields adaptiveSection sampleAdaptiveFields accTableFields blockSection blockAdaptiveFields
  repeat' split
  all_goals simp only [sectionBits, fieldBits, fillField, List.flatMap_cons, List.flatMap_nil, List.flatMap_append,
    List.flatMap_map, List.append_nil, h5, h3, h12]

/-- The header the machine writes is the one of 30_encoding.md R155 to R160. -/
theorem writtenHeader_eq (pos : Nat) (c : Cfg) (ta tw : Memory Word) : writtenHeader pos c ta tw = headerBits pos c ta tw := by
  unfold writtenHeader headerBits headerSections writtenSection
  rw [← bits_imageSection, ← bits_predictorSection, ← bits_weightSection, ← bits_coderSection]
  by_cases h : c.wtable = 1
  · simp only [if_pos h, List.cons_append, List.nil_append, sectionsBits, List.append_assoc, List.append_nil]
  · simp only [if_neg h, List.cons_append, List.nil_append, sectionsBits, List.append_assoc, List.append_nil]

/-- `HdrWrite` of an open writer: the header of 46_header.md R480, and a writer at a byte boundary. -/
theorem hdrWrite_ok {s : State} (hc : s.closed = false) (hw : s.wbuf.length < 8) :
    hdrWrite s = .ok () (emitBits (headerBits s.wbuf.length s.cfg s.ta s.tw) s) ∧
      (emitBits (headerBits s.wbuf.length s.cfg s.ta s.tw) s).wbuf = [] := by
  rw [← writtenHeader_eq]
  exact hdrWrite_written hc hw

end Sys2Proof.Machine
end

