-- ==== Sys2Proof/Laws/PerInstr.lean ====
section
/-! SUPPORT. The families of statements made per command. -/

namespace Sys2Proof.Laws.RoundTrip

/-- The command's word decodes to the command, as a word and as the opcode table numbers it; its ZERO field is clear and its
opcode listed (30_encoding.md R140, R142). -/
def Statement (i : Instr) : Prop :=
  decode (encode i) = .ok i ∧ decodeTableWord 32 (encode i).toNat = some i ∧ (splitCommand (encode i)).wellFormed = true

theorem nop : Statement .nop := by unfold Statement; decide
theorem reset : Statement .reset := by unfold Statement; decide
theorem validate : Statement .validate := by unfold Statement; decide
theorem endSession : Statement .endSession := by unfold Statement; decide
theorem bsWrite : Statement .bsWrite := by unfold Statement; decide
theorem bsRead : Statement .bsRead := by unfold Statement; decide
theorem bsFlush : Statement .bsFlush := by unfold Statement; decide
theorem bsReadAlign : Statement .bsReadAlign := by unfold Statement; decide
theorem bsPadWord : Statement .bsPadWord := by unfold Statement; decide
theorem bsClose : Statement .bsClose := by unfold Statement; decide
theorem unaryWrite : Statement .unaryWrite := by unfold Statement; decide
theorem unaryRead : Statement .unaryRead := by unfold Statement; decide
theorem riceMask : Statement .riceMask := by unfold Statement; decide
theorem riceCode : Statement .riceCode := by unfold Statement; decide
theorem riceDecode : Statement .riceDecode := by unfold Statement; decide
theorem riceBest : Statement .riceBest := by unfold Statement; decide
theorem baCodeBlock : Statement .baCodeBlock := by unfold Statement; decide
theorem baDecodeBlock : Statement .baDecodeBlock := by unfold Statement; decide
theorem baTerminate : Statement .baTerminate := by unfold Statement; decide
theorem baSelect : Statement .baSelect := by unfold Statement; decide
theorem baCodeSample : Statement .baCodeSample := by unfold Statement; decide
theorem baDecodeSample : Statement .baDecodeSample := by unfold Statement; decide
theorem saInitBand : Statement .saInitBand := by unfold Statement; decide
theorem saCode : Statement .saCode := by unfold Statement; decide
theorem saDecode : Statement .saDecode := by unfold Statement; decide
theorem saUpdate : Statement .saUpdate := by unfold Statement; decide
theorem saTerminate : Statement .saTerminate := by unfold Statement; decide
theorem predInitBand : Statement .predInitBand := by unfold Statement; decide
theorem predCompress : Statement .predCompress := by unfold Statement; decide
theorem predDecompress : Statement .predDecompress := by unfold Statement; decide
theorem resMap : Statement .resMap := by unfold Statement; decide
theorem resUnmap : Statement .resUnmap := by unfold Statement; decide
theorem hdrWrite : Statement .hdrWrite := by unfold Statement; decide
theorem hdrRead : Statement .hdrRead := by unfold Statement; decide
theorem compress : Statement .compress := by unfold Statement; decide
theorem decompress : Statement .decompress := by unfold Statement; decide

end Sys2Proof.Laws.RoundTrip
end

