-- ==== Sys2Proof/Tests/Slice0.lean ====
section
/-! SUPPORT. Tests: ill-formed words and accesses, decoding of words written out from 30_encoding.md R142, one or two small
vectors of 95_test_vectors.md an instruction, and for every statement with hypotheses a state that meets them. -/

namespace Sys2Proof.Tests
open Sys2Proof.Machine

-- One theorem at a time: each kernel evaluation that waits for another would hold a thread of its own.
set_option Elab.async false

/-! ### WellFormed -/

theorem test_zero_field_refused : (CommandWord.mk 0x10 1).zeroClear = false ∧ (CommandWord.mk 0x10 1).wellFormed = false := by
  decide

theorem test_unlisted_opcode_refused : (CommandWord.mk 0x16 0).opcListed = false ∧ (CommandWord.mk 0x16 0).wellFormed = false := by
  decide

theorem test_narrow_access_refused :
    (HostAccess.write 0x018 2 0).widthOk = false ∧ (HostAccess.write 0x018 2 0).wellFormed = false := by
  decide

theorem test_unaligned_access_refused :
    (HostAccess.read 0x01A 4).aligned = false ∧ (HostAccess.read 0x01A 4).wellFormed = false := by
  decide

theorem test_legal_word_and_access : (CommandWord.mk 0x10 0).wellFormed = true ∧ (HostAccess.read 0x018 4).wellFormed = true := by
  decide

/-! ### Decoding, words of 30_encoding.md R142 -/

theorem test_decode_control :
    decode 0x00000000 = .ok .nop ∧ decode 0x00000001 = .ok .reset ∧ decode 0x00000002 = .ok .validate ∧
      decode 0x00000003 = .ok .endSession := by
  decide

theorem test_decode_bitstream :
    decode 0x00000010 = .ok .bsWrite ∧ decode 0x00000011 = .ok .bsRead ∧ decode 0x00000012 = .ok .bsFlush ∧
      decode 0x00000013 = .ok .bsReadAlign ∧ decode 0x00000014 = .ok .bsPadWord ∧ decode 0x00000015 = .ok .bsClose := by
  decide

theorem test_decode_unary : decode 0x00000018 = .ok .unaryWrite ∧ decode 0x00000019 = .ok .unaryRead := by decide

theorem test_decode_rice :
    decode 0x00000020 = .ok .riceMask ∧ decode 0x00000021 = .ok .riceCode ∧ decode 0x00000022 = .ok .riceDecode ∧
      decode 0x00000023 = .ok .riceBest := by
  decide

theorem test_decode_block_adaptive :
    decode 0x00000028 = .ok .baCodeBlock ∧ decode 0x00000029 = .ok .baDecodeBlock ∧ decode 0x0000002A = .ok .baTerminate ∧
      decode 0x0000002B = .ok .baSelect ∧ decode 0x0000002C = .ok .baCodeSample ∧ decode 0x0000002D = .ok .baDecodeSample := by
  decide

theorem test_decode_sample_adaptive :
    decode 0x00000030 = .ok .saInitBand ∧ decode 0x00000031 = .ok .saCode ∧ decode 0x00000032 = .ok .saDecode ∧
      decode 0x00000033 = .ok .saUpdate ∧ decode 0x00000034 = .ok .saTerminate := by
  decide

theorem test_decode_predictor :
    decode 0x00000038 = .ok .predInitBand ∧ decode 0x00000039 = .ok .predCompress ∧ decode 0x0000003A = .ok .predDecompress := by
  decide

theorem test_decode_mapper : decode 0x0000003B = .ok .resMap ∧ decode 0x0000003C = .ok .resUnmap := by decide

theorem test_decode_header_and_pipeline :
    decode 0x00000040 = .ok .hdrWrite ∧ decode 0x00000041 = .ok .hdrRead ∧ decode 0x00000050 = .ok .compress ∧
      decode 0x00000051 = .ok .decompress := by
  decide

theorem test_decode_refuses :
    decode 0x00000004 = .error .opcode ∧ decode 0x00000016 = .error .opcode ∧ decode 0x0000003D = .error .opcode ∧
      decode 0x000000FF = .error .opcode ∧ decode 0x00000100 = .error .zeroField ∧ decode 0x80000010 = .error .zeroField := by
  decide

/-- The encoder's words, by the first column of 30_encoding.md R142. -/
theorem test_encode_words :
    encode .bsWrite = 0x00000010 ∧ encode .baDecodeSample = 0x0000002D ∧ encode .decompress = 0x00000051 := by
  decide

theorem test_table_word : decodeTableWord 32 0x00000041 = some .hdrRead ∧ decodeTableWord 32 0x0000000F = none := by decide

/-! ### One-step vectors -/

/-- The state a command leaves. -/
def ran (i : Instr) (s : State) : State :=
  match exec i s with
  | .next t => t
  | .fault _ => s
  | .refused _ => s

/-- The state one access of the host leaves. -/
def accessed (a : HostAccess) (s : State) : State :=
  match after a s with
  | .next t => t
  | .fault _ => s
  | .refused _ => s

/-- A fresh session under a configuration. -/
def session (c : Cfg) : State := derive { State.reset with mode := .active, cfg := c }

def withArgs (a b c : Word) (s : State) : State := { s with arg0 := a, arg1 := b, arg2 := c }

/-- D = 8, the sample-adaptive coder. -/
def plain8 : Cfg := { Cfg.reset with d := 8 }

/-- D = 8, J = 8, the block-adaptive coder. -/
def block8 : Cfg := { Cfg.reset with d := 8, coder := 1, j := 8 }

/-- The image of scenario 3. -/
def cube8 : Cfg := { Cfg.reset with x := 2, y := 2, z := 2, d := 8, p := 1, r := 32 }

/-- The header of the reset configuration with D = 8 (95_test_vectors.md 1.1). -/
def header8 : List Byte :=
  [0x00, 0x00, 0x01, 0x00, 0x01, 0x00, 0x01, 0x11, 0x00, 0x00, 0x08, 0x00, 0x00, 0x00, 0x92, 0x59, 0x00, 0x82, 0x26]

theorem test_step_runs_word : step (State.reset.withFetchWord 32 0x00000000) = .next { State.reset with done := true } := rfl

theorem test_nop : (ran .nop State.reset).status = 0x01 := by decide +kernel

theorem test_reset_from_fault :
    let t := ran .reset { State.reset with mode := .fault, errCode := .config, errInfo := 4, cfg := plain8, arg0 := 7 }
    t.status = 0x01 ∧ t.errInfo = 0 ∧ t.cfg = plain8 ∧ t.arg0 = 0 := by
  decide +kernel

/-- S3. -/
theorem test_validate : (ran .validate State.reset).status = 0x05 ∧ (ran .validate State.reset).idBitsReg = 4 := by
  decide +kernel

/-- S5. -/
theorem test_validate_fails :
    let t := ran .validate { State.reset with cfg := { Cfg.reset with d := 17 } }
    t.status = 0x010A ∧ t.errInfo = 4 := by
  decide +kernel

theorem test_end : (ran .endSession (session plain8)).status = 0x01 := by decide +kernel

/-- B1, its second command. -/
theorem test_bs_write :
    let t := ran .bsWrite (withArgs 5 1 0 { session plain8 with wbuf := [true, false, true], bitsOut := 3 })
    t.bout = [0xA1] ∧ t.wbuf = [] ∧ t.bitsOut = 8 := by
  decide +kernel

/-- B3. -/
theorem test_bs_write_low_bits : (ran .bsWrite (withArgs 4 0xFFFFFFF5 0 (session plain8))).wbuf = [false, true, false, true] := by
  decide +kernel

/-- B15. -/
theorem test_bs_read :
    let t := ran .bsRead (withArgs 3 0 0 { session plain8 with bin := [0xA1] })
    t.result = 5 ∧ t.bitsIn = 3 ∧ t.bin = [] := by
  decide +kernel

/-- B18. -/
theorem test_bs_read_ends :
    let t := ran .bsRead (withArgs 9 0 0 { session plain8 with bin := [0xA1], result := 6 })
    t.errCode = .eos ∧ t.errInfo = 2 ∧ t.result = 6 ∧ t.bin = [] ∧ t.bitsIn = 8 := by
  decide +kernel

/-- B6. -/
theorem test_bs_flush :
    let t := ran .bsFlush { session plain8 with wbuf := [true], bitsOut := 1 }
    t.bout = [0x80] ∧ t.bitsOut = 8 := by
  decide +kernel

/-- B17. -/
theorem test_bs_read_align :
    (ran .bsReadAlign { session plain8 with rbuf := [true, true, true, true, true], bitsIn := 3 }).bitsIn = 8 := by
  decide +kernel

/-- B8. -/
theorem test_bs_pad_word :
    let t := ran .bsPadWord { session { plain8 with b := 4 } with wbuf := [false, false, false], bytesOut := 5, bitsOut := 43 }
    t.bytesOut = 8 ∧ t.bitsOut = 64 ∧ t.bout = [0, 0, 0] := by
  decide +kernel

/-- B10. -/
theorem test_bs_close :
    let t := ran .bsClose { session plain8 with wbuf := [true, true], bitsOut := 2 }
    t.bout = [0xC0] ∧ t.closed = true ∧ (ran .bsWrite (withArgs 1 0 0 t)).errCode = .ioSink := by
  decide +kernel

/-- B14. -/
theorem test_unary_write :
    let t := ran .unaryWrite (withArgs 9 0 0 (session plain8))
    t.bout = [0x00] ∧ t.wbuf = [false, true] := by
  decide +kernel

/-- B19. -/
theorem test_unary_read :
    let t := ran .unaryRead { session plain8 with bin := [0x10] }
    t.result = 3 ∧ t.bitsIn = 4 := by
  decide +kernel

/-- K1. -/
theorem test_rice_mask : (ran .riceMask (putBlock [0x1FF] (session block8))).blk[0] = 0xFF := by decide +kernel

/-- K3. -/
theorem test_rice_code :
    let t := ran .riceCode (withArgs 1 0 0 (putBlock [3, 0, 1, 2, 0, 0, 0, 5] (session block8)))
    t.bout = [0x77, 0x9A] ∧ t.wbuf = [false, false, false, true] := by
  decide +kernel

/-- K8. -/
theorem test_rice_decode :
    let t := ran .riceDecode (withArgs 1 0 0 { session block8 with bin := [0x77, 0x9A, 0x10] })
    t.blk.toList.take 8 = [3, 0, 1, 2, 0, 0, 0, 5] ∧ t.bitsIn = 20 := by
  decide +kernel

/-- K12. -/
theorem test_rice_best :
    let t := ran .riceBest (putBlock [3, 0, 1, 2, 0, 0, 0, 5] (session block8))
    t.result = 0 ∧ t.result1 = 19 := by
  decide +kernel

/-- K14. -/
theorem test_rice_best_backup :
    let t := ran .riceBest (putBlock (List.replicate 8 255) (session block8))
    t.result = 7 ∧ t.result1 = 64 := by
  decide +kernel

/-- A5. -/
theorem test_ba_select :
    let t := ran .baSelect (putBlock [200, 3, 0, 0, 0, 0, 0, 1] (session block8))
    t.result = 0x402 ∧ t.result1 = 55 := by
  decide +kernel

/-- A20, before its terminate. -/
theorem test_ba_code_block :
    let t := ran .baCodeBlock (putBlock [1] (session block8))
    t.bout = [0x17] ∧ t.wbuf = [true] ∧ t.cs = 1 := by
  decide +kernel

/-- A40. -/
theorem test_ba_decode_block :
    let t := ran .baDecodeBlock { session block8 with bin := [0x17, 0x80] }
    t.blk.toList.take 8 = [1, 0, 0, 0, 0, 0, 0, 0] ∧ t.bitsIn = 9 := by
  decide +kernel

/-- A43: the run of a sentinel ends with the segment. -/
theorem test_ba_decode_run : (ran .baDecodeBlock { session block8 with bin := [0x00, 0x80] }).runrem = 63 := by decide +kernel

/-- A21, its terminate. -/
theorem test_ba_terminate :
    let t := ran .baTerminate { session block8 with zrun := 2 }
    t.bout = [0x04] ∧ t.terminated = true ∧ t.zrun = 0 := by
  decide +kernel

/-- A31. -/
theorem test_ba_code_sample :
    let t := ran .baCodeSample (withArgs 1 0 0 (session block8))
    t.ebuf = [1] ∧ t.efill = 1 ∧ t.bout = [] := by
  decide +kernel

theorem test_ba_decode_sample :
    let t := ran .baDecodeSample { session block8 with bin := [0x17, 0x80] }
    t.result = 1 ∧ t.dpos = 1 := by
  decide +kernel

/-- 95_test_vectors.md 2.4: A = 23, Σ = 2. -/
theorem test_sa_init_band : (ran .saInitBand (session plain8)).stats = [(0, ⟨23, 2⟩)] := by decide +kernel

theorem test_sa_code :
    (ran .saCode (withArgs 0 1 5 { session { plain8 with x := 2 } with stats := [(0, ⟨23, 2⟩)] })).wbuf =
      [true, true, false, true] := by
  decide +kernel

theorem test_sa_decode :
    (ran .saDecode (withArgs 0 1 0 { session { plain8 with x := 2 } with
      stats := [(0, ⟨23, 2⟩)], bin := [0x00, 0x00, 0xE4, 0x00] })).result = 200 := by
  decide +kernel

theorem test_sa_update :
    (ran .saUpdate (withArgs 0 1 5 { session { plain8 with x := 2 } with stats := [(0, ⟨23, 2⟩)] })).stats = [(0, ⟨28, 3⟩)] := by
  decide +kernel

theorem test_sa_terminate :
    let t := ran .saTerminate { session plain8 with wbuf := [true, true, false, true], bitsOut := 4 }
    t.bout = [0xD0] ∧ t.terminated = true := by
  decide +kernel

/-- Scenario 3, band 1's first weights. -/
theorem test_pred_init_band : (ran .predInitBand (withArgs 1 0 0 (session cube8))).weights = [(1, [0, 0, 0, 7168])] := by
  decide +kernel

/-- Scenario 3, the row (0, 1, 0). -/
theorem test_pred_compress :
    let t := ran .predCompress (withArgs 0 0x00010000 12 { session cube8 with
      weights := [(0, [0, 0, 0])], hist := [(histKey 0 0 0, 10), (histKey 0 0 1, 11)] })
    t.result = 2 ∧ t.result1 = 22 ∧ t.weights = [(0, [-64, -64, -64])] := by
  decide +kernel

/-- Scenario 3, the same row back. -/
theorem test_pred_decompress :
    let t := ran .predDecompress (withArgs 0 0x00010000 2 { session cube8 with
      weights := [(0, [0, 0, 0])], hist := [(histKey 0 0 0, 10), (histKey 0 0 1, 11)] })
    t.result = 12 ∧ t.result1 = 22 ∧ t.weights = [(0, [-64, -64, -64])] := by
  decide +kernel

theorem test_res_map : (ran .resMap (withArgs 42 256 0 (session plain8))).result = 171 := by decide +kernel

theorem test_res_unmap : (ran .resUnmap (withArgs 171 256 0 (session plain8))).result = 42 := by decide +kernel

theorem test_hdr_write : (ran .hdrWrite (session plain8)).bout = header8 := by decide +kernel

theorem test_hdr_read :
    let t := ran .hdrRead { State.reset with bin := header8 }
    t.status = 0x05 ∧ t.cfg = plain8 ∧ t.bitsIn = 152 := by
  decide +kernel

/-- Scenario 1. -/
theorem test_compress :
    let t := ran .compress { State.reset with cfg := plain8, sin := [42] }
    t.bout = header8 ++ [0xAB] ∧ t.bitsOut = 160 ∧ t.status = 0x31 := by
  decide +kernel

theorem test_decompress :
    let t := ran .decompress { State.reset with bin := header8 ++ [0xAB] }
    t.sout = [42] ∧ t.status = 0x01 := by
  decide +kernel

/-! ### The bus -/

/-- S23 and S24: an unaligned and an unmapped read. -/
theorem test_bus_errors :
    (accessed (.read 0x002 4) State.reset).errInfo = 2 ∧ (accessed (.read 0x17C 4) State.reset).status = 0x100A := by
  decide +kernel

/-- S20: a configuration write in a session. -/
theorem test_config_locked :
    let t := accessed (.write 0x110 4 8) (session plain8)
    t.errCode = .cfgLocked ∧ t.errInfo = 0x110 := by
  decide +kernel

/-! ### States that meet the hypotheses of the statements

Each theorem names its statement and holds the hypotheses at a concrete state, clause by clause. -/

theorem countable_of {s : State} (h : countsFit s = true) : s.countable := by
  simpa [countsFit, State.countable, and_assoc] using h

theorem configLegal_of {s : State} (h : ((validationList false s).all fun r => r.1) = true) : s.configLegal := by
  simpa [State.configLegal] using h

theorem compressLegal_of {s : State} (h : ((validationList true s).all fun r => r.1) = true) : s.compressLegal := by
  simpa [State.compressLegal] using h

theorem allZero_of {b : List Word} (h : (b.all fun w => w == 0) = true) : allZero b := by
  simpa [allZero] using h

theorem not_allZero_of {b : List Word} (h : (b.all fun w => w == 0) = false) : ¬ allZero b := by
  simpa [allZero] using h

theorem exec_ran (i : Instr) (s : State) : exec i s = .next (ran i s) := by
  have h : ∃ t, exec i s = .next t := by cases i <;> exact ⟨_, runCommand_eq _ _ _⟩
  obtain ⟨t, ht⟩ := h
  simp only [ran, ht]

theorem bitsOfBytes_zeros : ∀ n : Nat, bitsOfBytes (List.replicate n 0) = List.replicate (8 * n) false
  | 0 => rfl
  | n + 1 => by
    have h : bitsOfBytes (List.replicate (n + 1) 0) = bitsOfByte 0 ++ bitsOfBytes (List.replicate n 0) := rfl
    rw [h, bitsOfBytes_zeros n, show bitsOfByte 0 = List.replicate 8 false by decide, List.replicate_append_replicate]
    congr 1
    omega

def faulty : State := { State.reset with mode := .fault, errCode := .config, errInfo := 4 }

def scripted (a : HostAccess) (s : State) : State := { s with script := [a] }

theorem wit_StepRunsTheDecodedCommand :
    (scripted (.write 0x008 4 0x0000002B) (session block8)).script = [.write 0x008 4 0x0000002B] ∧
      decode 0x0000002B = .ok .baSelect ∧ (ran .baSelect (session block8)).countable :=
  ⟨rfl, by decide, countable_of (by decide +kernel)⟩

/-- So many samples in SIN. -/
def filled (n : Nat) : State := { State.reset with script := [.write 0x008 4 0], sin := List.replicate n 0 }

theorem filled_nop (n : Nat) : exec .nop { filled n with script := [] } = .next { filled n with script := [], done := true } := rfl

theorem filled_not_countable (n : Nat) (h : 2 ^ 32 ≤ n) : ¬ ({ filled n with script := [], done := true } : State).countable := by
  intro hc
  have hl : (List.replicate n (0 : Word)).length < 2 ^ 32 := hc.1
  rw [List.length_replicate] at hl
  omega

theorem wit_StepRunsTheDecodedCommand_refused :
    decode 0 = .ok .nop ∧
      exec .nop { filled (2 ^ 32) with script := [] } = .next { filled (2 ^ 32) with script := [], done := true } ∧
      ¬ ({ filled (2 ^ 32) with script := [], done := true } : State).countable :=
  ⟨by decide, filled_nop _, filled_not_countable _ (Nat.le_refl _)⟩

theorem wit_IllegalWordRaises :
    State.reset.mode ≠ .fault ∧ State.reset.countable ∧ (∀ i, (0x00000052 : Word) ≠ encode i) ∧
      ∀ i, (0x01000050 : Word) ≠ encode i :=
  ⟨by decide, countable_of (by decide), by intro i; cases i <;> decide, by intro i; cases i <;> decide⟩

theorem wit_CommandOutsideItsRowRaises :
    (State.reset.mode = .idle ∧ .endSession ∉ commonCommands ∧ .endSession ∉ idleCommands) ∧
      ((session plain8).mode = .active ∧ .compress ∈ idleCommands) ∧
      (.riceMask ∈ blockCommands ∧ (session plain8).cfg.coder ≠ 1) ∧
      (.saCode ∈ adaptiveCommands ∧ (session block8).cfg.coder ≠ 0) ∧ faulty.mode = .fault := by
  decide

theorem wit_FaultIgnoresCommandsAndErrors :
    faulty.mode = .fault ∧ faulty.countable ∧ configAddress 0x100 ∧ configAddress 0x178 ∧ configAddress 0x57FFFC ∧
      ¬ mappedAddress 0x17C ∧ ¬ mappedAddress 0x00A :=
  ⟨rfl, countable_of (by decide), by unfold configAddress; decide, by unfold configAddress; decide,
    by unfold configAddress; decide, by unfold mappedAddress; decide, by unfold mappedAddress; decide⟩

theorem wit_OnlyResetLeavesFault :
    faulty.mode = .fault ∧ step faulty = .next faulty ∧
      step (scripted (.write 0x008 4 0x00000001) faulty) = .next (ran .reset faulty) :=
  ⟨rfl, rfl, rfl⟩

theorem wit_BadAccessRaisesBusError :
    State.reset.mode ≠ .fault ∧ State.reset.countable ∧ (2 ≠ 4 ∧ mappedAddress 0x064) ∧ ¬ mappedAddress 0x068 ∧
      ¬ mappedAddress 0x580000 ∧ ¬ mappedAddress 0x002 :=
  ⟨by decide, countable_of (by decide), by unfold mappedAddress; decide, by unfold mappedAddress; decide,
    by unfold mappedAddress; decide, by unfold mappedAddress; decide⟩

theorem wit_RegisterReadsShowTheState : (session block8).countable ∧ faulty.countable :=
  ⟨countable_of (by decide), countable_of (by decide)⟩

theorem wit_OutputStreamReadsRemoveOne :
    let s : State := { State.reset with sout := [5, 6], bout := [7] }
    s.countable ∧ s.sout = 5 :: [6] ∧ s.bout = 7 :: [] ∧ State.reset.countable ∧ State.reset.sout = [] ∧ State.reset.bout = [] :=
  ⟨countable_of (by decide), rfl, rfl, countable_of (by decide), rfl, rfl⟩

theorem filled_countable (n : Nat) (h : n + 1 < 2 ^ 32) :
    (filled n).countable ∧ (filled n).sin.length + 1 < 2 ^ 32 ∧ (filled n).bin.length + 1 < 2 ^ 32 := by
  have hl : (filled n).sin.length = n := List.length_replicate
  have h0 : (filled n).sout.length = 0 ∧ (filled n).bin.length = 0 ∧ (filled n).bout.length = 0 := ⟨rfl, rfl, rfl⟩
  unfold State.countable
  omega

theorem wit_RegisterWritesStoreOrAreIgnored :
    (filled (2 ^ 32 - 2)).countable ∧ (filled (2 ^ 32 - 2)).sin.length + 1 < 2 ^ 32 ∧
      (filled (2 ^ 32 - 2)).bin.length + 1 < 2 ^ 32 :=
  filled_countable _ (by norm_num)

theorem wit_ConfigurationWritableOnlyInIdle :
    configAddress 0x80000 ∧ configAddress 0x100 ∧ State.reset.countable ∧ Memory.wf State.reset = true ∧
      State.reset.mode = .idle ∧ (session plain8).mode = .active ∧ (session plain8).countable ∧
      Memory.wf (session plain8) = true ∧ faulty.mode = .fault ∧ faulty.countable ∧ Memory.wf faulty = true :=
  ⟨by unfold configAddress; decide, by unfold configAddress; decide, countable_of (by decide), rfl, rfl, rfl,
    countable_of (by decide), rfl, rfl, countable_of (by decide), rfl⟩

theorem wit_ConfigurationConstantInSession :
    let s := scripted (.write 0x110 4 8) (session cube8)
    s.mode = .active ∧ step s = .next (failed .cfgLocked 0x110 (session cube8)) :=
  ⟨rfl, rfl⟩

theorem wit_InterruptLineAndEnable : State.reset.countable := countable_of (by decide)

theorem wit_CommandsChangeOnlyWhatTheirRowsName :
    (.bsWrite ≠ Instr.reset ∧ exec .bsWrite (session plain8) = .next (ran .bsWrite (session plain8))) ∧
      (.compress ≠ Instr.reset ∧ exec .compress State.reset = .next (ran .compress State.reset)) :=
  ⟨⟨by decide, exec_ran _ _⟩, by decide, exec_ran _ _⟩

theorem wit_ModeTransitionsAndDone :
    (exec .validate State.reset = .next (ran .validate State.reset) ∧ State.reset.mode ≠ .fault) ∧
      exec .reset faulty = .next (ran .reset faulty) :=
  ⟨⟨exec_ran _ _, by decide⟩, exec_ran _ _⟩

/-- A session of scenario 3 after its first two samples, with an open byte. -/
def running : State :=
  { session cube8 with
    wbuf := [true, false], bytesOut := 1, bitsOut := 10, bout := [0xEB], weights := [(0, [0, 0, 0])], stats := [(0, ⟨23, 2⟩)],
    hist := [(histKey 0 0 0, 10), (histKey 0 0 1, 11)], cursor := ⟨0, 0, 1⟩ }

theorem running_goes_on : step running = .next running := rfl

theorem wit_StepKeepsBookkeeping : Bookkeeping running ∧ step running = .next running :=
  ⟨⟨by decide, by decide, by decide, by decide, by decide, by decide, by decide, by decide⟩, rfl⟩

theorem running_session : Session running :=
  ⟨by decide, fun _ => configLegal_of (by decide +kernel), fun _ => by decide, by decide, by decide, by decide⟩

theorem wit_StepKeepsSession : Session running ∧ step running = .next running := ⟨running_session, rfl⟩

theorem running_bands : BandsInRange running where
  weights _ z w h := by
    simp only [running, Memory.cellAt] at h
    split at h
    · rename_i hz
      subst hz
      cases h
      exact ⟨by decide, by decide +kernel⟩
    · cases h
  counts _ _ z b h := by
    simp only [running, Memory.cellAt] at h
    split at h
    · cases h
      decide
    · cases h
  accumulators _ _ z b h := by
    simp only [running, Memory.cellAt] at h
    split at h
    · rename_i hz
      subst hz
      cases h
      decide +kernel
    · cases h
  samples _ p v h := by
    simp only [running, State.sampleAt, Memory.cellAt] at h
    split at h
    · cases h
      decide
    · split at h
      · cases h
        decide
      · cases h

theorem wit_StepKeepsBandsInRange : Session running ∧ BandsInRange running ∧ step running = .next running :=
  ⟨running_session, running_bands, rfl⟩

theorem wit_NopAndEndChangeOnlyStatus :
    State.reset.mode = .idle ∧ (session plain8).mode = .active ∧ faulty.mode = .fault := by
  decide

theorem wit_ValidateOpensASession :
    State.reset.mode = .idle ∧ State.reset.configLegal ∧ ({ State.reset with cfg := block8 } : State).configLegal :=
  ⟨rfl, configLegal_of (by decide +kernel), configLegal_of (by decide +kernel)⟩

theorem wit_ValidationRaisesFirstFailure :
    let s : State := { State.reset with cfg := { Cfg.reset with d := 17 } }
    let t : State := { State.reset with cfg := { Cfg.reset with pedantic := 1, p := 1 } }
    s.mode = .idle ∧ (validationList false s).find? (fun r => !r.1) = some (false, ⟨.config, 4⟩) ∧
      t.mode = .idle ∧ (validationList true t).find? (fun r => !r.1) = some (false, ⟨.config, 9⟩) :=
  ⟨rfl, by decide +kernel, rfl, by decide +kernel⟩

/-! The bit stream -/

/-- A closed stream. -/
def closed (s : State) : State := { s with closed := true }

theorem wit_BsWriteAppendsTheField :
    let s := withArgs 32 0xFFFFFFFF 0 { session plain8 with wbuf := List.replicate 7 true }
    (s.mode = .active ∧ s.arg0.toNat ≤ 32 ∧ s.closed = false ∧ s.wbuf.length < 8) ∧
      32 < (withArgs 33 0 0 s).arg0.toNat ∧ (closed (withArgs 0 0 0 s)).arg0.toNat ≤ 32 ∧
      (closed (withArgs 0 0 0 s)).closed = true := by
  decide

theorem wit_UnaryWriteAppendsTheCodeword :
    let s := withArgs 0xFFFFFFFF 0 0 { session plain8 with wbuf := List.replicate 7 true }
    (s.mode = .active ∧ s.closed = false ∧ s.wbuf.length < 8) ∧ (closed s).closed = true := by
  decide

theorem wit_FlushPadAndCloseAppendZeros :
    let s : State := { session plain8 with wbuf := [true], bytesOut := 3 }
    let t : State := closed { session { plain8 with b := 8 } with bytesOut := 8 }
    let u : State := { t with bytesOut := 3 }
    (s.mode = .active ∧ s.wbuf.length < 8 ∧ (s.closed = true → s.wbuf = []) ∧ 0 < s.cfg.B ∧
        (s.closed = true → s.wbuf = [] ∧ s.cfg.B ∣ s.bytesOut)) ∧
      (t.mode = .active ∧ t.wbuf.length < 8 ∧ (t.closed = true → t.wbuf = []) ∧ 0 < t.cfg.B ∧
        (t.closed = true → t.wbuf = [] ∧ t.cfg.B ∣ t.bytesOut)) ∧
      (u.mode = .active ∧ u.closed = true ∧ u.wbuf = [] ∧ 0 < u.cfg.B ∧ ¬ u.cfg.B ∣ u.bytesOut) := by
  decide

theorem wit_BsReadTakesTheField :
    let s := withArgs 3 0 0 { session plain8 with rbuf := [true], bin := [0x40] }
    (s.mode = .active ∧ s.rbuf.length < 8 ∧ s.arg0.toNat ≤ 32 ∧ [true, false, true].length = s.arg0.toNat ∧
        s.inBits = [true, false, true] ++ zeroBits 6) ∧
      (withArgs 0 0 0 (session plain8)).inBits = [] ++ [] ∧ 32 < (withArgs 33 0 0 s).arg0.toNat ∧
      (withArgs 32 0 0 s).arg0.toNat ≤ 32 ∧ (withArgs 32 0 0 s).inBits.length < (withArgs 32 0 0 s).arg0.toNat := by
  decide

/-- Seven zeros in the current byte, then so many bytes of zeros. -/
def zerosIn (s : State) (n : Nat) (more : List Byte) : State :=
  { s with rbuf := List.replicate 7 false, bin := List.replicate n 0 ++ more }

theorem zerosIn_inBits (s : State) (n : Nat) (more : List Byte) :
    (zerosIn s n more).inBits = List.replicate (8 * n + 7) false ++ bitsOfBytes more := by
  show List.replicate 7 false ++ bitsOfBytes (List.replicate n 0 ++ more) = _
  rw [bitsOfBytes_append, bitsOfBytes_zeros, ← List.append_assoc, List.replicate_append_replicate, Nat.add_comm]

theorem zerosIn_split (s : State) {n a b r : Nat} (h : 8 * n + 7 = a + b + r) :
    (zerosIn s n []).inBits = zeroBits a ++ zeroBits b ++ zeroBits r := by
  rw [zerosIn_inBits, h, zeroBits, zeroBits, zeroBits, List.replicate_append_replicate, List.replicate_append_replicate]
  exact List.append_nil _

def zeros (n : Nat) (more : List Byte) : State := zerosIn (session plain8) n more

theorem zeros_inBits (n : Nat) (more : List Byte) :
    (zeros n more).inBits = List.replicate (8 * n + 7) false ++ bitsOfBytes more :=
  zerosIn_inBits _ n more

theorem zeros_ready (n : Nat) (more : List Byte) : (zeros n more).mode = .active ∧ (zeros n more).rbuf.length < 8 :=
  ⟨rfl, by show 7 < 8; decide⟩

theorem zeros_one (n : Nat) : (zeros n [0x80]).inBits = List.replicate (8 * n + 7) false ++ true :: zeroBits 7 :=
  zeros_inBits n [0x80]

theorem zeros_end (n : Nat) : (zeros n []).inBits = List.replicate (8 * n + 7) false :=
  (zeros_inBits n []).trans (List.append_nil _)

theorem zeros_overlong (n : Nat) : (zeros n [0x00]).inBits = List.replicate (8 * n + 8) false ++ zeroBits 7 := by
  rw [zeros_inBits, show bitsOfBytes [0x00] = List.replicate 1 false ++ zeroBits 7 by decide, ← List.append_assoc,
    List.replicate_append_replicate]

theorem wit_UnaryReadCountsZeros :
    8 * (2 ^ 29 - 1) + 7 < 2 ^ 32 ∧
      (zeros (2 ^ 29 - 1) [0x80]).inBits = List.replicate (8 * (2 ^ 29 - 1) + 7) false ++ true :: zeroBits 7 :=
  ⟨by norm_num, zeros_one _⟩

theorem wit_UnaryReadCountsZeros_ends :
    8 * (2 ^ 29 - 1) + 7 < 2 ^ 32 ∧ (zeros (2 ^ 29 - 1) []).inBits = List.replicate (8 * (2 ^ 29 - 1) + 7) false :=
  ⟨by norm_num, zeros_end _⟩

theorem wit_UnaryReadCountsZeros_overlong :
    8 * (2 ^ 29 - 1) + 8 = 2 ^ 32 ∧
      (zeros (2 ^ 29 - 1) [0x00]).inBits = List.replicate (8 * (2 ^ 29 - 1) + 8) false ++ zeroBits 7 :=
  ⟨by norm_num, zeros_overlong _⟩

theorem wit_ReadAlignDropsThePartialByte : (zeros 0 [0x80]).mode = .active := rfl

theorem wit_WrittenFieldsReadBack :
    (∀ f ∈ [(0, 0), (3, 5), (32, 2 ^ 32 - 1)], f.1 ≤ 32 ∧ f.2 < 2 ^ f.1) ∧ 2 ^ 32 - 1 < 2 ^ 32 ∧
      (session plain8).closed = false ∧ (session plain8).wbuf = [] := by
  decide

/-! The coders -/

/-- A block session with a full partial byte but one bit. -/
def coding : State := { session block8 with wbuf := List.replicate 7 true }

theorem wit_RiceMaskKeepsTheLowBits : (session block8).mode = .active ∧ (session block8).cfg.coder = 1 := by decide

theorem wit_RiceCodeAppendsTheSplitBlock :
    let s := withArgs 31 0 0 coding
    (s.mode = .active ∧ s.cfg.coder = 1 ∧ s.arg0.toNat ≤ 31 ∧ s.closed = false ∧ s.wbuf.length < 8) ∧
      31 < (withArgs 32 0 0 s).arg0.toNat ∧ ((closed s).closed = true ∧ 0 < (closed s).cfg.J) := by
  decide

theorem wit_RiceDecodeInvertsTheSplitBlock :
    let s := withArgs 1 0 0 { session block8 with bin := [0x77, 0x9A, 0x10] }
    (s.mode = .active ∧ s.cfg.coder = 1 ∧ s.rbuf.length < 8 ∧ s.arg0.toNat ≤ 31 ∧
        [3, 0, 1, 2, 0, 0, 0, 5].length = s.cfg.J ∧
        s.inBits = splitCode [3, 0, 1, 2, 0, 0, 0, 5] s.arg0.toNat ++ zeroBits 4) ∧
      31 < (withArgs 32 0 0 s).arg0.toNat := by
  decide

theorem wit_RiceDecodeInvertsTheSplitBlock_ends :
    let s := withArgs 1 0 0 { session block8 with bin := [0x77] }
    (s.rbuf.length < 8 ∧ s.arg0.toNat ≤ 31 ∧ [1, 0, 0, 1, 0, 0, 0, 2].length = s.cfg.J ∧
        ∀ u ∈ [1, 0, 0, 1, 0, 0, 0, 2], u < 2 ^ 32) ∧
      [true, false, true, false, false, false, false, true].length = s.cfg.J * s.arg0.toNat ∧
      [true, false, false, true, true, false, true, false, false, false, false, true] ≠ [] ∧
      [1, 0, 0, 1, 0, 0, 0, 2].flatMap unaryCode ++ [true, false, true, false, false, false, false, true] =
        s.inBits ++ [true, false, false, true, true, false, true, false, false, false, false, true] := by
  decide

theorem zerosIn_block (n : Nat) :
    (zerosIn (session block8) n []).mode = .active ∧ (zerosIn (session block8) n []).cfg.coder = 1 ∧
      (zerosIn (session block8) n []).rbuf.length < 8 ∧ (zerosIn (session block8) n []).arg0.toNat ≤ 31 ∧
      ([] : List Nat).length < (zerosIn (session block8) n []).cfg.J ∧
      (zerosIn (session block8) n []).runrem = 0 ∧ idLegal (zerosIn (session block8) n []).cfg .zeroBlock ∧
      ([] : List Nat).length < unaryCount (zerosIn (session block8) n []).cfg .zeroBlock :=
  ⟨rfl, rfl, by show 7 < 8; decide, by show 0 ≤ 31; decide, by show 0 < 8; decide, rfl, trivial, by show 0 < 1; decide⟩

theorem wit_RiceDecodeInvertsTheSplitBlock_overlong :
    (zerosIn (session block8) (2 ^ 29) []).inBits = ([].flatMap unaryCode ++ zeroBits (2 ^ 32)) ++ zeroBits 7 :=
  zerosIn_split (a := 0) (b := 2 ^ 32) (session block8) (by norm_num)

theorem wit_BaDecodeBlockReadsTheBlock_overlong :
    (zerosIn (session block8) (2 ^ 29) []).inBits =
      (idCode block8 .zeroBlock ++ [].flatMap unaryCode) ++ zeroBits (2 ^ 32) ++ zeroBits 3 := by
  rw [zerosIn_split (a := 4) (b := 2 ^ 32) (r := 3) (session block8) (by norm_num),
    show idCode block8 .zeroBlock ++ [].flatMap unaryCode = zeroBits 4 by decide]

theorem wit_RiceBestIsTheFirstCheapest : (session block8).mode = .active ∧ (session block8).cfg.coder = 1 := by decide

theorem wit_BaSelectIsTheFirstCheapest :
    (session block8).mode = .active ∧ (session block8).cfg.coder = 1 ∧ allZero (session block8).maskedBlk ∧
      ¬ allZero (putBlock [1] (session block8)).maskedBlk :=
  ⟨rfl, rfl, allZero_of (by decide +kernel), not_allZero_of (by decide +kernel)⟩

theorem wit_BaCodeBlockEmitsTheBlock :
    (coding.mode = .active ∧ coding.cfg.coder = 1) ∧ ({ coding with terminated := true } : State).terminated = true ∧
      (coding.terminated = false ∧ coding.wbuf.length < 8 ∧ coding.closed = false) ∧
      (allZero (closed (session block8)).maskedBlk ∧ boundaryAfter (closed (session block8)) = false) :=
  ⟨by decide, by decide, by decide, allZero_of (by decide +kernel), by decide +kernel⟩

theorem wit_BaCodeSampleCollectsABlock :
    let s : State := { coding with ebuf := [1, 2, 3], efill := 3 }
    let t : State := { coding with ebuf := List.replicate 7 9, efill := 7 }
    (s.mode = .active ∧ s.cfg.coder = 1 ∧ s.ebuf.length = s.efill ∧ s.terminated = false ∧ s.efill + 1 ≠ s.cfg.J) ∧
      (t.mode = .active ∧ t.ebuf.length = t.efill ∧ t.terminated = false ∧ t.efill + 1 = t.cfg.J ∧ t.wbuf.length < 8 ∧
        t.closed = false) ∧ ({ s with terminated := true } : State).terminated = true := by
  decide

theorem wit_BaTerminateSendsWhatIsPending :
    let s : State := { coding with zrun := 5 }
    let t : State := { coding with ebuf := List.replicate 8 9, efill := 8 }
    let u : State := closed (session block8)
    (s.mode = .active ∧ s.cfg.coder = 1 ∧ s.ebuf.length = s.efill ∧ s.terminated = false ∧ s.wbuf.length < 8 ∧ s.efill = 0 ∧
        s.closed = false) ∧
      (t.ebuf.length = t.efill ∧ t.terminated = false ∧ t.wbuf.length < 8 ∧ 0 < t.efill ∧ t.efill ≤ t.cfg.J ∧
        t.closed = false) ∧
      (u.ebuf.length = u.efill ∧ u.terminated = false ∧ u.efill = 0 ∧ u.zrun = 0 ∧ u.wbuf = []) ∧
      ({ s with terminated := true } : State).terminated = true := by
  decide

theorem wit_BaDecodeBlockReadsTheBlock_run :
    let s : State := { session block8 with bin := [0x00, 0x80], rbuf := [] }
    (s.mode = .active ∧ s.cfg.coder = 1 ∧ s.rbuf.length < 8 ∧ s.runrem = 0 ∧
        s.inBits = idCode s.cfg .zeroBlock ++ unaryCode 4 ++ zeroBits 7) ∧
      0 < ({ s with runrem := 1 } : State).runrem := by
  decide

theorem wit_BaDecodeBlockReadsTheBlock_secondExt :
    let s : State := { session block8 with bin := [0x17, 0x80] }
    idLegal s.cfg .secondExt ∧ payloadLegal s.cfg [1, 0, 0, 0, 0, 0, 0, 0] .secondExt ∧
      [1, 0, 0, 0, 0, 0, 0, 0].length = s.cfg.J ∧
      s.inBits = idCode s.cfg .secondExt ++ payloadCode s.cfg [1, 0, 0, 0, 0, 0, 0, 0] .secondExt ++ zeroBits 7 :=
  ⟨trivial, by unfold payloadLegal; decide, by decide, by decide⟩

theorem wit_BaDecodeBlockReadsTheBlock_split :
    let s : State := { session block8 with bin := [0xDF, 0xE0, 0, 0, 0, 0, 0] }
    idLegal s.cfg (.sampleSplit 5) ∧ payloadLegal s.cfg (List.replicate 8 0) (.sampleSplit 5) ∧
      (List.replicate 8 (0 : Word)).length = s.cfg.J ∧
      s.inBits = idCode s.cfg (.sampleSplit 5) ++ payloadCode s.cfg (List.replicate 8 0) (.sampleSplit 5) ++ zeroBits 5 :=
  ⟨by unfold idLegal; decide, trivial, by decide, by decide⟩

theorem wit_BaDecodeBlockReadsTheBlock_backup :
    let s : State := { session block8 with bin := List.replicate 8 0xFF ++ [0xE0] }
    idLegal s.cfg .backup ∧ payloadLegal s.cfg (List.replicate 8 255) .backup ∧
      (List.replicate 8 (255 : Word)).length = s.cfg.J ∧
      s.inBits = idCode s.cfg .backup ++ payloadCode s.cfg (List.replicate 8 255) .backup ++ zeroBits 5 :=
  ⟨trivial, fun w hw => (List.mem_replicate.mp hw).2 ▸ by decide, by decide, by decide⟩

theorem wit_BaDecodeBlockReadsTheBlock_ends :
    let s : State := { session block8 with bin := [0x17] }
    (s.runrem = 0 ∧ idLegal s.cfg .secondExt ∧ [1, 0, 0, 0].length = unaryCount s.cfg .secondExt ∧
        ∀ u ∈ [1, 0, 0, 0], u < 2 ^ 32) ∧
      ([] : List Bool).length = plainCount s.cfg .secondExt ∧ [true] ≠ [] ∧
      idCode s.cfg .secondExt ++ [1, 0, 0, 0].flatMap unaryCode ++ [] = s.inBits ++ [true] :=
  ⟨⟨rfl, trivial, by decide, by decide⟩, by decide, by decide, by decide⟩

theorem wit_BaDecodeBlockReadsTheBlock_ends_backup :
    let s : State := { session block8 with bin := List.replicate 8 0xFF }
    ([] : List Nat).length = unaryCount s.cfg .backup ∧ (List.replicate 64 true).length = plainCount s.cfg .backup ∧
      idCode s.cfg .backup ++ [].flatMap unaryCode ++ List.replicate 64 true = s.inBits ++ List.replicate 3 true := by
  decide

theorem wit_BaDecodeSampleTakesTheNext :
    let s : State := { session block8 with dbuf := List.replicate 8 3, dpos := 7 }
    let t : State := { s with dpos := 8, runrem := 1 }
    let u : State := { session block8 with bin := [0x17, 0x80] }
    (s.mode = .active ∧ s.cfg.coder = 1 ∧ s.dbuf ≠ [] ∧ s.dpos ≠ s.cfg.J) ∧ (t.dpos = t.cfg.J ∧ 0 < t.runrem) ∧
      (u.dbuf = [] ∧ 0 < u.cfg.J ∧ u.cfg.J ≤ 64 ∧ u.cfg.J % 2 = 0 ∧
        exec .baDecodeBlock u = .next (ran .baDecodeBlock u) ∧ (ran .baDecodeBlock u).mode = .active) :=
  ⟨by decide, by decide, rfl, by decide, by decide, by decide, exec_ran _ _, by decide +kernel⟩

/-- A session of a 2 by 2 image whose only band has its statistics. -/
def adapting : State :=
  { session { plain8 with x := 2, y := 2 } with stats := [(0, ⟨23, 2⟩)], wbuf := List.replicate 7 true }

theorem wit_SaInitBandSetsStatistics :
    (session plain8).mode = .active ∧ (session plain8).cfg.coder = 0 ∧ (session plain8).arg0.toNat < (session plain8).cfg.Z ∧
      (withArgs 1 0 0 (session plain8)).cfg.Z ≤ (withArgs 1 0 0 (session plain8)).arg0.toNat := by
  decide

theorem wit_SaUpdateMovesStatistics :
    let s := withArgs 0 3 255 adapting
    (s.mode = .active ∧ s.cfg.coder = 0 ∧ s.arg0.toNat < s.cfg.Z ∧ s.arg1.toNat < s.cfg.X * s.cfg.Y ∧
        s.arg2.toNat < 2 ^ s.cfg.D ∧ s.stats.cellAt s.arg0.toNat = some ⟨23, 2⟩) ∧
      (withArgs 1 3 255 s).cfg.Z ≤ (withArgs 1 3 255 s).arg0.toNat ∧
      (withArgs 0 4 255 s).cfg.X * (withArgs 0 4 255 s).cfg.Y ≤ (withArgs 0 4 255 s).arg1.toNat ∧
      2 ^ (withArgs 0 3 256 s).cfg.D ≤ (withArgs 0 3 256 s).arg2.toNat ∧
      ({ s with stats := [] } : State).stats.cellAt s.arg0.toNat = none := by
  decide

theorem wit_SaCodeAndTerminateEmit :
    let s := withArgs 0 3 255 adapting
    (s.mode = .active ∧ s.cfg.coder = 0 ∧ s.terminated = false ∧ s.closed = false ∧ s.wbuf.length < 8 ∧
        s.arg0.toNat < s.cfg.Z ∧ s.arg1.toNat < s.cfg.X * s.cfg.Y ∧ s.arg2.toNat < 2 ^ s.cfg.D ∧
        s.stats.cellAt s.arg0.toNat = some ⟨23, 2⟩) ∧
      ({ s with stats := [] } : State).stats.cellAt s.arg0.toNat = none ∧
      ((withArgs 1 3 255 s).cfg.Z ≤ (withArgs 1 3 255 s).arg0.toNat ∧
        (withArgs 0 4 255 s).cfg.X * (withArgs 0 4 255 s).cfg.Y ≤ (withArgs 0 4 255 s).arg1.toNat ∧
        2 ^ (withArgs 0 3 256 s).cfg.D ≤ (withArgs 0 3 256 s).arg2.toNat ∧ (closed s).closed = true) ∧
      (s.closed = true → s.wbuf = []) ∧
      ((closed { s with wbuf := [] }).closed = true → (closed { s with wbuf := [] }).wbuf = []) ∧
      ({ s with terminated := true } : State).terminated = true := by
  decide

theorem wit_SaDecodeInvertsTheCodeword :
    let s := withArgs 0 1 0 { adapting with bin := [0x00, 0x00, 0xC8, 0x00] }
    (s.mode = .active ∧ s.cfg.coder = 0 ∧ s.rbuf.length < 8 ∧ s.arg0.toNat < s.cfg.Z ∧ s.arg1.toNat < s.cfg.X * s.cfg.Y ∧
        s.stats.cellAt s.arg0.toNat = some ⟨23, 2⟩ ∧ 144 < 2 ^ s.cfg.D ∧
        ({ s with bin := [0x00, 0x00, 0xC8, 0x00] } : State).inBits =
          adaptiveCode s.cfg (saK s.cfg ⟨23, 2⟩) s.arg1.toNat 144 ++ zeroBits 7) ∧
      (withArgs 1 1 0 s).cfg.Z ≤ (withArgs 1 1 0 s).arg0.toNat ∧
      (withArgs 0 4 0 s).cfg.X * (withArgs 0 4 0 s).cfg.Y ≤ (withArgs 0 4 0 s).arg1.toNat ∧
      ({ s with stats := [] } : State).stats.cellAt s.arg0.toNat = none := by
  decide

theorem wit_SaDecodeInvertsTheCodeword_ends :
    let s := withArgs 0 1 0 { adapting with bin := [0x00, 0x00] }
    let u := withArgs 0 3 0 { adapting with bin := [0x00, 0x00, 0x00] }
    (s.rbuf.length < 8 ∧ s.stats.cellAt s.arg0.toNat = some ⟨23, 2⟩ ∧
        adaptiveCode s.cfg (saK s.cfg ⟨23, 2⟩) s.arg1.toNat 144 =
          s.inBits ++ [true, true, false, false, true, false, false, false, false]) ∧
      (0 < u.arg1.toNat ∧ u.arg1.toNat < u.cfg.X * u.cfg.Y ∧ u.inBits = zeroBits (u.cfg.UMAX + 1) ++ zeroBits 7) := by
  decide

theorem wit_CodeParameterFollowsStatistics :
    (0 < (⟨23, 2⟩ : BandStats).cnt ∧ saK plain8 ⟨23, 2⟩ < plain8.D - 2 ∧ 0 < saK plain8 ⟨23, 2⟩) ∧
      (session plain8).cfg.G0 = 1 ∧ kappa (session plain8) 0 ≤ 14 ∧
      ({ Cfg.reset with k := 14 } : Cfg).G0 = 1 ∧ kappa (session { Cfg.reset with k := 14 }) 0 ≤ 14 := by
  decide +kernel

/-! The predictor and the mapper -/

theorem wit_PredInitBandSetsWeights :
    let s := withArgs 1 0 0 (session cube8)
    let t := withArgs 1 0 0 (session { cube8 with winit := 1, wtable := 1, q := 16 })
    (s.mode = .active ∧ s.arg0.toNat < s.cfg.Z ∧ s.cfg.winit = 0 ∧ s.cfg.pmode = 0) ∧
      (t.arg0.toNat < t.cfg.Z ∧ t.cfg.winit ≠ 0 ∧ t.cfg.Q ≤ t.cfg.OMEGA + 3 ∧ ¬ t.cfg.Q ≤ t.cfg.OMEGA + 2) ∧
      (withArgs 2 0 0 s).cfg.Z ≤ (withArgs 2 0 0 s).arg0.toNat := by
  decide

/-- Scenario 3 before the row (0, 1, 0). -/
def predicting : State := withArgs 0 0x00010000 12 running

theorem wit_PredCompressPredictsAndPublishes :
    predicting.mode = .active ∧ predicting.arg0.toNat < predicting.cfg.Z ∧
      predicting.arg1.toNat / 65536 < predicting.cfg.Y ∧ predicting.arg1.toNat % 65536 < predicting.cfg.X ∧
      predicting.cfg.SMIN ≤ predicting.arg2.toInt ∧ predicting.arg2.toInt ≤ predicting.cfg.SMAX ∧
      predicting.weights.cellAt predicting.arg0.toNat = some [0, 0, 0] ∧
      ∀ q ∈ neededCells predicting.cfg ⟨0, 1, 0⟩, (predicting.sampleAt q).isSome := by
  decide +kernel

theorem wit_PredDecompressReconstructsAndPublishes :
    predicting.mode = .active ∧ predicting.arg0.toNat < predicting.cfg.Z ∧
      predicting.arg1.toNat / 65536 < predicting.cfg.Y ∧ predicting.arg1.toNat % 65536 < predicting.cfg.X ∧
      predicting.arg2.toNat < 2 ^ predicting.cfg.D ∧ predicting.weights.cellAt predicting.arg0.toNat = some [0, 0, 0] ∧
      ∀ q ∈ neededCells predicting.cfg ⟨0, 1, 0⟩, (predicting.sampleAt q).isSome := by
  decide +kernel

theorem wit_PredictorErrorsInOrder_operands :
    predicting.mode = .active ∧ (withArgs 2 0 0 predicting).cfg.Z ≤ (withArgs 2 0 0 predicting).arg0.toNat ∧
      (withArgs 1 0x00020000 0 predicting).cfg.Y ≤ (withArgs 1 0x00020000 0 predicting).arg1.toNat / 65536 ∧
      (withArgs 1 0x00010002 0 predicting).cfg.X ≤ (withArgs 1 0x00010002 0 predicting).arg1.toNat % 65536 := by
  decide

theorem wit_PredictorErrorsInOrder_values :
    let s := withArgs 0 0x00010000 256 predicting
    let t := withArgs 1 0 255 predicting
    let u := withArgs 0 0x00010000 0 { predicting with hist := [(histKey 0 0 0, 10)] }
    (s.cfg.SMAX < s.arg2.toInt ∧ 2 ^ s.cfg.D ≤ s.arg2.toNat ∧ (withArgs 0 0 0xFFFFFFFF s).arg2.toInt < s.cfg.SMIN) ∧
      (t.cfg.SMIN ≤ t.arg2.toInt ∧ t.arg2.toInt ≤ t.cfg.SMAX ∧ t.arg2.toNat < 2 ^ t.cfg.D ∧
        t.weights.cellAt t.arg0.toNat = none) ∧
      (u.cfg.SMIN ≤ u.arg2.toInt ∧ u.arg2.toInt ≤ u.cfg.SMAX ∧ u.arg2.toNat < 2 ^ u.cfg.D ∧
        u.weights.cellAt u.arg0.toNat = some [0, 0, 0] ∧
        (neededCells u.cfg ⟨0, 1, 0⟩).find? (fun q => (u.sampleAt q).isNone) = some ⟨0, 0, 1⟩) := by
  decide +kernel

theorem wit_MapCommandsAnswerTheFormulas :
    let s := withArgs 255 511 0 (session plain8)
    (s.mode = .active ∧ s.cfg.SMIN ≤ s.arg0.toInt ∧ s.arg0.toInt ≤ s.cfg.SMAX ∧ 2 * s.cfg.SMIN ≤ s.arg1.toInt ∧
        s.arg1.toInt ≤ 2 * s.cfg.SMAX + 1 ∧ s.arg0.toNat < 2 ^ s.cfg.D) ∧
      (s.cfg.SMAX < (withArgs 256 0 0 s).arg0.toInt ∧ (withArgs 0xFFFFFFFF 0 0 s).arg0.toInt < s.cfg.SMIN ∧
        2 ^ s.cfg.D ≤ (withArgs 256 0 0 s).arg0.toNat) ∧
      ¬ ((withArgs 255 512 0 s).arg1.toInt ≤ 2 * s.cfg.SMAX + 1) ∧
      ¬ (2 * s.cfg.SMIN ≤ (withArgs 255 0xFFFFFFFF 0 s).arg1.toInt) := by
  decide

theorem wit_MapIsABijection :
    let c : Cfg := { Cfg.reset with d := 4, signed := 1 }
    (1 ≤ c.D ∧ 2 * c.SMIN ≤ -16 ∧ (-16 : Int) ≤ 2 * c.SMAX + 1 ∧ c.SMIN ≤ 7 ∧ 7 ≤ c.SMAX) ∧
      (2 * c.SMIN ≤ 15 ∧ 15 ≤ 2 * c.SMAX + 1 ∧ (15 : Int) ≤ 2 ^ c.D - 1) := by
  decide

/-! The header and the pipeline -/

theorem wit_HdrWriteAppendsTheHeader :
    (coding.mode = .active ∧ coding.closed = false ∧ coding.wbuf.length < 8) ∧ (closed (session plain8)).closed = true := by
  decide

theorem wit_HeaderReadsBack :
    let s : State := { State.reset with bin := header8 ++ [0xAB] }
    s.mode = .idle ∧ Memory.wf s = true ∧ ({ s with cfg := plain8, ta := [], tw := [] } : State).configLegal ∧
      outOfBandLegal plain8 s ∧ bitsOfBytes s.bin = headerBits 0 plain8 [] [] ++ bitsOfBytes [0xAB] :=
  ⟨rfl, rfl, configLegal_of (by decide +kernel), ⟨by decide, by decide, by decide, fun _ h => nomatch h⟩, by decide +kernel⟩

/-- The header of the vector with a weight table (95_test_vectors.md 2.7), and what it carries. -/
def tableCfg : Cfg := { plain8 with z := 2, p := 1, winit := 1, wtable := 1, q := 4 }
def tableTw : Memory Word := [(0, 1), (1, 0xFFFFFFFF), (2, 2), (19, 7), (20, 0xFFFFFFF8), (21, 3)]

theorem wit_HeaderReadsBack_table :
    let s : State := { State.reset with
      bin := [0x00, 0x00, 0x01, 0x00, 0x01, 0x00, 0x02, 0x11, 0x00, 0x00, 0x08, 0x00, 0x04, 0x00, 0x92, 0x59, 0x64, 0x1F, 0x20,
        0x78, 0x30, 0x82, 0x26] }
    s.mode = .idle ∧ Memory.wf s = true ∧ ({ s with cfg := tableCfg, ta := [], tw := tableTw } : State).configLegal ∧
      outOfBandLegal tableCfg s ∧ bitsOfBytes s.bin = headerBits 0 tableCfg [] tableTw ++ bitsOfBytes [] :=
  ⟨rfl, rfl, configLegal_of (by decide +kernel), ⟨by decide, by decide, by decide, fun _ h => nomatch h⟩, by decide +kernel⟩

/-- The state after reset with these bytes in BIN. -/
def reading (bytes : List Byte) : State := { State.reset with bin := bytes }

/-- The reset configuration with D = 8 fits its header: each field holds its parameter, and neither table is carried. -/
theorem plain8_carried : headerCarries plain8 [] [] := by
  unfold headerCarries
  and_intros
  all_goals decide

/-- A header carries every depth of 1 … 16. -/
theorem depth_carried (d : Word) (h : 1 ≤ d.toInt ∧ d.toInt ≤ 16) : headerCarries { plain8 with d := d } [] [] :=
  have p := plain8_carried
  ⟨p.1, p.2.1, p.2.2.1, p.2.2.2.1, h, p.2.2.2.2.2⟩

/-- Nine bytes end inside the depth field, ten inside a reserved field, and none inside the user-data byte. -/
theorem wit_HeaderReadsBack_ends :
    (reading (header8.take 9)).mode = .idle ∧ bitsOfBytes (reading (header8.take 10)).bin <+: headerBits 0 plain8 [] [] ∧
      (headerEnds plain8 [] []).find? (fun e => 8 * (reading (header8.take 9)).bin.length < e.2) = some (6, 80) ∧
      (headerEnds plain8 [] []).find? (fun e => 8 * (reading (header8.take 10)).bin.length < e.2) =
        some (0xFFFFFFFF, 82) ∧
      (headerEnds plain8 [] []).find? (fun e => 8 * (reading []).bin.length < e.2) = some (0xFFFFFFFF, 8) :=
  ⟨rfl, List.isPrefixOf_iff_prefix.mp (by decide +kernel), by decide +kernel, by decide +kernel, by decide +kernel⟩

/-- A header of D = 1 (log entry 19): its image header's eighth byte is 0 00 0001 1. -/
theorem wit_HeaderReadsBack_badDepth :
    let c : Cfg := { plain8 with d := 1 }
    let s := reading ([0x00, 0x00, 0x01, 0x00, 0x01, 0x00, 0x01, 0x03] ++ header8.drop 8)
    (s.mode = .idle ∧ headerCarries c [] [] ∧ bitsOfBytes s.bin = headerBits 0 c [] [] ++ bitsOfBytes []) ∧
      (validationList false { s with cfg := headerCfg c s.cfg, ta := [], tw := [] }).find? (fun r => !r.1) =
        some (false, ⟨.config, 4⟩) ∧ afterHeader ⟨.config, 4⟩ = ⟨.formatHeader, 4⟩ :=
  ⟨⟨rfl, depth_carried 1 (by decide), by decide +kernel⟩, by decide +kernel, by decide⟩

theorem wit_HeaderReadsBack_refsamp :
    let s : State := { reading header8 with cfg := { Cfg.reset with refsamp := 1 } }
    bitsOfBytes s.bin = headerBits 0 plain8 [] [] ++ bitsOfBytes [] ∧
      (validationList false { s with cfg := headerCfg plain8 s.cfg, ta := [], tw := [] }).find? (fun r => !r.1) =
        some (false, ⟨.notSupported, 29⟩) ∧ afterHeader ⟨.notSupported, 29⟩ = ⟨.notSupported, 29⟩ :=
  ⟨by decide +kernel, by decide +kernel, by decide⟩

theorem wit_TraversalVisitsEachPositionOnce :
    (session cube8).configLegal ∧ (session { cube8 with order := 0, m := 1 }).configLegal :=
  ⟨configLegal_of (by decide +kernel), configLegal_of (by decide +kernel)⟩

def onePixel : State := { State.reset with cfg := plain8, sin := [42] }

theorem wit_CompressWritesTheStream :
    onePixel.mode = .idle ∧ onePixel.compressLegal ∧
      onePixel.cfg.X * onePixel.cfg.Y * onePixel.cfg.Z ≤ onePixel.sin.length ∧
      ∀ v ∈ onePixel.sin.take (onePixel.cfg.X * onePixel.cfg.Y * onePixel.cfg.Z),
        onePixel.cfg.SMIN ≤ v.toInt ∧ v.toInt ≤ onePixel.cfg.SMAX :=
  ⟨rfl, compressLegal_of (by decide +kernel), by decide, List.forall_mem_singleton.mpr (by decide)⟩

theorem reading_meets (bytes : List Byte) :
    (reading bytes).mode = .idle ∧ Memory.wf (reading bytes) = true ∧ outOfBandLegal onePixel.cfg (reading bytes) ∧
      (onePixel.cfg.coder = 1 → (reading bytes).cfg.s = onePixel.cfg.s) ∧ (reading bytes).bin = bytes :=
  ⟨rfl, rfl, ⟨fun h => absurd h (by decide), rfl, .inl rfl, fun _ h => nomatch h⟩, fun h => absurd h (by decide), rfl⟩

/-- What the core wrote for it, and one byte more. -/
def written : List Byte := (ran .compress onePixel).bout.drop onePixel.bout.length ++ [0xFF]

theorem wit_DecompressGivesTheCubeBack_written : exec .compress onePixel = .next (ran .compress onePixel) :=
  exec_ran .compress onePixel

theorem wit_DecompressGivesTheCubeBack :
    (reading written).mode = .idle ∧ Memory.wf (reading written) = true ∧ outOfBandLegal onePixel.cfg (reading written) ∧
      (onePixel.cfg.coder = 1 → (reading written).cfg.s = onePixel.cfg.s) ∧ (reading written).bin = written :=
  reading_meets written

/-- The stream of a one-sample image, and one byte more. -/
theorem wit_DecompressGivesTheCubeBack_stream :
    let u := reading (header8 ++ [0xAB, 0xFF])
    u.mode = .idle ∧ Memory.wf u = true ∧ ({ u with cfg := plain8, ta := [], tw := [] } : State).configLegal ∧
      outOfBandLegal plain8 u ∧ imageLegal plain8 [42] ∧
      bitsOfBytes u.bin = streamBits plain8 [] [] (imageSample plain8 [42]) ++ bitsOfBytes [0xFF] :=
  ⟨rfl, rfl, configLegal_of (by decide +kernel), ⟨by decide, by decide, by decide, fun _ h => nomatch h⟩,
    ⟨by decide, List.forall_mem_singleton.mpr (by decide)⟩, by decide +kernel⟩

end Sys2Proof.Tests
end

section
/-! The mapper: in range a sample is given back, and a mapped residual fits D bits (45_mapper.md R450, R451). -/

namespace Sys2Proof.Machine

/-- The sample range has 2^D values (00_scope.md R13). -/
theorem sample_range_size {c : Cfg} (hd : 1 ≤ c.D) : c.SMAX - c.SMIN = 2 ^ c.D - 1 := by
  obtain ⟨n, hn⟩ : ∃ n, c.D = n + 1 := ⟨c.D - 1, by omega⟩
  unfold Cfg.SMAX Cfg.SMIN
  rw [hn, Nat.add_sub_cancel, pow_succ]
  split <;> ring

theorem mapResidual_bounds {c : Cfg} {v ss : Int} (hd : 1 ≤ c.D) (hv : c.SMIN ≤ v ∧ v ≤ c.SMAX)
    (hs : 2 * c.SMIN ≤ ss ∧ ss ≤ 2 * c.SMAX + 1) : 0 ≤ mapResidual c v ss ∧ mapResidual c v ss < 2 ^ c.D := by
  have hsize := sample_range_size hd
  obtain ⟨hlo, hhi⟩ := hs
  unfold mapResidual mapMargin predicted asr
  simp only [pow_one]
  generalize hr : v - ss / 2 = r
  rcases abs_cases r with ⟨ha, _⟩ | ⟨ha, _⟩ <;> rw [ha]
  · repeat' split
    all_goals omega
  · repeat' split
    all_goals omega

theorem unmapResidual_mapResidual {c : Cfg} {v ss : Int} (hv : c.SMIN ≤ v ∧ v ≤ c.SMAX)
    (hs : 2 * c.SMIN ≤ ss ∧ ss ≤ 2 * c.SMAX + 1) : unmapResidual c (mapResidual c v ss) ss = v := by
  obtain ⟨hlo, hhi⟩ := hs
  unfold unmapResidual mapResidual mapMargin predicted asr
  simp only [pow_one]
  generalize hr : v - ss / 2 = r
  rcases abs_cases r with ⟨ha, _⟩ | ⟨ha, _⟩ <;> rw [ha]
  · repeat' split
    all_goals omega
  · repeat' split
    all_goals omega

end Sys2Proof.Machine
end

section
/-! The pure prediction reads the samples of `neededCells` alone, and s_scaled lies in its range (44_predictor.md R401, R409). -/

namespace Sys2Proof.Machine

/-- Two cubes agree on these cells. -/
def AgreeOn (cells : List Cursor) (g h : Nat → Nat → Nat → Int) : Prop := ∀ q ∈ cells, g q.z q.y q.x = h q.z q.y q.x

theorem sumOf_congr {c : Cfg} {g h : Nat → Nat → Int} {y x : Nat}
    (e : ∀ q ∈ sumCells c y x, g q.1 q.2 = h q.1 q.2) : sumOf c g y x = sumOf c h y x := by
  unfold sumCells at e
  unfold sumOf
  split_ifs at e ⊢ <;> simp only [List.mem_cons, List.not_mem_nil, or_false, forall_eq_or_imp, forall_eq] at e
  · rw [e.1, e.2.1, e.2.2.1, e.2.2.2]
  · rw [e]
  · rw [e.1, e.2]
  · rw [e.1, e.2.1, e.2.2]
  · rw [e]
  · rw [e]

theorem sumOf_agree {c : Cfg} {g h : Nat → Nat → Nat → Int} {p : Cursor} (hp : ¬ (p.y = 0 ∧ p.x = 0))
    (e : AgreeOn (neededCells c p) g h) : sumOf c (g p.z) p.y p.x = sumOf c (h p.z) p.y p.x := by
  refine sumOf_congr fun q hq => e ⟨p.z, q.1, q.2⟩ ?_
  unfold neededCells
  rw [if_neg hp]
  exact List.mem_append_left _ (List.mem_append_left _ (List.mem_map.mpr ⟨q, hq, rfl⟩))

theorem directionalOf_agree {c : Cfg} {g h : Nat → Nat → Nat → Int} {p : Cursor} (hp : ¬ (p.y = 0 ∧ p.x = 0))
    (hm : c.pmode = 0) (e : AgreeOn (neededCells c p) g h) :
    directionalOf c (g p.z) p.y p.x = directionalOf c (h p.z) p.y p.x := by
  have hs := sumOf_agree hp e
  have hd : ∀ q ∈ directionalCells c p.y p.x, g p.z q.1 q.2 = h p.z q.1 q.2 := by
    refine fun q hq => e ⟨p.z, q.1, q.2⟩ ?_
    unfold neededCells
    rw [if_neg hp]
    exact List.mem_append_left _ (List.mem_append_right _ (List.mem_map.mpr ⟨q, hq, rfl⟩))
  unfold directionalCells at hd
  unfold directionalOf
  rw [if_pos hm] at hd
  split_ifs at hd ⊢ with hy hx
  · rfl
  · rw [hs, hd _ (List.mem_singleton.mpr rfl)]
  · simp only [List.mem_cons, List.not_mem_nil, or_false, forall_eq_or_imp, forall_eq] at hd
    rw [hs, hd.1, hd.2.1, hd.2.2]

theorem interBand_agree {c : Cfg} {g h : Nat → Nat → Nat → Int} {p : Cursor} (hp : ¬ (p.y = 0 ∧ p.x = 0))
    (e : AgreeOn (neededCells c p) g h) {j : Nat} (hj : j < min c.P p.z) :
    4 * g (p.z - j - 1) p.y p.x - sumOf c (g (p.z - j - 1)) p.y p.x =
      4 * h (p.z - j - 1) p.y p.x - sumOf c (h (p.z - j - 1)) p.y p.x := by
  have hmem : ∀ q ∈ (⟨p.z - j - 1, p.y, p.x⟩ : Cursor) :: (sumCells c p.y p.x).map fun q => ⟨p.z - j - 1, q.1, q.2⟩,
      q ∈ neededCells c p := by
    intro q hq
    unfold neededCells
    rw [if_neg hp]
    exact List.mem_append_right _ (List.mem_flatMap.mpr ⟨j, List.mem_range.mpr hj, hq⟩)
  have hv := e _ (hmem _ (List.mem_cons_self ..))
  have hs := sumOf_congr (c := c) (g := g (p.z - j - 1)) (h := h (p.z - j - 1)) fun q hq =>
    e ⟨p.z - j - 1, q.1, q.2⟩ (hmem _ (List.mem_cons_of_mem _ (List.mem_map.mpr ⟨q, hq, rfl⟩)))
  rw [hs]
  exact congrArg (fun v => 4 * v - _) hv

theorem differencesOf_agree {c : Cfg} {g h : Nat → Nat → Nat → Int} {p : Cursor} (e : AgreeOn (neededCells c p) g h) :
    differencesOf c g p = differencesOf c h p := by
  unfold differencesOf
  by_cases hp : p.y = 0 ∧ p.x = 0
  · rw [if_pos hp, if_pos hp]
  · rw [if_neg hp, if_neg hp]
    congr 1
    · by_cases hm : c.pmode = 0
      · rw [if_pos hm, if_pos hm, directionalOf_agree hp hm e]
      · rw [if_neg hm, if_neg hm]
    · exact List.map_congr_left fun j hj => interBand_agree hp e (List.mem_range.mp hj)

theorem scaledOf_agree {c : Cfg} {w : List Int} {g h : Nat → Nat → Nat → Int} {p : Cursor}
    (e : AgreeOn (neededCells c p) g h) : scaledOf c w g p = scaledOf c w h p := by
  unfold scaledOf
  by_cases hp : p.y = 0 ∧ p.x = 0
  · rw [if_pos hp, if_pos hp]
    by_cases hz : p.z = 0 ∨ c.P = 0
    · rw [if_pos hz, if_pos hz]
    · rw [if_neg hz, if_neg hz]
      have : g (p.z - 1) 0 0 = h (p.z - 1) 0 0 := e ⟨p.z - 1, 0, 0⟩ (by unfold neededCells; simp [hp, hz])
      rw [this]
  · rw [if_neg hp, if_neg hp, differencesOf_agree e, sumOf_agree hp e]

theorem weightsOf_agree {c : Cfg} {w : List Int} {g h : Nat → Nat → Nat → Int} {p : Cursor} (v : Int)
    (e : AgreeOn (neededCells c p) g h) : weightsOf c w g p v = weightsOf c w h p v := by
  unfold weightsOf
  rw [scaledOf_agree e, differencesOf_agree e]

theorem MID_bounds {c : Cfg} (hd : 1 ≤ c.D) : c.SMIN ≤ c.MID ∧ c.MID ≤ c.SMAX := by
  obtain ⟨n, hn⟩ : ∃ n, c.D = n + 1 := ⟨c.D - 1, by omega⟩
  have hpos : (0 : Int) < 2 ^ n := by positivity
  unfold Cfg.MID Cfg.SMIN Cfg.SMAX
  rw [hn, Nat.add_sub_cancel, pow_succ]
  split <;> constructor <;> omega

/-- s_scaled lies in [2·SMIN, 2·SMAX + 1] when the samples it reads are in range. -/
theorem scaledOf_bounds {c : Cfg} {w : List Int} {h : Nat → Nat → Nat → Int} {p : Cursor} (hd : 1 ≤ c.D)
    (hh : ∀ q ∈ neededCells c p, c.SMIN ≤ h q.z q.y q.x ∧ h q.z q.y q.x ≤ c.SMAX) :
    2 * c.SMIN ≤ scaledOf c w h p ∧ scaledOf c w h p ≤ 2 * c.SMAX + 1 := by
  obtain ⟨hm1, hm2⟩ := MID_bounds hd
  unfold scaledOf
  by_cases hp : p.y = 0 ∧ p.x = 0
  · rw [if_pos hp]
    by_cases hz : p.z = 0 ∨ c.P = 0
    · rw [if_pos hz]; omega
    · rw [if_neg hz]
      have := hh ⟨p.z - 1, 0, 0⟩ (by unfold neededCells; simp [hp, hz])
      simp only at this
      omega
  · rw [if_neg hp]
    simp only
    omega

end Sys2Proof.Machine
end

section
/-! The two traversals: which positions they visit, in which order, and what lies before a position (44_predictor.md R409,
47_pipeline.md R541 to R543, R546). -/

namespace Sys2Proof.Machine

/-! ### Lists of lists -/

/-- Where one element alone contributes, its list is the whole. -/
theorem flatMap_of_unique {α β : Type} {f : α → List β} {a : α} : ∀ {l : List α}, l.Nodup → a ∈ l →
    (∀ b ∈ l, b ≠ a → f b = []) → l.flatMap f = f a
  | [], _, ha, _ => absurd ha List.not_mem_nil
  | b :: l, hn, ha, h => by
    rw [List.nodup_cons] at hn
    rw [List.flatMap_cons]
    by_cases hb : b = a
    · subst hb
      have hl : l.flatMap f = [] := List.flatMap_eq_nil_iff.mpr fun d hd =>
        h d (List.mem_cons_of_mem _ hd) fun e => hn.1 (e ▸ hd)
      rw [hl, List.append_nil]
    · rw [h b (List.mem_cons_self ..) hb, List.nil_append]
      exact flatMap_of_unique hn.2 ((List.mem_cons.mp ha).resolve_left (Ne.symm hb)) fun d hd =>
        h d (List.mem_cons_of_mem _ hd)

/-- Two nested counts are one, split by division. -/
theorem flatMap_range_mul {α : Type} (f : Nat → Nat → List α) {n : Nat} (hn : 0 < n) : ∀ m : Nat,
    ((List.range m).flatMap fun a => (List.range n).flatMap (f a)) = (List.range (m * n)).flatMap fun i => f (i / n) (i % n)
  | 0 => by simp
  | m + 1 => by
    rw [List.range_succ, List.flatMap_append, flatMap_range_mul f hn m, Nat.succ_mul, List.range_add, List.flatMap_append,
      List.flatMap_map, List.flatMap_singleton]
    congr 1
    refine List.flatMap_congr fun i hi => ?_
    have hi : i < n := List.mem_range.mp hi
    rw [mul_comm m n, Nat.mul_add_div hn, Nat.div_eq_of_lt hi, Nat.mul_add_mod, Nat.mod_eq_of_lt hi, Nat.add_zero]

/-- Over lists that each begin with their one marked element, the marks up to an element number the list it stands in. -/
theorem countP_upto_of_rows {α : Type} {row : Nat → List α} {start : α → Bool} {index : α → Nat}
    (hrow : ∀ i, ∃ a as, row i = a :: as ∧ start a = true ∧ ∀ b ∈ as, start b = false)
    (hindex : ∀ i, ∀ b ∈ row i, index b = i) : ∀ (n : Nat) (l : List α) (p : α) (r : List α),
    (List.range n).flatMap row = l ++ p :: r → (l ++ [p]).countP start = index p + 1 := by
  have hone : ∀ i l p r, row i = l ++ p :: r → (l ++ [p]).countP start = 1 := by
    intro i l p r h
    obtain ⟨a, as, ha, hs, hb⟩ := hrow i
    have hall : ∀ d ∈ as, ¬ start d = true := fun d hd => by simp [hb d hd]
    rw [ha] at h
    cases l with
    | nil =>
      obtain ⟨rfl, -⟩ := List.cons_eq_cons.mp h
      simp [hs]
    | cons d l =>
      obtain ⟨rfl, h2⟩ := List.cons_eq_cons.mp h
      have hz : (l ++ [p]).countP start = 0 := List.countP_eq_zero.mpr fun e he => hall e (by rw [h2]; simp at he ⊢; tauto)
      rw [List.cons_append, List.countP_cons_of_pos hs, hz]
  have htotal : ∀ i, (row i).countP start = 1 := by
    intro i
    obtain ⟨a, as, ha, hs, hb⟩ := hrow i
    rw [ha, List.countP_cons_of_pos hs, List.countP_eq_zero.mpr fun d hd => by simp [hb d hd]]
  have hbefore : ∀ n, ((List.range n).flatMap row).countP start = n := by
    intro n
    rw [List.countP_flatMap, show List.countP start ∘ row = fun _ => 1 from funext htotal]
    simp
  intro n
  induction n with
  | zero => intro l p r h; simp at h
  | succ n ih =>
    intro l p r h
    rw [List.range_succ, List.flatMap_append, List.flatMap_singleton] at h
    rcases List.append_eq_append_iff.mp h with ⟨l', rfl, hl⟩ | ⟨r', hr, hl⟩
    · rw [List.append_assoc, List.countP_append, hbefore, hone n l' p r hl, hindex n p (by rw [hl]; simp)]
    · cases r' with
      | nil =>
        rw [List.append_nil] at hr
        rw [List.countP_append, ← hr, hbefore, hindex n p (by rw [← List.nil_append (row n), ← hl]; simp)]
        have := hone n [] p r (by rw [← List.nil_append (row n), ← hl]; simp)
        rw [List.nil_append] at this
        rw [this]
      | cons d r' =>
        obtain ⟨rfl, -⟩ := List.cons_eq_cons.mp hl
        exact ih l p r' hr

/-! ### The cube -/

/-- What a legal configuration says of the cube and its traversal (48_system.md R596). -/
structure CubeLegal (c : Cfg) : Prop where
  width : 1 ≤ c.X ∧ c.X ≤ 65536
  height : 1 ≤ c.Y ∧ c.Y ≤ 65536
  bands : 1 ≤ c.Z ∧ c.Z ≤ 65536
  order : c.order = 0 ∨ c.order = 1
  depth : c.order = 0 → 1 ≤ c.M
  narrow : c.X = 1 → 1 < c.Y → c.lsmode ≠ 0

/-- The positions of the cube. -/
def InCube (c : Cfg) (p : Cursor) : Prop := p.z < c.Z ∧ p.y < c.Y ∧ p.x < c.X

/-- `p` comes before `q`: in BSQ by band, row and column, in BI by row, group of M bands, column and band. -/
def Before (c : Cfg) (p q : Cursor) : Prop :=
  if c.bsq then p.z < q.z ∨ (p.z = q.z ∧ (p.y < q.y ∨ (p.y = q.y ∧ p.x < q.x)))
  else p.y < q.y ∨ (p.y = q.y ∧ (p.z / c.M < q.z / c.M ∨ (p.z / c.M = q.z / c.M ∧ (p.x < q.x ∨ (p.x = q.x ∧ p.z < q.z)))))

theorem before_asymm {c : Cfg} {p q : Cursor} (h : Before c p q) : ¬ Before c q p := by
  unfold Before at h ⊢
  by_cases hb : c.bsq = true
  · rw [if_pos hb] at h ⊢; omega
  · rw [if_neg hb] at h ⊢; omega

theorem before_irrefl {c : Cfg} {p : Cursor} : ¬ Before c p p := fun h => before_asymm h h

theorem bsq_iff {c : Cfg} : c.bsq = true ↔ c.order = 1 := by simp [Cfg.bsq]

theorem CubeLegal.depth_pos {c : Cfg} (hc : CubeLegal c) (hb : ¬ c.bsq = true) : 1 ≤ c.M :=
  hc.depth (hc.order.resolve_right (mt bsq_iff.mpr hb))

theorem group_lt {c : Cfg} (hm : 1 ≤ c.M) {z : Nat} (hz : z < c.Z) : z / c.M < (c.Z + c.M - 1) / c.M := by
  rw [Nat.div_lt_iff_lt_mul hm]
  have := Nat.lt_div_mul_add (a := c.Z + c.M - 1) hm
  omega

theorem mem_groupBands {c : Cfg} (hm : 1 ≤ c.M) {i z : Nat} : z ∈ groupBands c i ↔ z < c.Z ∧ z / c.M = i := by
  have hdiv : z / c.M = i ↔ i * c.M ≤ z ∧ z < (i + 1) * c.M := by
    rw [Nat.div_eq_iff (by omega), Nat.succ_mul]
    omega
  rw [hdiv]
  simp only [groupBands, List.mem_map, List.mem_range]
  constructor
  · rintro ⟨k, hk, rfl⟩
    omega
  · rintro ⟨h1, h2, h3⟩
    exact ⟨z - i * c.M, by omega, by omega⟩

/-- The row of positions `i`: a row of a band in BSQ, a row of every band in BI (47_pipeline.md R541, R542). -/
def rowPositions (c : Cfg) (i : Nat) : List Cursor :=
  if c.bsq then (List.range c.X).map fun x => ⟨i / c.Y, i % c.Y, x⟩
  else (List.range ((c.Z + c.M - 1) / c.M)).flatMap fun g =>
    (List.range c.X).flatMap fun x => (groupBands c g).map fun z => ⟨z, i, x⟩

/-- How many rows there are. -/
def rowCount (c : Cfg) : Nat := if c.bsq then c.Z * c.Y else c.Y

/-- The row a position stands in. -/
def rowIndex (c : Cfg) (p : Cursor) : Nat := if c.bsq then p.z * c.Y + p.y else p.y

/-- Where a row begins and samples are loaded (47_pipeline.md R546, R548). -/
def rowStart (c : Cfg) (p : Cursor) : Bool := if c.bsq then p.x == 0 else p.z == 0 && p.x == 0

/-- How many samples a row has. -/
def rowWidth (c : Cfg) : Nat := if c.bsq then c.X else c.Z * c.X

theorem positions_eq_rows {c : Cfg} (hc : CubeLegal c) :
    positions c = (List.range (rowCount c)).flatMap (rowPositions c) := by
  unfold positions rowCount rowPositions
  by_cases hb : c.bsq = true
  · simp only [if_pos hb]
    exact flatMap_range_mul (fun z y => (List.range c.X).map fun x => (⟨z, y, x⟩ : Cursor)) hc.height.1 c.Z
  · simp only [if_neg hb]
    rfl

theorem mem_positions {c : Cfg} (hc : CubeLegal c) (p : Cursor) : p ∈ positions c ↔ InCube c p := by
  obtain ⟨z, y, x⟩ := p
  unfold positions InCube
  by_cases hb : c.bsq = true
  · simp only [if_pos hb, bsqPositions, List.mem_flatMap, List.mem_range, List.mem_map, Cursor.mk.injEq]
    constructor
    · rintro ⟨z', hz, y', hy, x', hx, rfl, rfl, rfl⟩
      exact ⟨hz, hy, hx⟩
    · rintro ⟨hz, hy, hx⟩
      exact ⟨z, hz, y, hy, x, hx, rfl, rfl, rfl⟩
  · have hm := hc.depth_pos hb
    simp only [if_neg hb, biPositions, List.mem_flatMap, List.mem_range, List.mem_map, Cursor.mk.injEq, mem_groupBands hm]
    constructor
    · rintro ⟨y', hy, g, -, x', hx, z', ⟨hz, -⟩, rfl, rfl, rfl⟩
      exact ⟨hz, hy, hx⟩
    · rintro ⟨hz, hy, hx⟩
      exact ⟨y, hy, z / c.M, group_lt hm hz, x, hx, z, ⟨hz, rfl⟩, rfl, rfl, rfl⟩

/-- The traversal visits the positions in order. -/
theorem positions_pairwise {c : Cfg} (hc : CubeLegal c) : (positions c).Pairwise (Before c) := by
  have hr : ∀ n, (List.range n).Pairwise fun a b => a < b := fun _ => List.pairwise_lt_range
  unfold positions
  by_cases hb : c.bsq = true
  · have hbefore : ∀ p q, Before c p q ↔ p.z < q.z ∨ (p.z = q.z ∧ (p.y < q.y ∨ (p.y = q.y ∧ p.x < q.x))) := by
      intro p q; unfold Before; rw [if_pos hb]
    rw [if_pos hb, bsqPositions, List.pairwise_flatMap]
    refine ⟨fun z _ => List.pairwise_flatMap.mpr ⟨fun y _ => List.pairwise_map.mpr ((hr _).imp fun h => ?_),
      (hr _).imp fun h => ?_⟩, (hr _).imp fun h => ?_⟩
    · rw [hbefore]; exact .inr ⟨rfl, .inr ⟨rfl, h⟩⟩
    · simp only [List.mem_map, List.mem_range]
      rintro _ ⟨x1, -, rfl⟩ _ ⟨x2, -, rfl⟩
      rw [hbefore]; exact .inr ⟨rfl, .inl h⟩
    · simp only [List.mem_flatMap, List.mem_map, List.mem_range]
      rintro _ ⟨y1, -, x1, -, rfl⟩ _ ⟨y2, -, x2, -, rfl⟩
      rw [hbefore]; exact .inl h
  · have hm := hc.depth_pos hb
    have hbefore : ∀ p q, Before c p q ↔ p.y < q.y ∨ (p.y = q.y ∧ (p.z / c.M < q.z / c.M ∨
        (p.z / c.M = q.z / c.M ∧ (p.x < q.x ∨ (p.x = q.x ∧ p.z < q.z))))) := by
      intro p q; unfold Before; rw [if_neg hb]
    rw [if_neg hb, biPositions, List.pairwise_flatMap]
    refine ⟨fun y _ => List.pairwise_flatMap.mpr ⟨fun g _ => List.pairwise_flatMap.mpr ⟨fun x _ =>
      List.pairwise_map.mpr ?_, (hr _).imp fun h => ?_⟩, (hr _).imp fun h => ?_⟩, (hr _).imp fun h => ?_⟩
    · have hs : (groupBands c g).Pairwise fun a b => a < b :=
        List.pairwise_map.mpr ((hr _).imp fun h => by omega)
      refine List.Pairwise.imp_of_mem (fun h1 h2 h => ?_) hs
      rw [hbefore]
      rw [mem_groupBands hm] at h1 h2
      exact .inr ⟨rfl, .inr ⟨h1.2.trans h2.2.symm, .inr ⟨rfl, h⟩⟩⟩
    · simp only [List.mem_map, mem_groupBands hm]
      rintro _ ⟨z1, h1, rfl⟩ _ ⟨z2, h2, rfl⟩
      rw [hbefore]
      exact .inr ⟨rfl, .inr ⟨h1.2.trans h2.2.symm, .inl h⟩⟩
    · simp only [List.mem_flatMap, List.mem_map, mem_groupBands hm]
      rintro _ ⟨x1, -, z1, h1, rfl⟩ _ ⟨x2, -, z2, h2, rfl⟩
      rw [hbefore]
      exact .inr ⟨rfl, .inl (by simp only [h1.2, h2.2]; exact h)⟩
    · simp only [List.mem_flatMap, List.mem_map]
      rintro _ ⟨g1, -, x1, -, z1, -, rfl⟩ _ ⟨g2, -, x2, -, z2, -, rfl⟩
      rw [hbefore]; exact .inl h

theorem positions_nodup {c : Cfg} (hc : CubeLegal c) : (positions c).Nodup :=
  (positions_pairwise hc).imp (S := fun a b => a ≠ b) fun h e => before_irrefl (e ▸ h)

/-- What comes before a position has been visited when the traversal gets there. -/
theorem mem_visited {c : Cfg} (hc : CubeLegal c) {l r : List Cursor} {p q : Cursor} (hl : positions c = l ++ p :: r)
    (hq : InCube c q) (hb : Before c q p) : q ∈ l := by
  have hmem : q ∈ l ++ p :: r := hl ▸ (mem_positions hc q).mpr hq
  have hpair := positions_pairwise hc
  rw [hl, List.pairwise_append, List.pairwise_cons] at hpair
  rcases List.mem_append.mp hmem with h | h
  · exact h
  · rcases List.mem_cons.mp h with rfl | h
    · exact absurd hb before_irrefl
    · exact absurd (hpair.2.1.1 q h) (before_asymm hb)

theorem inCube_of_split {c : Cfg} (hc : CubeLegal c) {l r : List Cursor} {p : Cursor} (hl : positions c = l ++ p :: r) :
    InCube c p := (mem_positions hc p).mp (by rw [hl]; simp)

/-- The cells of a local sum lie in the cube, earlier in the same band (44_predictor.md R409, 48_system.md R596 V35). -/
theorem sumCells_earlier {c : Cfg} (hc : CubeLegal c) {p : Cursor} (hp : InCube c p) (h0 : ¬ (p.y = 0 ∧ p.x = 0))
    {q : Nat × Nat} (hq : q ∈ sumCells c p.y p.x) :
    q.1 < c.Y ∧ q.2 < c.X ∧ (q.1 < p.y ∨ (q.1 = p.y ∧ q.2 < p.x)) := by
  obtain ⟨-, hy, hx⟩ := hp
  unfold sumCells at hq
  split_ifs at hq with hm <;> simp only [List.mem_cons, List.not_mem_nil, or_false] at hq
  · rcases hq with rfl | rfl | rfl | rfl <;> dsimp only <;> omega
  · subst hq; dsimp only; omega
  · have hwide : c.X ≠ 1 := fun h1 => hc.narrow h1 (by omega) hm
    rcases hq with rfl | rfl <;> dsimp only <;> omega
  · rcases hq with rfl | rfl | rfl <;> dsimp only <;> omega
  · subst hq; dsimp only; omega
  · subst hq; dsimp only; omega

theorem directionalCells_earlier {c : Cfg} {p : Cursor} (hp : InCube c p) {q : Nat × Nat}
    (hq : q ∈ directionalCells c p.y p.x) : q.1 < c.Y ∧ q.2 < c.X ∧ (q.1 < p.y ∨ (q.1 = p.y ∧ q.2 < p.x)) := by
  obtain ⟨-, hy, hx⟩ := hp
  unfold directionalCells at hq
  split_ifs at hq <;> simp only [List.mem_cons, List.not_mem_nil, or_false] at hq
  · subst hq; dsimp only; omega
  · rcases hq with rfl | rfl | rfl <;> dsimp only <;> omega

/-- A cell of the same or an earlier band, at the position or earlier in its band, comes before the position. -/
theorem before_of_earlier {c : Cfg} {p : Cursor} {z y x : Nat} (hz : z ≤ p.z)
    (h : (y < p.y ∨ (y = p.y ∧ x < p.x)) ∨ (z < p.z ∧ y = p.y ∧ x = p.x)) : Before c ⟨z, y, x⟩ p := by
  have hdiv : z / c.M ≤ p.z / c.M := Nat.div_le_div_right hz
  unfold Before
  split_ifs <;> dsimp only <;> omega

/-- Every cell a prediction reads has been visited (44_predictor.md R409). -/
theorem neededCells_visited {c : Cfg} (hc : CubeLegal c) {l r : List Cursor} {p q : Cursor} (hl : positions c = l ++ p :: r)
    (hq : q ∈ neededCells c p) : q ∈ l := by
  have hp := inCube_of_split hc hl
  obtain ⟨hpz, hpy, hpx⟩ := id hp
  unfold neededCells at hq
  split_ifs at hq with h0 hz
  · exact absurd hq List.not_mem_nil
  · rw [List.mem_singleton] at hq
    subst hq
    exact mem_visited hc hl ⟨show p.z - 1 < c.Z by omega, show 0 < c.Y by omega, show 0 < c.X by omega⟩ (before_of_earlier (by omega) (by omega))
  · simp only [List.mem_append, List.mem_map, List.mem_flatMap, List.mem_range, List.mem_cons] at hq
    rcases hq with (⟨q, hq, rfl⟩ | ⟨q, hq, rfl⟩) | ⟨j, hj, rfl | ⟨q, hq, rfl⟩⟩
    · obtain ⟨h1, h2, h3⟩ := sumCells_earlier hc hp h0 hq
      exact mem_visited hc hl ⟨hpz, h1, h2⟩ (before_of_earlier le_rfl (.inl h3))
    · obtain ⟨h1, h2, h3⟩ := directionalCells_earlier hp hq
      exact mem_visited hc hl ⟨hpz, h1, h2⟩ (before_of_earlier le_rfl (.inl h3))
    · exact mem_visited hc hl ⟨show p.z - j - 1 < c.Z by omega, hpy, hpx⟩
        (before_of_earlier (by omega) (.inr ⟨by omega, rfl, rfl⟩))
    · obtain ⟨h1, h2, h3⟩ := sumCells_earlier hc hp h0 hq
      exact mem_visited hc hl ⟨show p.z - j - 1 < c.Z by omega, h1, h2⟩ (before_of_earlier (by omega) (.inl h3))

/-! ### Bands -/

/-- The positions of a band come in the order of their within-band index. -/
theorem positions_of_band {c : Cfg} (hc : CubeLegal c) {z : Nat} (hz : z < c.Z) :
    (positions c).filter (fun p => p.z == z) = (List.range (c.Y * c.X)).map fun t => ⟨z, t / c.X, t % c.X⟩ := by
  have hband : ((List.range c.Y).flatMap fun y => (List.range c.X).flatMap fun x => [(⟨z, y, x⟩ : Cursor)]) =
      (List.range (c.Y * c.X)).map fun t => ⟨z, t / c.X, t % c.X⟩ := by
    rw [flatMap_range_mul (fun y x => [(⟨z, y, x⟩ : Cursor)]) hc.width.1, List.map_eq_flatMap]
  rw [← hband]
  unfold positions
  by_cases hb : c.bsq = true
  · rw [if_pos hb, bsqPositions, List.filter_flatMap]
    rw [flatMap_of_unique (a := z) List.nodup_range (List.mem_range.mpr hz)]
    · simp [List.filter_flatMap, List.map_eq_flatMap]
    · intro z' _ hne
      simp [List.filter_flatMap, hne]
  · have hm := hc.depth_pos hb
    rw [if_neg hb, biPositions, List.filter_flatMap]
    refine List.flatMap_congr fun y _ => ?_
    rw [List.filter_flatMap, flatMap_of_unique (a := z / c.M) List.nodup_range]
    · rw [List.filter_flatMap]
      refine List.flatMap_congr fun x _ => ?_
      have hnodup : (groupBands c (z / c.M)).Nodup :=
        List.Nodup.map (fun a b h => by simpa using h) List.nodup_range
      have hone : (groupBands c (z / c.M)).filter (fun b => b == z) = [z] := by
        rw [List.filter_beq, List.count_eq_one_of_mem hnodup ((mem_groupBands hm).mpr ⟨hz, rfl⟩), List.replicate_one]
      rw [List.filter_map]
      exact congrArg (List.map fun b => (⟨b, y, x⟩ : Cursor)) hone
    · exact List.mem_range.mpr (group_lt hm hz)
    · intro g _ hg
      rw [List.filter_eq_nil_iff]
      simp only [List.mem_flatMap, List.mem_map, mem_groupBands hm]
      rintro _ ⟨x, -, z', ⟨-, hz'⟩, rfl⟩
      rw [beq_iff_eq]
      rintro rfl
      exact hg hz'.symm

/-- How many of these positions lie in band `z`. -/
def bandCount (z : Nat) (l : List Cursor) : Nat := l.countP fun p => p.z == z

theorem bandCount_snoc (z : Nat) (l : List Cursor) (p : Cursor) :
    bandCount z (l ++ [p]) = bandCount z l + if p.z = z then 1 else 0 := by
  simp [bandCount, List.countP_append, List.countP_singleton]

/-- When the traversal gets to a position, its within-band index is the number of positions of its band visited. -/
theorem bandCount_eq_index {c : Cfg} (hc : CubeLegal c) {l r : List Cursor} {p : Cursor} (hl : positions c = l ++ p :: r) :
    bandCount p.z l = p.y * c.X + p.x := by
  obtain ⟨hz, -, -⟩ := inCube_of_split hc hl
  have h := positions_of_band hc hz
  rw [hl, List.filter_append, List.filter_cons_of_pos (by simp)] at h
  have hp := congrArg (fun m => m[(l.filter fun q => q.z == p.z).length]?) h
  simp only [List.getElem?_append_right le_rfl, Nat.sub_self, List.getElem?_cons_zero, List.getElem?_map] at hp
  obtain ⟨t, ht, he⟩ := Option.map_eq_some_iff.mp hp.symm
  have hlen := (List.getElem?_eq_some_iff.mp ht).2
  rw [List.getElem_range] at hlen
  rw [← he, bandCount, List.countP_eq_length_filter, hlen]
  exact (Nat.div_add_mod' t c.X).symm

/-- The position of a within-band index. -/
theorem divMod_index {c : Cfg} {p : Cursor} (hx : p.x < c.X) :
    (p.y * c.X + p.x) / c.X = p.y ∧ (p.y * c.X + p.x) % c.X = p.x := by
  rw [mul_comm p.y]
  rw [Nat.mul_add_div (by omega), Nat.div_eq_of_lt hx, Nat.mul_add_mod, Nat.mod_eq_of_lt hx]
  exact ⟨rfl, rfl⟩

/-! ### Rows -/

theorem rowIndex_of_mem {c : Cfg} {i : Nat} {p : Cursor} (hp : p ∈ rowPositions c i) : rowIndex c p = i := by
  unfold rowPositions at hp
  unfold rowIndex
  by_cases hb : c.bsq = true
  · rw [if_pos hb] at hp ⊢
    obtain ⟨x, -, rfl⟩ := List.mem_map.mp hp
    exact Nat.div_add_mod' i c.Y
  · rw [if_neg hb] at hp ⊢
    simp only [List.mem_flatMap, List.mem_map] at hp
    obtain ⟨g, -, x, -, z, -, rfl⟩ := hp
    rfl

theorem rowPositions_begin {c : Cfg} (hc : CubeLegal c) (i : Nat) :
    ∃ a as, rowPositions c i = a :: as ∧ rowStart c a = true ∧ ∀ b ∈ as, rowStart c b = false := by
  obtain ⟨n, hn⟩ : ∃ n, c.X = n + 1 := ⟨c.X - 1, by have := hc.width.1; omega⟩
  unfold rowPositions rowStart
  by_cases hb : c.bsq = true
  · simp only [if_pos hb]
    rw [hn, List.range_succ_eq_map, List.map_cons]
    refine ⟨_, _, rfl, rfl, ?_⟩
    simp
  · simp only [if_neg hb]
    have hm := hc.depth_pos hb
    have hz := hc.bands.1
    obtain ⟨g, hg⟩ : ∃ g, (c.Z + c.M - 1) / c.M = g + 1 := ⟨_, (Nat.succ_pred_eq_of_pos (Nat.div_pos (by omega) hm)).symm⟩
    obtain ⟨k, hk⟩ : ∃ k, min ((0 + 1) * c.M) c.Z - 0 * c.M = k + 1 := ⟨min ((0 + 1) * c.M) c.Z - 0 * c.M - 1, by omega⟩
    have hgroup : groupBands c 0 = 0 :: (List.range k).map fun j => j + 1 := by
      unfold groupBands
      rw [hk, List.range_succ_eq_map]
      simp
    rw [hg, List.range_succ_eq_map, List.flatMap_cons, hn, List.range_succ_eq_map, List.flatMap_cons, hgroup, List.map_cons]
    simp only [List.cons_append]
    refine ⟨_, _, rfl, rfl, fun b hbm => ?_⟩
    simp only [List.mem_append, List.mem_map, List.mem_flatMap, List.mem_range, exists_exists_and_eq_and] at hbm
    rcases hbm with (⟨j, -, rfl⟩ | ⟨x, -, z, -, rfl⟩) | ⟨g', -, x, -, z, hz', rfl⟩
    · rfl
    · simp
    · have hne := ((mem_groupBands hm).mp hz').2
      have : z ≠ 0 := by rintro rfl; simp at hne
      simp [this]

/-- The row starts up to a position number its row (47_pipeline.md R546). -/
theorem rowStarts_upto {c : Cfg} (hc : CubeLegal c) {l r : List Cursor} {p : Cursor} (hl : positions c = l ++ p :: r) :
    (l ++ [p]).countP (rowStart c) = rowIndex c p + 1 :=
  countP_upto_of_rows (rowPositions_begin hc) (fun _ _ h => rowIndex_of_mem h) _ l p r ((positions_eq_rows hc).symm.trans hl)

/-- The traversal ends at the last position of the cube. -/
theorem positions_last {c : Cfg} (hc : CubeLegal c) : ∃ l, positions c = l ++ [⟨c.Z - 1, c.Y - 1, c.X - 1⟩] := by
  obtain ⟨hx, -⟩ := hc.width
  obtain ⟨hy, -⟩ := hc.height
  obtain ⟨hz, -⟩ := hc.bands
  have hmem : (⟨c.Z - 1, c.Y - 1, c.X - 1⟩ : Cursor) ∈ positions c :=
    (mem_positions hc _).mpr ⟨show c.Z - 1 < c.Z by omega, show c.Y - 1 < c.Y by omega, show c.X - 1 < c.X by omega⟩
  obtain ⟨l, r, hl⟩ := List.append_of_mem hmem
  cases r with
  | nil => exact ⟨l, hl⟩
  | cons q r =>
    obtain ⟨hqz, hqy, hqx⟩ := (mem_positions hc q).mp (by rw [hl]; simp)
    have hpair := positions_pairwise hc
    rw [hl, List.pairwise_append, List.pairwise_cons] at hpair
    have hlt := hpair.2.1.1 q (List.mem_cons_self ..)
    have hdiv : q.z / c.M ≤ (c.Z - 1) / c.M := Nat.div_le_div_right (by omega)
    unfold Before at hlt
    split_ifs at hlt <;> dsimp only at hlt <;> omega

end Sys2Proof.Machine
end

section
/-! Tools for runs: what an operation keeps of a state, loops with an invariant over the part done, and the progress of the
writer and of the reader along a run. -/

namespace Sys2Proof.Machine

variable {α β γ : Type}

/-! ### What an operation keeps -/

/-- Two states look the same in this view. -/
def SameView (view : State → γ) (s t : State) : Prop := view t = view s

/-- A field that a view shows is the same in states that look the same. -/
theorem field_eq {view : State → State} (field : State → β) {s t : State} (e : view t = view s)
    (h : ∀ s, field (view s) = field s) : field t = field s := by
  rw [← h t, e, h]

/-- However the operation ends, this view of the state is the one it began with. -/
def Keeps (view : State → γ) (x : Op α) : Prop := Ends (SameView view) x

theorem keeps_ok {view : State → γ} {x : Op α} (h : Keeps view x) {s t : State} {a : α} (hx : x s = .ok a t) :
    view t = view s := by
  have := h s
  rwa [hx] at this

theorem keeps_pure (view : State → γ) (a : α) : Keeps view (pure a : Op α) := ends_pure (R := SameView view) (fun _ => rfl) a

theorem keeps_get (view : State → γ) : Keeps view Op.get := ends_get (R := SameView view) fun _ => rfl

theorem keeps_raise (view : State → γ) (k : ErrKind) (i : Word) : Keeps view (raise k i : Op α) := ends_raise (R := SameView view) (fun _ => rfl) k i

theorem keeps_require (view : State → γ) (p : Prop) [Decidable p] (k : ErrKind) (i : Word) : Keeps view (require p k i) :=
  ends_require (R := SameView view) (fun _ => rfl) p k i

theorem keeps_modify {view : State → γ} {f : State → State} (h : ∀ s, view (f s) = view s) : Keeps view (Op.modify f) :=
  ends_modify (R := SameView view) h

theorem keeps_bind {view : State → γ} {x : Op α} {f : α → Op β} (hx : Keeps view x) (hf : ∀ a, Keeps view (f a)) :
    Keeps view (x >>= f) := ends_bind (R := SameView view) (fun _ _ _ h k => k.trans h) hx hf

theorem keeps_forEach {view : State → γ} {f : α → Op Unit} (h : ∀ a, Keeps view (f a)) (l : List α) :
    Keeps view (forEach l f) := ends_forEach (R := SameView view) (fun _ => rfl) (fun _ _ _ h k => k.trans h) h l

theorem keeps_collect {view : State → γ} {f : α → Op β} (h : ∀ a, Keeps view (f a)) (l : List α) :
    Keeps view (collect l f) := ends_collect (R := SameView view) (fun _ => rfl) (fun _ _ _ h k => k.trans h) h l

theorem keeps_ite {view : State → γ} {p : Prop} [Decidable p] {x y : Op α} (hx : Keeps view x) (hy : Keeps view y) :
    Keeps view (if p then x else y) := ends_ite (R := SameView view) hx hy

/-! ### Loops -/

/-- A loop keeps an invariant over the elements done so far. -/
theorem forEach_invariant {f : α → Op Unit} {P : List α → State → Prop} {whole : List α}
    (step : ∀ l a r, whole = l ++ a :: r → ∀ s, P l s → ∃ t, f a s = .ok () t ∧ P (l ++ [a]) t) :
    ∀ l r : List α, whole = l ++ r → ∀ s, P l s → ∃ t, forEach r f s = .ok () t ∧ P whole t
  | l, [], h, s, hs => ⟨s, rfl, by rw [h, List.append_nil]; exact hs⟩
  | l, a :: r, h, s, hs => by
    obtain ⟨t, h1, h2⟩ := step l a r h s hs
    obtain ⟨u, k1, k2⟩ := forEach_invariant step (l ++ [a]) r (by simp [h]) t h2
    exact ⟨u, by rw [forEach_cons, bind_ok h1, k1], k2⟩

/-- The body of COMPRESS keeps an invariant over the positions done and the row buffer. -/
theorem compressFrom_invariant {c : Cfg} {P : List Cursor → List Word → State → Prop} {whole : List Cursor}
    (step : ∀ l p r, whole = l ++ p :: r → ∀ rows s, P l rows s →
      ∃ rows' t, compressAt c p rows s = .ok rows' t ∧ P (l ++ [p]) rows' t) :
    ∀ (l r : List Cursor), whole = l ++ r → ∀ rows s, P l rows s →
      ∃ rows' t, compressFrom c r rows s = .ok () t ∧ P whole rows' t
  | l, [], h, rows, s, hs => ⟨rows, s, rfl, by rw [h, List.append_nil]; exact hs⟩
  | l, p :: r, h, rows, s, hs => by
    obtain ⟨rows', t, h1, h2⟩ := step l p r h rows s hs
    obtain ⟨rows'', u, k1, k2⟩ := compressFrom_invariant step (l ++ [p]) r (by simp [h]) rows' t h2
    exact ⟨rows'', u, by unfold compressFrom; rw [bind_ok h1, k1], k2⟩

/-! ### The progress of the writer -/

/-- The writer is open and has appended exactly these bits to the bytes `old` of BOUT. -/
structure HasWritten (old : List Byte) (bits : List Bool) (s : State) : Prop where
  opened : s.closed = false
  partialByte : s.wbuf.length < 8
  earlier : old <+: s.bout
  bits : s.outBits = bitsOfBytes old ++ bits
  bytes : s.bytesOut + old.length = s.bout.length

theorem HasWritten.emitted {old : List Byte} {bits more : List Bool} {s t : State} (h : HasWritten old bits s)
    (e : Emitted more s t) : HasWritten old (bits ++ more) t := by
  have hclosed := emitted_closed e
  obtain ⟨-, hbout, hbits, hwbuf, hbytes⟩ := e
  have hold := h.bytes
  exact ⟨hclosed.trans h.opened, hwbuf, h.earlier.trans hbout, by rw [hbits, h.bits, List.append_assoc], by omega⟩

theorem HasWritten.emitBits {old : List Byte} {bits : List Bool} {s : State} (h : HasWritten old bits s) (more : List Bool) :
    HasWritten old (bits ++ more) (emitBits more s) := h.emitted (emitBits_emitted more h.partialByte)

/-- The bits written, counted by the writer's own state. -/
theorem HasWritten.length {old : List Byte} {bits : List Bool} {s : State} (h : HasWritten old bits s) :
    bits.length = 8 * s.bytesOut + s.wbuf.length := by
  have hbits := congrArg List.length h.bits
  have hbytes := h.bytes
  simp only [State.outBits, List.length_append, length_bitsOfBytes] at hbits
  omega

/-- At a byte boundary the bits written are those of the bytes appended. -/
theorem HasWritten.bout {old : List Byte} {bits : List Bool} {s : State} (h : HasWritten old bits s) (hw : s.wbuf = []) :
    ∃ bytes, s.bout = old ++ bytes ∧ bitsOfBytes bytes = bits ∧ bytes.length = s.bytesOut := by
  obtain ⟨bytes, hb⟩ := h.earlier
  refine ⟨bytes, hb.symm, ?_, ?_⟩
  · have := h.bits
    rw [State.outBits, hw, List.append_nil, ← hb, bitsOfBytes_append] at this
    exact List.append_cancel_left this
  · have := h.bytes
    rw [← hb, List.length_append] at this
    omega

/-- `Flush` fills the last byte (40_bitstream.md R202). -/
theorem HasWritten.flush {old : List Byte} {bits : List Bool} {s : State} (h : HasWritten old bits s) :
    ∃ t, flush s = .ok () t ∧ HasWritten old (bits ++ padBits bits.length) t ∧ t.wbuf = [] := by
  obtain ⟨t, hrun, hemit, hwbuf⟩ := flush_ok (fun hc => absurd hc (by simp [h.opened])) h.partialByte
  have hpad : padBits s.wbuf.length = padBits bits.length := by
    unfold padBits
    rw [h.length, Nat.mul_add_mod]
  exact ⟨t, hrun, hpad ▸ h.emitted hemit, hwbuf⟩

/-! ### The progress of the reader -/

/-- The reader, which began on the bytes `whole` of BIN, has exactly these bits left. -/
structure HasLeft (whole : List Byte) (bits : List Bool) (s : State) : Prop where
  partialByte : s.rbuf.length < 8
  bytes : s.bin <:+ whole
  bits : s.inBits = bits

theorem HasLeft.taken {whole : List Byte} {bits more : List Bool} {s t : State} (h : HasLeft whole (bits ++ more) s)
    (e : Taken bits s t) : HasLeft whole more t := by
  obtain ⟨-, hbin, hbits, hrbuf⟩ := e
  exact ⟨hrbuf, hbin.trans h.bytes, List.append_cancel_left (hbits.symm.trans h.bits)⟩

/-- What is left at the end of a run holds the bytes that follow it. -/
theorem HasLeft.suffix {whole more : List Byte} {bits : List Bool} {s : State} (h : HasLeft whole (bits ++ bitsOfBytes more) s)
    (hm : more <:+ whole) : more <:+ s.bin := by
  have hl := congrArg List.length h.bits
  have hr := h.partialByte
  simp only [State.inBits, List.length_append, length_bitsOfBytes] at hl
  exact List.suffix_of_suffix_length_le hm h.bytes (by omega)

theorem Reads.hasLeft {a : α} {bits more : List Bool} {x : Op α} (hx : Reads bits a x) {whole : List Byte} {s : State}
    (h : HasLeft whole (bits ++ more) s) : ∃ t, x s = .ok a t ∧ Taken bits s t ∧ HasLeft whole more t := by
  obtain ⟨t, h1, h2, -⟩ := hx s more h.partialByte h.bits
  exact ⟨t, h1, h2, h.taken h2⟩

end Sys2Proof.Machine
end

section
/-! The predictor along a traversal: HIST holds the samples visited, each band its weights, and both directions agree on
every prediction (44_predictor.md R389, R407, R408, 47_pipeline.md R544). -/

namespace Sys2Proof.Machine

/-- A cube of samples in range under a legal shape (00_scope.md R13). -/
structure SampledCube (c : Cfg) (h : Nat → Nat → Nat → Int) : Prop where
  cube : CubeLegal c
  bits : 2 ≤ c.D ∧ c.D ≤ 16
  range : ∀ q, InCube c q → c.SMIN ≤ h q.z q.y q.x ∧ h q.z q.y q.x ≤ c.SMAX

/-- A position's key is its own (10_state.md R33). -/
theorem histKey_inj {c : Cfg} (hc : CubeLegal c) {p q : Cursor} (hp : InCube c p) (hq : InCube c q)
    (h : histKey p.z p.y p.x = histKey q.z q.y q.x) : p = q := by
  obtain ⟨-, hpy, hpx⟩ := hp
  obtain ⟨-, hqy, hqx⟩ := hq
  obtain ⟨-, hx⟩ := hc.width
  obtain ⟨-, hy⟩ := hc.height
  obtain ⟨pz, py, px⟩ := p
  obtain ⟨qz, qy, qx⟩ := q
  unfold histKey at h
  dsimp only at *
  rw [Cursor.mk.injEq]
  omega

/-! ### The pure residuals -/

section
variable {c : Cfg} {tw : Memory Word} {h : Nat → Nat → Nat → Int}

theorem weightsBefore_succ {p : Cursor} (hx : p.x < c.X) :
    weightsBefore c tw h p.z (p.y * c.X + p.x + 1) =
      weightsOf c (weightsBefore c tw h p.z (p.y * c.X + p.x)) h p (h p.z p.y p.x) := by
  obtain ⟨h1, h2⟩ := divMod_index (p := p) hx
  rw [weightsBefore, h1, h2]

theorem neededCells_inCube (hc : CubeLegal c) {p q : Cursor} (hp : InCube c p) (hq : q ∈ neededCells c p) : InCube c q := by
  obtain ⟨l, r, hl⟩ := List.append_of_mem ((mem_positions hc p).mpr hp)
  refine (mem_positions hc q).mp ?_
  rw [hl]
  exact List.mem_append_left _ (neededCells_visited hc hl hq)

theorem scaledOf_inRange (hs : SampledCube c h) {p : Cursor} (hp : InCube c p) (w : List Int) :
    2 * c.SMIN ≤ scaledOf c w h p ∧ scaledOf c w h p ≤ 2 * c.SMAX + 1 :=
  scaledOf_bounds (by have := hs.bits; omega) fun q hq => hs.range q (neededCells_inCube hs.cube hp hq)

/-- The residual of a position, as the integer the mapper answers. -/
theorem residualAt_cast (hs : SampledCube c h) {p : Cursor} (hp : InCube c p) :
    (residualAt c tw h p : Int) =
      mapResidual c (h p.z p.y p.x) (scaledOf c (weightsBefore c tw h p.z (p.y * c.X + p.x)) h p) :=
  Int.toNat_of_nonneg (mapResidual_bounds (by have := hs.bits; omega) (hs.range p hp) (scaledOf_inRange hs hp _)).1

/-- Every residual fits D bits (45_mapper.md R452). -/
theorem residualAt_lt (hs : SampledCube c h) {p : Cursor} (hp : InCube c p) : residualAt c tw h p < 2 ^ c.D := by
  have hb := (mapResidual_bounds (by have := hs.bits; omega) (hs.range p hp)
    (scaledOf_inRange hs hp (weightsBefore c tw h p.z (p.y * c.X + p.x)))).2
  rw [← residualAt_cast hs hp (tw := tw)] at hb
  exact_mod_cast hb

/-- The inverse mapper gives the sample back. -/
theorem unmapResidual_residualAt (hs : SampledCube c h) {p : Cursor} (hp : InCube c p) :
    unmapResidual c (residualAt c tw h p) (scaledOf c (weightsBefore c tw h p.z (p.y * c.X + p.x)) h p) = h p.z p.y p.x := by
  rw [residualAt_cast hs hp]
  exact unmapResidual_mapResidual (hs.range p hp) (scaledOf_inRange hs hp _)

end

/-! ### The predictor's state along the traversal -/

/-- After the positions `l` HIST holds their samples, and each band visited the weights of its next sample. -/
structure Predicting (c : Cfg) (tw : Memory Word) (h : Nat → Nat → Nat → Int) (l : List Cursor) (s : State) : Prop where
  sameCfg : s.cfg = c
  sameTw : s.tw = tw
  samples : ∀ q ∈ l, s.sampleAt q = some (h q.z q.y q.x)
  weights : ∀ z, bandCount z l ≠ 0 → s.weights.cellAt z = some (weightsBefore c tw h z (bandCount z l))

/-- The predictor before the position `p`: its band has weights too (47_pipeline.md R544). -/
structure ReadyToPredict (c : Cfg) (tw : Memory Word) (h : Nat → Nat → Nat → Int) (l : List Cursor) (p : Cursor) (s : State) :
    Prop extends Predicting c tw h l s where
  here : s.weights.cellAt p.z = some (weightsBefore c tw h p.z (p.y * c.X + p.x))

/-- After the positions `l` each band visited has the statistics of its next residual. -/
structure Adapting (c : Cfg) (ta : Memory Word) (d : Nat → Nat → Nat) (l : List Cursor) (s : State) : Prop where
  sameTa : s.ta = ta
  stats : ∀ z, bandCount z l ≠ 0 → s.stats.cellAt z = some (statsBefore c ta z (d z) (bandCount z l))

/-- The sample-adaptive coder before the position `p`: its band has statistics too (47_pipeline.md R544). -/
structure ReadyToAdapt (c : Cfg) (ta : Memory Word) (d : Nat → Nat → Nat) (l : List Cursor) (p : Cursor) (s : State) :
    Prop extends Adapting c ta d l s where
  here : s.stats.cellAt p.z = some (statsBefore c ta p.z (d p.z) (p.y * c.X + p.x))

section
variable {c : Cfg} {ta tw : Memory Word} {h : Nat → Nat → Nat → Int} {d : Nat → Nat → Nat} {l r : List Cursor} {p : Cursor}
  {s : State}

theorem predInitBand_eq (hc : s.cfg = c) (ht : s.tw = tw) (z : Nat) : predInitBand z s = .ok ()
    { s with weights := s.weights.putCell z (weightsBefore c tw h z 0) } := by
  subst hc ht
  rfl

theorem saInitBand_eq (hc : s.cfg = c) (ht : s.ta = ta) (z : Nat) (d : Nat → Nat) : saInitBand z s = .ok ()
    { s with stats := s.stats.putCell z (statsBefore c ta z d 0) } := by
  subst hc ht
  rfl

/-- `InitBand` prepares the band of a position at its origin and changes nothing elsewhere. -/
theorem initBand_ok (hc : CubeLegal c) (hl : positions c = l ++ p :: r) (hp : Predicting c tw h l s)
    (ha : c.coder = 0 → Adapting c ta d l s) :
    ∃ t, initBand c p s = .ok () t ∧ t = { s with weights := t.weights, stats := t.stats } ∧
      ReadyToPredict c tw h l p t ∧ (c.coder = 0 → ReadyToAdapt c ta d l p t) := by
  have hcount := bandCount_eq_index hc hl
  by_cases h0 : p.y = 0 ∧ p.x = 0
  · have hz : p.y * c.X + p.x = 0 := by rw [h0.1, h0.2]; simp
    rw [hz] at hcount
    have hother : ∀ z, bandCount z l ≠ 0 → z ≠ p.z := fun z hne he => hne (he ▸ hcount)
    have hcell : ∀ {α : Type} (m : Memory α) (v : α) (z : Nat), bandCount z l ≠ 0 → (m.putCell p.z v).cellAt z = m.cellAt z :=
      fun m v z hne => Memory.cellAt_putCell_other m (hother z hne) v
    have hw : ∀ z, bandCount z l ≠ 0 → (s.weights.putCell p.z (weightsBefore c tw h p.z 0)).cellAt z =
        some (weightsBefore c tw h z (bandCount z l)) := fun z hne => (hcell _ _ z hne).trans (hp.weights z hne)
    have hwp : (s.weights.putCell p.z (weightsBefore c tw h p.z 0)).cellAt p.z = some (weightsBefore c tw h p.z (p.y * c.X + p.x)) := by
      rw [hz]; exact Memory.cellAt_putCell_same ..
    unfold initBand
    rw [if_pos h0, bind_ok (predInitBand_eq (h := h) hp.sameCfg hp.sameTw p.z)]
    by_cases hco : c.coder = 0
    · have ha := ha hco
      rw [if_pos hco]
      refine ⟨_, saInitBand_eq (by exact hp.sameCfg) (by exact ha.sameTa) p.z (d p.z), rfl, ⟨⟨hp.sameCfg, hp.sameTw, hp.samples, hw⟩, hwp⟩, fun _ =>
        ⟨⟨ha.sameTa, fun z hne => (hcell _ _ z hne).trans (ha.stats z hne)⟩, ?_⟩⟩
      rw [hz]
      exact Memory.cellAt_putCell_same ..
    · rw [if_neg hco]
      exact ⟨_, rfl, rfl, ⟨⟨hp.sameCfg, hp.sameTw, hp.samples, hw⟩, hwp⟩, fun he => absurd he hco⟩
  · have hne : p.y * c.X + p.x ≠ 0 := by
      have := hc.width.1
      rw [Ne, Nat.add_eq_zero_iff, Nat.mul_eq_zero]
      omega
    unfold initBand
    rw [if_neg h0]
    exact ⟨s, rfl, rfl, ⟨hp, by rw [hp.weights p.z (hcount ▸ hne), hcount]⟩, fun hco =>
      ⟨ha hco, by rw [(ha hco).stats p.z (hcount ▸ hne), hcount]⟩⟩

theorem Predicting.agree (hc : CubeLegal c) (hl : positions c = l ++ p :: r) (hp : Predicting c tw h l s) :
    AgreeOn (neededCells c p) s.samples h := by
  intro q hq
  have := hp.samples q (neededCells_visited hc hl hq)
  unfold State.samples
  rw [this, Option.getD_some]

theorem Predicting.written (hc : CubeLegal c) (hl : positions c = l ++ p :: r) (hp : Predicting c tw h l s) :
    ∀ q ∈ neededCells s.cfg p, (s.sampleAt q).isSome := by
  intro q hq
  rw [hp.sameCfg] at hq
  rw [hp.samples q (neededCells_visited hc hl hq), Option.isSome_some]

/-- A published sample carries the predictor to the next position. -/
theorem ReadyToPredict.publish (hc : CubeLegal c) (hl : positions c = l ++ p :: r) (hp : ReadyToPredict c tw h l p s) {t : State}
    (ht : t = { s with hist := t.hist, weights := t.weights }) (hsample : t.sampleAt p = some (h p.z p.y p.x))
    (hsamples : ∀ q : Cursor, histKey q.z q.y q.x ≠ histKey p.z p.y p.x → t.sampleAt q = s.sampleAt q)
    (hweight : t.weights.cellAt p.z = some (weightsOf c (weightsBefore c tw h p.z (p.y * c.X + p.x)) s.samples p (h p.z p.y p.x)))
    (hweights : ∀ z, z ≠ p.z → t.weights.cellAt z = s.weights.cellAt z) : Predicting c tw h (l ++ [p]) t := by
  have hin := inCube_of_split hc hl
  refine ⟨by rw [ht]; exact hp.sameCfg, by rw [ht]; exact hp.sameTw, fun q hq => ?_, fun z hne => ?_⟩
  · by_cases he : q = p
    · rw [he, hsample]
    · have hql : q ∈ l := by simpa [he] using hq
      have hqin := (mem_positions hc q).mp (by rw [hl]; exact List.mem_append_left _ hql)
      rw [hsamples q fun hk => he (histKey_inj hc hqin hin hk), hp.samples q hql]
  · by_cases he : z = p.z
    · subst he
      rw [hweight, bandCount_snoc, if_pos rfl, bandCount_eq_index hc hl, weightsBefore_succ hin.2.2,
        weightsOf_agree _ (hp.agree hc hl)]
    · have hcount : bandCount z (l ++ [p]) = bandCount z l := by rw [bandCount_snoc, if_neg (Ne.symm he), Nat.add_zero]
      rw [hcount] at hne ⊢
      rw [hweights z he, hp.weights z hne]

/-- `PredCompress` of the cube's own sample answers its residual. -/
theorem predCompress_along (hs : SampledCube c h) (hl : positions c = l ++ p :: r) (hp : ReadyToPredict c tw h l p s) :
    ∃ ss t, predCompress p.z p.y p.x (h p.z p.y p.x) s = .ok ((residualAt c tw h p : Int), ss) t ∧
      t = { s with hist := t.hist, weights := t.weights } ∧ Predicting c tw h (l ++ [p]) t := by
  have hin := inCube_of_split hs.cube hl
  obtain ⟨t, hrun, ht, hsample, hsamples, hweight, hweights⟩ :=
    predCompress_ok (hp.sameCfg ▸ hs.range p hin) hp.here (hp.written hs.cube hl)
  rw [hp.sameCfg, scaledOf_agree (hp.agree hs.cube hl), ← residualAt_cast hs hin] at hrun
  rw [hp.sameCfg] at hweight
  exact ⟨_, t, hrun, ht, hp.publish hs.cube hl ht hsample hsamples hweight hweights⟩

/-- `PredDecompress` of the residual answers the cube's own sample. -/
theorem predDecompress_along (hs : SampledCube c h) (hl : positions c = l ++ p :: r) (hp : ReadyToPredict c tw h l p s) :
    ∃ ss t, predDecompress p.z p.y p.x (residualAt c tw h p) s = .ok (h p.z p.y p.x, ss) t ∧
      t = { s with hist := t.hist, weights := t.weights } ∧ Predicting c tw h (l ++ [p]) t := by
  have hin := inCube_of_split hs.cube hl
  obtain ⟨t, hrun, ht, hsample, hsamples, hweight, hweights⟩ :=
    predDecompress_ok (d := residualAt c tw h p) (by rw [hp.sameCfg]; exact residualAt_lt hs hin) hp.here (hp.written hs.cube hl)
  have hv : unmapResidual s.cfg (residualAt c tw h p)
      (scaledOf s.cfg (weightsBefore c tw h p.z (p.y * c.X + p.x)) s.samples p) = h p.z p.y p.x := by
    rw [hp.sameCfg, scaledOf_agree (hp.agree hs.cube hl), unmapResidual_residualAt hs hin]
  rw [hv] at hrun hsample hweight
  rw [hp.sameCfg] at hweight
  exact ⟨_, t, hrun, ht, hp.publish hs.cube hl ht hsample hsamples hweight hweights⟩

end

end Sys2Proof.Machine
end

section
/-! What the coders leave unchanged, whether they end well or raise: an encoder moves the writer and its own counters, a decoder
the reader and its own counters, and DECOMPRESS never touches the host's registers. -/

namespace Sys2Proof.Machine

/-- The state without what an encoder moves: the writer, the block coder's encoding side, the statistics. -/
def encoderView (s : State) : State :=
  { s with wbuf := [], bout := [], bytesOut := 0, bitsOut := 0, zrun := 0, cs := 0, cr := 0, ebuf := [], efill := 0, stats := [] }

/-- The state without what a decoder moves: the reader, the block coder's decoding side, the statistics. -/
def decoderView (s : State) : State :=
  { s with rbuf := [], bin := [], bitsIn := 0, runrem := 0, cs := 0, cr := 0, dbuf := [], dpos := 0, stats := [] }

/-! ### The encoders -/

theorem encoderView_pushBits : ∀ (bits : List Bool) (s : State), encoderView (pushBits bits s) = encoderView s
  | [], _ => rfl
  | b :: bs, s => by
    have hbit : encoderView (pushBit b s) = encoderView s := by
      unfold pushBit
      split <;> rfl
    exact (encoderView_pushBits bs (pushBit b s)).trans hbit

theorem keeps_writeBits (n v : Nat) : Keeps encoderView (writeBits n v) :=
  keeps_bind (keeps_get _) fun _ => keeps_bind (keeps_require _ _ _ _) fun _ =>
    keeps_modify fun s => encoderView_pushBits (rawBits n v) s

theorem keeps_unaryWrite : ∀ u, Keeps encoderView (unaryWrite u)
  | 0 => keeps_writeBits 1 1
  | u + 1 => keeps_bind (keeps_writeBits 1 0) fun _ => keeps_unaryWrite u

theorem keeps_riceCode (b : List Word) (k : Nat) : Keeps encoderView (riceCode b k) :=
  keeps_bind (keeps_forEach (fun _ => keeps_unaryWrite _) b) fun _ => keeps_forEach (fun _ => keeps_writeBits _ _) b

theorem keeps_emitId (c : Cfg) : ∀ option, Keeps encoderView (emitId c option)
  | .zeroBlock => keeps_writeBits _ _
  | .secondExt => keeps_writeBits _ _
  | .sampleSplit _ => keeps_writeBits _ _
  | .backup => keeps_writeBits _ _

theorem keeps_emitPayload (c : Cfg) (b : List Word) : ∀ option, Keeps encoderView (emitPayload c b option)
  | .zeroBlock => keeps_pure _ _
  | .secondExt => keeps_forEach keeps_unaryWrite _
  | .sampleSplit k => keeps_riceCode b k
  | .backup => keeps_forEach (fun _ => keeps_writeBits _ _) b

theorem keeps_sendRun (c : Cfg) (n : Nat) :
    Keeps encoderView (emitId c .zeroBlock >>= fun _ => unaryWrite n >>= fun _ => clearRun) :=
  keeps_bind (keeps_emitId c _) fun _ => keeps_bind (keeps_unaryWrite n) fun _ => keeps_modify fun _ => rfl

theorem keeps_flushBlocks : Keeps encoderView flushBlocks :=
  keeps_bind (keeps_get _) fun s => keeps_ite (keeps_pure _ _) (keeps_sendRun s.cfg _)

theorem keeps_flushRos : Keeps encoderView flushRos :=
  keeps_bind (keeps_get _) fun s => keeps_ite keeps_flushBlocks (keeps_sendRun s.cfg _)

theorem keeps_codeOption (c : Cfg) (b : List Word) (option : BlockOption) : Keeps encoderView (codeOption c b option) := by
  have send : Keeps encoderView (flushBlocks >>= fun _ => emitId c option >>= fun _ => emitPayload c b option) :=
    keeps_bind keeps_flushBlocks fun _ => keeps_bind (keeps_emitId c option) fun _ => keeps_emitPayload c b option
  cases option with
  | zeroBlock => exact keeps_modify fun _ => rfl
  | secondExt => exact send
  | sampleSplit k => exact send
  | backup => exact send

theorem keeps_advance {view : State → State} (h : ∀ s a b, view { s with cs := a, cr := b } = view s) : Keeps view advance :=
  keeps_bind (keeps_modify fun s => h s _ _) fun _ => keeps_bind (keeps_get _) fun _ => keeps_pure _ _

theorem keeps_codeBlock (b : List Word) : Keeps encoderView (codeBlock b) :=
  keeps_bind (keeps_get _) fun _ => keeps_bind (keeps_codeOption _ _ _) fun _ =>
    keeps_bind (keeps_advance fun _ _ _ => rfl) fun _ => keeps_ite keeps_flushRos (keeps_pure _ _)

theorem keeps_codeSample (v : Nat) : Keeps encoderView (codeSample v) :=
  keeps_bind (keeps_modify fun _ => rfl) fun _ => keeps_bind (keeps_get _) fun _ =>
    keeps_ite (keeps_bind (keeps_codeBlock _) fun _ => keeps_modify fun _ => rfl) (keeps_pure _ _)

theorem keeps_readStats (view : State → State) (z : Nat) : Keeps view (readStats z) := by
  intro s
  rw [readStats_eq]
  cases s.stats.cellAt z <;> exact rfl

theorem keeps_saUpdate {view : State → State} (h : ∀ s m, view { s with stats := m } = view s) (z t v : Nat) :
    Keeps view (saUpdate z t v) :=
  keeps_bind (keeps_get _) fun _ => keeps_ite (keeps_pure _ _) <|
    keeps_bind (keeps_readStats view z) fun _ => keeps_modify fun s => h s _

theorem keeps_saCode (z t v : Nat) : Keeps encoderView (saCode z t v) :=
  keeps_bind (keeps_get _) fun _ => keeps_ite (keeps_writeBits _ _) <|
    keeps_bind (keeps_readStats _ z) fun _ => keeps_ite
      (keeps_bind (keeps_unaryWrite _) fun _ => keeps_writeBits _ _)
      (keeps_bind (keeps_unaryWrite _) fun _ => keeps_writeBits _ _)

theorem keeps_encodeResidual (c : Cfg) (z t v : Nat) : Keeps encoderView (encodeResidual c z t v) :=
  keeps_ite (keeps_bind (keeps_saCode z t v) fun _ => keeps_saUpdate (fun _ _ => rfl) z t v) (keeps_codeSample v)

/-! ### The decoders -/

theorem keeps_readBit (eof : Raise) : Keeps decoderView (readBit eof) := by
  intro s
  unfold readBit
  cases s.rbuf with
  | cons b rest => exact rfl
  | nil => cases s.bin <;> exact rfl

theorem keeps_readBitsFrom (eof : Raise) : ∀ n v, Keeps decoderView (readBitsFrom eof n v)
  | 0, _ => keeps_pure _ _
  | n + 1, _ => keeps_bind (keeps_readBit eof) fun _ => keeps_readBitsFrom eof n _

theorem keeps_readBits (n : Nat) : Keeps decoderView (readBits n) := keeps_readBitsFrom eosBin n 0

theorem keeps_unaryReadFrom (err : Raise) : ∀ left n, Keeps decoderView (unaryReadFrom err left n)
  | 0, _ => keeps_bind (keeps_readBit eosBin) fun _ => keeps_ite (keeps_pure _ _) (keeps_raise _ _ _)
  | left + 1, _ => keeps_bind (keeps_readBit eosBin) fun _ => keeps_ite (keeps_pure _ _) (keeps_unaryReadFrom err left _)

theorem keeps_unaryRead (cap : Nat) (err : Raise) : Keeps decoderView (unaryRead cap err) := keeps_unaryReadFrom err cap 0

theorem keeps_riceDecode (j k : Nat) : Keeps decoderView (riceDecode j k) :=
  keeps_bind (keeps_collect (fun _ => keeps_unaryRead _ _) _) fun _ =>
    keeps_collect (fun _ => keeps_bind (keeps_readBits k) fun _ => keeps_pure _ _) _

theorem keeps_decodeId : Keeps decoderView decodeId :=
  keeps_bind (keeps_get _) fun _ => keeps_bind (keeps_readBits _) fun _ =>
    keeps_ite (keeps_bind (keeps_readBits 1) fun _ => keeps_pure _ _) (keeps_pure _ _)

theorem keeps_decodePayload (j d : Nat) : ∀ option, Keeps decoderView (decodePayload j d option)
  | .zeroBlock => keeps_bind (keeps_unaryRead _ _) fun _ => keeps_bind (keeps_modify fun _ => rfl) fun _ => keeps_pure _ _
  | .secondExt => keeps_bind (keeps_collect (fun _ => keeps_bind (keeps_unaryRead _ _) fun _ => keeps_pure _ _) _)
      fun _ => keeps_pure _ _
  | .sampleSplit k => keeps_riceDecode j k
  | .backup => keeps_collect (fun _ => keeps_bind (keeps_readBits d) fun _ => keeps_pure _ _) _

theorem keeps_nextBlock : Keeps decoderView nextBlock :=
  keeps_bind (keeps_get _) fun _ => keeps_ite
    (keeps_bind (keeps_modify fun _ => rfl) fun _ => keeps_pure _ _)
    (keeps_bind keeps_decodeId fun _ => keeps_decodePayload _ _ _)

theorem keeps_decodeBlock : Keeps decoderView decodeBlock :=
  keeps_bind keeps_nextBlock fun _ => keeps_bind (keeps_advance fun _ _ _ => rfl) fun _ => keeps_pure _ _

theorem keeps_refillDbuf : Keeps decoderView refillDbuf :=
  keeps_bind (keeps_get _) fun _ => keeps_ite (keeps_bind keeps_decodeBlock fun _ => keeps_modify fun _ => rfl) (keeps_pure _ _)

theorem keeps_decodeSample : Keeps decoderView decodeSample :=
  keeps_bind keeps_refillDbuf fun _ => keeps_bind (keeps_get _) fun _ =>
    keeps_bind (keeps_modify fun _ => rfl) fun _ => keeps_pure _ _

theorem keeps_saDecode (z t : Nat) : Keeps decoderView (saDecode z t) :=
  keeps_bind (keeps_get _) fun _ => keeps_ite (keeps_readBits _) <|
    keeps_bind (keeps_readStats _ z) fun _ => keeps_bind (keeps_unaryRead _ _) fun _ => keeps_ite
      (keeps_bind (keeps_readBits _) fun _ => keeps_pure _ _) (keeps_readBits _)

theorem keeps_decodeResidual (c : Cfg) (z t : Nat) : Keeps decoderView (decodeResidual c z t) :=
  keeps_ite
    (keeps_bind (keeps_saDecode z t) fun _ => keeps_bind (keeps_saUpdate (fun _ _ => rfl) z t _) fun _ => keeps_pure _ _)
    (keeps_bind keeps_decodeSample fun _ => keeps_pure _ _)

end Sys2Proof.Machine
end

section
/-! The sample-adaptive coder along a traversal: each residual is written as its codeword and read back from it, and both sides
move the statistics alike (43_sample_adaptive.md R342 to R344). -/

namespace Sys2Proof.Machine

variable {c : Cfg} {ta : Memory Word} {d : Nat → Nat → Nat} {l r : List Cursor} {p : Cursor} {s : State}

/-- The codeword of a position, of residuals `d` by band and within-band index (30_encoding.md R154). -/
def adaptiveCodeAt (c : Cfg) (ta : Memory Word) (d : Nat → Nat → Nat) (p : Cursor) : List Bool :=
  adaptiveCode c (saK c (statsBefore c ta p.z (d p.z) (p.y * c.X + p.x))) (p.y * c.X + p.x) (d p.z (p.y * c.X + p.x))

theorem statsBefore_succ (z t : Nat) (d : Nat → Nat) :
    statsBefore c ta z d (t + 1) = if t = 0 then statsBefore c ta z d t else nextStats c (statsBefore c ta z d t) (d t) := rfl

theorem saUpdate_eq {z : Nat} (t v : Nat) {b : BandStats} (hb : s.stats.cellAt z = some b) : saUpdate z t v s = .ok ()
    { s with stats := if t = 0 then s.stats else s.stats.putCell z (nextStats s.cfg b v) } := by
  unfold saUpdate
  rw [get_bind]
  by_cases ht : t = 0
  · rw [if_pos ht, if_pos ht]; rfl
  · rw [if_neg ht, if_neg ht, bind_ok (show readStats z s = .ok b s by rw [readStats_eq, hb])]; rfl

/-- The statistics carried to the next position. -/
theorem ReadyToAdapt.update (hc : CubeLegal c) (hl : positions c = l ++ p :: r) (ha : ReadyToAdapt c ta d l p s)
    (hcfg : s.cfg = c) : ∃ t, saUpdate p.z (p.y * c.X + p.x) (d p.z (p.y * c.X + p.x)) s = .ok () t ∧
      t = { s with stats := t.stats } ∧ Adapting c ta d (l ++ [p]) t := by
  refine ⟨_, saUpdate_eq _ _ ha.here, rfl, ha.sameTa, fun z hne => ?_⟩
  by_cases he : z = p.z
  · subst he
    rw [bandCount_snoc, if_pos rfl, bandCount_eq_index hc hl, statsBefore_succ]
    dsimp only
    split
    · exact ha.here
    · rw [hcfg]; exact Memory.cellAt_putCell_same ..
  · rw [bandCount_snoc, if_neg (Ne.symm he), Nat.add_zero] at hne ⊢
    dsimp only
    split
    · exact ha.stats z hne
    · exact (Memory.cellAt_putCell_other _ he _).trans (ha.stats z hne)

theorem Adapting.congr {t : State} (ha : Adapting c ta d l s) (hta : t.ta = s.ta) (hstats : t.stats = s.stats) :
    Adapting c ta d l t := ⟨hta.trans ha.sameTa, fun z hne => by rw [hstats]; exact ha.stats z hne⟩

theorem ReadyToAdapt.congr {t : State} (ha : ReadyToAdapt c ta d l p s) (hta : t.ta = s.ta) (hstats : t.stats = s.stats) :
    ReadyToAdapt c ta d l p t := ⟨ha.toAdapting.congr hta hstats, by rw [hstats]; exact ha.here⟩

/-- The encoder at a position: the codeword is written, the statistics move. -/
theorem encodeResidual_adaptive (hc : CubeLegal c) (h0 : c.coder = 0) (hl : positions c = l ++ p :: r)
    (ha : ReadyToAdapt c ta d l p s) (hcfg : s.cfg = c) {old : List Byte} {bits : List Bool} (hw : HasWritten old bits s) :
    ∃ t, encodeResidual c p.z (p.y * c.X + p.x) (d p.z (p.y * c.X + p.x)) s = .ok () t ∧ Adapting c ta d (l ++ [p]) t ∧
      HasWritten old (bits ++ adaptiveCodeAt c ta d p) t := by
  have hcode := saCode_ok (p.y * c.X + p.x) (d p.z (p.y * c.X + p.x)) hw.opened hw.partialByte ha.here
  rw [hcfg] at hcode
  change saCode _ _ _ s = .ok () (emitBits (adaptiveCodeAt c ta d p) s) at hcode
  have hw' := hw.emitBits (adaptiveCodeAt c ta d p)
  have hframe := (emitBits_emitted (adaptiveCodeAt c ta d p) hw.partialByte).1
  have ha' : ReadyToAdapt c ta d l p (emitBits (adaptiveCodeAt c ta d p) s) := ha.congr (by rw [hframe]) (by rw [hframe])
  obtain ⟨t, hrun, ht, hnext⟩ := ha'.update hc hl (by rw [hframe]; exact hcfg)
  refine ⟨t, ?_, hnext, ?_⟩
  · unfold encodeResidual
    rw [if_pos h0, bind_ok hcode, hrun]
  · rw [ht]
    exact ⟨hw'.opened, hw'.partialByte, hw'.earlier, hw'.bits, hw'.bytes⟩

/-- The decoder at a position: the codeword is read back, the statistics move. -/
theorem decodeResidual_adaptive (hc : CubeLegal c) (h0 : c.coder = 0) (hl : positions c = l ++ p :: r)
    (ha : ReadyToAdapt c ta d l p s) (hcfg : s.cfg = c) (hd : d p.z (p.y * c.X + p.x) < 2 ^ c.D) {whole : List Byte}
    {more : List Bool} (hr : HasLeft whole (adaptiveCodeAt c ta d p ++ more) s) :
    ∃ t, decodeResidual c p.z (p.y * c.X + p.x) s = .ok (d p.z (p.y * c.X + p.x)) t ∧ Adapting c ta d (l ++ [p]) t ∧
      HasLeft whole more t := by
  subst hcfg
  obtain ⟨u, hdecode, htaken, -⟩ := saDecode_ok (p.y * s.cfg.X + p.x) _ more hr.partialByte ha.here hd hr.bits
  have hr' := hr.taken htaken
  have ha' : ReadyToAdapt s.cfg ta d l p u := ha.congr (by rw [htaken.1]) (by rw [htaken.1])
  obtain ⟨t, hrun, ht, hnext⟩ := ha'.update hc hl (by rw [htaken.1])
  refine ⟨t, ?_, hnext, ?_⟩
  · unfold decodeResidual
    rw [if_pos h0, bind_ok hdecode, bind_ok hrun]
    rfl
  · rw [ht]
    exact ⟨hr'.partialByte, hr'.bytes, hr'.bits⟩

end Sys2Proof.Machine
end

section
/-! The block-adaptive coder along a traversal, writing: what it has written and what the rest of its input will add are the
whole code, at every sample (42_block_adaptive.md R293 to R295). -/

namespace Sys2Proof.Machine

/-- How many blocks of `j` samples hold `n` samples. -/
def blockCount (j n : Nat) : Nat := (n + j - 1) / j

theorem blockCount_add {j : Nat} (hj : 0 < j) (n : Nat) : blockCount j (j + n) = blockCount j n + 1 := by
  unfold blockCount
  rw [show j + n + j - 1 = n + j - 1 + j by omega, Nat.add_div_right _ hj]

theorem blockCount_small {j n : Nat} (h0 : 0 < n) (hn : n ≤ j) : blockCount j n = 1 := by
  unfold blockCount
  rw [Nat.div_eq_iff (by omega)]
  omega

theorem blockCount_zero {j : Nat} (hj : 0 < j) : blockCount j 0 = 0 := by
  unfold blockCount
  rw [Nat.div_eq_zero_iff]
  omega

/-- The blocks of a list of samples, the last one completed with zeros. -/
def blocksIn (j : Nat) (l : List Word) : List (List Word) := blocksOf j (blockCount j l.length) l

theorem blocksIn_nil {j : Nat} (hj : 0 < j) : blocksIn j [] = [] := by
  unfold blocksIn
  rw [List.length_nil, blockCount_zero hj]
  rfl

theorem blocksIn_block {j : Nat} (hj : 0 < j) {b : List Word} (hb : b.length = j) (l : List Word) :
    blocksIn j (b ++ l) = b :: blocksIn j l := by
  unfold blocksIn
  rw [List.length_append, hb, blockCount_add hj, blocksOf, List.length_append, hb, Nat.sub_eq_zero_of_le (by omega)]
  rw [List.replicate_zero, List.append_nil, List.take_left' hb, List.drop_left' hb]

theorem blocksIn_partial {j : Nat} {b : List Word} (h0 : 0 < b.length) (hb : b.length < j) :
    blocksIn j b = [b ++ List.replicate (j - b.length) 0] := by
  unfold blocksIn
  rw [blockCount_small h0 hb.le, blocksOf, List.take_of_length_le hb.le]
  rfl

/-- What the samples still to come, after those in EBUF, and a terminate will add to the code. -/
def pendingCode (c : Cfg) (s : State) (ws : List Word) : List Bool :=
  blocksCode c s.zrun s.cs s.cr (blocksIn c.J (s.ebuf ++ ws))

/-- The encoder before the samples `ws`: with their code and a terminate it will have written `total`. -/
structure CollectingBlocks (c : Cfg) (old : List Byte) (total : List Bool) (ws : List Word) (s : State) : Prop where
  sameCfg : s.cfg = c
  filled : s.ebuf.length = s.efill
  room : s.efill < c.J
  written : ∃ bits, HasWritten old bits s ∧ bits ++ pendingCode c s ws = total

section
variable {c : Cfg} {old : List Byte} {total : List Bool} {s : State}

/-- `CodeBlock` on an open stream: its bits, and what stays to be coded. -/
theorem codeBlock_along (b : List Word) (hcfg : s.cfg = c) {bits : List Bool} (hw : HasWritten old bits s) :
    ∃ t more, codeBlock b s = .ok () t ∧ t.cfg = c ∧ HasWritten old (bits ++ more) t ∧
      ∀ blocks, blocksCode c s.zrun s.cs s.cr (b :: blocks) = more ++ blocksCode c t.zrun t.cs t.cr blocks := by
  subst hcfg
  have hrun := codeBlock_ok b hw.partialByte (fun h => absurd h (by rw [hw.opened]; simp))
  have hw' := hw.emitBits
    (blockCode s.cfg s.zrun (maskBlock s.cfg.D b) (boundaryAfter s) (select s.cfg (maskBlock s.cfg.D b)).1)
  exact ⟨_, _, hrun, (emitBits_fields _ hw.partialByte).1, ⟨hw'.opened, hw'.partialByte, hw'.earlier, hw'.bits, hw'.bytes⟩,
    fun _ => rfl⟩

/-- A full EBUF, or one completed with zeros, is coded and emptied. -/
theorem codeBlock_emptyEbuf (hj : 0 < c.J) (b : List Word) (ws : List Word) (hcfg : s.cfg = c) {bits : List Bool}
    (hw : HasWritten old bits s) (htotal : bits ++ blocksCode c s.zrun s.cs s.cr (b :: blocksIn c.J ws) = total) :
    ∃ t, (codeBlock b >>= fun _ => emptyEbuf) s = .ok () t ∧ t.ebuf = [] ∧ CollectingBlocks c old total ws t := by
  obtain ⟨t, more, hrun, hcfg', hw', hcode⟩ := codeBlock_along b hcfg hw
  rw [bind_ok hrun]
  refine ⟨_, rfl, rfl, hcfg', rfl, hj, bits ++ more, ⟨hw'.opened, hw'.partialByte, hw'.earlier, hw'.bits, hw'.bytes⟩, ?_⟩
  rw [← htotal, hcode, List.append_assoc]
  rfl

/-- `CodeSample` of the next sample. -/
theorem codeSample_along (hj : 0 < c.J) {w : Word} {ws : List Word} (hs : CollectingBlocks c old total (w :: ws) s) :
    ∃ t, codeSample w.toNat s = .ok () t ∧ CollectingBlocks c old total ws t := by
  obtain ⟨hcfg, hfill, hroom, bits, hw, htotal⟩ := hs
  unfold codeSample
  rw [modify_bind, get_bind]
  have hbuf : s.ebuf.take s.efill ++ [wordOfNat w.toNat] = s.ebuf ++ [w] := by
    rw [← hfill, List.take_length, wordOfNat_toNat]
  rw [hbuf]
  dsimp only
  have hmove : s.ebuf ++ w :: ws = (s.ebuf ++ [w]) ++ ws := by simp
  have hw' : HasWritten old bits { s with ebuf := s.ebuf ++ [w], efill := s.efill + 1 } :=
    ⟨hw.opened, hw.partialByte, hw.earlier, hw.bits, hw.bytes⟩
  have hlen : (s.ebuf ++ [w]).length = s.efill + 1 := by rw [List.length_append, hfill]; rfl
  unfold pendingCode at htotal
  rw [hmove] at htotal
  by_cases hfull : s.efill + 1 = s.cfg.J
  · rw [if_pos hfull]
    rw [blocksIn_block hj (by rw [hlen, hfull, hcfg])] at htotal
    obtain ⟨t, hrun, -, ht⟩ := codeBlock_emptyEbuf
      (s := { s with ebuf := s.ebuf ++ [w], efill := s.efill + 1 }) hj (s.ebuf ++ [w]) ws hcfg hw' htotal
    exact ⟨t, hrun, ht⟩
  · rw [if_neg hfull]
    rw [hcfg] at hfull
    exact ⟨_, rfl, hcfg, hlen, show s.efill + 1 < c.J by omega, bits, hw', htotal⟩

/-- The final partial block. -/
theorem codePartial_along (hj : 0 < c.J) (hs : CollectingBlocks c old total [] s) :
    ∃ t bits, codePartial s = .ok () t ∧ t.cfg = c ∧ HasWritten old bits t ∧ bits ++ boundaryRunCode c t.zrun = total := by
  obtain ⟨rfl, hfill, hroom, bits, hw, htotal⟩ := hs
  unfold pendingCode at htotal
  rw [List.append_nil] at htotal
  unfold codePartial
  rw [get_bind]
  by_cases h0 : 0 < s.efill
  · have hbuf : s.ebuf.take s.efill ++ List.replicate (s.cfg.J - s.efill) 0 =
        s.ebuf ++ List.replicate (s.cfg.J - s.ebuf.length) 0 := by rw [← hfill, List.take_length]
    rw [if_pos h0, modify_bind, get_bind, hbuf]
    rw [blocksIn_partial (by omega) (by omega), ← blocksIn_nil hj] at htotal
    obtain ⟨t, hrun, hnil, ht⟩ := codeBlock_emptyEbuf
      (s := { s with ebuf := s.ebuf ++ List.replicate (s.cfg.J - s.ebuf.length) 0 }) hj
      (s.ebuf ++ List.replicate (s.cfg.J - s.ebuf.length) 0) [] rfl ⟨hw.opened, hw.partialByte, hw.earlier, hw.bits, hw.bytes⟩
      htotal
    obtain ⟨bits', hw', htotal'⟩ := ht.written
    refine ⟨t, bits', hrun, ht.sameCfg, hw', ?_⟩
    rw [pendingCode, hnil, List.append_nil, blocksIn_nil hj] at htotal'
    exact htotal'
  · rw [if_neg h0]
    have hnil : s.ebuf = [] := List.length_eq_zero_iff.mp (by omega)
    rw [hnil, blocksIn_nil hj] at htotal
    exact ⟨s, bits, rfl, rfl, hw, htotal⟩

/-- `BaTerminate`: the whole code and the fill of its last byte. -/
theorem baTerminate_along (hj : 0 < c.J) (hs : CollectingBlocks c old total [] s) (hopen : s.terminated = false) :
    ∃ t, baTerminate s = .ok () t ∧ HasWritten old (total ++ padBits total.length) t ∧ t.wbuf = [] := by
  obtain ⟨t, bits, hpart, hcfg, hw, htotal⟩ := codePartial_along hj hs
  have hros := flushRos_ok (s := t) (fun hc => absurd hc (by simp [hw.opened])) hw.partialByte
  rw [hcfg] at hros
  have hw' := hw.emitBits (boundaryRunCode c t.zrun)
  rw [htotal] at hw'
  have hw'' : HasWritten old total (counters 0 t.cs t.cr (emitBits (boundaryRunCode c t.zrun) t)) :=
    ⟨hw'.opened, hw'.partialByte, hw'.earlier, hw'.bits, hw'.bytes⟩
  obtain ⟨u, hflush, hu, hwbuf⟩ := hw''.flush
  refine ⟨{ u with terminated := true }, ?_, ⟨hu.opened, hu.partialByte, hu.earlier, hu.bits, hu.bytes⟩, hwbuf⟩
  unfold baTerminate requireOpen
  rw [bind_apply, get_bind, require_ok hopen]
  dsimp only
  rw [bind_ok hpart, bind_ok hros, bind_ok hflush]
  rfl

end

end Sys2Proof.Machine
end

section
/-! The block-adaptive coder along a traversal, reading: every block is read back from its code, a run of zero blocks and its
boundary code included (42_block_adaptive.md R290 to R300). -/

namespace Sys2Proof.Machine

/-- What a legal configuration says of the block coder (48_system.md R596). -/
structure BlockLegal (c : Cfg) : Prop where
  size : 0 < c.J ∧ c.J ≤ 64 ∧ c.J % 2 = 0
  bits : 2 ≤ c.D ∧ c.D ≤ 16
  segment : 0 < c.S ∧ c.S ≤ 64
  reference : 0 < c.RSI

/-- A block of J samples of D bits. -/
def IsBlock (c : Cfg) (b : List Word) : Prop := b.length = c.J ∧ ∀ w ∈ b, w.toNat < 2 ^ c.D

section
variable {c : Cfg}

theorem masked_of_isBlock {b : List Word} (hb : IsBlock c b) : masked c b = b := by
  have : ∀ w ∈ b, BitVec.ofNat 32 (w.toNat % 2 ^ c.D) = w := fun w hw => by
    rw [Nat.mod_eq_of_lt (hb.2 w hw), BitVec.ofNat_toNat, BitVec.setWidth_eq]
  exact (List.map_congr_left this).trans (List.map_id' b)

theorem isBlock_zero : IsBlock c (zeroSamples c.J) :=
  ⟨List.length_replicate, fun w hw => by rw [List.eq_of_mem_replicate hw]; exact Nat.two_pow_pos _⟩

/-! ### The selected option -/

/-- The candidates up to SECOND_EXT are ids the encoder can write, none larger than BACKUP. -/
theorem bestSplit_spec (b : List Word) : (bestSplit c b).1 ≠ .zeroBlock ∧ (bestSplit c b).1 ≠ .secondExt ∧
    idLegal c (bestSplit c b).1 ∧ (bestSplit c b).2 ≤ b.length * c.D + c.idBits := by
  have hfold : ∀ (ks : List Nat) (best : BlockOption × Nat), (∀ k ∈ ks, k + 1 < c.backupOption) →
      (best.1 ≠ .zeroBlock ∧ best.1 ≠ .secondExt ∧ idLegal c best.1 ∧ best.2 ≤ b.length * c.D + c.idBits) →
      ((ks.foldl (betterOption c b) best).1 ≠ .zeroBlock ∧ (ks.foldl (betterOption c b) best).1 ≠ .secondExt ∧
        idLegal c (ks.foldl (betterOption c b) best).1 ∧
        (ks.foldl (betterOption c b) best).2 ≤ b.length * c.D + c.idBits) := by
    intro ks
    induction ks with
    | nil => exact fun best _ h => h
    | cons k ks ih =>
      intro best hks h
      refine ih _ (fun k' hk' => hks k' (List.mem_cons_of_mem _ hk')) ?_
      unfold betterOption
      split
      · rename_i hlt
        exact ⟨by simp, by simp, hks k (List.mem_cons_self ..), hlt.le.trans h.2.2.2⟩
      · exact h
  refine hfold _ _ (fun k hk => ?_) ⟨by simp, by simp, trivial, le_rfl⟩
  have := List.mem_range.mp hk
  unfold Cfg.backupOption
  omega

theorem select_zero_iff (b : List Word) : (select c b).1 = .zeroBlock ↔ ∀ w ∈ b, w = 0 := by
  have hsum : (b.map fun w => w.toNat).sum = 0 ↔ ∀ w ∈ b, w = 0 := by
    rw [List.sum_eq_zero_iff]
    simp [← BitVec.toNat_inj]
  obtain ⟨hbest, -⟩ := bestSplit_spec (c := c) b
  rw [← hsum]
  unfold select
  split_ifs with h0 h1
  · simp [h0]
  · simp [h0]
  · simp [h0, hbest]

/-- The option selected for a block that is not zero is one whose id and payload are read back. -/
theorem select_legal (hc : BlockLegal c) {b : List Word} (hb : IsBlock c b) (hne : (select c b).1 ≠ .zeroBlock) :
    idLegal c (select c b).1 ∧ payloadLegal c b (select c b).1 := by
  obtain ⟨hb1, hb2, hid, hsize⟩ := bestSplit_spec (c := c) b
  unfold select at hne ⊢
  split_ifs at hne ⊢ with h0 h1
  · exact absurd rfl hne
  · refine ⟨trivial, by rw [hb.1]; exact hc.size.2.2, fun g hg => ?_⟩
    have hle : g ≤ (secondExtCodes b).sum := List.le_sum_of_mem hg
    have hbits : c.idBits ≤ c.D + 3 := by
      have := Nat.log2_le_self (c.D - 1)
      unfold Cfg.idBits
      dsimp only
      split <;> omega
    have hmul : b.length * c.D ≤ 64 * 16 := Nat.mul_le_mul (by rw [hb.1]; exact hc.size.2.1) hc.bits.2
    have := hc.bits.2
    unfold secondExtSize at h1
    omega
  · refine ⟨hid, ?_⟩
    revert hb1 hb2
    cases (bestSplit c b).1 with
    | zeroBlock => exact fun h _ => absurd rfl h
    | secondExt => exact fun _ h => absurd rfl h
    | sampleSplit k => exact fun _ _ => trivial
    | backup => exact fun _ _ => hb.2

/-! ### Runs of zero blocks -/

theorem eq_zeroSamples {b : List Word} (hb : IsBlock c b) (h : ∀ w ∈ b, w = 0) : b = zeroSamples c.J :=
  List.eq_replicate_of_mem h |>.trans (by rw [hb.1]; rfl)

theorem runCode_pos {n : Nat} (hn : 0 < n) :
    runCode c n = idCode c .zeroBlock ++ unaryCode (if n ≤ 4 then n - 1 else n) := by
  unfold runCode
  rw [if_neg (by omega)]

/-- A block that is not zero is coded after the pending run as it is coded alone. -/
theorem blocksCode_nonzero {b : List Word} (hb : IsBlock c b) (hne : (select c b).1 ≠ .zeroBlock) (zrun cs cr : Nat)
    (blocks : List (List Word)) :
    blocksCode c zrun cs cr (b :: blocks) = runCode c zrun ++ (idCode c (select c b).1 ++ payloadCode c b (select c b).1 ++
      blocksCode c 0 ((cs + 1) % c.S) ((cr + 1) % c.RSI) blocks) := by
  rw [blocksCode]
  simp only [masked_of_isBlock hb]
  generalize (select c b).1 = option at hne ⊢
  cases option with
  | zeroBlock => exact absurd rfl hne
  | secondExt => simp [blockCode, pendingAfter]
  | sampleSplit k => simp [blockCode, pendingAfter]
  | backup => simp [blockCode, pendingAfter]

theorem blocksCode_zero (zrun cs cr : Nat) (blocks : List (List Word)) :
    blocksCode c zrun cs cr (zeroSamples c.J :: blocks) =
      if (cs + 1) % c.S = 0 ∨ (cr + 1) % c.RSI = 0 then
        boundaryRunCode c (zrun + 1) ++ blocksCode c 0 ((cs + 1) % c.S) ((cr + 1) % c.RSI) blocks
      else blocksCode c (zrun + 1) ((cs + 1) % c.S) ((cr + 1) % c.RSI) blocks := by
  have hsel : (select c (zeroSamples c.J)).1 = .zeroBlock := (select_zero_iff _).mpr fun w hw => List.eq_of_mem_replicate hw
  rw [blocksCode]
  simp only [masked_of_isBlock isBlock_zero, hsel]
  by_cases hb : (cs + 1) % c.S = 0 ∨ (cr + 1) % c.RSI = 0
  · have hb' : ((cs + 1) % c.S == 0 || (cr + 1) % c.RSI == 0) = true := by simpa using hb
    simp only [hb', if_pos hb, blockCode, pendingAfter, if_true, Bool.true_eq_false, and_false, if_false]
  · have hb' : ((cs + 1) % c.S == 0 || (cr + 1) % c.RSI == 0) = false := by simpa using hb
    simp only [hb', if_neg hb, blockCode, pendingAfter, and_self, if_true, Bool.false_eq_true, if_false, List.nil_append]

/-- How a pending run of `zrun` zero blocks goes on: `m` more, then the code of the whole run, then the rest. It ends before a
block that is not zero, at a boundary, or with the image. -/
theorem blocksCode_run : ∀ (blocks : List (List Word)) (zrun cs cr : Nat), (∀ b ∈ blocks, IsBlock c b) →
    cs < c.S → cr < c.RSI → ∃ m later code, blocks = List.replicate m (zeroSamples c.J) ++ later ∧
      blocksCode c zrun cs cr blocks = code ++ blocksCode c 0 ((cs + m) % c.S) ((cr + m) % c.RSI) later ∧
      m ≤ min (c.RSI - cr) (c.S - cs) ∧ (∀ bs, blocks = zeroSamples c.J :: bs → 0 < m) ∧
      (code = runCode c (zrun + m) ∨
        (code = boundaryRunCode c (zrun + m) ∧ (m = min (c.RSI - cr) (c.S - cs) ∨ later = []))) := by
  intro blocks
  induction blocks with
  | nil =>
    intro zrun cs cr _ _ _
    refine ⟨0, [], boundaryRunCode c zrun, rfl, ?_, Nat.zero_le _, fun _ h => by simp at h, .inr ⟨rfl, .inr rfl⟩⟩
    have : boundaryRunCode c 0 = [] := by simp [boundaryRunCode, runCode]
    rw [blocksCode, blocksCode, this, List.append_nil]
  | cons b blocks ih =>
    intro zrun cs cr hblocks hcs hcr
    have hb := hblocks b (List.mem_cons_self ..)
    by_cases hz : (select c b).1 = .zeroBlock
    · obtain rfl := eq_zeroSamples hb ((select_zero_iff b).mp hz)
      rw [blocksCode_zero]
      by_cases hbound : (cs + 1) % c.S = 0 ∨ (cr + 1) % c.RSI = 0
      · rw [if_pos hbound]
        have hmin : 1 = min (c.RSI - cr) (c.S - cs) := by
          rcases hbound with h | h
          · have := Nat.le_of_dvd (by omega) (Nat.dvd_of_mod_eq_zero h); omega
          · have := Nat.le_of_dvd (by omega) (Nat.dvd_of_mod_eq_zero h); omega
        exact ⟨1, blocks, _, rfl, rfl, hmin.le, fun _ _ => Nat.one_pos, .inr ⟨rfl, .inl hmin⟩⟩
      · rw [if_neg hbound]
        have hcs' : cs + 1 < c.S := by
          rcases Nat.lt_or_ge (cs + 1) c.S with h | h
          · exact h
          · exact absurd (.inl (by rw [show cs + 1 = c.S by omega, Nat.mod_self])) hbound
        have hcr' : cr + 1 < c.RSI := by
          rcases Nat.lt_or_ge (cr + 1) c.RSI with h | h
          · exact h
          · exact absurd (.inr (by rw [show cr + 1 = c.RSI by omega, Nat.mod_self])) hbound
        rw [Nat.mod_eq_of_lt hcs', Nat.mod_eq_of_lt hcr']
        obtain ⟨m, later, code, h1, h2, h3, -, h5⟩ := ih (zrun + 1) (cs + 1) (cr + 1)
          (fun d hd => hblocks d (List.mem_cons_of_mem _ hd)) hcs' hcr'
        rw [show cs + 1 + m = cs + (m + 1) by omega, show cr + 1 + m = cr + (m + 1) by omega] at h2
        rw [show zrun + 1 + m = zrun + (m + 1) by omega] at h5
        refine ⟨m + 1, later, code, by rw [List.replicate_succ, List.cons_append, ← h1], h2, by omega,
          fun _ _ => Nat.succ_pos m, h5.imp_right fun h => ⟨h.1, h.2.imp_left fun h => by omega⟩⟩
    · refine ⟨0, b :: blocks, runCode c zrun, rfl, ?_, Nat.zero_le _, fun bs h => ?_, .inl rfl⟩
      · have hnone : runCode c 0 = [] := by simp [runCode]
        rw [Nat.add_zero, Nat.add_zero, Nat.mod_eq_of_lt hcs, Nat.mod_eq_of_lt hcr, blocksCode_nonzero hb hz,
          blocksCode_nonzero hb hz 0, hnone, List.nil_append]
      · obtain ⟨rfl, -⟩ := List.cons_eq_cons.mp h
        exact absurd ((select_zero_iff _).mpr fun w hw => List.eq_of_mem_replicate hw) hz

/-! ### The decoder between blocks -/

/-- The decoder before the blocks `blocks`, with their code and `rest` to read: `m` of them, all zero, are still to come from a
run already read, or, at the end of the image, from a longer one. -/
structure DecodingBlocks (c : Cfg) (whole : List Byte) (rest : List Bool) (blocks : List (List Word)) (s : State) : Prop where
  sameCfg : s.cfg = c
  segment : s.cs < c.S
  reference : s.cr < c.RSI
  isBlock : ∀ b ∈ blocks, IsBlock c b
  ahead : ∃ m later, blocks = List.replicate m (zeroSamples c.J) ++ later ∧
    HasLeft whole (blocksCode c 0 ((s.cs + m) % c.S) ((s.cr + m) % c.RSI) later ++ rest) s ∧
    (s.runrem = m ∨ (later = [] ∧ m ≤ s.runrem))

variable {whole : List Byte} {rest : List Bool} {s : State}

/-- The code of a whole run of `m` zero blocks is its id and a unary codeword that the decoder takes for that run, or for a
longer one where the image ends (42_block_adaptive.md R290, R291, R297). -/
theorem run_readBack (hcfg : s.cfg = c) {m : Nat} (hm : 0 < m) (hle : m ≤ min (c.RSI - s.cr) (c.S - s.cs)) {code : List Bool}
    {later : List (List Word)}
    (hcode : code = runCode c m ∨ (code = boundaryRunCode c m ∧ (m = min (c.RSI - s.cr) (c.S - s.cs) ∨ later = []))) :
    ∃ n, code = idCode c .zeroBlock ++ unaryCode n ∧ n ≤ max 4 m ∧
      (zeroRun s n = m ∨ (later = [] ∧ m ≤ zeroRun s n)) := by
  have hordinary : ∃ n, runCode c m = idCode c .zeroBlock ++ unaryCode n ∧ n ≤ max 4 m ∧ zeroRun s n = m := by
    refine ⟨_, runCode_pos hm, ?_, ?_⟩
    · split <;> omega
    · unfold zeroRun
      by_cases h4 : m ≤ 4
      · rw [if_pos h4, if_neg (by omega), if_pos (by omega)]; omega
      · rw [if_neg h4, if_neg (by omega), if_neg (by omega)]
  have hrun : code = runCode c m → ∃ n, code = idCode c .zeroBlock ++ unaryCode n ∧ n ≤ max 4 m ∧
      (zeroRun s n = m ∨ (later = [] ∧ m ≤ zeroRun s n)) := by
    rintro rfl
    obtain ⟨n, h1, h2, h3⟩ := hordinary
    exact ⟨n, h1, h2, .inl h3⟩
  rcases hcode with h | ⟨h, hend⟩
  · exact hrun h
  · by_cases h4 : m ≤ 4
    · exact hrun (h.trans (if_pos h4))
    · have hros : zeroRun s 4 = min (c.RSI - s.cr) (c.S - s.cs) := by
        unfold zeroRun
        rw [if_pos rfl, hcfg]
      refine ⟨4, h.trans (if_neg h4), by omega, ?_⟩
      rw [hros]
      exact hend.imp (fun h => h.symm) fun h => ⟨h, hle⟩

/-- The block that follows when no run is pending. -/
theorem readBlock_along (hc : BlockLegal c) {b : List Word} {blocks : List (List Word)} (hs : DecodingBlocks c whole rest (b :: blocks) s)
    (hrun : s.runrem = 0) : ∃ t m later, (decodeId >>= fun option => decodePayload c.J c.D option) s = .ok b t ∧
      t.cfg = c ∧ t.cs = s.cs ∧ t.cr = s.cr ∧ blocks = List.replicate m (zeroSamples c.J) ++ later ∧
      HasLeft whole (blocksCode c 0 ((s.cs + (m + 1)) % c.S) ((s.cr + (m + 1)) % c.RSI) later ++ rest) t ∧
      (t.runrem = m ∨ (later = [] ∧ m ≤ t.runrem)) := by
  obtain ⟨rfl, hcs, hcr, hblock, m, later, hsplit, hleft, hm⟩ := hs
  obtain rfl : m = 0 := by rcases hm with h | ⟨-, h⟩ <;> omega
  obtain rfl : later = b :: blocks := by simpa using hsplit.symm
  rw [Nat.add_zero, Nat.add_zero, Nat.mod_eq_of_lt hcs, Nat.mod_eq_of_lt hcr] at hleft
  have hb := hblock b (List.mem_cons_self ..)
  by_cases hz : (select s.cfg b).1 = .zeroBlock
  · obtain rfl := eq_zeroSamples hb ((select_zero_iff b).mp hz)
    obtain ⟨m, later, code, h1, h2, h3, h4, h5⟩ := blocksCode_run (zeroSamples s.cfg.J :: blocks) 0 s.cs s.cr hblock hcs hcr
    have hpos := h4 blocks rfl
    obtain ⟨m, rfl⟩ : ∃ k, m = k + 1 := ⟨m - 1, by omega⟩
    rw [Nat.zero_add] at h5
    obtain ⟨n, hcode, hn, hlong⟩ := run_readBack rfl hpos h3 h5
    have hblocks : blocks = List.replicate m (zeroSamples s.cfg.J) ++ later := by
      rw [List.replicate_succ, List.cons_append] at h1
      exact (List.cons_eq_cons.mp h1).2
    rw [h2, hcode] at hleft
    simp only [List.append_assoc] at hleft
    obtain ⟨t, ht1, ht2, -⟩ := decodeId_ok .zeroBlock _ trivial hleft.partialByte hleft.bits
    have hleft' := hleft.taken ht2
    have hbound : n < 2 ^ 32 := by have := hc.segment.2; omega
    obtain ⟨u, hu1, hu2, hleft''⟩ := (reads_unaryReadWord hbound).hasLeft hleft'
    have hu : ∀ k, zeroRun u k = zeroRun s k := fun k => by rw [hu2.1, ht2.1]; rfl
    refine ⟨{ u with runrem := zeroRun u n - 1 }, m, later, ?_, ?_, ?_, ?_, hblocks,
      ⟨hleft''.partialByte, hleft''.bytes, hleft''.bits⟩, ?_⟩
    · rw [bind_ok ht1]
      show (unaryReadWord >>= _) t = _
      rw [bind_ok hu1]
      rfl
    · show u.cfg = s.cfg
      rw [hu2.1, ht2.1]
    · show u.cs = s.cs
      rw [hu2.1, ht2.1]
    · show u.cr = s.cr
      rw [hu2.1, ht2.1]
    · show zeroRun u n - 1 = m ∨ (later = [] ∧ m ≤ zeroRun u n - 1)
      rw [hu]
      exact hlong.imp (fun h => by omega) fun h => ⟨h.1, by omega⟩
  · obtain ⟨hid, hpay⟩ := select_legal hc hb hz
    have hnone : runCode s.cfg 0 = [] := by simp [runCode]
    rw [blocksCode_nonzero hb hz, hnone, List.nil_append] at hleft
    simp only [List.append_assoc] at hleft
    obtain ⟨t, ht1, ht2, -⟩ := decodeId_ok _ _ hid hleft.partialByte hleft.bits
    have hread := reads_decodePayload s.cfg b _ hpay
    rw [hb.1] at hread
    obtain ⟨u, hu1, hu2, hleft'⟩ := hread.hasLeft (hleft.taken ht2)
    refine ⟨u, 0, blocks, by rw [bind_ok ht1, hu1], ?_, ?_, ?_, rfl, hleft', .inl ?_⟩
    · rw [hu2.1, ht2.1]
    · rw [hu2.1, ht2.1]
    · rw [hu2.1, ht2.1]
    · rw [hu2.1, ht2.1]; exact hrun

/-- The next block, from a pending run or from the code. -/
theorem nextBlock_along (hc : BlockLegal c) {b : List Word} {blocks : List (List Word)}
    (hs : DecodingBlocks c whole rest (b :: blocks) s) : ∃ t m later, nextBlock s = .ok b t ∧
      t.cfg = c ∧ t.cs = s.cs ∧ t.cr = s.cr ∧ blocks = List.replicate m (zeroSamples c.J) ++ later ∧
      HasLeft whole (blocksCode c 0 ((s.cs + (m + 1)) % c.S) ((s.cr + (m + 1)) % c.RSI) later ++ rest) t ∧
      (t.runrem = m ∨ (later = [] ∧ m ≤ t.runrem)) := by
  unfold nextBlock
  rw [get_bind]
  by_cases hrun : 0 < s.runrem
  · rw [if_pos hrun, modify_bind]
    obtain ⟨rfl, hcs, hcr, hblock, m, later, hsplit, hleft, hm⟩ := hs
    cases m with
    | zero =>
      rw [List.replicate_zero, List.nil_append] at hsplit
      rcases hm with h | ⟨h, -⟩
      · omega
      · rw [h] at hsplit; simp at hsplit
    | succ m =>
      rw [List.replicate_succ, List.cons_append] at hsplit
      obtain ⟨rfl, hblocks⟩ := List.cons_eq_cons.mp hsplit
      exact ⟨_, m, later, rfl, rfl, rfl, rfl, hblocks, ⟨hleft.partialByte, hleft.bytes, hleft.bits⟩,
        hm.imp (fun h => show s.runrem - 1 = m by omega) fun h => ⟨h.1, show m ≤ s.runrem - 1 by omega⟩⟩
  · rw [if_neg hrun, hs.sameCfg]
    exact readBlock_along hc hs (by omega)

/-- `DecodeBlock` answers the next block. -/
theorem decodeBlock_along (hc : BlockLegal c) {b : List Word} {blocks : List (List Word)}
    (hs : DecodingBlocks c whole rest (b :: blocks) s) :
    ∃ t, decodeBlock s = .ok b t ∧ DecodingBlocks c whole rest blocks t := by
  obtain ⟨t, m, later, hrun, hcfg, hcs, hcr, hblocks, hleft, hm⟩ := nextBlock_along hc hs
  refine ⟨{ t with cs := segmentAfter t, cr := referenceAfter t }, ?_, hcfg, ?_, ?_,
    fun d hd => hs.isBlock d (List.mem_cons_of_mem _ hd), m, later, hblocks, ?_, hm⟩
  · unfold decodeBlock
    rw [bind_ok hrun, bind_ok (advance_ok t)]
    rfl
  · show (t.cs + 1) % t.cfg.S < c.S
    rw [hcfg]; exact Nat.mod_lt _ hc.segment.1
  · show (t.cr + 1) % t.cfg.RSI < c.RSI
    rw [hcfg]; exact Nat.mod_lt _ hc.reference
  · have e1 : (segmentAfter t + m) % c.S = (s.cs + (m + 1)) % c.S := by
      unfold segmentAfter
      rw [hcfg, hcs, Nat.mod_add_mod, Nat.add_assoc, Nat.add_comm 1 m]
    have e2 : (referenceAfter t + m) % c.RSI = (s.cr + (m + 1)) % c.RSI := by
      unfold referenceAfter
      rw [hcfg, hcr, Nat.mod_add_mod, Nat.add_assoc, Nat.add_comm 1 m]
    dsimp only
    rw [e1, e2]
    exact ⟨hleft.partialByte, hleft.bytes, hleft.bits⟩

/-! ### The decoder between samples -/

/-- The decoder before the samples `ws`: what DBUF still holds and the blocks to come begin with them. -/
structure DecodingSamples (c : Cfg) (whole : List Byte) (rest : List Bool) (ws : List Word) (s : State) : Prop where
  buffer : s.dbuf = [] ∨ (s.dbuf.length = c.J ∧ s.dpos ≤ c.J)
  samples : ∃ blocks pad, DecodingBlocks c whole rest blocks s ∧ s.dbuf.drop s.dpos ++ blocks.flatten = ws ++ pad

/-- `DecodeSample` answers the next sample. -/
theorem decodeSample_along (hc : BlockLegal c) {w : Word} {ws : List Word} (hs : DecodingSamples c whole rest (w :: ws) s) :
    ∃ t, decodeSample s = .ok w t ∧ DecodingSamples c whole rest ws t := by
  obtain ⟨hbuf, blocks, pad, hblocks, hsamples⟩ := hs
  have hrefill : ∃ t blocks, refillDbuf s = .ok () t ∧ t.dbuf.length = c.J ∧ t.dpos < c.J ∧
      DecodingBlocks c whole rest blocks t ∧ t.dbuf.drop t.dpos ++ blocks.flatten = w :: ws ++ pad := by
    unfold refillDbuf
    rw [get_bind, hblocks.sameCfg]
    by_cases hempty : s.dbuf = [] ∨ s.dpos = c.J
    · rw [if_pos hempty]
      have hdrop : s.dbuf.drop s.dpos = [] := by
        rw [List.drop_eq_nil_iff]
        rcases hempty with h | h
        · rw [h]; exact Nat.zero_le _
        · rcases hbuf with h' | h'
          · rw [h']; exact Nat.zero_le _
          · omega
      rw [hdrop, List.nil_append] at hsamples
      cases blocks with
      | nil => simp at hsamples
      | cons b blocks =>
        have hb := hblocks.isBlock b (List.mem_cons_self ..)
        obtain ⟨t, hrun, ht⟩ := decodeBlock_along hc hblocks
        rw [bind_ok hrun]
        refine ⟨_, blocks, rfl, hb.1, hc.size.1, ⟨ht.sameCfg, ht.segment, ht.reference, ht.isBlock, ?_⟩, hsamples⟩
        obtain ⟨m, later, h1, h2, h3⟩ := ht.ahead
        exact ⟨m, later, h1, ⟨h2.partialByte, h2.bytes, h2.bits⟩, h3⟩
    · rw [if_neg hempty]
      rw [not_or] at hempty
      have hbuf := hbuf.resolve_left hempty.1
      exact ⟨s, blocks, rfl, hbuf.1, by omega, hblocks, hsamples⟩
  obtain ⟨t, blocks, hrun, hlen, hpos, ht, hsamples⟩ := hrefill
  have hlt : t.dpos < t.dbuf.length := by omega
  rw [List.drop_eq_getElem_cons hlt, List.cons_append, List.cons_append] at hsamples
  obtain ⟨hw, hrest⟩ := List.cons_eq_cons.mp hsamples
  refine ⟨{ t with dpos := t.dpos + 1 }, ?_, .inr ⟨hlen, hpos⟩, blocks, pad,
    ⟨ht.sameCfg, ht.segment, ht.reference, ht.isBlock, ?_⟩, hrest⟩
  · unfold decodeSample
    rw [bind_ok hrun, get_bind, modify_bind, List.getD_eq_getElem _ _ hlt, hw]
    rfl
  · obtain ⟨m, later, h1, h2, h3⟩ := ht.ahead
    exact ⟨m, later, h1, ⟨h2.partialByte, h2.bytes, h2.bits⟩, h3⟩

end

end Sys2Proof.Machine
end

section
/-! The validation list: what a legal configuration says, field by field, and that such a configuration fails no check
(48_system.md R590, R596). -/

namespace Sys2Proof.Machine

/-- The rows of the validation list but for the pedantic one and the capacity, by the field they check. -/
structure LegalConfig (c : Cfg) (ta tw : Memory Word) : Prop where
  x : 1 ≤ c.x.toInt ∧ c.x.toInt ≤ 65536
  y : 1 ≤ c.y.toInt ∧ c.y.toInt ≤ 65536
  z : 1 ≤ c.z.toInt ∧ c.z.toInt ≤ 65536
  signed : c.signed = 0 ∨ c.signed = 1
  d : 2 ≤ c.d.toInt ∧ c.d.toInt ≤ 16
  order : c.order = 0 ∨ c.order = 1
  m : c.order = 0 → 1 ≤ c.m.toInt ∧ c.m.toInt ≤ c.z.toInt
  b : 1 ≤ c.b.toInt ∧ c.b.toInt ≤ 8
  coder : c.coder = 0 ∨ c.coder = 1
  p : 0 ≤ c.p.toInt ∧ c.p.toInt ≤ 15
  pmode : c.pmode = 0 ∨ c.pmode = 1
  lsmode : c.lsmode = 0 ∨ c.lsmode = 1
  omega : 4 ≤ c.omega.toInt ∧ c.omega.toInt ≤ 19
  r : max 32 (c.d.toInt + c.omega.toInt + 2) ≤ c.r.toInt ∧ c.r.toInt ≤ 64
  te : 4 ≤ c.te.toInt ∧ c.te.toInt ≤ 11
  vmin : -6 ≤ c.vmin.toInt ∧ c.vmin.toInt ≤ 9
  vmax : c.vmin.toInt ≤ c.vmax.toInt ∧ c.vmax.toInt ≤ 9
  winit : c.winit = 0 ∨ c.winit = 1
  wtable : c.wtable = 0 ∨ c.wtable = 1
  table : c.wtable = c.winit
  q : (c.winit = 0 → c.q = 0) ∧ (c.winit = 1 → 3 ≤ c.q.toInt ∧ c.q.toInt ≤ c.omega.toInt + 3)
  weights : ∀ z < c.Z, ∀ i < c.bandLength z, c.winit = 1 →
    -2 ^ (c.Q - 1) ≤ (tw.wordAt (18 * z + i)).toInt ∧ (tw.wordAt (18 * z + i)).toInt ≤ 2 ^ (c.Q - 1) - 1
  umax : c.coder = 0 → 8 ≤ c.umax.toInt ∧ c.umax.toInt ≤ 32
  gstar : c.coder = 0 → 4 ≤ c.gstar.toInt ∧ c.gstar.toInt ≤ 9
  g0 : c.coder = 0 → 1 ≤ c.g0.toInt ∧ c.g0.toInt ≤ c.gstar.toInt - 1
  k : c.coder = 0 → (0 ≤ c.k.toInt ∧ c.k.toInt ≤ c.d.toInt - 2) ∨ c.k = 15
  atable : c.coder = 0 → (c.atable = 0 ∨ c.atable = 1) ∧ (c.atable = 1 ↔ c.k = 15)
  accumulators : ∀ z < c.Z, c.coder = 0 ∧ c.k = 15 → 0 ≤ (ta.wordAt z).toInt ∧ (ta.wordAt z).toInt ≤ c.d.toInt - 2
  j : c.coder = 1 → c.j = 8 ∨ c.j = 16 ∨ c.j = 32 ∨ c.j = 64
  rsi : c.coder = 1 → 1 ≤ c.rsi.toInt ∧ c.rsi.toInt ≤ 4096
  restrict : c.coder = 1 → c.restrict = 0 ∨ c.restrict = 1
  s : c.coder = 1 → 1 ≤ c.s.toInt ∧ c.s.toInt ≤ 64
  refsamp : c.refsamp = 0
  pedantic : c.pedantic = 0 ∨ c.pedantic = 1
  narrow : ¬ (c.x = 1 ∧ 1 < c.y.toInt ∧ c.lsmode = 0)

/-- The row COMPRESS alone checks (48_system.md R598). -/
def PedanticMet (compress : Bool) (c : Cfg) : Prop := compress = true ∧ c.pedantic = 1 → c.p.toInt < c.z.toInt

/-- The image fits the capacity, if there is one (20_memory.md R120). -/
def FitsCapacity (c : Cfg) (capacity : Option Nat) : Prop := ∀ n, capacity = some n → c.Z * c.Y * c.X ≤ n

/-- A list with every row met says so of every field. -/
theorem legalConfig_of_rows {compress : Bool} {s : State} (h : ∀ row ∈ validationList compress s, row.1 = true) :
    LegalConfig s.cfg s.ta s.tw ∧ PedanticMet compress s.cfg ∧ FitsCapacity s.cfg s.histCapacity := by
  simp only [validationList, List.forall_mem_append, List.forall_mem_cons, List.mem_flatMap, List.mem_map, List.mem_range,
    decide_eq_true_eq, List.not_mem_nil, false_imp_iff, implies_true, and_true] at h
  obtain ⟨⟨⟨⟨⟨x, y, z, signed, d, order, m, b, coder, p, pmode, lsmode, omega, r, te, vmin, vmax, winit, wtable, table, q⟩,
    weights⟩, umax, gstar, g0, k, atable⟩, accumulators⟩, j, rsi, restrict, s', -, refsamp, pedantic, narrow, strict, capacity⟩ := h
  refine ⟨⟨x, y, z, signed, d, order, m, b, coder, p, pmode, lsmode, omega, r, te, vmin, vmax, winit, wtable, table, q, ?_,
    umax, gstar, g0, k, atable, ?_, j, rsi, restrict, s', refsamp, pedantic, narrow⟩, strict, ?_⟩
  · exact fun z hz i hi => of_decide_eq_true (weights _ ⟨z, hz, i, hi, rfl⟩)
  · exact fun z hz => of_decide_eq_true (accumulators _ ⟨z, hz, rfl⟩)
  · intro n hn
    rw [hn] at capacity
    exact of_decide_eq_true capacity

theorem check_none {ok : Bool} {reg : CfgReg} (h : ok = true) : check ok reg = none := if_pos h

theorem within_of {w : Word} {lo hi : Int} (h : lo ≤ w.toInt ∧ w.toInt ≤ hi) : within w lo hi = true := by
  unfold within
  rw [Bool.and_eq_true, decide_eq_true_eq, decide_eq_true_eq]
  exact h

theorem within_bit {w : Word} (h : w = 0 ∨ w = 1) : within w 0 1 = true := by
  rcases h with rfl | rfl <;> rfl

theorem findSome?_none {α : Type} {f : Nat → Option α} {n : Nat} (h : ∀ i < n, f i = none) :
    (List.range n).findSome? f = none :=
  List.findSome?_eq_none_iff.mpr fun i hi => h i (List.mem_range.mp hi)

section
variable {c : Cfg} {ta tw : Memory Word}

theorem LegalConfig.checkImage (h : LegalConfig c ta tw) : checkImage c = none := by
  have hm : (c.order != 0 || within c.m 1 c.z.toInt) = true := by
    rcases h.order with h0 | h1
    · rw [within_of (h.m h0), Bool.or_true]
    · rw [h1]; rfl
  simp only [Machine.checkImage, check_none, within_of h.x, within_of h.y, within_of h.z, within_bit h.signed, within_of h.d,
    within_bit h.order, hm, within_of h.b, within_bit h.coder, within_of h.p, within_bit h.pmode, within_bit h.lsmode,
    within_of h.omega]
  rfl

theorem LegalConfig.checkPredictor (h : LegalConfig c ta tw) : checkPredictor c tw = none := by
  have hq : (if c.winit = 0 then c.q == 0 else within c.q 3 (c.omega.toInt + 3)) = true := by
    rcases h.winit with h0 | h1
    · rw [if_pos h0, h.q.1 h0]; rfl
    · rw [if_neg (by rw [h1]; decide), within_of (h.q.2 h1)]
  have hw : (if c.winit = 1 then badTwEntry c tw else none) = none := by
    split
    · rename_i h1
      exact findSome?_none fun z hz => findSome?_none fun i hi => if_pos (within_of (h.weights z hz i hi h1))
    · rfl
  have ht : (c.wtable == c.winit) = true := by rw [h.table, beq_self_eq_true]
  simp only [Machine.checkPredictor, check_none, within_of h.r, within_of h.te, within_of h.vmin, within_of h.vmax,
    within_bit h.winit, within_bit h.wtable, ht, hq, hw]
  rfl

theorem LegalConfig.checkSampleAdaptive (h : LegalConfig c ta tw) (h0 : c.coder = 0) : checkSampleAdaptive c ta = none := by
  have hk : (within c.k 0 (c.d.toInt - 2) || c.k == 15) = true := by
    rcases h.k h0 with hk | hk
    · rw [within_of hk, Bool.true_or]
    · rw [hk, beq_self_eq_true, Bool.or_true]
  have ha : (within c.atable 0 1 && ((c.atable == 1) == (c.k == 15))) = true := by
    obtain ⟨h1, h2⟩ := h.atable h0
    rw [within_bit h1, Bool.true_and, beq_iff_eq, Bool.eq_iff_iff, beq_iff_eq, beq_iff_eq]
    exact h2
  have ht : (if c.k = 15 then badTaEntry c ta else none) = none := by
    split
    · rename_i h15
      exact findSome?_none fun z hz => if_pos (within_of (h.accumulators z hz ⟨h0, h15⟩))
    · rfl
  simp only [Machine.checkSampleAdaptive, check_none, within_of (h.umax h0), within_of (h.gstar h0), within_of (h.g0 h0), hk, ha, ht]
  rfl

theorem LegalConfig.checkBlockAdaptive (h : LegalConfig c ta tw) (h1 : c.coder = 1) : checkBlockAdaptive c = none := by
  have hj : (c.j == 8 || c.j == 16 || c.j == 32 || c.j == 64) = true := by
    rcases h.j h1 with hj | hj | hj | hj <;> rw [hj] <;> rfl
  simp only [Machine.checkBlockAdaptive, check_none, hj, within_of (h.rsi h1), within_bit (h.restrict h1), within_of (h.s h1)]
  rfl

theorem LegalConfig.checkRest (h : LegalConfig c ta tw) {compress : Bool} (hp : PedanticMet compress c) {capacity : Option Nat}
    (hcap : FitsCapacity c capacity) : checkRest compress c capacity = none := by
  have hr : checkRefsamp c = none := by unfold checkRefsamp; rw [h.refsamp]; rfl
  have hnarrow : (!(c.x == 1 && decide (1 < c.y.toInt) && c.lsmode == 0)) = true := by
    rw [Bool.not_eq_true', Bool.eq_false_iff]
    intro hall
    simp only [Bool.and_eq_true, beq_iff_eq, decide_eq_true_eq] at hall
    exact h.narrow ⟨hall.1.1, hall.1.2, hall.2⟩
  have hstrict : (!(compress && c.pedantic == 1) || decide (c.p.toInt < c.z.toInt)) = true := by
    unfold PedanticMet at hp
    simp only [Bool.or_eq_true, Bool.not_eq_true', Bool.and_eq_false_iff, beq_eq_false_iff_ne, decide_eq_true_eq]
    by_cases hc : compress = true ∧ c.pedantic = 1
    · exact .inr (hp hc)
    · rw [not_and_or, Bool.not_eq_true] at hc
      exact .inl hc
  have hcapacity : checkCapacity c capacity = none := by
    unfold checkCapacity
    cases capacity with
    | none => rfl
    | some n => exact check_none (decide_eq_true (hcap n rfl))
  simp only [Machine.checkRest, hr, check_none, within_bit h.pedantic, hnarrow, hstrict, hcapacity]
  rfl

end

/-- A legal configuration fails no check. -/
theorem firstFailure_none {compress : Bool} {s : State} (h : LegalConfig s.cfg s.ta s.tw) (hp : PedanticMet compress s.cfg)
    (hcap : FitsCapacity s.cfg s.histCapacity) : firstFailure compress s = none := by
  have hcoder : (if s.cfg.coder = 0 then checkSampleAdaptive s.cfg s.ta else checkBlockAdaptive s.cfg) = none := by
    split
    · rename_i h0; exact h.checkSampleAdaptive h0
    · rename_i h0; exact h.checkBlockAdaptive (h.coder.resolve_left h0)
  simp only [firstFailure, h.checkImage, h.checkPredictor, hcoder, h.checkRest hp hcap]
  rfl

end Sys2Proof.Machine
end

section
/-! The header read back: each field gives its register, each table its entries, and the reader ends at the byte after the
header (30_encoding.md R155 to R161, 46_header.md R481). -/

namespace Sys2Proof.Machine

/-! ### Operations that read parameters -/

/-- What a header carries: the configuration registers and the two tables. -/
structure Parameters where
  cfg : Cfg
  ta : Memory Word
  tw : Memory Word

def State.parameters (s : State) : Parameters := ⟨s.cfg, s.ta, s.tw⟩

def State.withParameters (p : Parameters) (s : State) : State := { s with cfg := p.cfg, ta := p.ta, tw := p.tw }

/-- An operation that consumes `bits` and takes the parameters from `p` to `q`. -/
def Loads (bits : List Bool) (p q : Parameters) (x : Op Unit) : Prop :=
  ∀ (s : State) (whole : List Byte) (rest : List Bool), s.parameters = p → HasLeft whole (bits ++ rest) s →
    ∃ t, x s = .ok () t ∧ Taken bits (s.withParameters q) t

/-- The same of an operation that ends at a byte boundary. -/
def LoadsToByte (bits : List Bool) (p q : Parameters) (x : Op Unit) : Prop :=
  ∀ (s : State) (whole : List Byte) (rest : List Bool), s.parameters = p → rest.length % 8 = 0 →
    HasLeft whole (bits ++ rest) s → ∃ t, x s = .ok () t ∧ Taken bits (s.withParameters q) t

theorem taken_withParameters {bits : List Bool} {s t : State} (p : Parameters) (h : Taken bits s t) :
    Taken bits (s.withParameters p) (t.withParameters p) := ⟨congrArg (State.withParameters p) h.1, h.2⟩

theorem taken_parameters {bits : List Bool} {s t : State} {p : Parameters} (h : Taken bits (s.withParameters p) t) :
    t.parameters = p := by rw [h.1]; rfl

theorem HasLeft.withParameters {whole : List Byte} {bits : List Bool} {s : State} (p : Parameters) (h : HasLeft whole bits s) :
    HasLeft whole bits (s.withParameters p) := ⟨h.partialByte, h.bytes, h.bits⟩

theorem taken_seq {a b : List Bool} {p q : Parameters} {s t u : State} (h : Taken a (s.withParameters p) t)
    (k : Taken b (t.withParameters q) u) : Taken (a ++ b) (s.withParameters q) u :=
  taken_trans (s := s.withParameters q) (taken_withParameters (s := s.withParameters p) q h) k

theorem Loads.toByte {bits : List Bool} {p q : Parameters} {x : Op Unit} (h : Loads bits p q x) : LoadsToByte bits p q x :=
  fun s whole rest hp _ hr => h s whole rest hp hr

theorem loads_pure (p : Parameters) : Loads [] p p (pure ()) := by
  rintro s whole rest rfl hr
  exact ⟨s, rfl, taken_refl hr.partialByte⟩

theorem loads_seq {a b : List Bool} {p q r : Parameters} {x : Op Unit} {f : Unit → Op Unit} (hx : Loads a p q x)
    (hf : Loads b q r (f ())) : Loads (a ++ b) p r (x >>= f) := by
  intro s whole rest hp hr
  rw [List.append_assoc] at hr
  obtain ⟨t, h1, h2⟩ := hx s whole _ hp hr
  obtain ⟨u, k1, k2⟩ := hf t whole rest (taken_parameters h2) ((hr.withParameters q).taken h2)
  exact ⟨u, by rw [bind_ok h1, k1], taken_seq h2 k2⟩

/-- Fields, then the rest of a section. -/
theorem loadsToByte_seq {a b : List Bool} {p q r : Parameters} {x : Op Unit} {f : Unit → Op Unit} (hx : Loads a p q x)
    (hf : LoadsToByte b q r (f ())) : LoadsToByte (a ++ b) p r (x >>= f) := by
  intro s whole rest hp h8 hr
  rw [List.append_assoc] at hr
  obtain ⟨t, h1, h2⟩ := hx s whole _ hp hr
  obtain ⟨u, k1, k2⟩ := hf t whole rest (taken_parameters h2) h8 ((hr.withParameters q).taken h2)
  exact ⟨u, by rw [bind_ok h1, k1], taken_seq h2 k2⟩

/-- A section, then whole bytes. -/
theorem loadsToByte_sections {a b : List Bool} {p q r : Parameters} {x : Op Unit} {f : Unit → Op Unit} (h8 : b.length % 8 = 0)
    (hx : LoadsToByte a p q x) (hf : LoadsToByte b q r (f ())) : LoadsToByte (a ++ b) p r (x >>= f) := by
  intro s whole rest hp hrest hr
  rw [List.append_assoc] at hr
  obtain ⟨t, h1, h2⟩ := hx s whole _ hp (by rw [List.length_append]; omega) hr
  obtain ⟨u, k1, k2⟩ := hf t whole rest (taken_parameters h2) hrest ((hr.withParameters q).taken h2)
  exact ⟨u, by rw [bind_ok h1, k1], taken_seq h2 k2⟩

/-- `Align` drops the fill of a section's last byte (40_bitstream.md R203). -/
theorem loads_align {pad : List Bool} (hpad : pad.length < 8) (p : Parameters) :
    LoadsToByte pad p p (Op.modify alignReader) := by
  rintro s whole rest rfl h8 hr
  have hlen := congrArg List.length hr.bits
  have hbuf := hr.partialByte
  simp only [State.inBits, List.length_append, length_bitsOfBytes] at hlen
  have hsame : s.rbuf.length = pad.length := by omega
  obtain ⟨hpad', -⟩ := List.append_inj hr.bits hsame
  refine ⟨alignReader s, rfl, ?_, List.suffix_refl _, ?_, Nat.zero_lt_succ 7⟩
  · unfold alignReader State.rcnt
    rw [hsame]
    rfl
  · show s.inBits = pad ++ ([] ++ bitsOfBytes s.bin)
    rw [List.nil_append, ← hpad']
    rfl

theorem loads_of_reads {α : Type} {bits : List Bool} {a : α} {x : Op α} {f : α → State → State} {q : Parameters → Parameters}
    (hx : Reads bits a x) (hf : ∀ s, f a s = s.withParameters (q s.parameters)) (p : Parameters) :
    Loads bits p (q p) (x >>= fun v => Op.modify (f v)) := by
  rintro s whole rest rfl hr
  obtain ⟨t, h1, h2, -⟩ := hx.hasLeft hr
  refine ⟨f a t, by rw [bind_ok h1, modify_apply], ?_⟩
  rw [hf t]
  have ht : t.parameters = s.parameters := by rw [h2.1]; rfl
  rw [ht]
  exact taken_withParameters _ h2

/-- A loop over fields. -/
theorem loads_forEach {α : Type} {bits : α → List Bool} {q : α → Parameters → Parameters} {f : α → Op Unit} :
    ∀ (l : List α), (∀ a ∈ l, ∀ p, Loads (bits a) p (q a p) (f a)) →
      ∀ p, Loads (l.flatMap bits) p (l.foldl (fun p a => q a p) p) (forEach l f)
  | [], _, p => loads_pure p
  | a :: l, h, p => by
    rw [List.flatMap_cons]
    exact loads_seq (h a (List.mem_cons_self ..) p) (loads_forEach l (fun b hb => h b (List.mem_cons_of_mem _ hb)) _)

/-! ### Fields -/

def Parameters.write (reg : CfgReg) (w : Word) (p : Parameters) : Parameters := { p with cfg := p.cfg.write reg w }

theorem loads_skipField (n v : Nat) (p : Parameters) : Loads (rawBits n v) p p (skipField n) := by
  rintro s whole rest rfl hr
  obtain ⟨t, h1, h2, -⟩ := (reads_readBitsOr ⟨.formatHeader, noRegister⟩ (rawBits n v) (length_rawBits n v)).hasLeft hr
  exact ⟨t, by unfold skipField readField; rw [bind_ok h1]; rfl, h2⟩

/-- A field gives its register the word it was written from. -/
theorem loads_readInto {reg : CfgReg} {n v : Nat} {dec : Nat → Int} {w : Word} (hv : v < 2 ^ n) (hw : wordOfInt (dec v) = w)
    (p : Parameters) : Loads (rawBits n v) p (p.write reg w) (readInto reg n dec) := by
  subst hw
  exact loads_of_reads (f := fun v s => { s with cfg := s.cfg.write reg (wordOfInt (dec v)) })
    (q := Parameters.write reg (wordOfInt (dec v))) (reads_rawBits _ hv) (fun _ => rfl) p

theorem wordOfInt_toInt (w : Word) : wordOfInt w.toInt = w := BitVec.ofInt_toInt

theorem natOf_cast {w : Word} (h : 0 ≤ w.toInt) : (natOf w : Int) = w.toInt := Int.toNat_of_nonneg h

/-- The 0-means-max rule gives the value back. -/
theorem zeroMeans_mod {w : Word} {top : Nat} (h : 1 ≤ w.toInt ∧ w.toInt ≤ top) :
    wordOfInt (zeroMeans top (natOf w % top)) = w := by
  have hn := natOf_cast (w := w) (by omega)
  rw [← wordOfInt_toInt w]
  congr 1
  rw [wordOfInt_toInt, ← hn]
  unfold zeroMeans
  rcases Nat.lt_or_ge (natOf w) top with hlt | hge
  · rw [Nat.mod_eq_of_lt hlt, if_neg (by omega)]
  · rw [show natOf w = top by omega, Nat.mod_self, if_pos rfl]

theorem plainField_natOf {w : Word} (h : 0 ≤ w.toInt) : wordOfInt (plainField (natOf w)) = w := by
  rw [plainField, natOf_cast h, wordOfInt_toInt]

theorem plainField_bit {w : Word} (h : w = 0 ∨ w = 1) : wordOfInt (plainField w.toNat) = w := by
  rcases h with rfl | rfl <;> rfl

theorem bit_lt {w : Word} (h : w = 0 ∨ w = 1) : w.toNat < 2 ^ 1 := by
  rcases h with rfl | rfl <;> decide

theorem offsetField_natOf {w : Word} {off : Nat} (h : off ≤ w.toInt) : wordOfInt (offsetField off (natOf w - off)) = w := by
  have hn := natOf_cast (w := w) (by omega)
  have : offsetField off (natOf w - off) = w.toInt := by unfold offsetField; omega
  rw [this, wordOfInt_toInt]

theorem offsetField_six {w : Word} (h : -6 ≤ w.toInt) : wordOfInt (offsetField (-6) (w.toInt + 6).toNat) = w := by
  have : offsetField (-6) (w.toInt + 6).toNat = w.toInt := by unfold offsetField; omega
  rw [this, wordOfInt_toInt]

/-- The two's complement field of a table entry gives the entry back (30_encoding.md R161). -/
theorem signedField_word {w : Word} {q : Nat} (hq : 1 ≤ q ∧ q ≤ 32) (h : -2 ^ (q - 1) ≤ w.toInt ∧ w.toInt ≤ 2 ^ (q - 1) - 1) :
    signedField q (w.toNat % 2 ^ q) = w.toInt := by
  obtain ⟨n, rfl⟩ : ∃ n, q = n + 1 := ⟨q - 1, by omega⟩
  rw [Nat.add_sub_cancel] at h
  have hpow : (2 : Int) ^ (n + 1) = 2 * 2 ^ n := pow_succ' 2 n
  obtain ⟨m, hm⟩ : (2 : Int) ^ (n + 1) ∣ 2 ^ 32 := pow_dvd_pow 2 hq.2
  have hint := BitVec.toInt_eq_toNat_cond w
  have hlt := Nat.mod_lt w.toNat (Nat.two_pow_pos (n + 1))
  have hmod : ((w.toNat % 2 ^ (n + 1) : Nat) : Int) = w.toInt % 2 ^ (n + 1) := by
    push_cast
    split at hint
    · rw [hint]
    · rw [hint, Nat.cast_pow, Nat.cast_ofNat, hm, Int.sub_mul_emod_self_left]
  have hcast : ((2 ^ n : Nat) : Int) = 2 ^ n := Nat.cast_pow 2 n
  unfold signedField
  rw [Nat.add_sub_cancel]
  by_cases hneg : 0 ≤ w.toInt
  · rw [Int.emod_eq_of_lt hneg (by omega)] at hmod
    have hbit : (w.toNat % 2 ^ (n + 1)).testBit n = false := Nat.testBit_lt_two_pow (Int.ofNat_lt.mp (by rw [hcast]; omega))
    rw [hbit, if_neg (by simp), hmod]
  · rw [← Int.add_emod_right, Int.emod_eq_of_lt (by omega) (by omega)] at hmod
    have hbit : (w.toNat % 2 ^ (n + 1)).testBit n = true :=
      Nat.testBit_of_two_pow_le_and_two_pow_add_one_gt (Int.ofNat_le.mp (by rw [hcast]; omega)) hlt
    rw [hbit, if_pos rfl, hmod, Int.add_sub_cancel]

end Sys2Proof.Machine
end

section
/-! The sections of a header read back, and the whole header of a legal configuration (46_header.md R481, R484). -/

namespace Sys2Proof.Machine

/-! ### The kinds of field -/

theorem loads_zeroMeans (reg : CfgReg) {n top : Nat} (hn : top = 2 ^ n) {w : Word} (h : 1 ≤ w.toInt ∧ w.toInt ≤ top)
    (p : Parameters) : Loads (rawBits n (natOf w % top)) p (p.write reg w) (readInto reg n (zeroMeans top)) :=
  loads_readInto (hn ▸ Nat.mod_lt _ (by omega)) (zeroMeans_mod h) p

theorem loads_bit (reg : CfgReg) {w : Word} (h : w = 0 ∨ w = 1) (p : Parameters) :
    Loads (rawBits 1 w.toNat) p (p.write reg w) (readInto reg 1 plainField) :=
  loads_readInto (bit_lt h) (plainField_bit h) p

theorem loads_plain (reg : CfgReg) (n : Nat) {w : Word} (h : 0 ≤ w.toInt ∧ w.toInt < (2 ^ n : Nat)) (p : Parameters) :
    Loads (rawBits n (natOf w)) p (p.write reg w) (readInto reg n plainField) :=
  loads_readInto (by have := natOf_cast h.1; omega) (plainField_natOf h.1) p

theorem loads_offset (reg : CfgReg) (n off : Nat) {w : Word} (h : off ≤ w.toInt ∧ w.toInt < off + (2 ^ n : Nat)) (p : Parameters) :
    Loads (rawBits n (natOf w - off)) p (p.write reg w) (readInto reg n (offsetField off)) :=
  loads_readInto (by have := natOf_cast (w := w) (by omega); omega) (offsetField_natOf h.1) p

theorem loads_six (reg : CfgReg) {w : Word} (h : -6 ≤ w.toInt ∧ w.toInt ≤ 9) (p : Parameters) :
    Loads (rawBits 4 (w.toInt + 6).toNat) p (p.write reg w) (readInto reg 4 (offsetField (-6))) :=
  loads_readInto (by omega) (offsetField_six h.1) p

/-- The depth field is read in both orders and kept in BI (log entry 11). -/
theorem loads_readDepth {c : Cfg} {p : Parameters} (hm : c.order = 0 → 1 ≤ c.m.toInt ∧ c.m.toInt ≤ 65536)
    (ho : p.cfg.order = c.order) : Loads (rawBits 16 (if c.order = 0 then c.M % 65536 else 0)) p
      (p.write .m (if c.order = 0 then c.m else p.cfg.m)) readDepth := by
  rintro s whole rest rfl hr
  have hv : (if c.order = 0 then c.M % 65536 else 0) < 2 ^ 16 := by split <;> omega
  obtain ⟨t, h1, h2, -⟩ := (reads_rawBits ⟨.formatHeader, CfgReg.m.info⟩ hv).hasLeft hr
  have ht : t.cfg = s.cfg := by rw [h2.1]
  have hs : s.cfg.order = c.order := ho
  unfold readDepth readField
  rw [bind_ok h1, get_bind, ht, hs]
  by_cases h0 : c.order = 0
  · simp only [if_pos h0] at h2 ⊢
    have hw : wordOfInt (zeroMeans 65536 (c.M % 65536)) = c.m := zeroMeans_mod (hm h0)
    rw [hw]
    refine ⟨_, rfl, ?_⟩
    have hset : { t with cfg := t.cfg.write .m c.m } = t.withParameters (s.parameters.write .m c.m) := by
      rw [h2.1]; rfl
    show Taken _ _ { t with cfg := t.cfg.write .m c.m }
    rw [hset]
    exact taken_withParameters _ h2
  · simp only [if_neg h0] at h2 ⊢
    exact ⟨t, rfl, h2⟩

/-! ### The fixed sections -/

theorem LoadsToByte.congr {bits : List Bool} {p q r : Parameters} {x : Op Unit} (h : LoadsToByte bits p q x) (e : q = r) :
    LoadsToByte bits p r x := e ▸ h


theorem length_padBits_lt (n : Nat) : (padBits n).length < 8 := by
  rw [padBits, length_zeroBits]
  exact Nat.mod_lt _ (by norm_num)

theorem length_section_padded (bits : List Bool) : (bits ++ padBits bits.length).length % 8 = 0 := by
  rw [List.length_append, padBits, length_zeroBits]
  omega

/-- Sections from a byte boundary are whole bytes (30_encoding.md R155). -/
theorem length_sectionsBits : ∀ sections : List (List HeaderField), (sectionsBits 0 sections).length % 8 = 0
  | [] => rfl
  | fields :: more => by
    have ih := length_sectionsBits more
    have h := length_section_padded (sectionBits fields)
    rw [sectionsBits, Nat.zero_add, List.length_append]
    omega

section
variable {c : Cfg} {ta tw : Memory Word}

/-- The registers the image header gives. -/
def imageRead (c old : Cfg) : Cfg :=
  { old with
    x := c.x, y := c.y, z := c.z, signed := c.signed, d := c.d, order := c.order
    m := if c.order = 0 then c.m else old.m
    b := c.b, coder := c.coder }

theorem loads_readImageHeader (h : LegalConfig c ta tw) (p : Parameters) :
    LoadsToByte (sectionBits (imageSection c) ++ padBits (sectionBits (imageSection c)).length) p
      { p with cfg := imageRead c p.cfg } readImageHeader := by
  generalize hpad : padBits (sectionBits (imageSection c)).length = pad
  have hlt : pad.length < 8 := hpad ▸ length_padBits_lt _
  simp only [sectionBits, imageSection, fillField, List.flatMap_cons, List.flatMap_nil, List.append_assoc, List.nil_append]
  have hd : 1 ≤ c.d.toInt ∧ c.d.toInt ≤ 16 := ⟨by have := h.d; omega, h.d.2⟩
  have hm : c.order = 0 → 1 ≤ c.m.toInt ∧ c.m.toInt ≤ 65536 := fun h0 => by
    have := h.m h0
    have := h.z
    omega
  unfold readImageHeader
  refine loadsToByte_seq (loads_skipField 8 0 _) ?_
  refine loadsToByte_seq (loads_zeroMeans .x rfl h.x _) ?_
  refine loadsToByte_seq (loads_zeroMeans .y rfl h.y _) ?_
  refine loadsToByte_seq (loads_zeroMeans .z rfl h.z _) ?_
  refine loadsToByte_seq (loads_bit .signed h.signed _) ?_
  refine loadsToByte_seq (loads_skipField 2 0 _) ?_
  refine loadsToByte_seq (loads_zeroMeans .d rfl hd _) ?_
  refine loadsToByte_seq (loads_bit .order h.order _) ?_
  refine loadsToByte_seq (loads_readDepth hm rfl) ?_
  refine loadsToByte_seq (loads_skipField 2 0 _) ?_
  refine loadsToByte_seq (loads_zeroMeans .b rfl h.b _) ?_
  refine loadsToByte_seq (loads_bit .coder h.coder _) ?_
  refine loadsToByte_seq (loads_skipField 10 0 _) ?_
  exact (loads_align hlt _).congr (by simp only [Parameters.write, Cfg.write, imageRead])

/-- The registers the predictor metadata gives. -/
def predictorRead (c old : Cfg) : Cfg :=
  { old with
    p := c.p, pmode := c.pmode, lsmode := c.lsmode, r := c.r, omega := c.omega, te := c.te, vmin := c.vmin, vmax := c.vmax
    winit := c.winit, wtable := c.wtable, q := c.q }

theorem LegalConfig.q_range (h : LegalConfig c ta tw) : 0 ≤ c.q.toInt ∧ c.q.toInt ≤ 22 := by
  have homega := h.omega
  rcases h.winit with h0 | h1
  · rw [h.q.1 h0]; decide
  · have := h.q.2 h1
    omega

theorem loads_readPredictorMetadata (h : LegalConfig c ta tw) (p : Parameters) :
    LoadsToByte (sectionBits (predictorSection c) ++ padBits (sectionBits (predictorSection c)).length) p
      { p with cfg := predictorRead c p.cfg } readPredictorMetadata := by
  generalize hpad : padBits (sectionBits (predictorSection c)).length = pad
  have hlt : pad.length < 8 := hpad ▸ length_padBits_lt _
  simp only [sectionBits, predictorSection, fillField, List.flatMap_cons, List.flatMap_nil, List.append_assoc, List.nil_append]
  have hp : 0 ≤ c.p.toInt ∧ c.p.toInt < (2 ^ 4 : Nat) := ⟨h.p.1, by have := h.p; omega⟩
  have hr : 1 ≤ c.r.toInt ∧ c.r.toInt ≤ 64 := ⟨by have := h.r; omega, h.r.2⟩
  have homega : 4 ≤ c.omega.toInt ∧ c.omega.toInt < 4 + (2 ^ 4 : Nat) := ⟨h.omega.1, by have := h.omega; omega⟩
  have hte : 4 ≤ c.te.toInt ∧ c.te.toInt < 4 + (2 ^ 4 : Nat) := ⟨h.te.1, by have := h.te; omega⟩
  have hvmax : -6 ≤ c.vmax.toInt ∧ c.vmax.toInt ≤ 9 := ⟨by have := h.vmin; have := h.vmax; omega, h.vmax.2⟩
  have hq : 0 ≤ c.q.toInt ∧ c.q.toInt < (2 ^ 5 : Nat) := ⟨h.q_range.1, by have := h.q_range; omega⟩
  unfold readPredictorMetadata
  refine loadsToByte_seq (loads_skipField 2 0 _) ?_
  refine loadsToByte_seq (loads_plain .p 4 hp _) ?_
  refine loadsToByte_seq (loads_bit .pmode h.pmode _) ?_
  refine loadsToByte_seq (loads_skipField 1 0 _) ?_
  refine loadsToByte_seq (loads_bit .lsmode h.lsmode _) ?_
  refine loadsToByte_seq (loads_skipField 1 0 _) ?_
  refine loadsToByte_seq (loads_zeroMeans .r rfl hr _) ?_
  refine loadsToByte_seq (loads_offset .omega 4 4 homega _) ?_
  refine loadsToByte_seq (loads_offset .te 4 4 hte _) ?_
  refine loadsToByte_seq (loads_six .vmin h.vmin _) ?_
  refine loadsToByte_seq (loads_six .vmax hvmax _) ?_
  refine loadsToByte_seq (loads_skipField 1 0 _) ?_
  refine loadsToByte_seq (loads_bit .winit h.winit _) ?_
  refine loadsToByte_seq (loads_bit .wtable h.wtable _) ?_
  refine loadsToByte_seq (loads_plain .q 5 hq _) ?_
  exact (loads_align hlt _).congr (by simp only [Parameters.write, Cfg.write, predictorRead])

/-! ### The tables -/

/-- The entries of `src` under these keys, written one after another. -/
def copyEntries (src : Memory Word) (keys : List Nat) (m : Memory Word) : Memory Word :=
  keys.foldl (fun m k => m.putWord k (src.wordAt k)) m

theorem tableWf_copyEntries (src : Memory Word) : ∀ (keys : List Nat) {m : Memory Word}, m.tableWf = true →
    (copyEntries src keys m).tableWf = true
  | [], _, h => h
  | k :: keys, _, h => tableWf_copyEntries src keys (Memory.tableWf_putWord h k _)

theorem wordAt_copyEntries (src : Memory Word) : ∀ (keys : List Nat) {m : Memory Word}, m.tableWf = true → ∀ k,
    (copyEntries src keys m).wordAt k = if k ∈ keys then src.wordAt k else m.wordAt k
  | [], m, _, k => by rw [if_neg List.not_mem_nil]; rfl
  | a :: keys, m, h, k => by
    show (copyEntries src keys (m.putWord a (src.wordAt a))).wordAt k = _
    rw [wordAt_copyEntries src keys (Memory.tableWf_putWord h a _) k]
    by_cases hk : k ∈ keys
    · rw [if_pos hk, if_pos (List.mem_cons_of_mem _ hk)]
    · rw [if_neg hk]
      by_cases ha : k = a
      · subst ha
        rw [if_pos (List.mem_cons_self ..), Memory.wordAt_putWord_same h]
      · rw [if_neg (by simp [ha, hk]), Memory.wordAt_putWord_other _ ha]

theorem copyEntries_flatMap {α : Type} (src : Memory Word) (keys : α → List Nat) : ∀ (l : List α) (m : Memory Word),
    copyEntries src (l.flatMap keys) m = l.foldl (fun m a => copyEntries src (keys a) m) m
  | [], _ => rfl
  | a :: l, m => by
    rw [List.flatMap_cons, List.foldl_cons, ← copyEntries_flatMap src keys l]
    exact List.foldl_append ..

/-- The parameters with entries of `src` copied into TW, or into TA. -/
def Parameters.copyTw (src : Memory Word) (keys : List Nat) (p : Parameters) : Parameters :=
  { p with tw := copyEntries src keys p.tw }

def Parameters.copyTa (src : Memory Word) (keys : List Nat) (p : Parameters) : Parameters :=
  { p with ta := copyEntries src keys p.ta }

theorem foldl_copyTw {α : Type} (src : Memory Word) (keys : α → List Nat) : ∀ (l : List α) (p : Parameters),
    l.foldl (fun p a => p.copyTw src (keys a)) p = p.copyTw src (l.flatMap keys)
  | [], _ => rfl
  | a :: l, p => by
    rw [List.foldl_cons, foldl_copyTw src keys l]
    unfold Parameters.copyTw
    rw [copyEntries_flatMap, copyEntries_flatMap]
    rfl

theorem foldl_copyTa (src : Memory Word) : ∀ (keys : List Nat) (p : Parameters),
    keys.foldl (fun p k => p.copyTa src [k]) p = p.copyTa src keys
  | [], _ => rfl
  | k :: keys, p => (foldl_copyTa src keys (p.copyTa src [k])).trans rfl

/-- The keys of the weight table (10_state.md R43). -/
def weightKeys (c : Cfg) : List Nat := (List.range c.Z).flatMap fun z => (List.range (c.bandLength z)).map (twKey z)

theorem loads_readTwEntry {q z i : Nat} (hq : 1 ≤ q ∧ q ≤ 32)
    (h : -2 ^ (q - 1) ≤ (tw.wordAt (twKey z i)).toInt ∧ (tw.wordAt (twKey z i)).toInt ≤ 2 ^ (q - 1) - 1) (p : Parameters) :
    Loads (rawBits q (tw.wordAt (twKey z i)).toNat) p (p.copyTw tw [twKey z i]) (readTwEntry q z i) := by
  have hread := reads_readBitsOr ⟨.formatHeader, twInfo z i⟩ (rawBits q (tw.wordAt (twKey z i)).toNat) (length_rawBits _ _)
  rw [bitsValue_rawBits] at hread
  have hword : wordOfInt (signedField q ((tw.wordAt (twKey z i)).toNat % 2 ^ q)) = tw.wordAt (twKey z i) := by
    rw [signedField_word hq h, wordOfInt_toInt]
  refine loads_of_reads (q := fun p => p.copyTw tw [twKey z i])
    (f := fun v s => { s with tw := s.tw.putWord (twKey z i) (wordOfInt (signedField q v)) }) hread (fun s => ?_) p
  rw [hword]
  rfl

theorem LegalConfig.Q_range (h : LegalConfig c ta tw) (h1 : c.winit = 1) : 1 ≤ c.Q ∧ c.Q ≤ 32 := by
  have hq := h.q.2 h1
  have hr := h.q_range
  have := natOf_cast hr.1
  unfold Cfg.Q
  omega

/-- The weight table (46_header.md R481), with the predictor's parameters already read. -/
theorem loads_readWeightTable (h : LegalConfig c ta tw) (h1 : c.winit = 1) {p : Parameters} (hZ : p.cfg.Z = c.Z)
    (hQ : p.cfg.Q = c.Q) (hlen : p.cfg.bandLength = c.bandLength) :
    LoadsToByte (sectionBits (weightSection c tw) ++ padBits (sectionBits (weightSection c tw)).length) p
      (p.copyTw tw (weightKeys c)) readWeightTable := by
  have hbits : sectionBits (weightSection c tw) = (List.range c.Z).flatMap fun z =>
      (List.range (c.bandLength z)).flatMap fun i => rawBits c.Q (tw.wordAt (twKey z i)).toNat := by
    rw [bits_weightSection]
    unfold fieldBits weightTableFields
    simp only [List.flatMap_assoc, List.flatMap_map]
  have hloop : Loads (sectionBits (weightSection c tw)) p (p.copyTw tw (weightKeys c))
      (forEach (List.range c.Z) fun z => forEach (List.range (c.bandLength z)) fun i => readTwEntry c.Q z i) := by
    rw [hbits]
    unfold weightKeys
    rw [← foldl_copyTw]
    refine loads_forEach _ (fun z hz p => ?_) p
    rw [List.map_eq_flatMap, ← foldl_copyTw]
    exact loads_forEach _ (fun i hi p => loads_readTwEntry (h.Q_range h1)
      (h.weights z (List.mem_range.mp hz) i (List.mem_range.mp hi) h1) p) p
  intro s whole rest hp h8 hr
  unfold readWeightTable
  have hcfg : s.cfg = p.cfg := by rw [← hp]; rfl
  rw [get_bind, hcfg, hZ, hQ, hlen]
  exact loadsToByte_seq hloop (loads_align (length_padBits_lt _) _) s whole rest hp h8 hr

theorem loads_readTaEntry {z : Nat} (h : (ta.wordAt z).toNat < 16) (p : Parameters) :
    Loads (rawBits 4 (ta.wordAt z).toNat) p (p.copyTa ta [z]) (readTaEntry z) := by
  have hread := reads_rawBits ⟨.formatHeader, taInfo z⟩ (n := 4) h
  refine loads_of_reads (q := fun p => p.copyTa ta [z])
    (f := fun v s => { s with ta := s.ta.putWord z (wordOfNat v) }) (a := (ta.wordAt z).toNat) hread (fun s => ?_) p
  rw [wordOfNat_toNat]
  rfl

/-- The accumulator table and its pad nibble. -/
theorem loads_readAccTable {p : Parameters} (hZ : p.cfg.Z = c.Z) (h : ∀ z < c.Z, (ta.wordAt z).toNat < 16) :
    Loads ((List.range c.Z).flatMap (fun z => rawBits 4 (ta.wordAt z).toNat) ++ (if c.Z % 2 = 1 then rawBits 4 0 else []))
      p (p.copyTa ta (List.range c.Z)) readAccTable := by
  have hloop : Loads ((List.range c.Z).flatMap fun z => rawBits 4 (ta.wordAt z).toNat) p (p.copyTa ta (List.range c.Z))
      (forEach (List.range c.Z) readTaEntry) := by
    rw [← foldl_copyTa]
    exact loads_forEach _ (fun z hz p => loads_readTaEntry (h z (List.mem_range.mp hz)) p) p
  have hpad : Loads (if c.Z % 2 = 1 then rawBits 4 0 else []) (p.copyTa ta (List.range c.Z)) (p.copyTa ta (List.range c.Z))
      (if c.Z % 2 = 1 then skipField 4 else pure ()) := by
    split
    · exact loads_skipField 4 0 _
    · exact loads_pure _
  intro s whole rest hp hr
  unfold readAccTable
  have hcfg : s.cfg = p.cfg := by rw [← hp]; rfl
  rw [get_bind, hcfg, hZ]
  exact loads_seq hloop hpad s whole rest hp hr

/-! ### The coder's section -/

/-- The registers the sample-adaptive metadata gives. -/
def adaptiveRead (c old : Cfg) : Cfg :=
  { old with umax := c.umax, gstar := c.gstar, g0 := c.g0, k := c.k, atable := c.atable }

/-- The registers the block-adaptive metadata gives. -/
def blockRead (c old : Cfg) : Cfg := { old with j := c.j, restrict := c.restrict, rsi := c.rsi }

/-- An entry of a legal accumulator table fits its nibble. -/
theorem LegalConfig.accumulator_lt (h : LegalConfig c ta tw) (h0 : c.coder = 0) (h1 : c.atable = 1) :
    ∀ z < c.Z, (ta.wordAt z).toNat < 16 := by
  intro z hz
  have hacc := h.accumulators z hz ⟨h0, (h.atable h0).2.mp h1⟩
  have hd := h.d
  have hint := BitVec.toInt_eq_toNat_cond (ta.wordAt z)
  have hlt := (ta.wordAt z).isLt
  split at hint <;> omega

theorem loads_readSampleAdaptive (h : LegalConfig c ta tw) (h0 : c.coder = 0) {p : Parameters} (hZ : p.cfg.Z = c.Z) :
    Loads (sectionBits (adaptiveSection c ta)) p
      ⟨adaptiveRead c p.cfg, if c.atable = 1 then copyEntries ta (List.range c.Z) p.ta else p.ta, p.tw⟩ readSampleAdaptive := by
  have humax : 1 ≤ c.umax.toInt ∧ c.umax.toInt ≤ 32 := ⟨by have := h.umax h0; omega, (h.umax h0).2⟩
  have hgstar : 4 ≤ c.gstar.toInt ∧ c.gstar.toInt < 4 + (2 ^ 3 : Nat) := ⟨(h.gstar h0).1, by have := h.gstar h0; omega⟩
  have hg0 : 1 ≤ c.g0.toInt ∧ c.g0.toInt ≤ 8 := ⟨(h.g0 h0).1, by have := h.g0 h0; have := h.gstar h0; omega⟩
  have hk : 0 ≤ c.k.toInt ∧ c.k.toInt < (2 ^ 4 : Nat) := by
    rcases h.k h0 with hk | hk
    · have := h.d; omega
    · rw [hk]; decide
  have hbits : sectionBits (adaptiveSection c ta) = rawBits 5 (c.UMAX % 32) ++ (rawBits 3 (c.GSTAR - 4) ++
      (rawBits 3 (c.G0 % 8) ++ (rawBits 4 c.K ++ (rawBits 1 c.atable.toNat ++ (if c.atable = 1 then
        (List.range c.Z).flatMap (fun z => rawBits 4 (ta.wordAt z).toNat) ++ (if c.Z % 2 = 1 then rawBits 4 0 else [])
        else []))))) := by
    unfold adaptiveSection
    simp only [sectionBits, fillField, List.cons_append, List.nil_append, List.flatMap_cons]
    by_cases ht : c.atable = 1
    · by_cases hz : c.Z % 2 = 1 <;> simp [ht, hz, List.flatMap_map]
    · rw [if_neg ht, if_neg ht, List.flatMap_nil]
  rw [hbits]
  unfold readSampleAdaptive
  refine loads_seq (loads_zeroMeans .umax rfl humax _) ?_
  refine loads_seq (loads_offset .gstar 3 4 hgstar _) ?_
  refine loads_seq (loads_zeroMeans .g0 rfl hg0 _) ?_
  refine loads_seq (loads_plain .k 4 hk _) ?_
  refine loads_seq (loads_bit .atable (h.atable h0).1 _) ?_
  intro s whole rest hp hr
  have hcfg : s.cfg = adaptiveRead c p.cfg := by
    rw [show s.cfg = s.parameters.cfg from rfl, hp]
    simp only [Parameters.write, Cfg.write, adaptiveRead]
  have hp' : s.parameters = ⟨adaptiveRead c p.cfg, p.ta, p.tw⟩ := by
    rw [hp]; simp only [Parameters.write, Cfg.write, adaptiveRead]
  rw [get_bind, hcfg]
  by_cases h1 : c.atable = 1
  · simp only [if_pos h1] at hr ⊢
    rw [if_pos (show (adaptiveRead c p.cfg).atable = 1 from h1)]
    exact loads_readAccTable (p := ⟨adaptiveRead c p.cfg, p.ta, p.tw⟩) hZ (h.accumulator_lt h0 h1) s whole rest hp' hr
  · simp only [if_neg h1] at hr ⊢
    rw [if_neg (show ¬ (adaptiveRead c p.cfg).atable = 1 from h1)]
    exact loads_pure _ s whole rest hp' hr

theorem loads_readBlockAdaptive (h : LegalConfig c ta tw) (h1 : c.coder = 1) (p : Parameters) :
    Loads (sectionBits (blockSection c)) p { p with cfg := blockRead c p.cfg } readBlockAdaptive := by
  have hj : Nat.log2 c.J - 3 < 2 ^ 2 ∧ wordOfInt (2 ^ (3 + (Nat.log2 c.J - 3))) = c.j := by
    unfold Cfg.J
    rcases h.j h1 with hj | hj | hj | hj <;> rw [hj] <;> decide
  unfold readBlockAdaptive
  simp only [sectionBits, blockSection, fillField, List.flatMap_cons, List.flatMap_nil]
  refine loads_seq (loads_skipField 1 0 _) ?_
  refine loads_seq (loads_readInto hj.1 hj.2 _) ?_
  refine loads_seq (loads_bit .restrict (h.restrict h1) _) ?_
  rw [List.append_nil]
  have := loads_zeroMeans .rsi (n := 12) rfl (h.rsi h1) ((p.write .j c.j).write .restrict c.restrict)
  have he : ((p.write .j c.j).write .restrict c.restrict).write .rsi c.rsi = { p with cfg := blockRead c p.cfg } := by
    simp only [Parameters.write, Cfg.write, blockRead]
  rw [he] at this
  exact this

/-! ### The whole header -/

/-- The parameters after the header of a legal configuration: what it carries, the rest as it was (46_header.md R481). -/
def headerRead (c : Cfg) (ta tw : Memory Word) (p : Parameters) : Parameters where
  cfg := headerCfg c p.cfg
  ta := if c.coder = 0 ∧ c.atable = 1 then copyEntries ta (List.range c.Z) p.ta else p.ta
  tw := if c.wtable = 1 then copyEntries tw (weightKeys c) p.tw else p.tw

theorem headerCfg_adaptive (h0 : c.coder = 0) (old : Cfg) :
    headerCfg c old = adaptiveRead c (predictorRead c (imageRead c old)) := by
  simp only [headerCfg, adaptiveRead, predictorRead, imageRead, if_pos h0]

theorem headerCfg_block (h0 : ¬ c.coder = 0) (old : Cfg) :
    headerCfg c old = blockRead c (predictorRead c (imageRead c old)) := by
  simp only [headerCfg, blockRead, predictorRead, imageRead, if_neg h0]

theorem loads_hdrRead (h : LegalConfig c ta tw) (p : Parameters) :
    LoadsToByte (headerBits 0 c ta tw) p (headerRead c ta tw p) hdrRead := by
  set q : Parameters := { p with cfg := predictorRead c (imageRead c p.cfg) } with hq
  set q' : Parameters := { q with tw := if c.wtable = 1 then copyEntries tw (weightKeys c) p.tw else p.tw } with hq'
  have himage := loads_readImageHeader h p
  have hpredictor := loads_readPredictorMetadata h { p with cfg := imageRead c p.cfg }
  have hweights : LoadsToByte (sectionsBits 0 (if c.wtable = 1 then [weightSection c tw] else [])) q q' readWeightSection := by
    intro s whole rest hp h8 hr
    have hcfg : s.cfg = q.cfg := by rw [← hp]; rfl
    unfold readWeightSection
    rw [get_bind, hcfg, show q.cfg.wtable = c.wtable from rfl]
    by_cases h1 : c.wtable = 1
    · rw [if_pos h1] at hr ⊢
      rw [if_pos h1]
      simp only [sectionsBits, Nat.zero_add, List.append_nil] at hr ⊢
      exact (loads_readWeightTable h (h.table ▸ h1) rfl rfl rfl).congr (by simp only [hq', if_pos h1]; rfl) s whole rest hp h8 hr
    · rw [if_neg h1] at hr ⊢
      rw [if_neg h1]
      exact (loads_pure q).toByte.congr (by simp only [hq', if_neg h1]; rfl) s whole rest hp h8 hr
  have hcoder : Loads (sectionBits (if c.coder = 0 then adaptiveSection c ta else blockSection c)) q' (headerRead c ta tw p)
      readCoderSection := by
    intro s whole rest hp hr
    have hcfg : s.cfg = q'.cfg := by rw [← hp]; rfl
    unfold readCoderSection headerRead
    rw [get_bind, hcfg, show q'.cfg.coder = c.coder from rfl]
    by_cases h0 : c.coder = 0
    · rw [if_pos h0] at hr ⊢
      rw [if_pos h0, headerCfg_adaptive h0]
      simp only [h0, true_and]
      exact loads_readSampleAdaptive h h0 rfl s whole rest hp hr
    · rw [if_neg h0] at hr ⊢
      rw [if_neg h0, headerCfg_block h0]
      simp only [h0, false_and, if_false]
      exact loads_readBlockAdaptive h (h.coder.resolve_left h0) q' s whole rest hp hr
  have hbits : headerBits 0 c ta tw =
      (sectionBits (imageSection c) ++ padBits (sectionBits (imageSection c)).length) ++
      ((sectionBits (predictorSection c) ++ padBits (sectionBits (predictorSection c)).length) ++
      (sectionsBits 0 (if c.wtable = 1 then [weightSection c tw] else []) ++
      (sectionBits (if c.coder = 0 then adaptiveSection c ta else blockSection c) ++
        padBits (sectionBits (if c.coder = 0 then adaptiveSection c ta else blockSection c)).length))) := by
    unfold headerBits headerSections
    by_cases h1 : c.wtable = 1 <;>
      simp only [h1, if_true, if_false, List.cons_append, List.nil_append, sectionsBits, Nat.zero_add, List.append_assoc,
        List.append_nil]
  rw [hbits]
  unfold hdrRead
  have hlast := length_section_padded (sectionBits (if c.coder = 0 then adaptiveSection c ta else blockSection c))
  have hthird := length_sectionsBits (if c.wtable = 1 then [weightSection c tw] else [])
  have hsecond := length_section_padded (sectionBits (predictorSection c))
  refine loadsToByte_sections ?_ himage <| loadsToByte_sections ?_ hpredictor <| loadsToByte_sections hlast hweights <|
    loadsToByte_seq hcoder (loads_align (length_padBits_lt _) _)
  · rw [List.length_append, List.length_append (as := sectionsBits _ _)]
    omega
  · rw [List.length_append]
    omega

end

end Sys2Proof.Machine
end

section
/-! What a legal configuration and a legal image give the proofs about the pipeline, and the image cut into its rows
(47_pipeline.md R546, R549). -/

namespace Sys2Proof.Machine

section
variable {c : Cfg} {ta tw : Memory Word}

theorem LegalConfig.cubeLegal (h : LegalConfig c ta tw) : CubeLegal c := by
  have hx := natOf_cast (w := c.x) (by have := h.x; omega)
  have hy := natOf_cast (w := c.y) (by have := h.y; omega)
  have hz := natOf_cast (w := c.z) (by have := h.z; omega)
  refine ⟨?_, ?_, ?_, h.order, fun h0 => ?_, fun h1 h2 h3 => h.narrow ⟨?_, ?_, h3⟩⟩
  · have := h.x; unfold Cfg.X; omega
  · have := h.y; unfold Cfg.Y; omega
  · have := h.z; unfold Cfg.Z; omega
  · have := (h.m h0).1
    have hm := natOf_cast (w := c.m) (by omega)
    unfold Cfg.M
    omega
  · unfold Cfg.X at h1
    rw [← wordOfInt_toInt c.x, ← hx, h1]
    rfl
  · unfold Cfg.Y at h2
    omega

theorem LegalConfig.depthBits (h : LegalConfig c ta tw) : 2 ≤ c.D ∧ c.D ≤ 16 := by
  have hd := natOf_cast (w := c.d) (by have := h.d; omega)
  have := h.d
  unfold Cfg.D
  omega

theorem LegalConfig.blockLegal (h : LegalConfig c ta tw) (h1 : c.coder = 1) : BlockLegal c := by
  refine ⟨?_, h.depthBits, ?_, ?_⟩
  · unfold Cfg.J
    rcases h.j h1 with hj | hj | hj | hj <;> rw [hj] <;> decide
  · have hs := natOf_cast (w := c.s) (by have := h.s h1; omega)
    have := h.s h1
    unfold Cfg.S
    omega
  · have hr := natOf_cast (w := c.rsi) (by have := h.rsi h1; omega)
    have := h.rsi h1
    unfold Cfg.RSI
    omega

theorem LegalConfig.wordBytes_pos (h : LegalConfig c ta tw) : 0 < c.B := by
  have hb := natOf_cast (w := c.b) (by have := h.b; omega)
  have := h.b
  unfold Cfg.B
  omega

end

/-! ### The image in rows -/

/-- A list of whole rows is its rows. -/
theorem flatMap_rows {α : Type} (l : List α) (w : Nat) : ∀ n : Nat,
    ((List.range n).flatMap fun i => (l.drop (i * w)).take w) = l.take (n * w)
  | 0 => by simp
  | n + 1 => by
    rw [List.range_succ, List.flatMap_append, flatMap_rows l w n, List.flatMap_singleton, Nat.succ_mul, List.take_add]

theorem map_getD_range {α : Type} (l : List α) (d : α) {k w : Nat} (h : k + w ≤ l.length) :
    ((List.range w).map fun i => l.getD (k + i) d) = (l.drop k).take w := by
  apply List.ext_getElem
  · simp; omega
  · intro i h1 h2
    simp only [List.length_map, List.length_range] at h1
    simp only [List.getElem_map, List.getElem_range, List.getElem_take, List.getElem_drop]
    exact List.getD_eq_getElem _ _ (by omega)

/-- Where a position's sample stands in its row. -/
def rowOffset (c : Cfg) (p : Cursor) : Nat := if c.bsq then p.x else p.z * c.X + p.x

theorem rowOffset_lt {c : Cfg} {p : Cursor} (hp : InCube c p) : rowOffset c p < rowWidth c := by
  obtain ⟨hz, -, hx⟩ := hp
  unfold rowOffset rowWidth
  split
  · exact hx
  · calc p.z * c.X + p.x < p.z * c.X + c.X := by omega
    _ = (p.z + 1) * c.X := (Nat.succ_mul _ _).symm
    _ ≤ c.Z * c.X := Nat.mul_le_mul_right _ hz

theorem rowIndex_lt {c : Cfg} {p : Cursor} (hp : InCube c p) : rowIndex c p < rowCount c := by
  obtain ⟨hz, hy, -⟩ := hp
  unfold rowIndex rowCount
  split
  · calc p.z * c.Y + p.y < p.z * c.Y + c.Y := by omega
    _ = (p.z + 1) * c.Y := (Nat.succ_mul _ _).symm
    _ ≤ c.Z * c.Y := Nat.mul_le_mul_right _ hz
  · exact hy

/-- The samples of the cube are those of its rows. -/
theorem rowCount_mul_rowWidth (c : Cfg) : rowCount c * rowWidth c = c.X * c.Y * c.Z := by
  unfold rowCount rowWidth
  split <;> ring

/-- A sample of an image by its row (47_pipeline.md R546). -/
theorem imageSample_row (c : Cfg) (image : List Word) (p : Cursor) :
    imageSample c image p.z p.y p.x = (image.getD (rowIndex c p * rowWidth c + rowOffset c p) 0).toInt := by
  unfold imageSample rowIndex rowWidth rowOffset
  by_cases hb : c.order = 1
  · simp only [if_pos hb, if_pos (bsq_iff.mpr hb)]
  · simp only [if_neg hb, if_neg (mt bsq_iff.mp hb)]
    congr 2
    ring

theorem row_fits {c : Cfg} {image : List Word} (hlen : c.X * c.Y * c.Z ≤ image.length) {i : Nat} (hi : i < rowCount c) :
    i * rowWidth c + rowWidth c ≤ image.length := by
  calc i * rowWidth c + rowWidth c = (i + 1) * rowWidth c := (Nat.succ_mul _ _).symm
  _ ≤ rowCount c * rowWidth c := Nat.mul_le_mul_right _ hi
  _ = c.X * c.Y * c.Z := rowCount_mul_rowWidth c
  _ ≤ image.length := hlen

/-- The samples of an image in range are a cube in range. -/
theorem sampledCube_of_image {c : Cfg} {ta tw : Memory Word} (h : LegalConfig c ta tw) {image : List Word}
    (hi : imageLegal c image) : SampledCube c (imageSample c image) := by
  refine ⟨h.cubeLegal, h.depthBits, fun p hp => ?_⟩
  have hfit := row_fits hi.1.ge (rowIndex_lt hp)
  have hoff := rowOffset_lt hp
  have hlt : rowIndex c p * rowWidth c + rowOffset c p < image.length := by omega
  rw [imageSample_row, List.getD_eq_getElem _ _ hlt]
  exact hi.2 _ (List.getElem_mem hlt)

/-! ### What DECOMPRESS pushes -/

/-- A row of every band as words, band by band. -/
def rowWords (c : Cfg) (h : Nat → Nat → Nat → Int) (y : Nat) : List Word :=
  (List.range c.Z).flatMap fun z => (List.range c.X).map fun x => wordOfInt (h z y x)

/-- What the sample of a position sends to SOUT (47_pipeline.md R549). -/
def outputOf (c : Cfg) (h : Nat → Nat → Nat → Int) (p : Cursor) : List Word :=
  if c.bsq then [wordOfInt (h p.z p.y p.x)] else if p.z + 1 = c.Z ∧ p.x + 1 = c.X then rowWords c h p.y else []

theorem rowPositions_nodup {c : Cfg} (hc : CubeLegal c) {i : Nat} (hi : i < rowCount c) : (rowPositions c i).Nodup := by
  have h := positions_nodup hc
  rw [positions_eq_rows hc, List.nodup_flatMap] at h
  exact h.1 i (List.mem_range.mpr hi)

/-- The positions of a row send the row of the image. -/
theorem output_of_row {c : Cfg} (hc : CubeLegal c) {image : List Word} (hlen : c.X * c.Y * c.Z ≤ image.length) {i : Nat}
    (hi : i < rowCount c) :
    (rowPositions c i).flatMap (outputOf c (imageSample c image)) = (image.drop (i * rowWidth c)).take (rowWidth c) := by
  rw [← map_getD_range image 0 (row_fits hlen hi)]
  by_cases hb : c.bsq = true
  · have hw : rowWidth c = c.X := if_pos hb
    have hrow : rowPositions c i = (List.range c.X).map fun x => ⟨i / c.Y, i % c.Y, x⟩ := if_pos hb
    rw [hrow, List.flatMap_map, hw, List.map_eq_flatMap]
    refine List.flatMap_congr fun x _ => ?_
    unfold outputOf
    rw [if_pos hb, imageSample_row, wordOfInt_toInt, hw]
    unfold rowIndex rowOffset
    rw [if_pos hb, if_pos hb]
    dsimp only
    rw [Nat.div_add_mod']
  · have hw : rowWidth c = c.Z * c.X := if_neg hb
    have hy : i < c.Y := by
      unfold rowCount at hi
      rwa [if_neg hb] at hi
    have hz := hc.bands.1
    have hx := hc.width.1
    have hlast : (⟨c.Z - 1, i, c.X - 1⟩ : Cursor) ∈ rowPositions c i := by
      have hmem := (mem_positions hc ⟨c.Z - 1, i, c.X - 1⟩).mpr ⟨show c.Z - 1 < c.Z by omega, hy, show c.X - 1 < c.X by omega⟩
      rw [positions_eq_rows hc, List.mem_flatMap] at hmem
      obtain ⟨j, -, hj⟩ := hmem
      have : rowIndex c ⟨c.Z - 1, i, c.X - 1⟩ = j := rowIndex_of_mem hj
      rw [rowIndex, if_neg hb] at this
      obtain rfl : i = j := this
      exact hj
    rw [flatMap_of_unique (rowPositions_nodup hc hi) hlast]
    · unfold outputOf
      rw [if_neg hb, if_pos ⟨show c.Z - 1 + 1 = c.Z by omega, show c.X - 1 + 1 = c.X by omega⟩]
      unfold rowWords
      simp only [List.map_eq_flatMap]
      rw [flatMap_range_mul (fun z x => [wordOfInt (imageSample c image z i x)]) hx c.Z, hw]
      refine List.flatMap_congr fun k _ => ?_
      have hrow := imageSample_row c image ⟨k / c.X, i, k % c.X⟩
      rw [rowIndex, rowOffset, if_neg hb, if_neg hb, hw] at hrow
      dsimp only at hrow
      rw [hrow, wordOfInt_toInt, Nat.div_add_mod']
    · intro p hp hne
      unfold outputOf
      have hpi := rowIndex_of_mem hp
      rw [rowIndex, if_neg hb] at hpi
      rw [if_neg hb, if_neg]
      rintro ⟨h1, h2⟩
      apply hne
      obtain ⟨pz, py, px⟩ := p
      dsimp only at hpi h1 h2
      rw [Cursor.mk.injEq]
      omega

/-- The whole traversal sends the image, in the order of SIN (47_pipeline.md R549, R554). -/
theorem output_of_positions {c : Cfg} (hc : CubeLegal c) {image : List Word} (hlen : image.length = c.X * c.Y * c.Z) :
    (positions c).flatMap (outputOf c (imageSample c image)) = image := by
  rw [positions_eq_rows hc, List.flatMap_assoc]
  have hrows : ((List.range (rowCount c)).flatMap fun i => (rowPositions c i).flatMap (outputOf c (imageSample c image))) =
      (List.range (rowCount c)).flatMap fun i => (image.drop (i * rowWidth c)).take (rowWidth c) :=
    List.flatMap_congr fun i hi => output_of_row hc hlen.ge (List.mem_range.mp hi)
  rw [hrows, flatMap_rows, rowCount_mul_rowWidth, ← hlen, List.take_length]

end Sys2Proof.Machine
end

section
/-! DECOMPRESS position by position: the state holds the part of the cube decoded, and every codeword gives its sample back
(47_pipeline.md R549). -/

namespace Sys2Proof.Machine

/-- The residuals of a cube, by band and within-band index. -/
def residualsOf (c : Cfg) (tw : Memory Word) (h : Nat → Nat → Nat → Int) (z t : Nat) : Nat :=
  residualAt c tw h ⟨z, t / c.X, t % c.X⟩

/-- The residual of a position as a word. -/
def residualWord (c : Cfg) (tw : Memory Word) (h : Nat → Nat → Nat → Int) (p : Cursor) : Word :=
  BitVec.ofNat 32 (residualAt c tw h p)

section
variable {c : Cfg} {ta tw : Memory Word} {h : Nat → Nat → Nat → Int} {l r : List Cursor} {p : Cursor} {s t : State}

theorem residualsOf_index (hx : p.x < c.X) : residualsOf c tw h p.z (p.y * c.X + p.x) = residualAt c tw h p := by
  obtain ⟨h1, h2⟩ := divMod_index (p := p) hx
  unfold residualsOf
  rw [h1, h2]

theorem residualWord_toNat (hs : SampledCube c h) (hp : InCube c p) :
    (residualWord c tw h p).toNat = residualAt c tw h p := by
  have hlt := residualAt_lt (tw := tw) hs hp
  have hpow : 2 ^ c.D ≤ 2 ^ 16 := Nat.pow_le_pow_right (by norm_num) hs.bits.2
  unfold residualWord
  rw [BitVec.toNat_ofNat, Nat.mod_eq_of_lt (by omega)]

/-! ### States that agree where a predicate looks -/

theorem Predicting.congr (hp : Predicting c tw h l s) (hcfg : t.cfg = s.cfg) (htw : t.tw = s.tw) (hhist : t.hist = s.hist)
    (hweights : t.weights = s.weights) : Predicting c tw h l t :=
  ⟨hcfg.trans hp.sameCfg, htw.trans hp.sameTw, fun q hq => by
    unfold State.sampleAt; rw [hhist]; exact hp.samples q hq, fun z hz => by rw [hweights]; exact hp.weights z hz⟩

theorem ReadyToPredict.congr (hp : ReadyToPredict c tw h l p s) (hcfg : t.cfg = s.cfg) (htw : t.tw = s.tw)
    (hhist : t.hist = s.hist) (hweights : t.weights = s.weights) : ReadyToPredict c tw h l p t :=
  ⟨hp.toPredicting.congr hcfg htw hhist hweights, by rw [hweights]; exact hp.here⟩

/-- What the block decoder looks at. -/
def blockDecoderView (s : State) : State :=
  { s with cursor := ⟨0, 0, 0⟩, sout := [], weights := [], stats := [], hist := [] }

theorem HasLeft.congr {whole : List Byte} {bits : List Bool} (hr : HasLeft whole bits s)
    (e : blockDecoderView t = blockDecoderView s) : HasLeft whole bits t := by
  have hrbuf : t.rbuf = s.rbuf := field_eq State.rbuf e fun _ => rfl
  have hbin : t.bin = s.bin := field_eq State.bin e fun _ => rfl
  refine ⟨hrbuf ▸ hr.partialByte, hbin ▸ hr.bytes, ?_⟩
  unfold State.inBits
  rw [hrbuf, hbin]
  exact hr.bits

theorem DecodingBlocks.congr {whole : List Byte} {rest : List Bool} {blocks : List (List Word)}
    (hs : DecodingBlocks c whole rest blocks s) (e : blockDecoderView t = blockDecoderView s) :
    DecodingBlocks c whole rest blocks t := by
  have hcfg : t.cfg = s.cfg := field_eq State.cfg e fun _ => rfl
  have hcs : t.cs = s.cs := field_eq State.cs e fun _ => rfl
  have hcr : t.cr = s.cr := field_eq State.cr e fun _ => rfl
  have hrun : t.runrem = s.runrem := field_eq State.runrem e fun _ => rfl
  obtain ⟨m, later, h1, h2, h3⟩ := hs.ahead
  refine ⟨hcfg.trans hs.sameCfg, hcs ▸ hs.segment, hcr ▸ hs.reference, hs.isBlock, m, later, h1, ?_, hrun ▸ h3⟩
  rw [hcs, hcr]
  exact h2.congr e

theorem DecodingSamples.congr {whole : List Byte} {rest : List Bool} {ws : List Word} (hs : DecodingSamples c whole rest ws s)
    (e : blockDecoderView t = blockDecoderView s) : DecodingSamples c whole rest ws t := by
  have hdbuf : t.dbuf = s.dbuf := field_eq State.dbuf e fun _ => rfl
  have hdpos : t.dpos = s.dpos := field_eq State.dpos e fun _ => rfl
  obtain ⟨blocks, pad, h1, h2⟩ := hs.samples
  exact ⟨by rw [hdbuf, hdpos]; exact hs.buffer, blocks, pad, h1.congr e, by rw [hdbuf, hdpos]; exact h2⟩

/-! ### What is pushed to SOUT -/

/-- An operation that, with this HIST, appends these words to SOUT and does nothing else. -/
def Pushes (hist : Memory Int) (ws : List Word) (x : Op Unit) : Prop :=
  ∀ s : State, s.hist = hist → x s = .ok () { s with sout := s.sout ++ ws }

theorem pushes_forEach {α : Type} {hist : Memory Int} {f : α → Op Unit} {ws : α → List Word} : ∀ (l : List α),
    (∀ a ∈ l, Pushes hist (ws a) (f a)) → Pushes hist (l.flatMap ws) (forEach l f)
  | [], _, s, _ => by rw [forEach_nil, List.flatMap_nil, List.append_nil]
  | a :: l, hf, s, hs => by
    rw [forEach_cons, bind_ok (hf a (List.mem_cons_self ..) s hs),
      pushes_forEach l (fun b hb => hf b (List.mem_cons_of_mem _ hb)) { s with sout := s.sout ++ ws a } hs, List.flatMap_cons,
      List.append_assoc]

/-- `PushRow` of a row whose samples are in HIST. -/
theorem pushRow_ok {y : Nat} (hrow : ∀ z < c.Z, ∀ x < c.X, s.sampleAt ⟨z, y, x⟩ = some (h z y x)) :
    pushRow c y s = .ok () { s with sout := s.sout ++ rowWords c h y } := by
  refine pushes_forEach (hist := s.hist) _ (fun z hz => ?_) s rfl
  rw [List.map_eq_flatMap]
  refine pushes_forEach _ fun x hx t ht => ?_
  have hcell : t.hist.cellAt (histKey z y x) = some (h z y x) := by
    rw [ht]; exact hrow z (List.mem_range.mp hz) x (List.mem_range.mp hx)
  rw [bind_ok (show histRead z y x t = .ok (h z y x) t by rw [histRead_eq, hcell])]
  rfl

/-- At the last position of a row of every band, the row has been visited. -/
theorem row_visited (hc : CubeLegal c) (hb : ¬ c.bsq = true) (hl : positions c = l ++ p :: r) (hz : p.z + 1 = c.Z)
    (hx : p.x + 1 = c.X) {z x : Nat} (hz' : z < c.Z) (hx' : x < c.X) : (⟨z, p.y, x⟩ : Cursor) ∈ l ++ [p] := by
  by_cases he : (⟨z, p.y, x⟩ : Cursor) = p
  · rw [he]; simp
  · have hdiv : z / c.M ≤ p.z / c.M := Nat.div_le_div_right (by omega)
    have hne : ¬ (z = p.z ∧ x = p.x) := fun h => he (by rw [h.1, h.2])
    refine List.mem_append_left _ (mem_visited hc hl ⟨hz', (inCube_of_split hc hl).2.1, hx'⟩ ?_)
    unfold Before
    rw [if_neg hb]
    dsimp only
    omega

theorem outputSample_ok (hc : CubeLegal c) (hl : positions c = l ++ p :: r) (hp : Predicting c tw h (l ++ [p]) s) :
    outputSample c p (h p.z p.y p.x) s = .ok () { s with sout := s.sout ++ outputOf c h p } := by
  unfold outputSample outputOf
  by_cases hb : c.bsq = true
  · rw [if_pos hb, if_pos hb]; rfl
  · rw [if_neg hb, if_neg hb]
    by_cases hlast : p.z + 1 = c.Z ∧ p.x + 1 = c.X
    · rw [if_pos hlast, if_pos hlast]
      exact pushRow_ok fun z hz x hx => hp.samples _ (row_visited hc hb hl hlast.1 hlast.2 hz hx)
    · rw [if_neg hlast, if_neg hlast, List.append_nil]; rfl

/-! ### One position -/

/-- The code still to be read by either coder, before the positions `r`, after the positions `l`. -/
structure CodeAhead (c : Cfg) (ta tw : Memory Word) (h : Nat → Nat → Nat → Int) (whole : List Byte) (rest : List Bool)
    (l r : List Cursor) (s : State) : Prop where
  adaptive : c.coder = 0 → Adapting c ta (residualsOf c tw h) l s ∧
    HasLeft whole (r.flatMap (adaptiveCodeAt c ta (residualsOf c tw h)) ++ rest) s
  block : c.coder ≠ 0 → DecodingSamples c whole rest (r.map (residualWord c tw h)) s

/-- What of a state the positions of DECOMPRESS never touch: the host's registers and the streams it has no part in. -/
def hostView (s : State) : State :=
  { State.reset with
    sin := s.sin, bout := s.bout, blk := s.blk, arg0 := s.arg0, arg1 := s.arg1, arg2 := s.arg2, arg3 := s.arg3
    result := s.result, result1 := s.result1, irqEn := s.irqEn, errCode := s.errCode, errInfo := s.errInfo }

/-- DECOMPRESS after the positions `l`, begun in the state `start`. -/
structure Restoring (c : Cfg) (ta tw : Memory Word) (h : Nat → Nat → Nat → Int) (whole : List Byte) (rest : List Bool)
    (start : State) (l : List Cursor) (s : State) : Prop where
  predicting : Predicting c tw h l s
  ahead : ∀ r, positions c = l ++ r → CodeAhead c ta tw h whole rest l r s
  pushed : s.sout = start.sout ++ l.flatMap (outputOf c h)
  cursor : ∀ q, l.getLast? = some q → s.cursor = q
  host : hostView s = hostView start

/-- `DecodeResidual` answers the residual of the position (47_pipeline.md R547). -/
theorem decodeResidual_along (hs : SampledCube c h) (hblock : c.coder ≠ 0 → BlockLegal c) (hl : positions c = l ++ p :: r)
    {whole : List Byte} {rest : List Bool} (hcfg : s.cfg = c) (hready : c.coder = 0 → ReadyToAdapt c ta (residualsOf c tw h) l p s)
    (hcode : CodeAhead c ta tw h whole rest l (p :: r) s) :
    ∃ t, decodeResidual c p.z (p.y * c.X + p.x) s = .ok (residualAt c tw h p) t ∧
      CodeAhead c ta tw h whole rest (l ++ [p]) r t := by
  have hin := inCube_of_split hs.cube hl
  by_cases h0 : c.coder = 0
  · have hd := residualsOf_index (tw := tw) (h := h) hin.2.2
    have hleft := (hcode.adaptive h0).2
    rw [List.flatMap_cons, List.append_assoc] at hleft
    obtain ⟨t, hrun, hadapt, hleft'⟩ := decodeResidual_adaptive hs.cube h0 hl (hready h0) hcfg
      (by rw [hd]; exact residualAt_lt hs hin) hleft
    rw [hd] at hrun
    exact ⟨t, hrun, fun _ => ⟨hadapt, hleft'⟩, fun hne => absurd h0 hne⟩
  · obtain ⟨t, hrun, hnext⟩ := decodeSample_along (hblock h0) (hcode.block h0)
    refine ⟨t, ?_, fun he => absurd he h0, fun _ => hnext⟩
    unfold decodeResidual
    rw [if_neg h0, bind_ok hrun, residualWord_toNat hs hin]
    rfl

theorem CodeAhead.congr {whole : List Byte} {rest : List Bool} (hcode : CodeAhead c ta tw h whole rest l r s)
    (e : blockDecoderView t = blockDecoderView s) (hstats : c.coder = 0 → Adapting c ta (residualsOf c tw h) l t) :
    CodeAhead c ta tw h whole rest l r t :=
  ⟨fun h0 => ⟨hstats h0, (hcode.adaptive h0).2.congr e⟩, fun hne => (hcode.block hne).congr e⟩

/-- DECOMPRESS at one position. -/
theorem decompressAt_along (hs : SampledCube c h) (hblock : c.coder ≠ 0 → BlockLegal c) (hl : positions c = l ++ p :: r)
    {whole : List Byte} {rest : List Bool} {start : State}
    (hi : Restoring c ta tw h whole rest start l s) :
    ∃ t, decompressAt c p s = .ok () t ∧ Restoring c ta tw h whole rest start (l ++ [p]) t := by
  obtain ⟨hpred, hahead, hpushed, -, hhost⟩ := hi
  have hcode := hahead (p :: r) hl
  -- the cursor
  have hpred1 : Predicting c tw h l { s with cursor := p } := hpred.congr rfl rfl rfl rfl
  have hadapt1 : c.coder = 0 → Adapting c ta (residualsOf c tw h) l { s with cursor := p } := fun h0 =>
    (hcode.adaptive h0).1.congr rfl rfl
  -- the band
  obtain ⟨s2, hrun2, hs2, hready2, hadapt2⟩ := initBand_ok hs.cube hl hpred1 hadapt1
  have hcode2 : CodeAhead c ta tw h whole rest l (p :: r) s2 :=
    hcode.congr (by rw [hs2]; rfl) fun h0 => (hadapt2 h0).toAdapting
  -- the residual
  obtain ⟨s3, hrun3, hcode3⟩ := decodeResidual_along hs hblock hl hready2.sameCfg hadapt2 hcode2
  have hview3 := keeps_ok (keeps_decodeResidual c p.z (p.y * c.X + p.x)) hrun3
  have hready3 : ReadyToPredict c tw h l p s3 :=
    hready2.congr (field_eq State.cfg hview3 fun _ => rfl) (field_eq State.tw hview3 fun _ => rfl) (field_eq State.hist hview3 fun _ => rfl)
      (field_eq State.weights hview3 fun _ => rfl)
  -- the sample
  obtain ⟨ss, s4, hrun4, hs4, hpred4⟩ := predDecompress_along hs hl hready3
  have hcode4 : CodeAhead c ta tw h whole rest (l ++ [p]) r s4 :=
    hcode3.congr (by rw [hs4]; rfl) fun h0 => (hcode3.adaptive h0).1.congr (by rw [hs4]) (by rw [hs4])
  have hrun5 := outputSample_ok hs.cube hl hpred4
  refine ⟨{ s4 with sout := s4.sout ++ outputOf c h p }, ?_, hpred4.congr rfl rfl rfl rfl, fun r' hr' => ?_, ?_, fun q hq => ?_, ?_⟩
  · unfold decompressAt setCursor
    rw [modify_bind, bind_ok hrun2, bind_ok hrun3, bind_ok hrun4]
    exact hrun5
  · have hr : r' = r := by
      rw [hl, List.append_assoc, List.singleton_append] at hr'
      exact (List.cons_eq_cons.mp (List.append_cancel_left hr')).2.symm
    rw [hr]
    exact hcode4.congr rfl fun h0 => (hcode4.adaptive h0).1.congr rfl rfl
  · have hsout : s4.sout = s.sout := by
      rw [hs4]
      exact (field_eq State.sout hview3 fun _ => rfl).trans (by rw [hs2])
    dsimp only
    rw [hsout, hpushed, List.append_assoc, List.flatMap_append, List.flatMap_singleton]
  · rw [List.getLast?_concat, Option.some.injEq] at hq
    subst hq
    show s4.cursor = p
    rw [hs4]
    exact (field_eq State.cursor hview3 fun _ => rfl).trans (by rw [hs2])
  · have hview4 : hostView s4 = hostView s3 := by rw [hs4]; rfl
    have hview2 : hostView s2 = hostView s := by rw [hs2]; rfl
    exact hview4.trans ((field_eq hostView hview3 fun _ => rfl).trans (hview2.trans hhost))

end

end Sys2Proof.Machine
end

section
/-! DECOMPRESS as a whole: the configuration the header gives codes the image as the one it was written from, and the run
restores the image (46_header.md R482, 47_pipeline.md R553, R554). -/

namespace Sys2Proof.Machine

section
variable {c old : Cfg} {ta tw ta' tw' : Memory Word} {h : Nat → Nat → Nat → Int}

/-! ### The configuration read codes alike -/

/-- The body of a compressed stream (30_encoding.md R162). -/
def bodyBits (c : Cfg) (ta tw : Memory Word) (h : Nat → Nat → Nat → Int) : List Bool :=
  if c.coder = 0 then adaptiveBody c ta tw h else blockBody c tw h

theorem positions_headerCfg (hc : CubeLegal c) : positions (headerCfg c old) = positions c := by
  rcases hc.order with h0 | h1
  · have hm : (headerCfg c old).M = c.M := by
      unfold Cfg.M headerCfg
      simp only [if_pos h0]
    have hbands : groupBands (headerCfg c old) = groupBands c := by
      funext i
      unfold groupBands
      rw [hm]
      rfl
    unfold positions biPositions
    rw [hm, hbands]
    rfl
  · unfold positions
    rw [if_pos (show (headerCfg c old).bsq = true from bsq_iff.mpr h1), if_pos (bsq_iff.mpr h1)]
    rfl

/-- Two weight tables agree where custom weights are taken from them. -/
def SameWeights (c : Cfg) (tw tw' : Memory Word) : Prop :=
  c.winit = 1 → ∀ z < c.Z, ∀ i < c.bandLength z, tw'.wordAt (twKey z i) = tw.wordAt (twKey z i)

/-- Two accumulator tables agree where a band's κ is taken from them. -/
def SameAccumulators (c : Cfg) (ta ta' : Memory Word) : Prop :=
  c.coder = 0 → c.atable = 1 → ∀ z < c.Z, ta'.wordAt z = ta.wordAt z

theorem weightsBefore_headerCfg (hw : c.winit = 0 ∨ c.winit = 1) (htw : SameWeights c tw tw') {z : Nat} (hz : z < c.Z) :
    ∀ t, weightsBefore (headerCfg c old) tw' h z t = weightsBefore c tw h z t
  | 0 => by
    show (if c.winit = 0 then defaultWeights c z else customWeights c tw' z) = _
    rw [weightsBefore]
    rcases hw with h0 | h1
    · rw [if_pos h0, if_pos h0]
    · have hne : ¬ c.winit = 0 := by rw [h1]; decide
      rw [if_neg hne, if_neg hne]
      unfold customWeights
      exact List.map_congr_left fun i hi => by rw [htw h1 z hz i (List.mem_range.mp hi)]
  | t + 1 => by
    show weightsOf c (weightsBefore (headerCfg c old) tw' h z t) h ⟨z, t / c.X, t % c.X⟩ (h z (t / c.X) (t % c.X)) = _
    rw [weightsBefore_headerCfg hw htw hz t, weightsBefore]

theorem residualAt_headerCfg (hw : c.winit = 0 ∨ c.winit = 1) (htw : SameWeights c tw tw') {p : Cursor} (hz : p.z < c.Z) :
    residualAt (headerCfg c old) tw' h p = residualAt c tw h p := by
  show (mapResidual c _ (scaledOf c (weightsBefore (headerCfg c old) tw' h p.z (p.y * c.X + p.x)) h p)).toNat = _
  rw [weightsBefore_headerCfg hw htw hz]
  rfl

theorem adaptiveBody_headerCfg (hl : LegalConfig c ta tw) (h0 : c.coder = 0) (htw : SameWeights c tw tw')
    (hta : SameAccumulators c ta ta') : adaptiveBody (headerCfg c old) ta' tw' h = adaptiveBody c ta tw h := by
  have hkappa : ∀ z < c.Z, (if c.K < 15 then c.K else natOf (ta'.wordAt z)) = (if c.K < 15 then c.K else natOf (ta.wordAt z)) := by
    intro z hz
    by_cases hk : c.K < 15
    · rw [if_pos hk, if_pos hk]
    · have h15 : c.k = 15 := by
        rcases hl.k h0 with hk' | hk'
        · have := hl.d
          have := natOf_cast (w := c.k) hk'.1
          unfold Cfg.K at hk
          omega
        · exact hk'
      rw [if_neg hk, if_neg hk, hta h0 ((hl.atable h0).2.mpr h15) z hz]
  have hstats : ∀ z < c.Z, ∀ d t, statsBefore (adaptiveRead c (predictorRead c (imageRead c old))) ta' z d t =
      statsBefore c ta z d t := by
    intro z hz d t
    induction t with
    | zero => exact congrArg (fun k => (⟨(3 * 2 ^ (k + 6) - 49) * 2 ^ c.G0 / 128, 2 ^ c.G0⟩ : BandStats)) (hkappa z hz)
    | succ t ih =>
      rw [statsBefore_succ, statsBefore_succ, ih]
      rfl
  unfold adaptiveBody
  rw [positions_headerCfg hl.cubeLegal]
  refine List.flatMap_congr fun p hp => ?_
  have hz := ((mem_positions hl.cubeLegal p).mp hp).1
  have hres : (fun t => residualAt (headerCfg c old) tw' h ⟨p.z, t / (headerCfg c old).X, t % (headerCfg c old).X⟩) =
      fun t => residualAt c tw h ⟨p.z, t / c.X, t % c.X⟩ := by
    funext t
    exact residualAt_headerCfg hl.winit htw (p := ⟨p.z, t / c.X, t % c.X⟩) hz
  rw [hres, residualAt_headerCfg hl.winit htw hz, headerCfg_adaptive h0, hstats p.z hz]
  rfl

theorem blockBody_headerCfg (hl : LegalConfig c ta tw) (h0 : ¬ c.coder = 0) (htw : SameWeights c tw tw') (hs : old.s = c.s) :
    blockBody (headerCfg c old) tw' h = blockBody c tw h := by
  set c' := headerCfg c old with hc'
  have hread : c' = blockRead c (predictorRead c (imageRead c old)) := headerCfg_block h0 old
  have hS : c'.S = c.S := congrArg natOf hs
  have hselect : select c' = select c := by rw [hread]; rfl
  have hmasked : masked c' = masked c := rfl
  have hblockCode : blockCode c' = blockCode c := by
    funext zrun b boundary option
    rw [hread]
    cases option <;> rfl
  have hrun : boundaryRunCode c' = boundaryRunCode c := by rw [hread]; rfl
  have hRSI : c'.RSI = c.RSI := by rw [hread]; rfl
  have hcode : ∀ (blocks : List (List Word)) (zrun cs cr : Nat), blocksCode c' zrun cs cr blocks = blocksCode c zrun cs cr blocks := by
    intro blocks
    induction blocks with
    | nil => intro zrun cs cr; rw [blocksCode, blocksCode, hrun]
    | cons b blocks ih =>
      intro zrun cs cr
      rw [blocksCode, blocksCode, hS, hRSI, hselect, hmasked, hblockCode]
      simp only [ih]
  have hres : ((positions c').map fun p => BitVec.ofNat 32 (residualAt c' tw' h p)) =
      (positions c).map fun p => BitVec.ofNat 32 (residualAt c tw h p) := by
    rw [hc', positions_headerCfg hl.cubeLegal]
    exact List.map_congr_left fun p hp => by
      rw [residualAt_headerCfg hl.winit htw ((mem_positions hl.cubeLegal p).mp hp).1]
  have hJ : c'.J = c.J := by rw [hread]; rfl
  unfold blockBody
  rw [hres, hJ]
  exact hcode _ 0 0 0

theorem bodyBits_headerCfg (hl : LegalConfig c ta tw) (htw : SameWeights c tw tw') (hta : SameAccumulators c ta ta')
    (hs : c.coder = 1 → old.s = c.s) : bodyBits (headerCfg c old) ta' tw' h = bodyBits c ta tw h := by
  unfold bodyBits
  rw [show (headerCfg c old).coder = c.coder from rfl]
  by_cases h0 : c.coder = 0
  · rw [if_pos h0, if_pos h0, adaptiveBody_headerCfg hl h0 htw hta]
  · rw [if_neg h0, if_neg h0, blockBody_headerCfg hl h0 htw (hs (hl.coder.resolve_left h0))]

end

end Sys2Proof.Machine
end

section
/-! DECOMPRESS of a stream: the header opens the session, the positions restore the image, the bytes after the stream stay
(46_header.md R482, 47_pipeline.md R553, R554). -/

namespace Sys2Proof.Machine

section
variable {c : Cfg} {ta tw : Memory Word} {h : Nat → Nat → Nat → Int}

/-! ### Opening the session -/

theorem headerRead_weights (hl : LegalConfig c ta tw) {p : Parameters} (hp : p.tw.tableWf = true) :
    SameWeights c tw (headerRead c ta tw p).tw := by
  intro h1 z hz i hi
  have hflag : c.wtable = 1 := hl.table.trans h1
  unfold headerRead
  rw [if_pos hflag, wordAt_copyEntries tw _ hp, if_pos]
  exact List.mem_flatMap.mpr ⟨z, List.mem_range.mpr hz, List.mem_map.mpr ⟨i, List.mem_range.mpr hi, rfl⟩⟩

theorem headerRead_accumulators {p : Parameters} (hp : p.ta.tableWf = true) :
    SameAccumulators c ta (headerRead c ta tw p).ta := by
  intro h0 h1 z hz
  unfold headerRead
  rw [if_pos ⟨h0, h1⟩, wordAt_copyEntries ta _ hp, if_pos (List.mem_range.mpr hz)]

/-- The configuration read is legal where the parameters a header does not carry are (46_header.md R482). -/
theorem LegalConfig.of_headerRead (hl : LegalConfig c ta tw) {u : State} (hout : outOfBandLegal c u) {ta' tw' : Memory Word}
    (hta : SameAccumulators c ta ta') (htw : SameWeights c tw tw') : LegalConfig (headerCfg c u.cfg) ta' tw' := by
  obtain ⟨hs, href, hped, -⟩ := hout
  have hm : (headerCfg c u.cfg).m = if c.order = 0 then c.m else u.cfg.m := rfl
  have sa : c.coder = 0 → (headerCfg c u.cfg).umax = c.umax ∧ (headerCfg c u.cfg).gstar = c.gstar ∧
      (headerCfg c u.cfg).g0 = c.g0 ∧ (headerCfg c u.cfg).k = c.k ∧ (headerCfg c u.cfg).atable = c.atable := fun h0 => by
    rw [headerCfg_adaptive h0]; exact ⟨rfl, rfl, rfl, rfl, rfl⟩
  have ba : c.coder = 1 → (headerCfg c u.cfg).j = c.j ∧ (headerCfg c u.cfg).rsi = c.rsi ∧
      (headerCfg c u.cfg).restrict = c.restrict := fun h1 => by
    rw [headerCfg_block (by rw [h1]; decide)]; exact ⟨rfl, rfl, rfl⟩
  refine
    { x := hl.x, y := hl.y, z := hl.z, signed := hl.signed, d := hl.d, order := hl.order, b := hl.b, coder := hl.coder, p := hl.p
      pmode := hl.pmode, lsmode := hl.lsmode, omega := hl.omega, r := hl.r, te := hl.te, vmin := hl.vmin, vmax := hl.vmax
      winit := hl.winit, wtable := hl.wtable, table := hl.table, q := hl.q, s := hs, refsamp := href, pedantic := hped
      narrow := hl.narrow, m := fun h0 => ?_, weights := fun z hz i hi h1 => ?_, umax := fun h0 => ?_, gstar := fun h0 => ?_
      g0 := fun h0 => ?_, k := fun h0 => ?_, atable := fun h0 => ?_, accumulators := fun z hz hk => ?_, j := fun h1 => ?_
      rsi := fun h1 => ?_, restrict := fun h1 => ?_ }
  · rw [hm, if_pos (show c.order = 0 from h0)]; exact hl.m h0
  · have := htw h1 z hz i hi
    unfold twKey at this
    rw [this]
    exact hl.weights z hz i hi h1
  · rw [(sa h0).1]; exact hl.umax h0
  · rw [(sa h0).2.1]; exact hl.gstar h0
  · rw [(sa h0).2.1, (sa h0).2.2.1]; exact hl.g0 h0
  · rw [(sa h0).2.2.2.1]; exact hl.k h0
  · rw [(sa h0).2.2.2.1, (sa h0).2.2.2.2]; exact hl.atable h0
  · have h0 : c.coder = 0 := hk.1
    have h15 : c.k = 15 := (sa h0).2.2.2.1 ▸ hk.2
    rw [hta h0 ((hl.atable h0).2.mpr h15) z hz]
    exact hl.accumulators z hz ⟨h0, h15⟩
  · rw [(ba h1).1]; exact hl.j h1
  · rw [(ba h1).2.1]; exact hl.rsi h1
  · rw [(ba h1).2.2]; exact hl.restrict h1

/-- The header opens the session: it is read, its check passes, and the reader stands at what follows it. -/
theorem openFromHeader_ok (hl : LegalConfig c ta tw) {u : State} (hwf : Memory.wf u = true) (hout : outOfBandLegal c u)
    {rest : List Bool} (hbits : bitsOfBytes u.bin = headerBits 0 c ta tw ++ rest) :
    ∃ t, openFromHeader u = .ok () (derive t) ∧
      Taken (headerBits 0 c ta tw) ((clearSession u).withParameters (headerRead c ta tw u.parameters)) t ∧
      LegalConfig t.cfg t.ta t.tw ∧ HasLeft u.bin rest t := by
  obtain ⟨hwfta, hwftw, -⟩ := (wf_iff u).mp hwf
  have hleft : HasLeft u.bin (headerBits 0 c ta tw ++ rest) (clearSession u) :=
    ⟨Nat.zero_lt_succ 7, List.suffix_refl _, hbits⟩
  have h8 : rest.length % 8 = 0 := by
    have hlen := congrArg List.length hbits
    have := length_sectionsBits (headerSections c ta tw)
    rw [length_bitsOfBytes, List.length_append, headerBits] at hlen
    omega
  obtain ⟨t, hrun, htaken⟩ := loads_hdrRead hl u.parameters (clearSession u) u.bin rest rfl h8 hleft
  have hparams := taken_parameters htaken
  have hcfg : t.cfg = headerCfg c u.cfg := congrArg Parameters.cfg hparams
  have hta : t.ta = (headerRead c ta tw u.parameters).ta := congrArg Parameters.ta hparams
  have htw : t.tw = (headerRead c ta tw u.parameters).tw := congrArg Parameters.tw hparams
  have hlegal : LegalConfig t.cfg t.ta t.tw := by
    rw [hcfg, hta, htw]
    exact hl.of_headerRead hout (headerRead_accumulators hwfta) (headerRead_weights hl hwftw)
  have hcap : FitsCapacity t.cfg t.histCapacity := by
    rw [hcfg, htaken.1]
    exact hout.2.2.2
  refine ⟨t, ?_, htaken, hlegal, (hleft.withParameters _).taken htaken⟩
  have hcheck : checkHeader t = .ok () t := by
    unfold checkHeader
    rw [get_bind, firstFailure_none hlegal (fun hp => absurd hp.1 (by simp)) hcap]
    rfl
  unfold openFromHeader
  rw [modify_bind, bind_ok hrun, bind_ok hcheck]
  rfl

/-! ### The blocks of the residuals -/

theorem isBlock_blocksIn (hj : 0 < c.J) : ∀ (n : Nat) (l : List Word), l.length ≤ n → (∀ w ∈ l, w.toNat < 2 ^ c.D) →
    (∀ b ∈ blocksIn c.J l, IsBlock c b) ∧ ∃ pad, (blocksIn c.J l).flatten = l ++ pad := by
  intro n
  induction n with
  | zero =>
    intro l hn _
    obtain rfl := List.length_eq_zero_iff.mp (Nat.le_zero.mp hn)
    rw [blocksIn_nil hj]
    exact ⟨fun _ hb => absurd hb List.not_mem_nil, [], rfl⟩
  | succ n ih =>
    intro l hn hl
    rcases Nat.lt_or_ge l.length c.J with hlt | hge
    · rcases Nat.eq_zero_or_pos l.length with h0 | h0
      · exact ih l (by omega) hl
      · rw [blocksIn_partial h0 hlt]
        refine ⟨List.forall_mem_singleton.mpr ⟨?_, fun w hw => ?_⟩, List.replicate (c.J - l.length) 0, by simp⟩
        · rw [List.length_append, List.length_replicate]; omega
        · rcases List.mem_append.mp hw with hw | hw
          · exact hl w hw
          · rw [List.eq_of_mem_replicate hw]; exact Nat.two_pow_pos _
    · have hlen : (l.take c.J).length = c.J := by rw [List.length_take]; omega
      obtain ⟨h1, pad, h2⟩ := ih (l.drop c.J) (by rw [List.length_drop]; omega) fun w hw => hl w (List.mem_of_mem_drop hw)
      rw [← List.take_append_drop c.J l, blocksIn_block hj hlen]
      refine ⟨List.forall_mem_cons.mpr ⟨⟨hlen, fun w hw => hl w (List.mem_of_mem_take hw)⟩, h1⟩, pad, ?_⟩
      rw [List.flatten_cons, h2, List.append_assoc]

/-- The decoder before the first sample. -/
theorem decodingSamples_start (hb : BlockLegal c) {s : State} (hcfg : s.cfg = c) (hcs : s.cs = 0) (hcr : s.cr = 0)
    (hrun : s.runrem = 0) (hdbuf : s.dbuf = []) {ws : List Word} (hws : ∀ w ∈ ws, w.toNat < 2 ^ c.D) {whole : List Byte}
    {rest : List Bool} (hleft : HasLeft whole (blocksCode c 0 0 0 (blocksIn c.J ws) ++ rest) s) :
    DecodingSamples c whole rest ws s := by
  obtain ⟨hblocks, pad, hflat⟩ := isBlock_blocksIn hb.size.1 ws.length ws le_rfl hws
  refine ⟨.inl hdbuf, blocksIn c.J ws, pad, ⟨hcfg, by rw [hcs]; exact hb.segment.1, by rw [hcr]; exact hb.reference, hblocks, 0,
    blocksIn c.J ws, rfl, ?_, .inl hrun⟩, by rw [hdbuf, hflat, List.drop_nil, List.nil_append]⟩
  rw [hcs, hcr, Nat.zero_mod, Nat.zero_mod]
  exact hleft

/-! ### The run -/

theorem adaptiveBody_eq (hc : CubeLegal c) :
    adaptiveBody c ta tw h = (positions c).flatMap (adaptiveCodeAt c ta (residualsOf c tw h)) := by
  refine List.flatMap_congr fun p hp => ?_
  unfold adaptiveCodeAt
  rw [residualsOf_index ((mem_positions hc p).mp hp).2.2]
  rfl

/-- The state DECOMPRESS begins its positions in. -/
theorem restoring_start (hs : SampledCube c h) (hblock : c.coder ≠ 0 → BlockLegal c) {s : State} (hcfg : s.cfg = c)
    (hta : s.ta = ta) (htw : s.tw = tw) (hcs : s.cs = 0) (hcr : s.cr = 0) (hrun : s.runrem = 0) (hdbuf : s.dbuf = [])
    {whole : List Byte} {rest : List Bool} (hleft : HasLeft whole (bodyBits c ta tw h ++ rest) s) :
    Restoring c ta tw h whole rest s [] s := by
  refine ⟨⟨hcfg, htw, fun q hq => absurd hq List.not_mem_nil, fun z hz => absurd rfl hz⟩, fun r hr => ?_, by simp,
    fun q hq => by simp at hq, rfl⟩
  obtain rfl : positions c = r := hr
  refine ⟨fun h0 => ⟨⟨hta, fun z hz => absurd rfl hz⟩, ?_⟩, fun h0 => ?_⟩
  · rw [← adaptiveBody_eq hs.cube]
    unfold bodyBits at hleft
    rwa [if_pos h0] at hleft
  · unfold bodyBits at hleft
    rw [if_neg h0] at hleft
    refine decodingSamples_start (hblock h0) hcfg hcs hcr hrun hdbuf (fun w hw => ?_) hleft
    obtain ⟨p, hp, rfl⟩ := List.mem_map.mp hw
    have hin := (mem_positions hs.cube p).mp hp
    rw [residualWord_toNat hs hin]
    exact residualAt_lt hs hin

/-- The positions of DECOMPRESS, from the state the header leaves. -/
theorem decompress_positions (hs : SampledCube c h) (hblock : c.coder ≠ 0 → BlockLegal c) {whole : List Byte} {rest : List Bool}
    {s : State} (hstart : Restoring c ta tw h whole rest s [] s) : ∃ t, forEach (positions c) (decompressAt c) s = .ok () t ∧
      Restoring c ta tw h whole rest s (positions c) t :=
  forEach_invariant (P := Restoring c ta tw h whole rest s)
    (fun _ _ _ hl _ hi => decompressAt_along hs hblock hl hi) [] (positions c) rfl s hstart

/-- After the last position the bytes that follow the stream are still in BIN. -/
theorem Restoring.bytesLeft {whole more : List Byte} {fill : List Bool} {start s : State} (hm : more <:+ whole)
    (hi : Restoring c ta tw h whole (fill ++ bitsOfBytes more) start (positions c) s) : more <:+ s.bin := by
  have hcode := hi.ahead [] (List.append_nil _).symm
  by_cases h0 : c.coder = 0
  · exact (hcode.adaptive h0).2.suffix hm
  · obtain ⟨blocks, pad, hblocks, -⟩ := (hcode.block h0).samples
    obtain ⟨m, later, -, hleft, -⟩ := hblocks.ahead
    rw [← List.append_assoc] at hleft
    exact hleft.suffix hm

/-- Bytes whose bits end with those of other bytes end with these. -/
theorem suffix_of_bits {whole more : List Byte} {bits : List Bool} (h : bitsOfBytes whole = bits ++ bitsOfBytes more) :
    more <:+ whole := by
  have hlen := congrArg List.length h
  rw [List.length_append, length_bitsOfBytes, length_bitsOfBytes] at hlen
  rw [← List.take_append_drop (whole.length - more.length) whole, bitsOfBytes_append] at h
  have hsame : (bitsOfBytes (whole.take (whole.length - more.length))).length = bits.length := by
    rw [length_bitsOfBytes, List.length_take]; omega
  rw [← bitsOfBytes_inj (List.append_inj h hsame).2]
  exact List.drop_suffix _ _

/-- What equal views say of the host's registers and of the streams DECOMPRESS has no part in. -/
theorem hostView_fields {u v : State} (e : hostView v = hostView u) :
    v.sin = u.sin ∧ v.bout = u.bout ∧ v.blk = u.blk ∧ v.arg0 = u.arg0 ∧ v.arg1 = u.arg1 ∧ v.arg2 = u.arg2 ∧
    v.arg3 = u.arg3 ∧ v.result = u.result ∧ v.result1 = u.result1 ∧ v.irqEn = u.irqEn ∧ v.errCode = u.errCode ∧
    v.errInfo = u.errInfo :=
  ⟨field_eq State.sin e fun _ => rfl, field_eq State.bout e fun _ => rfl, field_eq State.blk e fun _ => rfl,
    field_eq State.arg0 e fun _ => rfl, field_eq State.arg1 e fun _ => rfl, field_eq State.arg2 e fun _ => rfl,
    field_eq State.arg3 e fun _ => rfl, field_eq State.result e fun _ => rfl, field_eq State.result1 e fun _ => rfl,
    field_eq State.irqEn e fun _ => rfl, field_eq State.errCode e fun _ => rfl, field_eq State.errInfo e fun _ => rfl⟩

/-- The stream after its header: the body, then what fills the last byte and the last output word. -/
theorem stream_after_header : ∃ fill, streamBits c ta tw h = headerBits 0 c ta tw ++ (bodyBits c ta tw h ++ fill) := by
  let coded := headerBits 0 c ta tw ++ bodyBits c ta tw h
  let padded := coded ++ padBits coded.length
  refine ⟨padBits coded.length ++ zeroBits (wordPad c.B padded.length), ?_⟩
  rw [← List.append_assoc, ← List.append_assoc]
  rfl

/-- What the header of a stream leaves: the same cube and the same body under the configuration read, the body ahead. -/
theorem decompress_opened (hl : LegalConfig c ta tw) {u : State} {image : List Word} {after : List Bool}
    (hwf : Memory.wf u = true) (hout : outOfBandLegal c u) (hs : c.coder = 1 → u.cfg.s = c.s) (hi : imageLegal c image)
    (hbits : bitsOfBytes u.bin =
      headerBits 0 c ta tw ++ (bodyBits c ta tw (imageSample c image) ++ after)) :
    ∃ t, openFromHeader u = .ok () t ∧ t.cfg = headerCfg c u.cfg ∧ LegalConfig t.cfg t.ta t.tw ∧
      SampledCube t.cfg (imageSample c image) ∧ t.sout = u.sout ∧ hostView t = hostView u ∧
      Restoring t.cfg t.ta t.tw (imageSample c image) u.bin after t [] t := by
  obtain ⟨t, hopen, htaken, hlegal, hleft⟩ := openFromHeader_ok hl hwf hout hbits
  have hparams := taken_parameters htaken
  have hcfg : t.cfg = headerCfg c u.cfg := congrArg Parameters.cfg hparams
  have hta : t.ta = (headerRead c ta tw u.parameters).ta := congrArg Parameters.ta hparams
  have htw : t.tw = (headerRead c ta tw u.parameters).tw := congrArg Parameters.tw hparams
  obtain ⟨hwfta, hwftw, -⟩ := (wf_iff u).mp hwf
  have hcube : SampledCube t.cfg (imageSample c image) := by
    rw [hcfg] at hlegal ⊢
    exact sampledCube_of_image (c := headerCfg c u.cfg) hlegal hi
  have hbody : bodyBits t.cfg t.ta t.tw (imageSample c image) = bodyBits c ta tw (imageSample c image) := by
    rw [hcfg, hta, htw]
    exact bodyBits_headerCfg hl (headerRead_weights hl hwftw) (headerRead_accumulators hwfta) hs
  rw [← hbody] at hleft
  refine ⟨derive t, hopen, hcfg, hlegal, hcube, ?_, ?_, restoring_start (s := derive t) hcube
    (fun hne => hlegal.blockLegal (hlegal.coder.resolve_left hne)) rfl rfl rfl ?_ ?_ ?_ ?_
    ⟨hleft.partialByte, hleft.bytes, hleft.bits⟩⟩
  · show t.sout = u.sout; rw [htaken.1]; rfl
  · show hostView t = hostView u; rw [htaken.1]; rfl
  · show t.cs = 0; rw [htaken.1]; rfl
  · show t.cr = 0; rw [htaken.1]; rfl
  · show t.runrem = 0; rw [htaken.1]; rfl
  · show t.dbuf = []; rw [htaken.1]; rfl

/-- DECOMPRESS of bytes that begin with the stream of an image restores the image. -/
theorem decompress_restores (hl : LegalConfig c ta tw) {u : State} {image : List Word} {more : List Byte} (hmode : u.mode = .idle)
    (hwf : Memory.wf u = true) (hout : outOfBandLegal c u) (hs : c.coder = 1 → u.cfg.s = c.s) (hi : imageLegal c image)
    (hbits : bitsOfBytes u.bin = streamBits c ta tw (imageSample c image) ++ bitsOfBytes more) :
    ∃ v, exec .decompress u = .next v ∧ Restored c image more u v := by
  obtain ⟨fill, hstream⟩ := stream_after_header (c := c) (ta := ta) (tw := tw) (h := imageSample c image)
  have hmore := suffix_of_bits hbits
  rw [hstream, List.append_assoc, List.append_assoc] at hbits
  obtain ⟨t, hopen, hcfg, hlegal, hcube, hsout, hhost, hstart⟩ := decompress_opened hl hwf hout hs hi hbits
  obtain ⟨v, hrun, hv⟩ := decompress_positions hcube (fun hne => hlegal.blockLegal (hlegal.coder.resolve_left hne)) hstart
  have hbodyRun : bodyDecompress u = .ok () (closePipeline v) := by
    unfold bodyDecompress
    rw [bind_ok hopen, get_bind, bind_ok hrun]
    rfl
  have hexec : exec .decompress u = .next (setDone (closePipeline v)) :=
    runCommand_of_ok (by rw [hmode]; simp) (by rw [hmode]; rfl) rfl hbodyRun
  refine ⟨_, hexec, ?_, (show more <:+ v.bin from hv.bytesLeft hmore), rfl, rfl, hv.predicting.sameCfg.trans hcfg, ?_,
    hostView_fields (hv.host.trans hhost)⟩
  · show v.sout = u.sout ++ image
    have himage : (positions t.cfg).flatMap (outputOf t.cfg (imageSample c image)) = image := by
      rw [hcfg] at hcube ⊢
      exact output_of_positions (c := headerCfg c u.cfg) hcube.cube hi.1
    rw [hv.pushed, hsout, himage]
  · obtain ⟨l, hlast⟩ := positions_last hcube.cube
    have hcursor := hv.cursor ⟨t.cfg.Z - 1, t.cfg.Y - 1, t.cfg.X - 1⟩ (by rw [hlast, List.getLast?_concat])
    rw [hcfg] at hcursor
    exact hcursor

end

end Sys2Proof.Machine
end

section
/-! COMPRESS position by position: the rows of SIN are taken as the traversal gets to them, and what has been written and what
the positions to come will add are the whole code (47_pipeline.md R546, R548). -/

namespace Sys2Proof.Machine

section
variable {c : Cfg} {ta tw : Memory Word} {h : Nat → Nat → Nat → Int} {samples : List Word} {l r : List Cursor} {p : Cursor}
  {rows : List Word} {old : List Byte} {total bits : List Bool} {s t : State}

/-! ### The rows of SIN -/

/-- After the positions `l`, of the samples SIN began with, the rows begun have been taken and the last is in the row buffer. -/
structure RowsLoaded (c : Cfg) (samples : List Word) (l : List Cursor) (rows : List Word) (s : State) : Prop where
  left : s.sin = samples.drop (l.countP (rowStart c) * rowWidth c)
  buffer : ∀ i, l.countP (rowStart c) = i + 1 → rows = (samples.drop (i * rowWidth c)).take (rowWidth c)

theorem popSamples_ok {n : Nat} (hn : n ≤ s.sin.length) :
    popSamples n s = .ok (s.sin.take n) { s with sin := s.sin.drop n } := by
  unfold popSamples
  rw [get_bind, bind_ok (require_ok hn _ _ _)]
  rfl

/-- Both orders load a row of `rowWidth` samples where one begins. -/
theorem loadRows_eq (c : Cfg) (p : Cursor) (rows : List Word) :
    loadRows c p rows = if rowStart c p = true then popSamples (rowWidth c) else pure rows := by
  unfold loadRows rowStart rowWidth
  by_cases hb : c.bsq = true
  · simp only [if_pos hb, beq_iff_eq]
  · simp only [if_neg hb, Bool.and_eq_true, beq_iff_eq]

theorem loadRows_along (hc : CubeLegal c) (hl : positions c = l ++ p :: r) (hlen : c.X * c.Y * c.Z ≤ samples.length)
    (hs : RowsLoaded c samples l rows s) : ∃ rows' left, loadRows c p rows s = .ok rows' { s with sin := left } ∧
      RowsLoaded c samples (l ++ [p]) rows' { s with sin := left } := by
  have hfit := row_fits hlen (rowIndex_lt (inCube_of_split hc hl))
  have hupto := rowStarts_upto hc hl
  have hsnoc : (l ++ [p]).countP (rowStart c) = l.countP (rowStart c) + if rowStart c p = true then 1 else 0 := by
    rw [List.countP_append, List.countP_singleton]
  rw [loadRows_eq]
  by_cases hstart : rowStart c p = true
  · rw [if_pos hstart] at hsnoc ⊢
    have hcount : l.countP (rowStart c) = rowIndex c p := by omega
    have hleft := hs.left
    rw [hcount] at hleft
    refine ⟨_, _, popSamples_ok (by rw [hleft, List.length_drop]; omega), ?_, fun i hi => ?_⟩
    · dsimp only
      rw [hupto, hleft, List.drop_drop, Nat.succ_mul]
    · obtain rfl : rowIndex c p = i := by omega
      rw [hleft]
  · rw [if_neg hstart] at hsnoc ⊢
    rw [Nat.add_zero] at hsnoc
    exact ⟨rows, s.sin, rfl, by rw [hsnoc]; exact hs.left, by rw [hsnoc]; exact hs.buffer⟩

/-- The row buffer's sample of a position is the image's (47_pipeline.md R546). -/
theorem RowsLoaded.rowSample (hc : CubeLegal c) (hl : positions c = l ++ p :: r)
    (hs : RowsLoaded c samples (l ++ [p]) rows s) : rowSample c p rows = imageSample c samples p.z p.y p.x := by
  have hoff := rowOffset_lt (inCube_of_split hc hl)
  rw [imageSample_row, hs.buffer _ (rowStarts_upto hc hl)]
  change (((samples.drop _).take _).getD (rowOffset c p) 0).toInt = _
  rw [List.getD_eq_getElem?_getD, List.getD_eq_getElem?_getD, List.getElem?_take_of_lt hoff, List.getElem?_drop]

/-- Samples beyond the image are no part of it. -/
theorem imageSample_take (c : Cfg) (samples : List Word) (hp : InCube c p) :
    imageSample c (samples.take (c.X * c.Y * c.Z)) p.z p.y p.x = imageSample c samples p.z p.y p.x := by
  have hoff := rowOffset_lt hp
  have hlt : rowIndex c p * rowWidth c + rowOffset c p < c.X * c.Y * c.Z :=
    calc rowIndex c p * rowWidth c + rowOffset c p < rowIndex c p * rowWidth c + rowWidth c := by omega
    _ = (rowIndex c p + 1) * rowWidth c := (Nat.succ_mul _ _).symm
    _ ≤ rowCount c * rowWidth c := Nat.mul_le_mul_right _ (rowIndex_lt hp)
    _ = c.X * c.Y * c.Z := rowCount_mul_rowWidth c
  rw [imageSample_row, imageSample_row, List.getD_eq_getElem?_getD, List.getD_eq_getElem?_getD, List.getElem?_take_of_lt hlt]

/-! ### States that agree where an encoder looks -/

/-- What the encoders look at, but for the statistics. -/
def blockEncoderView (s : State) : State :=
  { s with cursor := ⟨0, 0, 0⟩, sin := [], weights := [], stats := [], hist := [] }

theorem HasWritten.congr (hw : HasWritten old bits s) (e : blockEncoderView t = blockEncoderView s) : HasWritten old bits t := by
  have hclosed : t.closed = s.closed := field_eq State.closed e fun _ => rfl
  have hwbuf : t.wbuf = s.wbuf := field_eq State.wbuf e fun _ => rfl
  have hbout : t.bout = s.bout := field_eq State.bout e fun _ => rfl
  have hbytes : t.bytesOut = s.bytesOut := field_eq State.bytesOut e fun _ => rfl
  have hbits : t.outBits = s.outBits := by unfold State.outBits; rw [hbout, hwbuf]
  exact ⟨hclosed.trans hw.opened, hwbuf ▸ hw.partialByte, hbout ▸ hw.earlier, hbits.trans hw.bits,
    by rw [hbytes, hbout]; exact hw.bytes⟩

theorem CollectingBlocks.congr {ws : List Word} (hs : CollectingBlocks c old total ws s)
    (e : blockEncoderView t = blockEncoderView s) : CollectingBlocks c old total ws t := by
  have hfill : t.efill = s.efill := field_eq State.efill e fun _ => rfl
  have hbuf : t.ebuf = s.ebuf := field_eq State.ebuf e fun _ => rfl
  have hcode : pendingCode c t ws = pendingCode c s ws := by
    unfold pendingCode
    rw [hbuf, field_eq State.zrun e fun _ => rfl, field_eq State.cs e fun _ => rfl, field_eq State.cr e fun _ => rfl]
  obtain ⟨bits, hw, htotal⟩ := hs.written
  exact ⟨(field_eq State.cfg e fun _ => rfl).trans hs.sameCfg, by rw [hbuf, hfill]; exact hs.filled, hfill ▸ hs.room, bits,
    hw.congr e, by rw [hcode]; exact htotal⟩

/-! ### One position -/

/-- Either coder before the positions `r`, after the positions `l`: with their code it will have written `total`. -/
structure CodeBehind (c : Cfg) (ta tw : Memory Word) (h : Nat → Nat → Nat → Int) (old : List Byte) (total : List Bool)
    (l r : List Cursor) (s : State) : Prop where
  adaptive : c.coder = 0 → Adapting c ta (residualsOf c tw h) l s ∧
    ∃ bits, HasWritten old bits s ∧ bits ++ r.flatMap (adaptiveCodeAt c ta (residualsOf c tw h)) = total
  block : c.coder ≠ 0 → CollectingBlocks c old total (r.map (residualWord c tw h)) s

theorem CodeBehind.congr (hcode : CodeBehind c ta tw h old total l r s) (e : blockEncoderView t = blockEncoderView s)
    (hstats : c.coder = 0 → Adapting c ta (residualsOf c tw h) l t) : CodeBehind c ta tw h old total l r t := by
  refine ⟨fun h0 => ⟨hstats h0, ?_⟩, fun hne => (hcode.block hne).congr e⟩
  obtain ⟨-, bits, hw, htotal⟩ := hcode.adaptive h0
  exact ⟨bits, hw.congr e, htotal⟩

/-- COMPRESS after the positions `l`, with this row buffer. -/
structure Compressing (c : Cfg) (ta tw : Memory Word) (h : Nat → Nat → Nat → Int) (samples : List Word) (old : List Byte)
    (total : List Bool) (l : List Cursor) (rows : List Word) (s : State) : Prop where
  predicting : Predicting c tw h l s
  behind : ∀ r, positions c = l ++ r → CodeBehind c ta tw h old total l r s
  loaded : RowsLoaded c samples l rows s
  unended : s.terminated = false

/-- `EncodeResidual` of the residual of the position (47_pipeline.md R547). -/
theorem encodeResidual_along (hs : SampledCube c h) (hblock : c.coder ≠ 0 → BlockLegal c) (hl : positions c = l ++ p :: r)
    (hcfg : s.cfg = c) (hready : c.coder = 0 → ReadyToAdapt c ta (residualsOf c tw h) l p s)
    (hcode : CodeBehind c ta tw h old total l (p :: r) s) :
    ∃ t, encodeResidual c p.z (p.y * c.X + p.x) (residualAt c tw h p) s = .ok () t ∧
      CodeBehind c ta tw h old total (l ++ [p]) r t := by
  have hin := inCube_of_split hs.cube hl
  by_cases h0 : c.coder = 0
  · obtain ⟨-, bits, hw, htotal⟩ := hcode.adaptive h0
    obtain ⟨t, hrun, hadapt, hw'⟩ := encodeResidual_adaptive hs.cube h0 hl (hready h0) hcfg hw
    rw [residualsOf_index hin.2.2] at hrun
    rw [List.flatMap_cons, ← List.append_assoc] at htotal
    exact ⟨t, hrun, fun _ => ⟨hadapt, _, hw', htotal⟩, fun hne => absurd h0 hne⟩
  · obtain ⟨t, hrun, hnext⟩ := codeSample_along (hblock h0).size.1 (hcode.block h0)
    rw [residualWord_toNat hs hin] at hrun
    refine ⟨t, ?_, fun he => absurd he h0, fun _ => hnext⟩
    unfold encodeResidual
    rw [if_neg h0, hrun]

/-- COMPRESS at one position. -/
theorem compressAt_along (hs : SampledCube c h) (hblock : c.coder ≠ 0 → BlockLegal c)
    (hsamples : ∀ q, InCube c q → imageSample c samples q.z q.y q.x = h q.z q.y q.x)
    (hlen : c.X * c.Y * c.Z ≤ samples.length) (hl : positions c = l ++ p :: r)
    (hi : Compressing c ta tw h samples old total l rows s) :
    ∃ rows' t, compressAt c p rows s = .ok rows' t ∧ Compressing c ta tw h samples old total (l ++ [p]) rows' t := by
  obtain ⟨hpred, hbehind, hloaded, hopen⟩ := hi
  have hcode := hbehind (p :: r) hl
  -- the cursor and the rows
  obtain ⟨rows', left, hrun1, hloaded1⟩ := loadRows_along (s := { s with cursor := p }) hs.cube hl hlen ⟨hloaded.left, hloaded.buffer⟩
  have hpred1 : Predicting c tw h l { s with cursor := p, sin := left } := hpred.congr rfl rfl rfl rfl
  have hadapt1 : c.coder = 0 → Adapting c ta (residualsOf c tw h) l { s with cursor := p, sin := left } := fun h0 =>
    (hcode.adaptive h0).1.congr rfl rfl
  have hsample : rowSample c p rows' = h p.z p.y p.x :=
    (hloaded1.rowSample hs.cube hl).trans (hsamples p (inCube_of_split hs.cube hl))
  -- the band
  obtain ⟨s2, hrun2, hs2, hready2, hadapt2⟩ := initBand_ok hs.cube hl hpred1 hadapt1
  -- the sample
  obtain ⟨ss, s3, hrun3, hs3, hpred3⟩ := predCompress_along hs hl hready2
  have hadapt3 : c.coder = 0 → ReadyToAdapt c ta (residualsOf c tw h) l p s3 := fun h0 =>
    (hadapt2 h0).congr (by rw [hs3]) (by rw [hs3])
  have hview : blockEncoderView s3 = blockEncoderView s := by rw [hs3, hs2]; rfl
  -- the residual
  obtain ⟨t, hrun4, hcode4⟩ := encodeResidual_along hs hblock hl hpred3.sameCfg hadapt3
    (hcode.congr hview fun h0 => (hadapt3 h0).toAdapting)
  have hview4 := keeps_ok (keeps_encodeResidual c p.z (p.y * c.X + p.x) (residualAt c tw h p)) hrun4
  refine ⟨rows', t, ?_, ?_, fun r' hr' => ?_, ⟨?_, hloaded1.buffer⟩, ?_⟩
  · unfold compressAt setCursor
    rw [modify_bind, bind_ok hrun1, bind_ok hrun2, hsample, bind_ok hrun3]
    dsimp only
    rw [Int.toNat_natCast, bind_ok hrun4]
    rfl
  · exact hpred3.congr (field_eq State.cfg hview4 fun _ => rfl) (field_eq State.tw hview4 fun _ => rfl)
      (field_eq State.hist hview4 fun _ => rfl) (field_eq State.weights hview4 fun _ => rfl)
  · have hr : r' = r := by
      rw [hl, List.append_assoc, List.singleton_append] at hr'
      exact (List.cons_eq_cons.mp (List.append_cancel_left hr')).2.symm
    rw [hr]
    exact hcode4
  · have hsin : s3.sin = left := by rw [hs3, hs2]
    rw [field_eq State.sin hview4 fun _ => rfl, hsin]
    exact hloaded1.left
  · rw [field_eq State.terminated hview4 fun _ => rfl]
    exact (field_eq State.terminated hview fun _ => rfl).trans hopen

end

end Sys2Proof.Machine
end

section
/-! The whole of COMPRESS, and the round trip (47_pipeline.md R551 to R554, 00_scope.md R3). -/

namespace Sys2Proof.Machine

section
variable {c : Cfg} {ta tw : Memory Word} {h : Nat → Nat → Nat → Int} {samples : List Word} {rows : List Word}
  {old : List Byte} {total bits : List Bool} {s : State}

/-! ### The end of the stream -/

/-- The terminate of the configured coder leaves the whole code, its last byte filled. -/
theorem terminate_along (hblock : c.coder ≠ 0 → BlockLegal c)
    (hi : Compressing c ta tw h samples old total (positions c) rows s) :
    ∃ t, (if c.coder = 0 then saTerminate else baTerminate) s = .ok () t ∧
      HasWritten old (total ++ padBits total.length) t ∧ t.wbuf = [] := by
  have hcode := hi.behind [] (List.append_nil _).symm
  by_cases h0 : c.coder = 0
  · obtain ⟨-, bits, hw, htotal⟩ := hcode.adaptive h0
    rw [List.flatMap_nil, List.append_nil] at htotal
    subst htotal
    obtain ⟨t, hflush, ht, hwbuf⟩ := hw.flush
    refine ⟨{ t with terminated := true }, ?_, ⟨ht.opened, ht.partialByte, ht.earlier, ht.bits, ht.bytes⟩, hwbuf⟩
    rw [if_pos h0]
    unfold saTerminate requireOpen
    rw [bind_apply, get_bind, require_ok hi.unended]
    dsimp only
    rw [bind_ok hflush]
    rfl
  · rw [if_neg h0]
    exact baTerminate_along (hblock h0).size.1 (hcode.block h0) hi.unended

theorem finish_eq (c : Cfg) : finish c =
    ((if c.coder = 0 then saTerminate else baTerminate) >>= fun _ => padWord c.B >>= fun _ => close) := by
  unfold finish
  split <;> rfl

/-- `Finish`: the last byte and the last output word are filled, and the stream is closed at a byte boundary. -/
theorem finish_along (hb : 0 < c.B) (hblock : c.coder ≠ 0 → BlockLegal c)
    (hi : Compressing c ta tw h samples old total (positions c) rows s) :
    ∃ t bytes, finish c s = .ok () t ∧ t.bout = old ++ bytes ∧
      bitsOfBytes bytes = total ++ padBits total.length ++ zeroBits (wordPad c.B (total ++ padBits total.length).length) := by
  obtain ⟨t, hterm, ht, -⟩ := terminate_along hblock hi
  obtain ⟨u, hpad, hemit, hwbuf⟩ := padWord_ok hb (fun hc => absurd hc (by simp [ht.opened])) ht.partialByte
  rw [← ht.length] at hemit
  have hu := ht.emitted hemit
  obtain ⟨v, hclose, hemit', hwbuf'⟩ := close_ok (s := u) (fun _ => hwbuf) hu.partialByte
  have hv := hu.emitted hemit'
  obtain ⟨bytes, hbout, hbits, -⟩ := hv.bout hwbuf'
  refine ⟨{ v with closed := true }, bytes, ?_, hbout, ?_⟩
  · rw [finish_eq, bind_ok hterm, bind_ok hpad, hclose]
  · rw [hbits, hwbuf]
    exact List.append_nil _

/-! ### COMPRESS -/

/-- The state the header leaves, before the first position. -/
theorem compressing_start (hs : CubeLegal c) (hblock : c.coder ≠ 0 → BlockLegal c) (hcfg : s.cfg = c) (hta : s.ta = ta)
    (htw : s.tw = tw) (hopen : s.terminated = false) (hsin : s.sin = samples) (hzrun : s.zrun = 0) (hcs : s.cs = 0)
    (hcr : s.cr = 0) (hebuf : s.ebuf = []) (hefill : s.efill = 0) (hw : HasWritten old bits s) :
    Compressing c ta tw h samples old (bits ++ bodyBits c ta tw h) [] [] s := by
  refine ⟨⟨hcfg, htw, fun q hq => absurd hq List.not_mem_nil, fun z hz => absurd rfl hz⟩, fun r hr => ?_,
    ⟨by simpa using hsin, fun i hi => absurd hi (by simp)⟩, hopen⟩
  obtain rfl : positions c = r := hr
  refine ⟨fun h0 => ⟨⟨hta, fun z hz => absurd rfl hz⟩, bits, hw, ?_⟩, fun hne =>
    ⟨hcfg, by rw [hebuf, hefill]; rfl, hefill ▸ (hblock hne).size.1, bits, hw, ?_⟩⟩
  · rw [← adaptiveBody_eq hs]
    unfold bodyBits
    rw [if_pos h0]
  · unfold pendingCode bodyBits
    rw [hzrun, hcs, hcr, hebuf, if_neg hne]
    rfl

/-- The header opens the stream. -/
theorem hdrWrite_along (s : State) : ∃ t, hdrWrite (derive (clearSession s)) = .ok () t ∧
    t = { derive (clearSession s) with wbuf := t.wbuf, bout := t.bout, bytesOut := t.bytesOut, bitsOut := t.bitsOut } ∧
    HasWritten s.bout (headerBits 0 s.cfg s.ta s.tw) t := by
  have hw : HasWritten s.bout [] (derive (clearSession s)) :=
    ⟨rfl, Nat.zero_lt_succ 7, ⟨[], List.append_nil _⟩, rfl, Nat.zero_add _⟩
  have hrun := (hdrWrite_ok hw.opened hw.partialByte).1
  exact ⟨_, hrun, (emitBits_emitted _ hw.partialByte).1, hw.emitBits _⟩

/-- COMPRESS of a cube in range appends its stream to BOUT (30_encoding.md R162). -/
theorem compress_writes (hmode : s.mode = .idle) (hlegal : s.compressLegal) (hlen : s.cfg.X * s.cfg.Y * s.cfg.Z ≤ s.sin.length)
    (hs : SampledCube s.cfg h)
    (hsamples : ∀ q, InCube s.cfg q → imageSample s.cfg s.sin q.z q.y q.x = h q.z q.y q.x) :
    ∃ t bytes, exec .compress s = .next t ∧ t.bout = s.bout ++ bytes ∧
      bitsOfBytes bytes = streamBits s.cfg s.ta s.tw h := by
  obtain ⟨hl, hped, hcap⟩ := legalConfig_of_rows hlegal
  have hblock : s.cfg.coder ≠ 0 → BlockLegal s.cfg := fun hne => hl.blockLegal (hl.coder.resolve_left hne)
  have hvalid : validateConfig true s = .ok () s := by
    unfold validateConfig
    rw [get_bind, firstFailure_none hl hped hcap]
    rfl
  obtain ⟨t, hhdr, ht, hw⟩ := hdrWrite_along s
  have hcfg : t.cfg = s.cfg := by rw [ht]; rfl
  have hstart := compressing_start (h := h) (ta := s.ta) (tw := s.tw) (samples := s.sin) hs.cube hblock hcfg (by rw [ht]; rfl)
    (by rw [ht]; rfl) (by rw [ht]; rfl) (by rw [ht]; rfl) (by rw [ht]; rfl) (by rw [ht]; rfl) (by rw [ht]; rfl)
    (by rw [ht]; rfl) (by rw [ht]; rfl) hw
  obtain ⟨rows, u, hbody, hu⟩ := compressFrom_invariant
    (fun _ _ _ hl' _ _ hi => compressAt_along hs hblock hsamples hlen hl' hi) [] (positions s.cfg) rfl [] t hstart
  obtain ⟨v, bytes, hfinish, hbout, hbits⟩ := finish_along hl.wordBytes_pos hblock hu
  have hrun : bodyCompress s = .ok () (closePipeline v) := by
    unfold bodyCompress
    rw [bind_ok hvalid, modify_bind, modify_bind, bind_ok hhdr, get_bind, hcfg, bind_ok hbody, bind_ok hfinish]
    rfl
  exact ⟨setDone (closePipeline v), bytes,
    runCommand_of_ok (by rw [hmode]; simp) (by rw [hmode]; rfl) rfl hrun, hbout, hbits⟩

end

/-! ### The round trip -/

/-- Settles O60: COMPRESS writes the stream of its image, and DECOMPRESS, which follows the same predictor and the same coder
position by position, restores the image of any stream. -/
theorem decompressGivesTheCubeBack : Obligations.DecompressGivesTheCubeBack := by
  unfold Obligations.DecompressGivesTheCubeBack
  refine ⟨fun s t u more hmode hlegal hlen hrange hexec hu hwf hout hs hbin => ?_,
    fun u c ta tw image more hu hwf hlegal hout hs hi hbits => ?_⟩
  · have hl := (legalConfig_of_rows hlegal).1
    have hi : imageLegal s.cfg (s.sin.take (s.cfg.X * s.cfg.Y * s.cfg.Z)) := ⟨List.length_take_of_le hlen, hrange⟩
    obtain ⟨t', bytes, hexec', hbout, hbits⟩ := compress_writes hmode hlegal hlen (sampledCube_of_image hl hi)
      fun q hq => (imageSample_take s.cfg s.sin hq).symm
    obtain rfl : t' = t := Host.Outcome.next.inj (hexec'.symm.trans hexec)
    refine decompress_restores hl hu hwf hout hs hi ?_
    rw [hbin, hbout, List.drop_left, bitsOfBytes_append, hbits]
  · exact decompress_restores (legalConfig_of_rows hlegal).1 hu hwf hout hs hi hbits

end Sys2Proof.Machine
end

section
/-! What an operation can do to the state, said once: the parts it may change, the streams that only grow or only shrink, the
sizes of the bit buffers and the canonical storage it keeps, and the errors it may raise. -/

namespace Sys2Proof.Machine

/-- The parts of the state that the rows of the commands speak of; `own` is what no pseudocode but RESET's writes. -/
inductive Part where
  | own | mode | cursor | blk | result | result1 | parameters | derived | held | sin | sout | bin | reader | bout | writer
  | flags | runs | counters | encoder | decoder | weights | stats | hist

/-- The state after reset with this one part of `s`. -/
def Part.view : Part → State → State
  | .own, s => { State.reset with
      done := s.done, errCode := s.errCode, errInfo := s.errInfo, irqEn := s.irqEn, arg0 := s.arg0, arg1 := s.arg1,
      arg2 := s.arg2, arg3 := s.arg3, histCapacity := s.histCapacity, script := s.script, hostRead := s.hostRead }
  | .mode, s => { State.reset with mode := s.mode }
  | .cursor, s => { State.reset with cursor := s.cursor }
  | .blk, s => { State.reset with blk := s.blk }
  | .result, s => { State.reset with result := s.result }
  | .result1, s => { State.reset with result1 := s.result1 }
  | .parameters, s => { State.reset with cfg := s.cfg, ta := s.ta, tw := s.tw }
  | .derived, s => { State.reset with idBits := s.idBits, backupOpt := s.backupOpt }
  | .held, s => { State.reset with derivedHeld := s.derivedHeld }
  | .sin, s => { State.reset with sin := s.sin }
  | .sout, s => { State.reset with sout := s.sout }
  | .bin, s => { State.reset with bin := s.bin }
  | .reader, s => { State.reset with rbuf := s.rbuf, bitsIn := s.bitsIn }
  | .bout, s => { State.reset with bout := s.bout }
  | .writer, s => { State.reset with wbuf := s.wbuf, bytesOut := s.bytesOut, bitsOut := s.bitsOut }
  | .flags, s => { State.reset with closed := s.closed, terminated := s.terminated }
  | .runs, s => { State.reset with zrun := s.zrun, runrem := s.runrem }
  | .counters, s => { State.reset with cs := s.cs, cr := s.cr }
  | .encoder, s => { State.reset with ebuf := s.ebuf, efill := s.efill }
  | .decoder, s => { State.reset with dbuf := s.dbuf, dpos := s.dpos }
  | .weights, s => { State.reset with weights := s.weights }
  | .stats, s => { State.reset with stats := s.stats }
  | .hist, s => { State.reset with hist := s.hist }

/-- From `s` to `t` nothing changed outside these parts. -/
def Frame (parts : List Part) (s t : State) : Prop := ∀ part, part ∉ parts → part.view t = part.view s

/-- The canonical storage, the sizes of the bit buffers and the accounting of the writer (10_state.md R48, R49,
40_bitstream.md R205, R208): what `Bookkeeping` says beside the error fields. -/
structure Orderly (s : State) : Prop where
  storage : Memory.wf s = true
  writer : s.wbuf.length < 8
  reader : s.rbuf.length < 8
  accounting : s.bitsOut = BitVec.ofNat 32 (8 * s.bytesOut + s.wbuf.length)
  closedEmpty : s.closed = true → s.wbuf = []

/-- What pseudocode that may change these parts can do, however it ends. -/
structure Moves (parts : List Part) (s t : State) : Prop where
  frame : Frame parts s t
  orderly : Orderly s → Orderly t
  sin : t.sin <:+ s.sin
  bin : t.bin <:+ s.bin
  sout : s.sout <+: t.sout
  bout : s.bout <+: t.bout

/-- A code that a rule raises (60_exceptions.md R636). -/
def Raised (k : ErrKind) : Bool := k != .none && k != .formatId

/-- The operation moves these parts alone, however it ends, and raises a code that a rule raises. -/
structure Acts {α : Type} (parts : List Part) (x : Op α) : Prop where
  ok : ∀ {s t a}, x s = .ok a t → Moves parts s t
  error : ∀ {s t e}, x s = .error e t → Moves parts s t ∧ Raised e.kind

variable {α β : Type} {parts touched : List Part} {s t u : State}

/-! ### Moves -/

theorem frame_of (h : ∀ part : Part, part ∈ parts ∨ part.view t = part.view s) : Frame parts s t :=
  fun part hp => (h part).resolve_left hp

/-- A field of a part outside the frame is unchanged. -/
theorem Frame.field (h : Frame parts s t) (part : Part) (field : State → α) (hp : part ∉ parts)
    (hf : ∀ s, field (part.view s) = field s) : field t = field s := field_eq field (h part hp) hf

theorem Moves.refl (s : State) : Moves parts s s :=
  ⟨fun _ _ => rfl, id, List.suffix_rfl, List.suffix_rfl, List.prefix_rfl, List.prefix_rfl⟩

theorem Moves.trans (h : Moves parts s t) (k : Moves parts t u) : Moves parts s u where
  frame part hp := (k.frame part hp).trans (h.frame part hp)
  orderly ho := k.orderly (h.orderly ho)
  sin := k.sin.trans h.sin
  bin := k.bin.trans h.bin
  sout := h.sout.trans k.sout
  bout := h.bout.trans k.bout

theorem Moves.mono (h : Moves touched s t) (hsub : touched ⊆ parts) : Moves parts s t :=
  ⟨fun part hp => h.frame part fun hm => hp (hsub hm), h.orderly, h.sin, h.bin, h.sout, h.bout⟩

/-- The parts that neither a stream nor the order of a state depends on. -/
def Part.quiet : Part → Bool
  | .own | .mode | .cursor | .blk | .result | .result1 | .derived | .held | .runs | .counters | .encoder | .decoder => true
  | _ => false

/-- A change of quiet parts. -/
theorem moves_quiet (h : Frame touched s t) (hq : touched.all Part.quiet = true) : Moves touched s t := by
  have same : ∀ part : Part, part.quiet = false → part.view t = part.view s := fun part hp => h part fun hm => by
    rw [List.all_eq_true.mp hq part hm] at hp
    cases hp
  have hwbuf : t.wbuf = s.wbuf := field_eq State.wbuf (same .writer rfl) fun _ => rfl
  refine ⟨h, fun ho => ⟨?_, ?_, ?_, ?_, ?_⟩, ?_, ?_, ?_, ?_⟩
  · have hs := ho.storage
    rw [wf_iff] at hs ⊢
    rwa [field_eq State.ta (same .parameters rfl) fun _ => rfl, field_eq State.tw (same .parameters rfl) fun _ => rfl,
      field_eq State.weights (same .weights rfl) fun _ => rfl, field_eq State.stats (same .stats rfl) fun _ => rfl,
      field_eq State.hist (same .hist rfl) fun _ => rfl]
  · rw [hwbuf]
    exact ho.writer
  · rw [field_eq State.rbuf (same .reader rfl) fun _ => rfl]
    exact ho.reader
  · rw [hwbuf, field_eq State.bitsOut (same .writer rfl) fun _ => rfl, field_eq State.bytesOut (same .writer rfl) fun _ => rfl]
    exact ho.accounting
  · rw [hwbuf, field_eq State.closed (same .flags rfl) fun _ => rfl]
    exact ho.closedEmpty
  · rw [field_eq State.sin (same .sin rfl) fun _ => rfl]
  · rw [field_eq State.bin (same .bin rfl) fun _ => rfl]
  · rw [field_eq State.sout (same .sout rfl) fun _ => rfl]
  · rw [field_eq State.bout (same .bout rfl) fun _ => rfl]

/-! ### Operations -/

theorem acts_of_ends {x : Op α} (h : ∀ s, match x s with
    | .ok _ t => Moves parts s t
    | .error e t => Moves parts s t ∧ Raised e.kind) : Acts parts x := by
  constructor
  · intro s t a hx
    have := h s
    rwa [hx] at this
  · intro s t e hx
    have := h s
    rwa [hx] at this

theorem Acts.mono {x : Op α} (h : Acts touched x) (hsub : touched ⊆ parts) : Acts parts x :=
  ⟨fun hx => (h.ok hx).mono hsub, fun hx => ⟨(h.error hx).1.mono hsub, (h.error hx).2⟩⟩

theorem acts_pure (a : α) : Acts parts (pure a : Op α) := acts_of_ends fun s => Moves.refl s

theorem acts_get : Acts parts Op.get := acts_of_ends fun s => Moves.refl s

theorem acts_raise {k : ErrKind} (i : Word) (h : Raised k) : Acts parts (raise k i : Op α) :=
  acts_of_ends fun s => ⟨Moves.refl s, h⟩

theorem acts_require (c : Prop) [Decidable c] (k : ErrKind) (i : Word) (h : Raised k) :
    Acts parts (require c k i) := by
  unfold require
  split
  · exact acts_pure ()
  · exact acts_raise i h

theorem acts_bind {x : Op α} {f : α → Op β} (hx : Acts parts x) (hf : ∀ a, Acts parts (f a)) : Acts parts (x >>= f) := by
  constructor
  · intro s u b h
    rcases bind_cases h with ⟨a, t, h1, h2⟩ | ⟨_, _, _, h2⟩
    · exact (hx.ok h1).trans ((hf a).ok h2)
    · cases h2
  · intro s u e h
    rcases bind_cases h with ⟨a, t, h1, h2⟩ | ⟨_, _, h1, h2⟩
    · exact ⟨(hx.ok h1).trans ((hf a).error h2).1, ((hf a).error h2).2⟩
    · cases h2
      exact hx.error h1

theorem acts_get_bind {f : State → Op β} (hf : ∀ s, Acts parts (f s)) : Acts parts (Op.get >>= f) := acts_bind acts_get hf

theorem acts_ite {c : Prop} [Decidable c] {x y : Op α} (hx : Acts parts x) (hy : Acts parts y) :
    Acts parts (if c then x else y) := by
  split
  · exact hx
  · exact hy

theorem acts_forEach {f : α → Op Unit} (h : ∀ a, Acts parts (f a)) : ∀ l : List α, Acts parts (forEach l f)
  | [] => acts_pure ()
  | a :: as => acts_bind (h a) fun _ => acts_forEach h as

theorem acts_collect {f : α → Op β} (h : ∀ a, Acts parts (f a)) : ∀ l : List α, Acts parts (collect l f)
  | [] => acts_pure []
  | a :: as => acts_bind (h a) fun _ => acts_bind (acts_collect h as) fun _ => acts_pure _

theorem acts_modify {f : State → State} (h : ∀ s, Moves parts s (f s)) : Acts parts (Op.modify f) :=
  acts_of_ends h

theorem acts_quiet {f : State → State} (h : ∀ s, Frame parts s (f s)) (hq : parts.all Part.quiet = true) :
    Acts parts (Op.modify f) := acts_modify fun s => moves_quiet (h s) hq

end Sys2Proof.Machine
end

section
/-! What each operation may do: the bit streams, the coders, the predictor, the header and the pipeline, in the order of their
definitions. -/

namespace Sys2Proof.Machine

variable {parts : List Part} {s t : State}

/-! ### The writer -/

theorem frame_pushBits : ∀ (bits : List Bool) (s : State), Frame [.writer, .bout] s (pushBits bits s)
  | [], _ => fun _ _ => rfl
  | b :: bs, s => by
    have hbit : Frame [.writer, .bout] s (pushBit b s) := by
      unfold pushBit
      split <;> exact frame_of fun part => by cases part <;> simp [Part.view, pushByte]
    exact fun part hp => (frame_pushBits bs (pushBit b s) part hp).trans (hbit part hp)

theorem bout_pushBits : ∀ (bits : List Bool) (s : State), s.bout <+: (pushBits bits s).bout
  | [], _ => List.prefix_rfl
  | b :: bs, s => by
    have hbit : s.bout <+: (pushBit b s).bout := by
      unfold pushBit
      split
      · exact List.prefix_append _ _
      · exact List.prefix_rfl
    exact hbit.trans (bout_pushBits bs (pushBit b s))

theorem frame_emitBits (bits : List Bool) (s : State) : Frame [.writer, .bout] s (emitBits bits s) := by
  intro part hp
  rw [← frame_pushBits bits s part hp]
  cases part <;> simp at hp <;> rfl

/-- Bits appended to an open stream. -/
theorem moves_emitBits (bits : List Bool) (hc : s.closed = false) : Moves [.writer, .bout] s (emitBits bits s) where
  frame := frame_emitBits bits s
  orderly ho := by
    have he := emitBits_emitted bits ho.writer
    have hbytes := emitted_bytes he
    have hclosed := (emitted_closed he).trans hc
    obtain ⟨hframe, -, -, hwbuf, -⟩ := he
    refine ⟨?_, hwbuf, ?_, ?_, fun h => ?_⟩
    · rw [hframe]; exact ho.storage
    · rw [hframe]; exact ho.reader
    · rw [hbytes, BitVec.ofNat_add, ← ho.accounting, hframe]
    · rw [hclosed] at h; cases h
  sin := by rw [(frame_emitBits bits s).field .sin State.sin (by simp) fun _ => rfl]
  bin := by rw [(frame_emitBits bits s).field .bin State.bin (by simp) fun _ => rfl]
  sout := by rw [(frame_emitBits bits s).field .sout State.sout (by simp) fun _ => rfl]
  bout := bout_pushBits bits s

theorem acts_writeBits (n v : Nat) : Acts [.writer, .bout] (writeBits n v) := by
  refine acts_of_ends fun s => ?_
  cases hc : s.closed with
  | true =>
    rw [writeBits_closed n v hc]
    exact ⟨Moves.refl s, rfl⟩
  | false =>
    unfold writeBits
    rw [get_bind, require_bind_ok hc]
    exact moves_emitBits _ hc

theorem acts_unaryWrite : ∀ u, Acts [.writer, .bout] (unaryWrite u)
  | 0 => acts_writeBits 1 1
  | u + 1 => acts_bind (acts_writeBits 1 0) fun _ => acts_unaryWrite u

theorem acts_flush : Acts [.writer, .bout] flush :=
  acts_get_bind fun _ => acts_ite (acts_writeBits _ _) (acts_pure ())

theorem acts_writeZeroBytes : ∀ n, Acts [.writer, .bout] (writeZeroBytes n)
  | 0 => acts_pure ()
  | n + 1 => acts_bind (acts_writeBits 8 0) fun _ => acts_writeZeroBytes n

theorem acts_padWord (b : Nat) : Acts [.writer, .bout] (padWord b) :=
  acts_bind acts_flush fun _ => acts_get_bind fun _ => acts_writeZeroBytes _

/-- `Close` keeps the order of a state as a whole: a stream is closed when its last byte is full. -/
theorem acts_close : Acts [.writer, .bout, .flags] close := by
  have hflush : Acts [.writer, .bout, .flags] flush := acts_flush.mono (by simp)
  have hset : ∀ t : State, Frame [.writer, .bout, .flags] t { t with closed := true } := fun t =>
    frame_of fun part => by cases part <;> simp [Part.view]
  refine acts_of_ends fun s => ?_
  unfold close
  cases hrun : flush s with
  | error e t =>
    rw [bind_error hrun]
    exact hflush.error hrun
  | ok a t =>
    rw [bind_ok hrun]
    have hm := hflush.ok hrun
    refine ⟨fun part hp => (hset t part hp).trans (hm.frame part hp), fun ho => ?_, hm.sin, hm.bin, hm.sout, hm.bout⟩
    obtain ⟨u, hu, -, hempty⟩ := flush_ok ho.closedEmpty ho.writer
    obtain rfl : t = u := by rw [hrun] at hu; cases hu; rfl
    have ht := hm.orderly ho
    exact ⟨ht.storage, ht.writer, ht.reader, ht.accounting, fun _ => hempty⟩

/-! ### The reader -/

theorem acts_readBit {eof : Raise} (he : Raised eof.kind) : Acts [.reader, .bin] (readBit eof) := by
  refine acts_of_ends fun s => ?_
  unfold readBit
  cases hr : s.rbuf with
  | cons b rest =>
    refine ⟨frame_of fun part => by cases part <;> simp [Part.view], fun ho => ⟨ho.storage, ho.writer, ?_, ho.accounting,
      ho.closedEmpty⟩, List.suffix_rfl, List.suffix_rfl, List.prefix_rfl, List.prefix_rfl⟩
    have := ho.reader
    rw [hr, List.length_cons] at this
    exact Nat.lt_of_succ_lt this
  | nil =>
    cases hb : s.bin with
    | nil => exact ⟨Moves.refl s, he⟩
    | cons byte more =>
      refine ⟨frame_of fun part => by cases part <;> simp [Part.view], fun ho => ⟨ho.storage, ho.writer, ?_, ho.accounting,
        ho.closedEmpty⟩, List.suffix_rfl, hb ▸ List.suffix_cons _ _, List.prefix_rfl, List.prefix_rfl⟩
      exact (length_rawBits 7 _).trans_lt (by decide)

theorem acts_readBitsFrom {eof : Raise} (he : Raised eof.kind) : ∀ n v, Acts [.reader, .bin] (readBitsFrom eof n v)
  | 0, v => acts_pure v
  | n + 1, _ => acts_bind (acts_readBit he) fun _ => acts_readBitsFrom he n _

theorem acts_readBits (n : Nat) : Acts [.reader, .bin] (readBits n) := acts_readBitsFrom rfl n 0

theorem acts_alignReader : Acts [.reader] (Op.modify alignReader) :=
  acts_modify fun _ => ⟨frame_of fun part => by cases part <;> simp [Part.view],
    fun ho => ⟨ho.storage, ho.writer, Nat.zero_lt_succ 7, ho.accounting, ho.closedEmpty⟩,
    List.suffix_rfl, List.suffix_rfl, List.prefix_rfl, List.prefix_rfl⟩

theorem acts_unaryReadFrom {err : Raise} (he : Raised err.kind) :
    ∀ left n, Acts [.reader, .bin] (unaryReadFrom err left n)
  | 0, n => acts_bind (acts_readBit rfl) fun _ => acts_ite (acts_pure n) (acts_raise _ he)
  | left + 1, n => acts_bind (acts_readBit rfl) fun _ => acts_ite (acts_pure n) (acts_unaryReadFrom he left (n + 1))

theorem acts_unaryRead (cap : Nat) : Acts [.reader, .bin] (unaryRead cap badUnary) := acts_unaryReadFrom rfl cap 0

/-! ### The sample-split codec -/

theorem acts_riceCode (b : List Word) (k : Nat) : Acts [.writer, .bout] (riceCode b k) :=
  acts_bind (acts_forEach (fun _ => acts_unaryWrite _) b) fun _ => acts_forEach (fun _ => acts_writeBits _ _) b

theorem acts_riceDecode (j k : Nat) : Acts [.reader, .bin] (riceDecode j k) :=
  acts_bind (acts_collect (fun _ => acts_unaryRead _) _) fun _ =>
    acts_collect (fun _ => acts_bind (acts_readBits k) fun _ => acts_pure _) _

theorem acts_putBlock (b : State → List Word) : Acts [.blk] (Op.modify fun s => putBlock (b s) s) :=
  acts_quiet (fun _ => frame_of fun part => by cases part <;> simp [Part.view, putBlock]) rfl

theorem acts_setResult (f : State → Word) : Acts [.result] (Op.modify fun s => { s with result := f s }) :=
  acts_quiet (fun _ => frame_of fun part => by cases part <;> simp [Part.view]) rfl

theorem acts_setBothResults (f g : State → Word) :
    Acts [.result, .result1] (Op.modify fun s => { s with result := f s, result1 := g s }) :=
  acts_quiet (fun _ => frame_of fun part => by cases part <;> simp [Part.view]) rfl

/-! ### The block-adaptive encoder -/

theorem acts_emitId (c : Cfg) : ∀ option, Acts [.writer, .bout] (emitId c option)
  | .zeroBlock => acts_writeBits _ _
  | .secondExt => acts_writeBits _ _
  | .sampleSplit _ => acts_writeBits _ _
  | .backup => acts_writeBits _ _

theorem acts_emitPayload (c : Cfg) (b : List Word) : ∀ option, Acts [.writer, .bout] (emitPayload c b option)
  | .zeroBlock => acts_pure ()
  | .secondExt => acts_forEach acts_unaryWrite _
  | .sampleSplit k => acts_riceCode b k
  | .backup => acts_forEach (fun _ => acts_writeBits _ _) b

theorem acts_setZrun (f : State → Nat) : Acts [.runs] (Op.modify fun s => { s with zrun := f s }) :=
  acts_quiet (fun _ => frame_of fun part => by cases part <;> simp [Part.view]) rfl

/-- What sending a run of zero blocks moves. -/
theorem acts_sendRun (c : Cfg) (n : Nat) :
    Acts [.writer, .bout, .runs] (emitId c .zeroBlock >>= fun _ => unaryWrite n >>= fun _ => clearRun) :=
  acts_bind ((acts_emitId c _).mono (by simp)) fun _ => acts_bind ((acts_unaryWrite n).mono (by simp)) fun _ =>
    (acts_setZrun _).mono (by simp)

theorem acts_flushBlocks : Acts [.writer, .bout, .runs] flushBlocks :=
  acts_get_bind fun s => acts_ite (acts_pure ()) (acts_sendRun s.cfg _)

theorem acts_flushRos : Acts [.writer, .bout, .runs] flushRos :=
  acts_get_bind fun s => acts_ite acts_flushBlocks (acts_sendRun s.cfg _)

theorem acts_advance : Acts [.counters] advance :=
  acts_bind (acts_quiet (fun _ => frame_of fun part => by cases part <;> simp [Part.view]) rfl) fun _ =>
    acts_get_bind fun _ => acts_pure _

theorem acts_codeOption (c : Cfg) (b : List Word) (option : BlockOption) :
    Acts [.writer, .bout, .runs] (codeOption c b option) := by
  have send : Acts [.writer, .bout, .runs] (flushBlocks >>= fun _ => emitId c option >>= fun _ => emitPayload c b option) :=
    acts_bind acts_flushBlocks fun _ => (acts_bind (acts_emitId c option) fun _ => acts_emitPayload c b option).mono (by simp)
  cases option with
  | zeroBlock => exact (acts_setZrun _).mono (by simp)
  | secondExt => exact send
  | sampleSplit k => exact send
  | backup => exact send

theorem acts_codeBlock (b : List Word) : Acts [.writer, .bout, .runs, .counters] (codeBlock b) :=
  acts_get_bind fun _ => acts_bind ((acts_codeOption _ _ _).mono (by simp)) fun _ =>
    acts_bind (acts_advance.mono (by simp)) fun _ => acts_ite (acts_flushRos.mono (by simp)) (acts_pure ())

theorem acts_setEbuf (f : State → List Word) (g : State → Nat) :
    Acts [.encoder] (Op.modify fun s => { s with ebuf := f s, efill := g s }) :=
  acts_quiet (fun _ => frame_of fun part => by cases part <;> simp [Part.view]) rfl

/-- What coding a whole block of EBUF moves. -/
theorem acts_codeEbuf (b : List Word) :
    Acts [.writer, .bout, .runs, .counters, .encoder] (codeBlock b >>= fun _ => emptyEbuf) :=
  acts_bind ((acts_codeBlock b).mono (by simp)) fun _ => (acts_setEbuf _ _).mono (by simp)

theorem acts_codeSample (v : Nat) : Acts [.writer, .bout, .runs, .counters, .encoder] (codeSample v) :=
  acts_bind ((acts_setEbuf _ _).mono (by simp)) fun _ => acts_get_bind fun s =>
    acts_ite (acts_codeEbuf s.ebuf) (acts_pure ())

theorem acts_codePartial : Acts [.writer, .bout, .runs, .counters, .encoder] codePartial :=
  acts_get_bind fun _ => acts_ite
    (acts_bind ((acts_setEbuf _ State.efill).mono (by simp)) fun _ => acts_get_bind fun t => acts_codeEbuf t.ebuf) (acts_pure ())

theorem acts_requireOpen : Acts parts requireOpen := acts_get_bind fun _ => acts_require _ _ _ rfl

theorem acts_setTerminated : Acts [.flags] setTerminated :=
  acts_modify fun _ => ⟨frame_of fun part => by cases part <;> simp [Part.view],
    fun ho => ⟨ho.storage, ho.writer, ho.reader, ho.accounting, ho.closedEmpty⟩,
    List.suffix_rfl, List.suffix_rfl, List.prefix_rfl, List.prefix_rfl⟩

theorem acts_baTerminate : Acts [.writer, .bout, .runs, .counters, .encoder, .flags] baTerminate :=
  acts_bind acts_requireOpen fun _ => acts_bind (acts_codePartial.mono (by simp)) fun _ =>
    acts_bind (acts_flushRos.mono (by simp)) fun _ => acts_bind (acts_flush.mono (by simp)) fun _ =>
    acts_setTerminated.mono (by simp)

/-! ### The block-adaptive decoder -/

theorem acts_decodeId : Acts [.reader, .bin] decodeId :=
  acts_get_bind fun _ => acts_bind (acts_readBits _) fun _ =>
    acts_ite (acts_bind (acts_readBits 1) fun _ => acts_pure _) (acts_pure _)

theorem acts_setRunrem (f : State → Nat) : Acts [.runs] (Op.modify fun s => { s with runrem := f s }) :=
  acts_quiet (fun _ => frame_of fun part => by cases part <;> simp [Part.view]) rfl

theorem acts_decodePayload (j d : Nat) : ∀ option, Acts [.reader, .bin, .runs] (decodePayload j d option)
  | .zeroBlock => acts_bind ((acts_unaryRead _).mono (by simp)) fun _ =>
    acts_bind ((acts_setRunrem _).mono (by simp)) fun _ => acts_pure _
  | .secondExt => (acts_bind (acts_collect (fun _ => acts_bind (acts_unaryRead _) fun _ => acts_pure _) _) fun _ =>
    acts_pure _).mono (by simp)
  | .sampleSplit k => (acts_riceDecode j k).mono (by simp)
  | .backup => (acts_collect (fun _ => acts_bind (acts_readBits d) fun _ => acts_pure _) _).mono (by simp)

theorem acts_nextBlock : Acts [.reader, .bin, .runs] nextBlock :=
  acts_get_bind fun _ => acts_ite (acts_bind ((acts_setRunrem _).mono (by simp)) fun _ => acts_pure _)
    (acts_bind (acts_decodeId.mono (by simp)) fun _ => acts_decodePayload _ _ _)

theorem acts_decodeBlock : Acts [.reader, .bin, .runs, .counters] decodeBlock :=
  acts_bind (acts_nextBlock.mono (by simp)) fun _ => acts_bind (acts_advance.mono (by simp)) fun _ => acts_pure _

theorem acts_setDbuf (f : State → List Word) (g : State → Nat) :
    Acts [.decoder] (Op.modify fun s => { s with dbuf := f s, dpos := g s }) :=
  acts_quiet (fun _ => frame_of fun part => by cases part <;> simp [Part.view]) rfl

theorem acts_refillDbuf : Acts [.reader, .bin, .runs, .counters, .decoder] refillDbuf :=
  acts_get_bind fun _ => acts_ite
    (acts_bind (acts_decodeBlock.mono (by simp)) fun _ => (acts_setDbuf _ _).mono (by simp)) (acts_pure ())

theorem acts_decodeSample : Acts [.reader, .bin, .runs, .counters, .decoder] decodeSample :=
  acts_bind acts_refillDbuf fun _ => acts_get_bind fun _ =>
    acts_bind ((acts_setDbuf State.dbuf _).mono (by simp)) fun _ => acts_pure _

/-! ### The sample-adaptive coder -/

theorem acts_readStats (z : Nat) : Acts parts (readStats z) := by
  refine acts_of_ends fun s => ?_
  rw [readStats_eq]
  cases s.stats.cellAt z with
  | none => exact ⟨Moves.refl s, rfl⟩
  | some b => exact Moves.refl s

theorem acts_writeStats (z : Nat) (b : BandStats) : Acts [.stats] (writeStats z b) :=
  acts_modify fun s => ⟨frame_of fun part => by cases part <;> simp [Part.view], fun ho =>
    ⟨by obtain ⟨t, ht, -, hwf⟩ := wf_writeStats ho.storage z b; cases ht; exact hwf, ho.writer, ho.reader, ho.accounting,
      ho.closedEmpty⟩, List.suffix_rfl, List.suffix_rfl, List.prefix_rfl, List.prefix_rfl⟩

theorem acts_saInitBand (z : Nat) : Acts [.stats] (saInitBand z) := acts_get_bind fun _ => acts_writeStats z _

theorem acts_saCodeword (c : Cfg) (k v : Nat) : Acts [.writer, .bout] (saCodeword c k v) :=
  acts_ite (acts_bind (acts_unaryWrite _) fun _ => acts_writeBits _ _)
    (acts_bind (acts_unaryWrite _) fun _ => acts_writeBits _ _)

theorem acts_saCode (z t v : Nat) : Acts [.writer, .bout] (saCode z t v) :=
  acts_get_bind fun _ => acts_ite (acts_writeBits _ _) (acts_bind (acts_readStats z) fun _ => acts_saCodeword _ _ _)

theorem acts_saDecode (z t : Nat) : Acts [.reader, .bin] (saDecode z t) :=
  acts_get_bind fun _ => acts_ite (acts_readBits _) <| acts_bind (acts_readStats z) fun _ =>
    acts_bind (acts_unaryRead _) fun _ => acts_ite (acts_bind (acts_readBits _) fun _ => acts_pure _) (acts_readBits _)

theorem acts_saUpdate (z t v : Nat) : Acts [.stats] (saUpdate z t v) :=
  acts_get_bind fun _ => acts_ite (acts_pure ()) (acts_bind (acts_readStats z) fun _ => acts_writeStats z _)

theorem acts_saTerminate : Acts [.writer, .bout, .flags] saTerminate :=
  acts_bind acts_requireOpen fun _ => acts_bind (acts_flush.mono (by simp)) fun _ => acts_setTerminated.mono (by simp)

theorem acts_requireStats (z : Nat) : Acts parts (requireStats z) := acts_bind (acts_readStats z) fun _ => acts_pure ()

/-! ### The operands -/

theorem acts_bitCountOperand : Acts parts bitCountOperand :=
  acts_get_bind fun _ => acts_bind (acts_require _ _ _ rfl) fun _ => acts_pure _

theorem acts_splitOperand : Acts parts splitOperand :=
  acts_get_bind fun _ => acts_bind (acts_require _ _ _ rfl) fun _ => acts_pure _

theorem acts_bandOperand : Acts parts bandOperand :=
  acts_get_bind fun _ => acts_bind (acts_require _ _ _ rfl) fun _ => acts_pure _

theorem acts_indexOperand : Acts parts indexOperand :=
  acts_get_bind fun _ => acts_bind (acts_require _ _ _ rfl) fun _ => acts_pure _

theorem acts_positionOperand : Acts parts positionOperand :=
  acts_get_bind fun _ => acts_bind (acts_require _ _ _ rfl) fun _ => acts_pure _

theorem acts_residualOperand (i w : Word) : Acts parts (residualOperand i w) :=
  acts_get_bind fun _ => acts_bind (acts_require _ _ _ rfl) fun _ => acts_pure _

theorem acts_sampleOperand : Acts parts sampleOperand :=
  acts_get_bind fun _ => acts_bind (acts_require _ _ _ rfl) fun _ => acts_pure _

theorem acts_scaledOperand : Acts parts scaledOperand :=
  acts_get_bind fun _ => acts_bind (acts_require _ _ _ rfl) fun _ => acts_pure _

/-! ### The predictor -/

theorem acts_histRead (z y x : Nat) : Acts parts (histRead z y x) := by
  refine acts_of_ends fun s => ?_
  rw [histRead_eq]
  cases s.hist.cellAt (histKey z y x) with
  | none => exact ⟨Moves.refl s, rfl⟩
  | some v => exact Moves.refl s

theorem acts_readWeights (z : Nat) : Acts parts (readWeights z) := by
  refine acts_of_ends fun s => ?_
  rw [readWeights_eq]
  cases s.weights.cellAt z with
  | none => exact ⟨Moves.refl s, rfl⟩
  | some w => exact Moves.refl s

theorem acts_writeWeights (z : Nat) (w : List Int) : Acts [.weights] (writeWeights z w) :=
  acts_modify fun s => ⟨frame_of fun part => by cases part <;> simp [Part.view], fun ho =>
    ⟨by obtain ⟨t, ht, -, hwf⟩ := wf_writeWeights ho.storage z w; cases ht; exact hwf, ho.writer, ho.reader, ho.accounting,
      ho.closedEmpty⟩, List.suffix_rfl, List.suffix_rfl, List.prefix_rfl, List.prefix_rfl⟩

theorem acts_histWrite (z y x : Nat) (v : Int) : Acts [.hist] (histWrite z y x v) :=
  acts_modify fun s => ⟨frame_of fun part => by cases part <;> simp [Part.view], fun ho =>
    ⟨by obtain ⟨t, ht, -, hwf⟩ := wf_histWrite ho.storage z y x v; cases ht; exact hwf, ho.writer, ho.reader, ho.accounting,
      ho.closedEmpty⟩, List.suffix_rfl, List.suffix_rfl, List.prefix_rfl, List.prefix_rfl⟩

theorem acts_predInitBand (z : Nat) : Acts [.weights] (predInitBand z) := acts_get_bind fun _ => acts_writeWeights z _

/-- An operation that only looks at the history moves nothing (44_predictor.md R409). -/
theorem Looks.acts {α : Type} {cells : List Cursor} {val : (Nat → Nat → Nat → Int) → α} {x : Op α} (h : Looks cells val x) :
    Acts parts x := by
  refine acts_of_ends fun s => ?_
  rw [h s]
  cases cells.find? fun p => (s.sampleAt p).isNone with
  | none => exact Moves.refl s
  | some p => exact ⟨Moves.refl s, rfl⟩

theorem acts_publishSample (c : Cfg) (w d : List Int) (z y x : Nat) (v ss : Int) :
    Acts [.weights, .hist] (publishSample c w d z y x v ss) :=
  acts_bind ((acts_histWrite z y x v).mono (by simp)) fun _ =>
    acts_ite (acts_pure ()) ((acts_writeWeights z _).mono (by simp))

theorem acts_predCompress (z y x : Nat) (v : Int) : Acts [.weights, .hist] (predCompress z y x v) :=
  acts_get_bind fun s => acts_bind (acts_require _ _ _ rfl) fun _ => acts_bind (acts_readWeights z) fun w =>
    acts_bind (looks_predict s.cfg w ⟨z, y, x⟩).acts fun _ => acts_bind (acts_publishSample _ _ _ _ _ _ _ _) fun _ => acts_pure _

theorem acts_predDecompress (z y x d : Nat) : Acts [.weights, .hist] (predDecompress z y x d) :=
  acts_get_bind fun s => acts_bind (acts_require _ _ _ rfl) fun _ => acts_bind (acts_readWeights z) fun w =>
    acts_bind (looks_predict s.cfg w ⟨z, y, x⟩).acts fun _ => acts_bind (acts_publishSample _ _ _ _ _ _ _ _) fun _ => acts_pure _

theorem acts_setCursor (z y x : Nat) : Acts [.cursor] (setCursor z y x) :=
  acts_quiet (fun _ => frame_of fun part => by cases part <;> simp [Part.view]) rfl

/-! ### Validation and the session -/

/-- A check that fails with an error that a rule raises. -/
def Rejects (check : Option Raise) : Prop := ∀ e, check = some e → Raised e.kind

@[simp] theorem rejects_none : Rejects none := fun _ h => nomatch h

theorem rejects_config (i : Word) : Rejects (some ⟨.config, i⟩) := fun e h => by cases h; rfl

theorem rejects_orElse {a b : Option Raise} (ha : Rejects a) (hb : Rejects b) : Rejects (a <|> b) := by
  cases a with
  | none => exact hb
  | some e => exact ha

@[simp] theorem rejects_check (ok : Bool) (reg : CfgReg) : Rejects (check ok reg) := by
  unfold check
  split
  · exact rejects_none
  · exact rejects_config _

@[simp] theorem rejects_ite {c : Prop} [Decidable c] {a b : Option Raise} (ha : Rejects a) (hb : Rejects b) :
    Rejects (if c then a else b) := by
  split
  · exact ha
  · exact hb

theorem rejects_findSome? {f : Nat → Option Raise} (h : ∀ i, Rejects (f i)) (l : List Nat) : Rejects (l.findSome? f) := by
  intro e he
  obtain ⟨i, -, hi⟩ := List.exists_of_findSome?_eq_some he
  exact h i e hi

@[simp] theorem rejects_badTwEntry (c : Cfg) (tw : Memory Word) : Rejects (badTwEntry c tw) :=
  rejects_findSome? (fun _ => rejects_findSome? (fun _ => rejects_ite rejects_none (rejects_config _)) _) _

@[simp] theorem rejects_badTaEntry (c : Cfg) (ta : Memory Word) : Rejects (badTaEntry c ta) :=
  rejects_findSome? (fun _ => rejects_ite rejects_none (rejects_config _)) _

@[simp] theorem rejects_checkRefsamp (c : Cfg) : Rejects (checkRefsamp c) :=
  rejects_ite (fun e h => by cases h; rfl) (rejects_check _ _)

@[simp] theorem rejects_checkCapacity (c : Cfg) : ∀ capacity, Rejects (checkCapacity c capacity)
  | none => rejects_none
  | some _ => rejects_check _ _

theorem rejects_firstFailure (compress : Bool) (s : State) : Rejects (firstFailure compress s) := by
  have himage : Rejects (checkImage s.cfg) := by
    unfold checkImage
    repeat' apply rejects_orElse
    all_goals exact rejects_check _ _
  have hpredictor : Rejects (checkPredictor s.cfg s.tw) := by
    unfold checkPredictor
    repeat' apply rejects_orElse
    all_goals simp
  have hadaptive : Rejects (checkSampleAdaptive s.cfg s.ta) := by
    unfold checkSampleAdaptive
    repeat' apply rejects_orElse
    all_goals simp
  have hblock : Rejects (checkBlockAdaptive s.cfg) := by
    unfold checkBlockAdaptive
    repeat' apply rejects_orElse
    all_goals exact rejects_check _ _
  have hrest : Rejects (checkRest compress s.cfg s.histCapacity) := by
    unfold checkRest
    repeat' apply rejects_orElse
    all_goals simp
  exact rejects_orElse himage (rejects_orElse hpredictor (rejects_orElse (rejects_ite hadaptive hblock) hrest))

theorem acts_raiseSome {o : Option Raise} (h : Rejects o) : Acts parts (raiseSome o) := by
  cases o with
  | none => exact acts_pure ()
  | some e => exact acts_raise e.info (h e rfl)

theorem acts_validateConfig (compress : Bool) : Acts parts (validateConfig compress) :=
  acts_get_bind fun s => acts_raiseSome (rejects_firstFailure compress s)

/-- What `ClearSession` moves (70_reset_and_hazards.md R682). -/
def sessionParts : List Part := [.reader, .writer, .flags, .runs, .counters, .encoder, .decoder, .weights, .stats, .hist]

theorem acts_clearSession : Acts sessionParts (Op.modify clearSession) :=
  acts_modify fun _ => ⟨frame_of fun part => by cases part <;> simp [Part.view, sessionParts],
    fun ho => ⟨wf_clearSession ho.storage, Nat.zero_lt_succ 7, Nat.zero_lt_succ 7, rfl, fun _ => rfl⟩,
    List.suffix_rfl, List.suffix_rfl, List.prefix_rfl, List.prefix_rfl⟩

theorem acts_derive : Acts [.derived] (Op.modify derive) :=
  acts_quiet (fun _ => frame_of fun part => by cases part <;> simp [Part.view]) rfl

theorem acts_setMode (m : Mode) : Acts [.mode] (Op.modify (setMode m)) :=
  acts_quiet (fun _ => frame_of fun part => by cases part <;> simp [Part.view]) rfl

/-! ### The header -/

theorem acts_writeSection (fields : List Field) : Acts [.writer, .bout] (writeSection fields) :=
  acts_bind (acts_forEach (fun _ => acts_writeBits _ _) fields) fun _ => acts_flush

theorem acts_hdrWrite : Acts [.writer, .bout] hdrWrite :=
  acts_get_bind fun _ => acts_bind (acts_writeSection _) fun _ => acts_bind (acts_writeSection _) fun _ =>
    acts_bind (acts_get_bind fun _ => acts_ite (acts_writeSection _) (acts_pure ())) fun _ => acts_writeSection _

/-- What reading a header moves. -/
def headerParts : List Part := [.reader, .bin, .parameters]

theorem acts_readField (id : Word) (n : Nat) : Acts headerParts (readField id n) :=
  (acts_readBitsFrom rfl n 0).mono (by simp [headerParts])

theorem acts_skipField (n : Nat) : Acts headerParts (skipField n) := acts_bind (acts_readField _ n) fun _ => acts_pure ()

theorem acts_writeCfg (reg : CfgReg) (v : Word) : Acts headerParts (writeCfg reg v) :=
  acts_modify fun _ => ⟨frame_of fun part => by cases part <;> simp [Part.view, headerParts],
    fun ho => ⟨ho.storage, ho.writer, ho.reader, ho.accounting, ho.closedEmpty⟩,
    List.suffix_rfl, List.suffix_rfl, List.prefix_rfl, List.prefix_rfl⟩

theorem acts_readInto (reg : CfgReg) (n : Nat) (dec : Nat → Int) : Acts headerParts (readInto reg n dec) :=
  acts_bind (acts_readField _ n) fun _ => acts_writeCfg reg _

theorem acts_align : Acts headerParts (Op.modify alignReader) := acts_alignReader.mono (by simp [headerParts])

theorem acts_readDepth : Acts headerParts readDepth :=
  acts_bind (acts_readField _ 16) fun _ => acts_get_bind fun _ => acts_ite (acts_writeCfg .m _) (acts_pure ())

theorem acts_readImageHeader : Acts headerParts readImageHeader :=
  acts_bind (acts_skipField 8) fun _ => acts_bind (acts_readInto _ _ _) fun _ => acts_bind (acts_readInto _ _ _) fun _ =>
  acts_bind (acts_readInto _ _ _) fun _ => acts_bind (acts_readInto _ _ _) fun _ => acts_bind (acts_skipField 2) fun _ =>
  acts_bind (acts_readInto _ _ _) fun _ => acts_bind (acts_readInto _ _ _) fun _ => acts_bind acts_readDepth fun _ =>
  acts_bind (acts_skipField 2) fun _ => acts_bind (acts_readInto _ _ _) fun _ => acts_bind (acts_readInto _ _ _) fun _ =>
  acts_bind (acts_skipField 10) fun _ => acts_align

theorem acts_readPredictorMetadata : Acts headerParts readPredictorMetadata :=
  acts_bind (acts_skipField 2) fun _ => acts_bind (acts_readInto _ _ _) fun _ => acts_bind (acts_readInto _ _ _) fun _ =>
  acts_bind (acts_skipField 1) fun _ => acts_bind (acts_readInto _ _ _) fun _ => acts_bind (acts_skipField 1) fun _ =>
  acts_bind (acts_readInto _ _ _) fun _ => acts_bind (acts_readInto _ _ _) fun _ => acts_bind (acts_readInto _ _ _) fun _ =>
  acts_bind (acts_readInto _ _ _) fun _ => acts_bind (acts_readInto _ _ _) fun _ => acts_bind (acts_skipField 1) fun _ =>
  acts_bind (acts_readInto _ _ _) fun _ => acts_bind (acts_readInto _ _ _) fun _ => acts_bind (acts_readInto _ _ _) fun _ =>
  acts_align

theorem acts_readTwEntry (q z i : Nat) : Acts headerParts (readTwEntry q z i) :=
  acts_bind (acts_readField _ q) fun _ => acts_modify fun _ =>
    ⟨frame_of fun part => by cases part <;> simp [Part.view, headerParts],
      fun ho => ⟨wf_putTw ho.storage _ _, ho.writer, ho.reader, ho.accounting, ho.closedEmpty⟩,
      List.suffix_rfl, List.suffix_rfl, List.prefix_rfl, List.prefix_rfl⟩

theorem acts_readTaEntry (z : Nat) : Acts headerParts (readTaEntry z) :=
  acts_bind (acts_readField _ 4) fun _ => acts_modify fun _ =>
    ⟨frame_of fun part => by cases part <;> simp [Part.view, headerParts],
      fun ho => ⟨wf_putTa ho.storage _ _, ho.writer, ho.reader, ho.accounting, ho.closedEmpty⟩,
      List.suffix_rfl, List.suffix_rfl, List.prefix_rfl, List.prefix_rfl⟩

theorem acts_readWeightSection : Acts headerParts readWeightSection :=
  acts_get_bind fun _ => acts_ite
    (acts_get_bind fun _ => acts_bind (acts_forEach (fun z => acts_forEach (fun i => acts_readTwEntry _ z i) _) _) fun _ =>
      acts_align) (acts_pure ())

theorem acts_readAccTable : Acts headerParts readAccTable :=
  acts_get_bind fun _ => acts_bind (acts_forEach acts_readTaEntry _) fun _ => acts_ite (acts_skipField 4) (acts_pure ())

theorem acts_readSampleAdaptive : Acts headerParts readSampleAdaptive :=
  acts_bind (acts_readInto _ _ _) fun _ => acts_bind (acts_readInto _ _ _) fun _ => acts_bind (acts_readInto _ _ _) fun _ =>
  acts_bind (acts_readInto _ _ _) fun _ => acts_bind (acts_readInto _ _ _) fun _ =>
  acts_get_bind fun _ => acts_ite acts_readAccTable (acts_pure ())

theorem acts_readBlockAdaptive : Acts headerParts readBlockAdaptive :=
  acts_bind (acts_skipField 1) fun _ => acts_bind (acts_readInto _ _ _) fun _ => acts_bind (acts_readInto _ _ _) fun _ =>
  acts_readInto _ _ _

theorem acts_hdrRead : Acts headerParts hdrRead :=
  acts_bind acts_readImageHeader fun _ => acts_bind acts_readPredictorMetadata fun _ => acts_bind acts_readWeightSection fun _ =>
  acts_bind (acts_get_bind fun _ => acts_ite acts_readSampleAdaptive acts_readBlockAdaptive) fun _ => acts_align

theorem acts_checkHeader : Acts parts checkHeader :=
  acts_get_bind fun s => acts_raiseSome fun e he => by
    obtain ⟨f, hf, rfl⟩ := Option.map_eq_some_iff.mp he
    unfold headerError
    split
    · exact rejects_firstFailure false s f hf
    · rfl

/-- What opening a session moves, beside the mode. -/
def openingParts : List Part := .derived :: sessionParts ++ headerParts

theorem acts_openFromHeader : Acts openingParts openFromHeader :=
  acts_bind (acts_clearSession.mono (by simp [openingParts])) fun _ =>
    acts_bind (acts_hdrRead.mono (by simp [openingParts])) fun _ => acts_bind acts_checkHeader fun _ =>
    acts_derive.mono (by simp [openingParts])

end Sys2Proof.Machine
end

section
/-! What each command may do, as one table: the parts its pseudocode may change, where it leaves the mode, and every end it can
have (48_system.md R580). -/

namespace Sys2Proof.Machine

variable {i : Instr} {s t : State}

/-! ### The pipeline -/

/-- What COMPRESS moves at a position. -/
def compressParts : List Part :=
  [.cursor, .sin, .writer, .bout, .runs, .counters, .encoder, .weights, .stats, .hist]

/-- What DECOMPRESS moves at a position. -/
def decompressParts : List Part :=
  [.cursor, .sout, .reader, .bin, .runs, .counters, .decoder, .weights, .stats, .hist]

theorem acts_initBand (c : Cfg) (p : Cursor) : Acts [.weights, .stats] (initBand c p) :=
  acts_ite (acts_bind ((acts_predInitBand p.z).mono (by simp)) fun _ =>
    acts_ite ((acts_saInitBand p.z).mono (by simp)) (acts_pure ())) (acts_pure ())

theorem acts_encodeResidual (c : Cfg) (z t v : Nat) :
    Acts [.writer, .bout, .runs, .counters, .encoder, .stats] (encodeResidual c z t v) :=
  acts_ite (acts_bind ((acts_saCode z t v).mono (by simp)) fun _ => (acts_saUpdate z t v).mono (by simp))
    ((acts_codeSample v).mono (by simp))

theorem acts_decodeResidual (c : Cfg) (z t : Nat) :
    Acts [.reader, .bin, .runs, .counters, .decoder, .stats] (decodeResidual c z t) :=
  acts_ite (acts_bind ((acts_saDecode z t).mono (by simp)) fun _ =>
    acts_bind ((acts_saUpdate z t _).mono (by simp)) fun _ => acts_pure _)
    (acts_bind (acts_decodeSample.mono (by simp)) fun _ => acts_pure _)

theorem acts_popSamples (n : Nat) : Acts [.sin] (popSamples n) :=
  acts_get_bind fun _ => acts_bind (acts_require _ _ _ rfl) fun _ => acts_bind (acts_modify fun _ =>
    ⟨frame_of fun part => by cases part <;> simp [Part.view],
      fun ho => ⟨ho.storage, ho.writer, ho.reader, ho.accounting, ho.closedEmpty⟩,
      List.drop_suffix _ _, List.suffix_rfl, List.prefix_rfl, List.prefix_rfl⟩) fun _ => acts_pure _

theorem acts_pushSample (v : Word) : Acts [.sout] (Op.modify (pushSample v)) :=
  acts_modify fun _ => ⟨frame_of fun part => by cases part <;> simp [Part.view],
    fun ho => ⟨ho.storage, ho.writer, ho.reader, ho.accounting, ho.closedEmpty⟩,
    List.suffix_rfl, List.suffix_rfl, List.prefix_append _ _, List.prefix_rfl⟩

theorem acts_loadRows (c : Cfg) (p : Cursor) (rows : List Word) : Acts [.sin] (loadRows c p rows) :=
  acts_ite (acts_ite (acts_popSamples _) (acts_pure _)) (acts_ite (acts_popSamples _) (acts_pure _))

theorem acts_outputSample (c : Cfg) (p : Cursor) (v : Int) : Acts [.sout] (outputSample c p v) :=
  acts_ite (acts_pushSample _) <| acts_ite
    (acts_forEach (fun z => acts_forEach (fun x => acts_bind (acts_histRead z p.y x) fun _ => acts_pushSample _) _) _)
    (acts_pure ())

theorem acts_compressAt (c : Cfg) (p : Cursor) (rows : List Word) : Acts compressParts (compressAt c p rows) :=
  acts_bind ((acts_setCursor _ _ _).mono (by simp [compressParts])) fun _ =>
    acts_bind ((acts_loadRows c p rows).mono (by simp [compressParts])) fun _ =>
    acts_bind ((acts_initBand c p).mono (by simp [compressParts])) fun _ =>
    acts_bind ((acts_predCompress _ _ _ _).mono (by simp [compressParts])) fun _ =>
    acts_bind ((acts_encodeResidual _ _ _ _).mono (by simp [compressParts])) fun _ => acts_pure _

theorem acts_compressFrom (c : Cfg) : ∀ ps rows, Acts compressParts (compressFrom c ps rows)
  | [], _ => acts_pure _
  | p :: ps, rows => acts_bind (acts_compressAt c p rows) fun rows' => acts_compressFrom c ps rows'

theorem acts_decompressAt (c : Cfg) (p : Cursor) : Acts decompressParts (decompressAt c p) :=
  acts_bind ((acts_setCursor _ _ _).mono (by simp [decompressParts])) fun _ =>
    acts_bind ((acts_initBand c p).mono (by simp [decompressParts])) fun _ =>
    acts_bind ((acts_decodeResidual _ _ _).mono (by simp [decompressParts])) fun _ =>
    acts_bind ((acts_predDecompress _ _ _ _).mono (by simp [decompressParts])) fun _ =>
    (acts_outputSample c p _).mono (by simp [decompressParts])

theorem acts_finish (c : Cfg) : Acts [.writer, .bout, .runs, .counters, .encoder, .flags] (finish c) := by
  rw [finish_eq]
  exact acts_bind (acts_ite (acts_saTerminate.mono (by simp)) acts_baTerminate) fun _ =>
    acts_bind ((acts_padWord c.B).mono (by simp)) fun _ => acts_close.mono (by simp)

theorem acts_closePipeline : Acts [.mode, .held] (Op.modify closePipeline) :=
  acts_quiet (fun _ => frame_of fun part => by cases part <;> simp [Part.view, closePipeline]) rfl

/-! ### The pseudocode of the commands -/

/-- The pseudocode of a command. -/
def body : Instr → Op Unit
  | .nop => pure ()
  | .reset => Op.modify resetCore
  | .validate => bodyValidate
  | .endSession => Op.modify (setMode .idle)
  | .bsWrite => bodyBsWrite
  | .bsRead => bodyBsRead
  | .bsFlush => flush
  | .bsReadAlign => Op.modify alignReader
  | .bsPadWord => bodyBsPadWord
  | .bsClose => close
  | .unaryWrite => bodyUnaryWrite
  | .unaryRead => bodyUnaryRead
  | .riceMask => bodyRiceMask
  | .riceCode => bodyRiceCode
  | .riceDecode => bodyRiceDecode
  | .riceBest => bodyRiceBest
  | .baCodeBlock => bodyBaCodeBlock
  | .baDecodeBlock => bodyBaDecodeBlock
  | .baTerminate => baTerminate
  | .baSelect => bodyBaSelect
  | .baCodeSample => bodyBaCodeSample
  | .baDecodeSample => bodyBaDecodeSample
  | .saInitBand => bodySaInitBand
  | .saCode => bodySaCode
  | .saDecode => bodySaDecode
  | .saUpdate => bodySaUpdate
  | .saTerminate => saTerminate
  | .predInitBand => bodyPredInitBand
  | .predCompress => bodyPredCompress
  | .predDecompress => bodyPredDecompress
  | .resMap => bodyResMap
  | .resUnmap => bodyResUnmap
  | .hdrWrite => hdrWrite
  | .hdrRead => bodyHdrRead
  | .compress => bodyCompress
  | .decompress => bodyDecompress

/-- Every command is its pseudocode in the command cycle (48_system.md R580). -/
theorem exec_eq (i : Instr) (s : State) : exec i s = runCommand i (body i) s := by cases i <;> rfl

/-- The parts each command but RESET may change. -/
@[simp] def footprint : Instr → List Part
  | .nop | .reset => []
  | .validate => [.mode, .derived] ++ sessionParts
  | .endSession => [.mode]
  | .bsWrite | .bsFlush | .bsPadWord | .unaryWrite | .riceCode | .saCode | .hdrWrite => [.writer, .bout]
  | .bsClose | .saTerminate => [.writer, .bout, .flags]
  | .bsRead | .unaryRead | .saDecode => [.reader, .bin, .result]
  | .bsReadAlign => [.reader]
  | .riceMask => [.blk]
  | .riceDecode => [.reader, .bin, .blk]
  | .riceBest | .baSelect => [.result, .result1]
  | .baCodeBlock => [.writer, .bout, .runs, .counters]
  | .baDecodeBlock => [.reader, .bin, .runs, .counters, .blk]
  | .baTerminate => [.writer, .bout, .runs, .counters, .encoder, .flags]
  | .baCodeSample => [.writer, .bout, .runs, .counters, .encoder]
  | .baDecodeSample => [.reader, .bin, .runs, .counters, .decoder, .result]
  | .saInitBand | .saUpdate => [.stats]
  | .predInitBand => [.weights]
  | .predCompress | .predDecompress => [.cursor, .weights, .hist, .result, .result1]
  | .resMap | .resUnmap => [.result]
  | .hdrRead => .mode :: openingParts
  | .compress => [.mode, .held, .derived] ++ sessionParts ++ compressParts
  | .decompress => [.mode, .held] ++ openingParts ++ decompressParts

theorem acts_bodyValidate : Acts (footprint .validate) bodyValidate :=
  acts_bind (acts_validateConfig _) fun _ => acts_bind (acts_clearSession.mono (List.subset_append_right _ _)) fun _ =>
    acts_bind (acts_derive.mono (by simp [footprint])) fun _ => (acts_setMode _).mono (by simp [footprint])

theorem acts_bodyBsRead : Acts (footprint .bsRead) bodyBsRead :=
  acts_bind acts_bitCountOperand fun _ => acts_bind ((acts_readBits _).mono (by simp [footprint])) fun _ =>
    (acts_setResult _).mono (by simp [footprint])

theorem acts_bodyUnaryRead : Acts (footprint .unaryRead) bodyUnaryRead :=
  acts_bind ((acts_unaryRead _).mono (by simp [footprint])) fun _ => (acts_setResult _).mono (by simp [footprint])

theorem acts_bodyRiceMask : Acts (footprint .riceMask) bodyRiceMask :=
  acts_quiet (fun _ => frame_of fun part => by cases part <;> simp [Part.view, putBlock, footprint]) rfl

theorem acts_bodyRiceDecode : Acts (footprint .riceDecode) bodyRiceDecode :=
  acts_bind acts_splitOperand fun _ => acts_get_bind fun _ =>
    acts_bind ((acts_riceDecode _ _).mono (by simp [footprint])) fun b => (acts_putBlock fun _ => b).mono (by simp [footprint])

theorem acts_bodyBaDecodeBlock : Acts (footprint .baDecodeBlock) bodyBaDecodeBlock :=
  acts_bind (acts_decodeBlock.mono (by simp [footprint])) fun b => (acts_putBlock fun _ => b).mono (by simp [footprint])

theorem acts_bodyBaDecodeSample : Acts (footprint .baDecodeSample) bodyBaDecodeSample :=
  acts_bind (acts_decodeSample.mono (by simp [footprint])) fun _ => (acts_setResult _).mono (by simp [footprint])

theorem acts_bodySaCode : Acts (footprint .saCode) bodySaCode :=
  acts_bind acts_requireOpen fun _ => acts_bind acts_bandOperand fun _ => acts_bind acts_indexOperand fun _ =>
    acts_get_bind fun _ => acts_bind (acts_residualOperand _ _) fun _ => acts_bind (acts_requireStats _) fun _ =>
    acts_saCode _ _ _

theorem acts_bodySaDecode : Acts (footprint .saDecode) bodySaDecode :=
  acts_bind acts_bandOperand fun _ => acts_bind acts_indexOperand fun _ => acts_bind (acts_requireStats _) fun _ =>
    acts_bind ((acts_saDecode _ _).mono (by simp [footprint])) fun _ => (acts_setResult _).mono (by simp [footprint])

theorem acts_bodySaUpdate : Acts (footprint .saUpdate) bodySaUpdate :=
  acts_bind acts_bandOperand fun _ => acts_bind acts_indexOperand fun _ => acts_get_bind fun _ =>
    acts_bind (acts_residualOperand _ _) fun _ => acts_bind (acts_requireStats _) fun _ => acts_saUpdate _ _ _

theorem acts_bodyPredCompress : Acts (footprint .predCompress) bodyPredCompress :=
  acts_bind acts_bandOperand fun _ => acts_bind acts_positionOperand fun _ =>
    acts_bind ((acts_setCursor _ _ _).mono (by simp [footprint])) fun _ => acts_get_bind fun _ =>
    acts_bind ((acts_predCompress _ _ _ _).mono (by simp [footprint])) fun _ =>
    (acts_setBothResults _ _).mono (by simp [footprint])

theorem acts_bodyPredDecompress : Acts (footprint .predDecompress) bodyPredDecompress :=
  acts_bind acts_bandOperand fun _ => acts_bind acts_positionOperand fun _ =>
    acts_bind ((acts_setCursor _ _ _).mono (by simp [footprint])) fun _ => acts_get_bind fun _ =>
    acts_bind ((acts_predDecompress _ _ _ _).mono (by simp [footprint])) fun _ =>
    (acts_setBothResults _ _).mono (by simp [footprint])

theorem acts_bodyHdrRead : Acts (footprint .hdrRead) bodyHdrRead :=
  acts_bind (acts_openFromHeader.mono (List.subset_cons_self _ _)) fun _ => (acts_setMode _).mono (by simp [footprint])

theorem acts_bodyCompress : Acts (footprint .compress) bodyCompress := by
  have hsession : sessionParts ⊆ footprint .compress :=
    List.Subset.trans (List.subset_append_right _ _) (List.subset_append_left _ _)
  have hbody : compressParts ⊆ footprint .compress := List.subset_append_right _ _
  exact acts_bind (acts_validateConfig _) fun _ => acts_bind (acts_clearSession.mono hsession) fun _ =>
    acts_bind (acts_derive.mono (by simp [footprint])) fun _ =>
    acts_bind (acts_hdrWrite.mono (List.Subset.trans (by simp [compressParts]) hbody)) fun _ => acts_get_bind fun s =>
    acts_bind ((acts_compressFrom s.cfg _ _).mono hbody) fun _ =>
    acts_bind ((acts_finish s.cfg).mono (by simp [footprint, sessionParts, compressParts])) fun _ =>
    acts_closePipeline.mono (by simp [footprint])

theorem acts_bodyDecompress : Acts (footprint .decompress) bodyDecompress :=
  acts_bind (acts_openFromHeader.mono (List.Subset.trans (List.subset_append_right _ _) (List.subset_append_left _ _)))
    fun _ => acts_get_bind fun s =>
    acts_bind (acts_forEach (fun p => (acts_decompressAt s.cfg p).mono (List.subset_append_right _ _)) _) fun _ =>
    acts_closePipeline.mono (by simp [footprint])

/-- The table is true of every command but RESET. -/
theorem acts_body : ∀ i : Instr, i ≠ .reset → Acts (footprint i) (body i)
  | .nop, _ => acts_pure ()
  | .reset, h => absurd rfl h
  | .validate, _ => acts_bodyValidate
  | .endSession, _ => acts_setMode _
  | .bsWrite, _ => acts_bind acts_bitCountOperand fun _ => acts_get_bind fun _ => acts_writeBits _ _
  | .bsRead, _ => acts_bodyBsRead
  | .bsFlush, _ => acts_flush
  | .bsReadAlign, _ => acts_alignReader
  | .bsPadWord, _ => acts_get_bind fun _ => acts_padWord _
  | .bsClose, _ => acts_close
  | .unaryWrite, _ => acts_get_bind fun _ => acts_unaryWrite _
  | .unaryRead, _ => acts_bodyUnaryRead
  | .riceMask, _ => acts_bodyRiceMask
  | .riceCode, _ => acts_bind acts_splitOperand fun _ => acts_get_bind fun _ => acts_riceCode _ _
  | .riceDecode, _ => acts_bodyRiceDecode
  | .riceBest, _ => acts_setBothResults _ _
  | .baCodeBlock, _ => acts_bind acts_requireOpen fun _ => acts_get_bind fun _ => acts_codeBlock _
  | .baDecodeBlock, _ => acts_bodyBaDecodeBlock
  | .baTerminate, _ => acts_baTerminate
  | .baSelect, _ => acts_setBothResults _ _
  | .baCodeSample, _ => acts_bind acts_requireOpen fun _ => acts_get_bind fun _ => acts_codeSample _
  | .baDecodeSample, _ => acts_bodyBaDecodeSample
  | .saInitBand, _ => acts_bind acts_bandOperand fun _ => acts_saInitBand _
  | .saCode, _ => acts_bodySaCode
  | .saDecode, _ => acts_bodySaDecode
  | .saUpdate, _ => acts_bodySaUpdate
  | .saTerminate, _ => acts_saTerminate
  | .predInitBand, _ => acts_bind acts_bandOperand fun _ => acts_predInitBand _
  | .predCompress, _ => acts_bodyPredCompress
  | .predDecompress, _ => acts_bodyPredDecompress
  | .resMap, _ => acts_bind acts_sampleOperand fun _ => acts_bind acts_scaledOperand fun _ => acts_setResult _
  | .resUnmap, _ => acts_get_bind fun _ => acts_bind (acts_residualOperand _ _) fun _ => acts_bind acts_scaledOperand fun _ =>
    acts_setResult _
  | .hdrWrite, _ => acts_hdrWrite
  | .hdrRead, _ => acts_bodyHdrRead
  | .compress, _ => acts_bodyCompress
  | .decompress, _ => acts_bodyDecompress

/-! ### Every end of a command -/

/-- The ends of a command: ignored, refused by its row, completed, or ended by an error of its pseudocode. -/
inductive CommandEnd (i : Instr) (s : State) : State → Prop
  | ignored (hm : s.mode = .fault) (hi : i ≠ .reset) : CommandEnd i s s
  | refused (hm : s.mode ≠ .fault) : CommandEnd i s (enterFault ⟨.mode, encode i⟩ s)
  | completed (hm : s.mode ≠ .fault ∨ i = .reset) (hr : runsIn i s.mode = true) (hc : coderOk i s.cfg = true) {u : State}
      (hu : body i s = .ok () u) : CommandEnd i s (setDone u)
  | raised (hm : s.mode ≠ .fault ∨ i = .reset) (hr : runsIn i s.mode = true) {e : Raise} {u : State}
      (hu : body i s = .error e u) : CommandEnd i s (enterFault e u)

theorem commandEnd_of_exec (h : exec i s = .next t) : CommandEnd i s t := by
  rw [exec_eq, runCommand_eq] at h
  cases h
  split
  · rename_i hi
    exact .ignored hi.1 hi.2
  · rename_i hi
    have hm : s.mode ≠ .fault ∨ i = .reset := by
      rw [not_and_or, Decidable.not_not] at hi
      exact hi
    split
    · rename_i hrow
      refine .refused fun hf => ?_
      obtain rfl := hm.resolve_left (not_not.mpr hf)
      rcases hrow with hr | hr <;> cases hr
    · rename_i hrow
      rw [not_or, Bool.not_eq_false, Bool.not_eq_false] at hrow
      cases hu : body i s with
      | ok a u => exact .completed hm hrow.1 hrow.2 hu
      | error e u => exact .raised hm hrow.1 hu

/-- Every command has a next state. -/
theorem exec_next (i : Instr) (s : State) : ∃ t, exec i s = .next t := by
  rw [exec_eq, runCommand_eq]
  exact ⟨_, rfl⟩

/-- The state with these values where the end of a command writes. -/
def ended (m : Mode) (d : Bool) (k : ErrKind) (v : Word) (s : State) : State :=
  { s with mode := m, done := d, errCode := k, errInfo := v }

/-- What a command but RESET can do, its end included. -/
theorem exec_moves (hi : i ≠ .reset) (h : exec i s = .next t) :
    ∃ u m d k v, Moves (footprint i) s u ∧ t = ended m d k v u := by
  cases commandEnd_of_exec h with
  | ignored => exact ⟨s, _, _, _, _, Moves.refl s, rfl⟩
  | refused => exact ⟨s, _, _, _, _, Moves.refl s, rfl⟩
  | completed _ _ _ hu => exact ⟨_, _, _, _, _, (acts_body i hi).ok hu, rfl⟩
  | raised _ _ hu => exact ⟨_, _, _, _, _, ((acts_body i hi).error hu).1, rfl⟩

/-! ### The table by its columns -/

/-- The commands that take bits from BIN. -/
def readers : List Instr :=
  [.bsRead, .unaryRead, .riceDecode, .baDecodeBlock, .baDecodeSample, .saDecode, .hdrRead, .decompress]

/-- The commands that append bits to BOUT. -/
def writers : List Instr := [.bsWrite, .bsFlush, .bsPadWord, .bsClose, .unaryWrite, .riceCode, .baCodeBlock, .baTerminate,
  .baCodeSample, .saCode, .saTerminate, .hdrWrite, .compress]

theorem own_notMem_footprint : Part.own ∉ footprint i := by
  cases i <;> simp [footprint, openingParts, sessionParts, headerParts, compressParts, decompressParts]

/-- What is not the pseudocode's stays. -/
theorem Moves.own {α : Type} (h : Moves (footprint i) s t) (field : State → α)
    (hf : ∀ s, field (Part.own.view s) = field s) : field t = field s := h.frame.field .own field own_notMem_footprint hf

theorem cursor_mem_footprint (h : Part.cursor ∈ footprint i) :
    i ∈ [.predCompress, .predDecompress, .compress, .decompress] := by
  revert h
  cases i <;> simp [footprint, openingParts, sessionParts, headerParts, compressParts, decompressParts]

theorem blk_mem_footprint (h : Part.blk ∈ footprint i) : i ∈ [.riceMask, .riceDecode, .baDecodeBlock] := by
  revert h
  cases i <;> simp [footprint, openingParts, sessionParts, headerParts, compressParts, decompressParts]

theorem result_mem_footprint (h : Part.result ∈ footprint i) : i ∈ [.bsRead, .unaryRead, .riceBest, .baSelect,
    .baDecodeSample, .saDecode, .predCompress, .predDecompress, .resMap, .resUnmap] := by
  revert h
  cases i <;> simp [footprint, openingParts, sessionParts, headerParts, compressParts, decompressParts]

theorem result1_mem_footprint (h : Part.result1 ∈ footprint i) :
    i ∈ [.riceBest, .baSelect, .predCompress, .predDecompress] := by
  revert h
  cases i <;> simp [footprint, openingParts, sessionParts, headerParts, compressParts, decompressParts]

theorem parameters_mem_footprint (h : Part.parameters ∈ footprint i) : i ∈ [.hdrRead, .decompress] := by
  revert h
  cases i <;> simp [footprint, openingParts, sessionParts, headerParts, compressParts, decompressParts]

theorem derived_mem_footprint (h : Part.derived ∈ footprint i) : i ∈ [.validate, .hdrRead, .compress, .decompress] := by
  revert h
  cases i <;> simp [footprint, openingParts, sessionParts, headerParts, compressParts, decompressParts]

theorem sin_mem_footprint (h : Part.sin ∈ footprint i) : i = .compress := by
  revert h
  cases i <;> simp [footprint, openingParts, sessionParts, headerParts, compressParts, decompressParts]

theorem sout_mem_footprint (h : Part.sout ∈ footprint i) : i = .decompress := by
  revert h
  cases i <;> simp [footprint, openingParts, sessionParts, headerParts, compressParts, decompressParts]

theorem bin_mem_footprint (h : Part.bin ∈ footprint i) : i ∈ readers := by
  revert h
  cases i <;> simp [footprint, openingParts, sessionParts, headerParts, compressParts, decompressParts, readers]

theorem reader_mem_footprint (h : Part.reader ∈ footprint i) : i ∈ readers ∨ i ∈ [.bsReadAlign, .validate, .compress] := by
  revert h
  cases i <;> simp [footprint, openingParts, sessionParts, headerParts, compressParts, decompressParts, readers]

theorem bout_mem_footprint (h : Part.bout ∈ footprint i) : i ∈ writers := by
  revert h
  cases i <;> simp [footprint, openingParts, sessionParts, headerParts, compressParts, decompressParts, writers]

theorem writer_mem_footprint (h : Part.writer ∈ footprint i) : i ∈ writers ∨ i ∈ [.validate, .hdrRead, .decompress] := by
  revert h
  cases i <;> simp [footprint, openingParts, sessionParts, headerParts, compressParts, decompressParts, writers]

theorem counters_mem_footprint (h : Part.counters ∈ footprint i) : i ∈ [.validate, .baCodeBlock, .baDecodeBlock,
    .baTerminate, .baCodeSample, .baDecodeSample, .hdrRead, .compress, .decompress] := by
  revert h
  cases i <;> simp [footprint, openingParts, sessionParts, headerParts, compressParts, decompressParts]

theorem encoder_mem_footprint (h : Part.encoder ∈ footprint i) :
    i ∈ [.validate, .baTerminate, .baCodeSample, .hdrRead, .compress, .decompress] := by
  revert h
  cases i <;> simp [footprint, openingParts, sessionParts, headerParts, compressParts, decompressParts]

theorem decoder_mem_footprint (h : Part.decoder ∈ footprint i) :
    i ∈ [.validate, .baDecodeSample, .hdrRead, .compress, .decompress] := by
  revert h
  cases i <;> simp [footprint, openingParts, sessionParts, headerParts, compressParts, decompressParts]

theorem weights_mem_footprint (h : Part.weights ∈ footprint i) :
    i ∈ [.validate, .predInitBand, .predCompress, .predDecompress, .hdrRead, .compress, .decompress] := by
  revert h
  cases i <;> simp [footprint, openingParts, sessionParts, headerParts, compressParts, decompressParts]

theorem stats_mem_footprint (h : Part.stats ∈ footprint i) :
    i ∈ [.validate, .saInitBand, .saUpdate, .hdrRead, .compress, .decompress] := by
  revert h
  cases i <;> simp [footprint, openingParts, sessionParts, headerParts, compressParts, decompressParts]

theorem hist_mem_footprint (h : Part.hist ∈ footprint i) :
    i ∈ [.validate, .predCompress, .predDecompress, .hdrRead, .compress, .decompress] := by
  revert h
  cases i <;> simp [footprint, openingParts, sessionParts, headerParts, compressParts, decompressParts]

/-- Settles O18: what a command changes is in its row of `footprint`, whatever its end. -/
theorem commandsChangeOnlyWhatTheirRowsName : Obligations.CommandsChangeOnlyWhatTheirRowsName := by
  unfold Obligations.CommandsChangeOnlyWhatTheirRowsName
  intro _ _ i s t hi h
  obtain ⟨u, m, d, k, v, hmoves, rfl⟩ := exec_moves hi h
  have hf := hmoves.frame
  refine ⟨⟨hmoves.own State.arg0 fun _ => rfl, hmoves.own State.arg1 fun _ => rfl, hmoves.own State.arg2 fun _ => rfl,
    hmoves.own State.arg3 fun _ => rfl, hmoves.own State.irqEn fun _ => rfl⟩,
    ⟨hmoves.own State.histCapacity fun _ => rfl, hmoves.own State.script fun _ => rfl,
    hmoves.own State.hostRead fun _ => rfl⟩,
    fun hn => hf.field .blk State.blk (mt blk_mem_footprint hn) fun _ => rfl,
    fun hn => hf.field .result State.result (mt result_mem_footprint hn) fun _ => rfl,
    fun hn => hf.field .result1 State.result1 (mt result1_mem_footprint hn) fun _ => rfl,
    fun hn => hf.field .cursor State.cursor (mt cursor_mem_footprint hn) fun _ => rfl, fun hn => ?_,
    fun hn => hf.field .sin State.sin (mt sin_mem_footprint hn) fun _ => rfl,
    fun hn => hf.field .sout State.sout (mt sout_mem_footprint hn) fun _ => rfl,
    fun hn => hf.field .bin State.bin (mt bin_mem_footprint hn) fun _ => rfl, fun hn hn' => ?_,
    fun hn => hf.field .bout State.bout (mt bout_mem_footprint hn) fun _ => rfl, fun hn hn' => ?_,
    hmoves.sin, hmoves.bin, hmoves.sout, hmoves.bout⟩
  · have hp := mt parameters_mem_footprint hn
    exact ⟨hf.field .parameters State.cfg hp fun _ => rfl, hf.field .parameters State.ta hp fun _ => rfl,
      hf.field .parameters State.tw hp fun _ => rfl⟩
  · have hp : Part.reader ∉ footprint i := fun hm => (reader_mem_footprint hm).elim hn hn'
    exact ⟨hf.field .reader State.rbuf hp fun _ => rfl, hf.field .reader State.bitsIn hp fun _ => rfl⟩
  · have hp : Part.writer ∉ footprint i := fun hm => (writer_mem_footprint hm).elim hn hn'
    exact ⟨hf.field .writer State.wbuf hp fun _ => rfl, hf.field .writer State.bytesOut hp fun _ => rfl,
      hf.field .writer State.bitsOut hp fun _ => rfl⟩

/-! ### The mode -/

/-- The mode a command that completes leaves. -/
def modeAfter (i : Instr) (m : Mode) : Mode :=
  match i with
  | .validate | .hdrRead => .active
  | .reset | .endSession | .compress | .decompress => .idle
  | _ => m

theorem bind_ok_inv {α β : Type} {x : Op α} {f : α → Op β} {b : β} (h : (x >>= f) s = .ok b t) :
    ∃ a u, x s = .ok a u ∧ f a u = .ok b t := by
  rcases bind_cases h with h | ⟨_, _, _, h⟩
  · exact h
  · cases h

theorem mode_of_setMode {m : Mode} (h : Op.modify (setMode m) s = .ok () t) : t.mode = m := by
  cases h
  rfl

theorem mode_of_closePipeline (h : Op.modify closePipeline s = .ok () t) : t.mode = .idle := by
  cases h
  rfl

/-- Where a command that completes leaves the mode. -/
theorem mode_of_body (hu : body i s = .ok () t) : t.mode = modeAfter i s.mode := by
  have keep : i ≠ .reset → .mode ∉ footprint i → t.mode = s.mode := fun hi hp =>
    ((acts_body i hi).ok hu).frame.field .mode State.mode hp fun _ => rfl
  cases i with
  | reset => cases hu; rfl
  | endSession => exact mode_of_setMode hu
  | validate =>
    obtain ⟨_, _, -, hu⟩ := bind_ok_inv hu
    exact mode_of_setMode hu
  | hdrRead =>
    obtain ⟨_, _, -, hu⟩ := bind_ok_inv hu
    exact mode_of_setMode hu
  | compress =>
    obtain ⟨_, _, -, hu⟩ := bind_ok_inv hu
    rw [modify_bind, modify_bind] at hu
    obtain ⟨_, _, -, hu⟩ := bind_ok_inv hu
    rw [get_bind] at hu
    obtain ⟨_, _, -, hu⟩ := bind_ok_inv hu
    obtain ⟨_, _, -, hu⟩ := bind_ok_inv hu
    exact mode_of_closePipeline hu
  | decompress =>
    obtain ⟨_, _, -, hu⟩ := bind_ok_inv hu
    rw [get_bind] at hu
    obtain ⟨_, _, -, hu⟩ := bind_ok_inv hu
    exact mode_of_closePipeline hu
  | _ => exact keep (by simp) (by simp [footprint])

end Sys2Proof.Machine
end

section
/-! The modes a command moves between, and DONE (10_state.md R32, 48_system.md R580). -/

namespace Sys2Proof.Machine

variable {i : Instr} {s t : State}

/-- The mode moves only as 10_state.md R32 says. -/
theorem modeAfter_cases {m : Mode} (hr : runsIn i m = true) :
    modeAfter i m = m ∨ (m = .idle ∧ modeAfter i m = .active ∧ (i = .validate ∨ i = .hdrRead)) ∨
      (m = .active ∧ modeAfter i m = .idle ∧ i = .endSession) ∨ (modeAfter i m = .idle ∧ i = .reset) := by
  have idle : (m == .idle) = true → m = .idle := eq_of_beq
  have active : (m == .active) = true → m = .active := eq_of_beq
  cases i with
  | validate => exact .inr (.inl ⟨idle hr, rfl, .inl rfl⟩)
  | hdrRead => exact .inr (.inl ⟨idle hr, rfl, .inr rfl⟩)
  | endSession => exact .inr (.inr (.inl ⟨active hr, rfl, rfl⟩))
  | reset => exact .inr (.inr (.inr ⟨rfl, rfl⟩))
  | compress => exact .inl (idle hr).symm
  | decompress => exact .inl (idle hr).symm
  | _ => exact .inl rfl

theorem modeAfter_ne_fault {m : Mode} (hm : m ≠ .fault ∨ i = .reset) (hr : runsIn i m = true) : modeAfter i m ≠ .fault := by
  intro hf
  rcases modeAfter_cases hr with h | ⟨-, h, -⟩ | ⟨-, h, -⟩ | ⟨h, -⟩
  · rcases hm with hm | rfl
    · exact hm (h.symm.trans hf)
    · cases hf
  · cases h.symm.trans hf
  · cases h.symm.trans hf
  · cases h.symm.trans hf

/-- RESET's pseudocode never raises. -/
theorem ne_reset_of_raised {e : Raise} (hu : body i s = .error e t) : i ≠ .reset := by
  rintro rfl
  cases hu

/-- Settles O19: the mode a completed command leaves is `modeAfter`, and only its end touches DONE. -/
theorem modeTransitionsAndDone : Obligations.ModeTransitionsAndDone := by
  unfold Obligations.ModeTransitionsAndDone
  intro i s t h hm
  cases commandEnd_of_exec h with
  | ignored hf hi => exact absurd hm (by rw [not_or, not_not]; exact ⟨hf, hi⟩)
  | refused => exact ⟨.inl rfl, fun _ => rfl, .inr (.inl rfl)⟩
  | @completed _ hr _ u hu =>
    have hmode : (setDone u).mode = modeAfter i s.mode := (mode_of_body hu : u.mode = _)
    refine ⟨.inr rfl, fun hf => absurd (hmode.symm.trans hf) (modeAfter_ne_fault hm hr), ?_⟩
    rw [hmode]
    rcases modeAfter_cases hr with hk | hk | hk | hk
    · exact .inl hk
    · exact .inr (.inr (.inl hk))
    · exact .inr (.inr (.inr (.inl hk)))
    · exact .inr (.inr (.inr (.inr hk)))
  | raised _ _ hu =>
    have hdone := ((acts_body i (ne_reset_of_raised hu)).error hu).1.own State.done fun _ => rfl
    exact ⟨.inl rfl, fun _ => hdone, .inr (.inl rfl)⟩

end Sys2Proof.Machine
end

section
/-! The host's side of a step: the word of CMD, the register map, and what one access can do (20_memory.md R101 to R104). -/

namespace Sys2Proof.Machine

variable {i : Instr} {s t : State} {a b v : Word} {reg reg' : Reg}

/-! ### The word of CMD -/

theorem opc_of_commandOfOpc {opc : BitVec 8} (h : commandOfOpc opc = some i) : opc = i.opc := by
  unfold commandOfOpc at h
  split at h <;> cases h <;> exact BitVec.eq_of_toNat_eq ‹_›

/-- Only its own word decodes to a command (30_encoding.md R140). -/
theorem encode_of_decode (h : decode v = .ok i) : v = encode i := by
  unfold decode at h
  split at h
  · rename_i hzero
    split at h
    · rename_i j hj
      cases h
      have hopc := opc_of_commandOfOpc hj
      unfold encode
      rw [← hopc]
      change v.extractLsb' 8 24 = 0 at hzero
      change v = 0 ++ v.extractLsb' 0 8
      rw [← hzero]
      rw [BitVec.extractLsb'_append_extractLsb'_eq_extractLsb' (by rfl)]
      simp
    · cases h
  · cases h

/-! ### The register map -/

theorem ofIndex_index (reg : CfgReg) : CfgReg.ofIndex reg.index = some reg := by cases reg <;> rfl

theorem index_lt (reg : CfgReg) : reg.index < 31 := by cases reg <;> decide

theorem index_of_ofIndex {n : Nat} {reg : CfgReg} (h : CfgReg.ofIndex n = some reg) : reg.index = n := by
  obtain ⟨hn, h⟩ := List.getElem?_eq_some_iff.mp h
  have : ∀ k : Fin 31, (CfgReg.all[k.val]).index = k.val := by decide
  rw [← h]
  exact this ⟨n, hn⟩

/-- The address of a register (20_memory.md R101). -/
def Reg.address : Reg → Nat
  | .id => 0x000
  | .version => 0x004
  | .cmd => 0x008
  | .status => 0x00C
  | .errInfo => 0x010
  | .irqEn => 0x014
  | .arg0 => 0x018
  | .arg1 => 0x01C
  | .arg2 => 0x020
  | .arg3 => 0x024
  | .result => 0x028
  | .result1 => 0x02C
  | .bitsOut => 0x030
  | .bitsIn => 0x034
  | .curZ => 0x038
  | .curYx => 0x03C
  | .sinData => 0x040
  | .sinCount => 0x044
  | .soutData => 0x048
  | .soutCount => 0x04C
  | .binData => 0x050
  | .binCount => 0x054
  | .boutData => 0x058
  | .boutCount => 0x05C
  | .idBits => 0x060
  | .backupOpt => 0x064
  | .cfg reg => 0x100 + 4 * reg.index
  | .blk j => 0x200 + 4 * j.val
  | .ta z => 0x80000 + 4 * z
  | .tw key => 0x100000 + 4 * key

theorem address_of_lowReg {n : Nat} (h : lowReg n = some reg) : reg.address = n := by
  unfold lowReg at h
  split at h <;> cases h <;> rfl

theorem address_of_regAt {n : Nat} (h4 : n % 4 = 0) (h : regAt n = some reg) : reg.address = n := by
  unfold regAt at h
  split at h
  · exact address_of_lowReg h
  · split at h
    · obtain ⟨_, hr, rfl⟩ := Option.map_eq_some_iff.mp h
      have := index_of_ofIndex hr
      simp only [Reg.address]
      omega
    · split at h
      · cases h
        simp only [Reg.address, Fin.ofNat]
        omega
      · split at h
        · cases h
          simp only [Reg.address]
          omega
        · split at h
          · cases h
            simp only [Reg.address]
            omega
          · cases h

theorem address_of_target {n : Nat} (h : target a n = some reg) : n = 4 ∧ reg.address = a.toNat := by
  unfold target at h
  split at h
  · rename_i ha
    exact ⟨ha.1, address_of_regAt ha.2 h⟩
  · cases h

/-- Two addresses reach two registers. -/
theorem target_injective (ha : target a 4 = some reg) (hb : target b 4 = some reg) : a = b :=
  BitVec.eq_of_toNat_eq ((address_of_target ha).2.symm.trans (address_of_target hb).2)

theorem target_eq_regAt {n : Nat} (hn : n % 4 = 0) (hlt : n < 2 ^ 32) : target (BitVec.ofNat 32 n) 4 = regAt n := by
  unfold target
  rw [BitVec.toNat_ofNat, Nat.mod_eq_of_lt hlt, if_pos ⟨rfl, hn⟩]

theorem target_cfg (reg : CfgReg) : target (BitVec.ofNat 32 (0x100 + 4 * reg.index)) 4 = some (.cfg reg) := by
  have := index_lt reg
  rw [target_eq_regAt (by omega) (by omega)]
  unfold regAt
  rw [if_neg (by omega), if_pos (by omega), show (0x100 + 4 * reg.index - 0x100) / 4 = reg.index by omega, ofIndex_index]
  rfl

theorem target_blk (j : Fin 64) : target (BitVec.ofNat 32 (0x200 + 4 * j.val)) 4 = some (.blk j) := by
  rw [target_eq_regAt (by omega) (by omega)]
  unfold regAt
  rw [if_neg (by omega), if_neg (by omega), if_pos (by omega), show (0x200 + 4 * j.val - 0x200) / 4 = j.val by omega]
  simp

theorem target_ta {z : Nat} (hz : z < 65536) : target (BitVec.ofNat 32 (0x80000 + 4 * z)) 4 = some (.ta z) := by
  rw [target_eq_regAt (by omega) (by omega)]
  unfold regAt
  rw [if_neg (by omega), if_neg (by omega), if_neg (by omega), if_pos (by omega),
    show (0x80000 + 4 * z - 0x80000) / 4 = z by omega]

theorem target_tw {key : Nat} (hkey : key < 1179648) : target (BitVec.ofNat 32 (0x100000 + 4 * key)) 4 = some (.tw key) := by
  rw [target_eq_regAt (by omega) (by omega)]
  unfold regAt
  rw [if_neg (by omega), if_neg (by omega), if_neg (by omega), if_neg (by omega), if_pos (by omega),
    show (0x100000 + 4 * key - 0x100000) / 4 = key by omega]

/-- The registers whose writes need IDLE (10_state.md R44). -/
inductive Locked : Reg → Prop
  | cfg (reg : CfgReg) : Locked (.cfg reg)
  | ta (z : Nat) : Locked (.ta z)
  | tw (key : Nat) : Locked (.tw key)

/-- An address of CFG_*, TA or TW reaches one of those registers. -/
theorem target_of_configAddress (h : configAddress a) : ∃ reg, target a 4 = some reg ∧ Locked reg := by
  obtain ⟨h4, h⟩ := h
  have hreg : target a 4 = regAt a.toNat := by
    unfold target
    rw [if_pos ⟨rfl, h4⟩]
  rcases h with ⟨hlo, hhi⟩ | ⟨hlo, hhi⟩ | ⟨hlo, hhi⟩
  · have hindex : (a.toNat - 0x100) / 4 < CfgReg.all.length := by
      change _ < 31
      omega
    refine ⟨.cfg CfgReg.all[(a.toNat - 0x100) / 4], ?_, .cfg _⟩
    rw [hreg]
    unfold regAt CfgReg.ofIndex
    rw [if_neg (by omega), if_pos (by omega), List.getElem?_eq_getElem hindex]
    rfl
  · refine ⟨.ta ((a.toNat - 0x80000) / 4), ?_, .ta _⟩
    rw [hreg]
    unfold regAt
    rw [if_neg (by omega), if_neg (by omega), if_neg (by omega), if_pos (by omega)]
  · refine ⟨.tw ((a.toNat - 0x100000) / 4), ?_, .tw _⟩
    rw [hreg]
    unfold regAt
    rw [if_neg (by omega), if_neg (by omega), if_neg (by omega), if_neg (by omega), if_pos (by omega)]

/-! ### One access -/

theorem countsFit_iff : countsFit s = true ↔ s.countable := by
  simp [countsFit, State.countable, and_assoc]

theorem settle_next (h : s.countable) : settle (.next s) = .next s := if_pos (countsFit_iff.mpr h)

theorem settle_refused (h : ¬ s.countable) : settle (.next s) = .refused .streamCount :=
  if_neg fun hfit => h (countsFit_iff.mp hfit)

/-- What the step answers is what the access left. -/
theorem access_of_settle {o : Host.Outcome State Fault Refusal} (h : settle o = .next t) : o = .next t := by
  cases o with
  | next u =>
    change (if countsFit u then _ else _) = _ at h
    split at h
    · exact h
    · cases h
  | fault r => cases h
  | refused r => cases h

theorem step_cons {h : HostAccess} {rest : List HostAccess} (hs : s.script = h :: rest) :
    step s = settle (access h { s with script := rest }) := by
  unfold step runAccess
  rw [hs]

theorem readValue_script (s : State) (l : List HostAccess) (reg : Reg) :
    readValue { s with script := l } reg = readValue s reg := by
  cases reg <;> rfl

/-- A read of a register, in one step. -/
theorem after_read (ht : target a 4 = some reg) (hc : (readEffect s reg).countable) :
    after (.read a 4) s = .next { readEffect { s with script := [] } reg with hostRead := readValue s reg } := by
  have hread : memRead a 4 { s with script := [] } =
      { readEffect { s with script := [] } reg with hostRead := readValue s reg } := by
    unfold memRead
    rw [ht]
    cases reg <;> rfl
  change settle (.next (memRead a 4 { s with script := [] })) = _
  rw [hread]
  exact settle_next (by cases reg <;> exact hc)

/-- A write of a register other than CMD, in one step. -/
theorem after_write (ht : target a 4 = some reg) (hcmd : reg ≠ .cmd)
    (hc : (writeReg a v { s with script := [] } reg).countable) :
    after (.write a 4 v) s = .next (writeReg a v { s with script := [] } reg) := by
  have hwrite : memWrite a 4 v { s with script := [] } = .next (writeReg a v { s with script := [] } reg) := by
    unfold memWrite
    rw [ht]
    cases reg with
    | cmd => exact absurd rfl hcmd
    | _ => rfl
  change settle (memWrite a 4 v { s with script := [] }) = _
  rw [hwrite]
  exact settle_next hc

end Sys2Proof.Machine
end

section
/-! The registers as the host reads and writes them, and the step that runs a command (10_state.md R30 to R45). -/

namespace Sys2Proof.Machine

variable {s t : State} {a b v : Word} {reg reg' : Reg}

/-- Settles O3: the access of a write of CMD is the command itself, and the step settles its count of the streams. -/
theorem stepRunsTheDecodedCommand : Obligations.StepRunsTheDecodedCommand := by
  unfold Obligations.StepRunsTheDecodedCommand
  intro s w rest i hs hi
  obtain ⟨t, ht⟩ := exec_next i { s with script := rest }
  have haccess : access (.write 0x008 4 w) { s with script := rest } = .next t := by
    change writeCmd w _ = _
    unfold writeCmd
    rw [hi]
    exact ht
  refine ⟨t, ht, fun hc => ?_, fun hc => ?_⟩
  · rw [step_cons hs, haccess, settle_next hc]
  · rw [step_cons hs, haccess, settle_refused hc]

/-- Settles O9, by evaluating the reset state. -/
theorem configurationResetValues : Obligations.ConfigurationResetValues := by
  unfold Obligations.ConfigurationResetValues
  decide

/-! ### STATUS and the interrupt line -/

/-- The bits of fields side by side, those of STATUS (10_state.md R34). -/
theorem getLsbD_fields (e : BitVec 8) (m : BitVec 2) (closed terminated err done : Bool) (n : Nat) :
    ((0 : BitVec 16) ++ e ++ (0 : BitVec 2) ++ BitVec.ofBool closed ++ BitVec.ofBool terminated ++ m ++ BitVec.ofBool err ++
      BitVec.ofBool done).getLsbD n =
    if n = 0 then done else if n = 1 then err else if n < 4 then m.getLsbD (n - 2) else if n = 4 then terminated
    else if n = 5 then closed else if n < 8 then false else e.getLsbD (n - 8) := by
  simp only [BitVec.getLsbD_append, BitVec.getLsbD_ofBool]
  rcases n with _ | _ | _ | _ | _ | _ | _ | _ | n <;> simp
  by_cases hn : n < 8
  · rw [decide_eq_true hn, decide_eq_false (by omega), decide_eq_false (by omega)]
    rfl
  · simp [hn, BitVec.getLsbD_of_ge e n (by omega)]

theorem getLsbD_status (s : State) (n : Nat) : s.status.getLsbD n =
    if n = 0 then s.done else if n = 1 then s.err else if n < 4 then s.mode.code.getLsbD (n - 2)
    else if n = 4 then s.terminated else if n = 5 then s.closed else if n < 8 then false
    else s.errCode.code.getLsbD (n - 8) :=
  getLsbD_fields s.errCode.code s.mode.code s.closed s.terminated s.err s.done n

theorem getLsbD_status_high (s : State) (k : Nat) : s.status.getLsbD (8 + k) = s.errCode.code.getLsbD k := by
  rw [getLsbD_status, if_neg (by omega), if_neg (by omega), if_neg (by omega), if_neg (by omega), if_neg (by omega),
    if_neg (by omega), Nat.add_sub_cancel_left]

theorem status_done (s : State) : s.status.getLsbD 0 = s.done := getLsbD_status s 0

theorem status_err (s : State) : s.status.getLsbD 1 = s.err := getLsbD_status s 1

theorem err_iff (s : State) : s.err = true ↔ s.mode = .fault := by simp [State.err]

/-- Settles O16: the codes by evaluation, the bits of STATUS one field after another. -/
theorem statusWordLayout : Obligations.StatusWordLayout := by
  unfold Obligations.StatusWordLayout
  refine ⟨by decide, fun s => ⟨status_done s, by rw [status_err, err_iff], ?_, getLsbD_status s 4, getLsbD_status s 5,
    ?_, ?_, ?_⟩⟩
  · have hmode : s.status.extractLsb' 2 2 = s.mode.code := by
      ext k hk
      rw [BitVec.getElem_extractLsb', getLsbD_status]
      interval_cases k <;> simp
    rw [hmode]
    cases s.mode <;> rfl
  · ext k hk
    rw [BitVec.getElem_extractLsb', getLsbD_status]
    interval_cases k <;> simp
  · ext k hk
    rw [BitVec.getElem_extractLsb', getLsbD_status_high]
    rfl
  · ext k hk
    rw [BitVec.getElem_extractLsb', show 16 + k = 8 + (8 + k) by omega, getLsbD_status_high, BitVec.getLsbD_of_ge _ _ (by omega)]
    simp

/-- Settles O17: the stored bits are what the mask keeps, and IRQ is its formula. -/
theorem interruptLineAndEnable : Obligations.InterruptLineAndEnable := by
  unfold Obligations.InterruptLineAndEnable
  refine ⟨fun s => ?_, fun s v hc => ?_, rfl⟩
  · rw [status_done, status_err]
    simp [State.irq]
  · refine ⟨_, after_write (reg := .irqEn) rfl (by simp) hc, ?_⟩
    change some ((v.truncate 2).zeroExtend 32) = some (v &&& 3)
    congr 1
    have hmask : v.toNat &&& 3 = v.toNat % 4 := Nat.and_two_pow_sub_one_eq_mod v.toNat 2
    apply BitVec.eq_of_toNat_eq
    rw [BitVec.toNat_and, BitVec.toNat_setWidth, BitVec.toNat_setWidth]
    change v.toNat % 4 % 4294967296 = v.toNat &&& 3
    omega

/-! ### Reads -/

/-- A register whose read changes nothing (20_memory.md R104). -/
theorem after_read_still (hc : s.countable) (ht : target a 4 = some reg) (hstill : ∀ s, readEffect s reg = s) :
    after (.read a 4) s = .next { s with script := [], hostRead := readValue s reg } := by
  rw [after_read ht ((hstill s).symm ▸ hc), hstill]

/-- Settles O12: the value is the head of the stream, the effect its tail. -/
theorem outputStreamReadsRemoveOne : Obligations.OutputStreamReadsRemoveOne := by
  unfold Obligations.OutputStreamReadsRemoveOne
  intro s hc
  obtain ⟨hsin, hsout, hbin, hbout⟩ := hc
  have hread (reg : Reg) : (readEffect s reg).countable := by
    have hs := List.length_tail (l := s.sout)
    have hb := List.length_tail (l := s.bout)
    cases reg <;> exact ⟨hsin, by simp only [readEffect]; omega, hbin, by simp only [readEffect]; omega⟩
  refine ⟨fun v more h => ?_, fun h => ?_, fun b more h => ?_, fun h => ?_⟩
  · rw [after_read (reg := .soutData) rfl (hread _)]
    simp [readEffect, readValue, h]
  · rw [after_read (reg := .soutData) rfl (hread _)]
    simp [readEffect, readValue, emptyRead, h]
  · rw [after_read (reg := .boutData) rfl (hread _)]
    simp [readEffect, readValue, h, BitVec.zeroExtend, BitVec.ofNat_toNat]
  · rw [after_read (reg := .boutData) rfl (hread _)]
    simp [readEffect, readValue, emptyRead, h]

end Sys2Proof.Machine
end

section
/-! Every register read, every register written (10_state.md R31 to R45, 20_memory.md R103, R104). -/

namespace Sys2Proof.Machine

variable {s t : State} {a b v : Word} {reg reg' : Reg}

/-! ### Reads that change nothing -/

theorem zeroExtend_eq_ofNat {n : Nat} (x : BitVec n) : x.zeroExtend 32 = BitVec.ofNat 32 x.toNat := by
  apply BitVec.eq_of_toNat_eq
  simp [BitVec.zeroExtend]

theorem derivedShown_iff (s : State) : s.derivedShown = true ↔ s.mode = .active ∨ s.derivedHeld = true := by
  simp [State.derivedShown]

/-- A register whose read changes nothing, by its value. -/
theorem after_read_value (hc : s.countable) (ht : target a 4 = some reg) (hstill : ∀ s, readEffect s reg = s)
    (hv : readValue s reg = v) : after (.read a 4) s = .next { s with script := [], hostRead := v } := by
  rw [after_read_still hc ht hstill, hv]

/-- Settles O11: each address reaches its register, whose read shows its field. -/
theorem registerReadsShowTheState : Obligations.RegisterReadsShowTheState := by
  unfold Obligations.RegisterReadsShowTheState
  intro s hc
  have shown (w : Word) : (if s.derivedShown then w else 0) = if s.mode = .active ∨ s.derivedHeld = true then w else 0 :=
    if_congr (derivedShown_iff s) rfl rfl
  refine ⟨?_, fun reg => after_read_still hc (target_cfg reg) fun _ => rfl,
    fun j => after_read_still hc (target_blk j) fun _ => rfl, fun z hz => after_read_still hc (target_ta hz) fun _ => rfl,
    fun z hz i hi => after_read_still hc (target_tw (by omega)) fun _ => rfl⟩
  simp only [List.forall_mem_cons, List.not_mem_nil, false_imp_iff, implies_true, and_true]
  exact ⟨after_read_still (reg := .id) hc rfl fun _ => rfl, after_read_still (reg := .version) hc rfl fun _ => rfl,
    after_read_still (reg := .cmd) hc rfl fun _ => rfl, after_read_still (reg := .status) hc rfl fun _ => rfl,
    after_read_still (reg := .errInfo) hc rfl fun _ => rfl,
    after_read_value (reg := .irqEn) hc rfl (fun _ => rfl) (zeroExtend_eq_ofNat _),
    after_read_still (reg := .arg0) hc rfl fun _ => rfl, after_read_still (reg := .arg1) hc rfl fun _ => rfl,
    after_read_still (reg := .arg2) hc rfl fun _ => rfl, after_read_still (reg := .arg3) hc rfl fun _ => rfl,
    after_read_still (reg := .result) hc rfl fun _ => rfl, after_read_still (reg := .result1) hc rfl fun _ => rfl,
    after_read_still (reg := .bitsOut) hc rfl fun _ => rfl, after_read_still (reg := .bitsIn) hc rfl fun _ => rfl,
    after_read_still (reg := .curZ) hc rfl fun _ => rfl, after_read_still (reg := .curYx) hc rfl fun _ => rfl,
    after_read_still (reg := .sinData) hc rfl fun _ => rfl, after_read_still (reg := .sinCount) hc rfl fun _ => rfl,
    after_read_still (reg := .soutCount) hc rfl fun _ => rfl, after_read_still (reg := .binData) hc rfl fun _ => rfl,
    after_read_still (reg := .binCount) hc rfl fun _ => rfl, after_read_still (reg := .boutCount) hc rfl fun _ => rfl,
    after_read_value (reg := .idBits) hc rfl (fun _ => rfl) (shown _),
    after_read_value (reg := .backupOpt) hc rfl (fun _ => rfl) (shown _)⟩

/-! ### Writes outside the configuration -/

/-- A register that ignores its writes (20_memory.md R103). -/
theorem after_write_ignored (hc : s.countable) (ht : target a 4 = some reg) (hcmd : reg ≠ .cmd)
    (hkeep : ∀ s, writeReg a v s reg = s) : after (.write a 4 v) s = .next { s with script := [] } := by
  rw [after_write ht hcmd ((hkeep _).symm ▸ hc), hkeep]

/-- Settles O13: each address reaches its register, and the write is that register's. -/
theorem registerWritesStoreOrAreIgnored : Obligations.RegisterWritesStoreOrAreIgnored := by
  unfold Obligations.RegisterWritesStoreOrAreIgnored
  intro s v hc
  have hdone : (s.done && !v.getLsbD 0) = if v.getLsbD 0 then false else s.done := by
    cases v.getLsbD 0 <;> simp
  have hstream : ∀ {α : Type} (l : List α) (x : α), l.length + 1 < 2 ^ 32 → (l ++ [x]).length < 2 ^ 32 := fun l x h => by
    rwa [List.length_append]
  have hstatus := after_write (reg := .status) (a := 0x00C) (v := v) (s := s) rfl (by simp) hc
  refine ⟨after_write (reg := .arg0) rfl (by simp) hc, after_write (reg := .arg1) rfl (by simp) hc,
    after_write (reg := .arg2) rfl (by simp) hc, after_write (reg := .arg3) rfl (by simp) hc, ?_, ?_,
    fun h => after_write (reg := .sinData) rfl (by simp) ⟨hstream _ _ h, hc.2⟩, fun h => ?_, fun j => ?_, ?_⟩
  · rw [← BitVec.setWidth_eq_extractLsb' (by decide)]
    exact after_write (reg := .irqEn) rfl (by simp) hc
  · rw [← hdone]
    exact hstatus
  · rw [← BitVec.setWidth_eq_extractLsb' (by decide)]
    obtain ⟨hsin, hsout, -, hbout⟩ := hc
    exact after_write (reg := .binData) rfl (by simp) ⟨hsin, hsout, hstream _ _ h, hbout⟩
  · refine ⟨s.blk.set j v, fun k => ?_, after_write (target_blk j) (by simp) hc⟩
    change (s.blk.set j v)[k.val] = _
    rw [Vector.getElem_set]
    exact if_congr (by rw [eq_comm, Fin.ext_iff]) rfl rfl
  · have ignored (a : Word) (reg : Reg) (ht : target a 4 = some reg) (hcmd : reg ≠ .cmd)
        (hkeep : ∀ s, writeReg a v s reg = s) := after_write_ignored hc ht hcmd hkeep
    simp only [List.forall_mem_cons, List.not_mem_nil, false_imp_iff, implies_true, and_true]
    exact ⟨ignored _ .id rfl (by simp) fun _ => rfl, ignored _ .version rfl (by simp) fun _ => rfl,
      ignored _ .errInfo rfl (by simp) fun _ => rfl, ignored _ .result rfl (by simp) fun _ => rfl,
      ignored _ .result1 rfl (by simp) fun _ => rfl, ignored _ .bitsOut rfl (by simp) fun _ => rfl,
      ignored _ .bitsIn rfl (by simp) fun _ => rfl, ignored _ .curZ rfl (by simp) fun _ => rfl,
      ignored _ .curYx rfl (by simp) fun _ => rfl, ignored _ .sinCount rfl (by simp) fun _ => rfl,
      ignored _ .soutData rfl (by simp) fun _ => rfl, ignored _ .soutCount rfl (by simp) fun _ => rfl,
      ignored _ .binCount rfl (by simp) fun _ => rfl, ignored _ .boutData rfl (by simp) fun _ => rfl,
      ignored _ .boutCount rfl (by simp) fun _ => rfl, ignored _ .idBits rfl (by simp) fun _ => rfl,
      ignored _ .backupOpt rfl (by simp) fun _ => rfl⟩

/-! ### Writes of the configuration -/

theorem read_write_same (c : Cfg) (reg : CfgReg) (v : Word) : (c.write reg v).read reg = v := by cases reg <;> rfl

theorem read_write_other (c : Cfg) {reg other : CfgReg} (h : other ≠ reg) (v : Word) :
    (c.write reg v).read other = c.read other := by
  revert h
  cases reg <;> cases other <;> simp [Cfg.write, Cfg.read]

theorem lockedWrite_idle (hm : s.mode = .idle) (a : Word) (f : State → State) : lockedWrite a f s = f s := by
  unfold lockedWrite
  rw [hm]

theorem lockedWrite_active (hm : s.mode = .active) (a : Word) (f : State → State) :
    lockedWrite a f s = enterFault ⟨.cfgLocked, a⟩ s := by
  unfold lockedWrite
  rw [hm]

theorem lockedWrite_fault (hm : s.mode = .fault) (a : Word) (f : State → State) : lockedWrite a f s = s := by
  unfold lockedWrite
  rw [hm]

theorem writeReg_locked (hl : Locked reg) (a v : Word) (s : State) : ∃ f, writeReg a v s reg = lockedWrite a f s := by
  cases hl with
  | _ => simp only [writeReg]; exact ⟨_, rfl⟩

theorem writeReg_active (hl : Locked reg) (hm : s.mode = .active) (a v : Word) :
    writeReg a v s reg = enterFault ⟨.cfgLocked, a⟩ s := by
  obtain ⟨f, hf⟩ := writeReg_locked hl a v s
  rw [hf, lockedWrite_active hm]

theorem writeReg_fault (hl : Locked reg) (hm : s.mode = .fault) (a v : Word) : writeReg a v s reg = s := by
  obtain ⟨f, hf⟩ := writeReg_locked hl a v s
  rw [hf, lockedWrite_fault hm]

theorem writeReg_cfg (hm : s.mode = .idle) (a v : Word) (reg : CfgReg) :
    writeReg a v s (.cfg reg) = { s with cfg := s.cfg.write reg v } := by
  unfold writeReg
  exact lockedWrite_idle hm a _

theorem writeReg_ta (hm : s.mode = .idle) (a v : Word) (z : Nat) :
    writeReg a v s (.ta z) = { s with ta := s.ta.putWord z v } := by
  unfold writeReg
  exact lockedWrite_idle hm a _

theorem writeReg_tw (hm : s.mode = .idle) (a v : Word) (key : Nat) :
    writeReg a v s (.tw key) = { s with tw := s.tw.putWord key v } := by
  unfold writeReg
  exact lockedWrite_idle hm a _

/-- In IDLE a write of a locked register changes the parameters alone, and keeps the storage canonical. -/
theorem writeReg_parameters (hl : Locked reg) (hm : s.mode = .idle) (a v : Word) :
    ∃ c ta tw, writeReg a v s reg = { s with cfg := c, ta := ta, tw := tw } ∧
      (Memory.wf s = true → Memory.wf (writeReg a v s reg) = true) := by
  cases hl with
  | cfg reg => exact ⟨s.cfg.write reg v, s.ta, s.tw, writeReg_cfg hm a v reg, fun h => (writeReg_cfg hm a v reg).symm ▸ h⟩
  | ta z =>
    exact ⟨s.cfg, s.ta.putWord z v, s.tw, writeReg_ta hm a v z, fun h => (writeReg_ta hm a v z).symm ▸ wf_putTa h z v⟩
  | tw key =>
    exact ⟨s.cfg, s.ta, s.tw.putWord key v, writeReg_tw hm a v key,
      fun h => (writeReg_tw hm a v key).symm ▸ wf_putTw h key v⟩

/-- A locked register shows the word last written to it. -/
theorem readValue_writeReg_same (hl : Locked reg) (hm : s.mode = .idle) (hwf : Memory.wf s = true) (a v : Word) :
    readValue (writeReg a v s reg) reg = v := by
  obtain ⟨hta, htw, -⟩ := (wf_iff s).mp hwf
  cases hl with
  | cfg reg =>
    rw [writeReg_cfg hm]
    exact read_write_same s.cfg reg v
  | ta z =>
    rw [writeReg_ta hm]
    exact Memory.wordAt_putWord_same hta z v
  | tw key =>
    rw [writeReg_tw hm]
    exact Memory.wordAt_putWord_same htw key v

/-- No other register shows another word. -/
theorem readValue_writeReg_other (hl : Locked reg) (hm : s.mode = .idle) (hne : reg' ≠ reg) (a v : Word) :
    readValue (writeReg a v s reg) reg' = readValue s reg' := by
  cases hl with
  | cfg reg =>
    rw [writeReg_cfg hm]
    cases reg' with
    | cfg other => exact read_write_other s.cfg (ne_of_apply_ne Reg.cfg hne) v
    | _ => rfl
  | ta z =>
    rw [writeReg_ta hm]
    cases reg' with
    | ta other => exact Memory.wordAt_putWord_other s.ta (ne_of_apply_ne Reg.ta hne) v
    | _ => rfl
  | tw key =>
    rw [writeReg_tw hm]
    cases reg' with
    | tw other => exact Memory.wordAt_putWord_other s.tw (ne_of_apply_ne Reg.tw hne) v
    | _ => rfl

/-- Settles O14: the address reaches one locked register, and every other address another one. -/
theorem configurationWritableOnlyInIdle : Obligations.ConfigurationWritableOnlyInIdle := by
  unfold Obligations.ConfigurationWritableOnlyInIdle
  intro s a v ha hc hwf
  obtain ⟨reg, ht, hl⟩ := target_of_configAddress ha
  have hcmd : reg ≠ .cmd := by
    rintro rfl
    cases hl
  refine ⟨fun hm => ?_, fun hm => ?_, fun hm => ?_⟩
  · obtain ⟨c, ta, tw, hw, -⟩ := writeReg_parameters (s := { s with script := [] }) hl hm a v
    refine ⟨_, after_write ht hcmd (hw ▸ hc), hw ▸ rfl, ?_, fun b hb => ?_⟩
    · unfold State.shows
      rw [ht, Option.map_some, readValue_writeReg_same (s := { s with script := [] }) hl hm hwf]
    · unfold State.shows
      cases hreg : target b 4 with
      | none => rfl
      | some reg' =>
        have hne : reg' ≠ reg := fun h => hb (target_injective (hreg.trans (congrArg some h)) ht)
        rw [Option.map_some, Option.map_some, readValue_writeReg_other (s := { s with script := [] }) hl hm hne, readValue_script]
  · have hw := writeReg_active (s := { s with script := [] }) hl hm a v
    rw [after_write ht hcmd (hw ▸ hc), hw]
    rfl
  · have hw := writeReg_fault (s := { s with script := [] }) hl hm a v
    rw [after_write ht hcmd (hw.symm ▸ hc), hw]

end Sys2Proof.Machine
end

section
/-! Everything one step can do: it waits, an access moves the host's parts, it configures the core in IDLE, it raises an error,
or it runs a command (10_state.md R30, R44, 48_system.md R580). -/

namespace Sys2Proof.Machine

variable {i : Instr} {s t u : State} {a v : Word} {reg : Reg}

/-- The parts a host access may change in every mode. -/
def hostParts : List Part := [.own, .blk, .sin, .sout, .bin, .bout]

/-- A change by the host: these parts at most, the error fields and the capacity kept, the order of the state kept. -/
structure HostMove (parts : List Part) (s t : State) : Prop where
  frame : Frame parts s t
  errCode : t.errCode = s.errCode
  errInfo : t.errInfo = s.errInfo
  capacity : t.histCapacity = s.histCapacity
  orderly : Orderly s → Orderly t

theorem HostMove.refl (parts : List Part) (s : State) : HostMove parts s s := ⟨fun _ _ => rfl, rfl, rfl, rfl, id⟩

theorem HostMove.trans {parts : List Part} (h : HostMove parts s t) (k : HostMove parts t u) : HostMove parts s u :=
  ⟨fun part hp => (k.frame part hp).trans (h.frame part hp), k.errCode.trans h.errCode, k.errInfo.trans h.errInfo,
    k.capacity.trans h.capacity, fun ho => k.orderly (h.orderly ho)⟩

theorem HostMove.mono {parts touched : List Part} (h : HostMove touched s t) (hsub : touched ⊆ parts) : HostMove parts s t :=
  ⟨fun part hp => h.frame part fun hm => hp (hsub hm), h.errCode, h.errInfo, h.capacity, h.orderly⟩

/-- What a step can do. -/
inductive StepEnd (s : State) : State → Prop
  | accessed {t : State} (h : HostMove hostParts s t) : StepEnd s t
  | configured {t : State} (hm : s.mode = .idle) (h : HostMove (.parameters :: hostParts) s t) : StepEnd s t
  | raised {u : State} (hm : s.mode ≠ .fault) (h : HostMove hostParts s u) {e : Raise} (he : Raised e.kind = true) :
    StepEnd s (enterFault e u)
  | command {rest : List HostAccess} {i : Instr} {t : State} (hs : s.script = .write 0x008 4 (encode i) :: rest)
    (h : exec i { s with script := rest } = .next t) : StepEnd s t

/-- Changes of the model's own fields and of what only the host reads. -/
theorem hostMove_own (l : List HostAccess) (r : Word) : HostMove hostParts s { s with script := l, hostRead := r } where
  frame := frame_of fun part => by cases part <;> simp [Part.view, hostParts]
  errCode := rfl
  errInfo := rfl
  capacity := rfl
  orderly ho := ⟨ho.storage, ho.writer, ho.reader, ho.accounting, ho.closedEmpty⟩

/-- A read of a register. -/
theorem hostMove_read (s : State) (reg : Reg) (r : Word) : HostMove hostParts s { readEffect s reg with hostRead := r } := by
  cases reg with
  | _ => exact ⟨frame_of fun part => by cases part <;> simp [Part.view, readEffect, hostParts], rfl, rfl, rfl,
      fun ho => ⟨ho.storage, ho.writer, ho.reader, ho.accounting, ho.closedEmpty⟩⟩

/-- A write of a register outside the configuration. -/
theorem hostMove_write (s : State) (hl : ¬ Locked reg) (a v : Word) : HostMove hostParts s (writeReg a v s reg) := by
  cases reg with
  | cfg reg => exact absurd (.cfg reg) hl
  | ta z => exact absurd (.ta z) hl
  | tw key => exact absurd (.tw key) hl
  | _ => exact ⟨frame_of fun part => by cases part <;> simp [Part.view, writeReg, writeStatus, hostParts], rfl, rfl, rfl,
      fun ho => ⟨ho.storage, ho.writer, ho.reader, ho.accounting, ho.closedEmpty⟩⟩

/-- An error outside a command: FAULT ignores it (60_exceptions.md R625). -/
theorem stepEnd_of_raiseOutside (h : HostMove hostParts s u) {e : Raise} (he : Raised e.kind = true) :
    StepEnd s (raiseOutside e u) := by
  have hm : u.mode = s.mode := h.frame.field .mode State.mode (by simp [hostParts]) fun _ => rfl
  unfold raiseOutside
  split
  · exact .accessed h
  · rename_i hf
    exact .raised (hm ▸ hf) h he

theorem stepEnd_of_writeReg (h : HostMove hostParts s u) (reg : Reg) (a v : Word) : StepEnd s (writeReg a v u reg) := by
  have hm : u.mode = s.mode := h.frame.field .mode State.mode (by simp [hostParts]) fun _ => rfl
  by_cases hl : Locked reg
  · cases hmode : u.mode with
    | idle =>
      obtain ⟨c, ta, tw, hw, hwf⟩ := writeReg_parameters hl hmode a v
      refine .configured (hm.symm.trans hmode) ((h.mono (List.subset_cons_self _ _)).trans ?_)
      rw [hw] at hwf ⊢
      exact ⟨frame_of fun part => by cases part <;> simp [Part.view], rfl, rfl, rfl,
        fun ho => ⟨hwf ho.storage, ho.writer, ho.reader, ho.accounting, ho.closedEmpty⟩⟩
    | active =>
      rw [writeReg_active hl hmode]
      exact .raised (by rw [← hm, hmode]; simp) h rfl
    | fault =>
      rw [writeReg_fault hl hmode]
      exact .accessed h
  · exact .accessed (h.trans (hostMove_write u hl a v))

theorem cmd_of_target {n : Nat} (h : target a n = some .cmd) : a = 0x008 ∧ n = 4 := by
  obtain ⟨hn, ha⟩ := address_of_target h
  exact ⟨BitVec.eq_of_toNat_eq ha.symm, hn⟩

/-- Everything one step can do. -/
theorem stepEnd_of_step (h : step s = .next t) : StepEnd s t := by
  cases hs : s.script with
  | nil =>
    unfold step runAccess at h
    rw [hs] at h
    cases h
    exact .accessed (HostMove.refl _ _)
  | cons access rest =>
    rw [step_cons hs] at h
    replace h := access_of_settle h
    have hrest : HostMove hostParts s { s with script := rest } := hostMove_own rest s.hostRead
    cases access with
    | read a n =>
      cases h
      unfold memRead
      split
      · exact .accessed (hrest.trans (hostMove_read _ _ _))
      · have hread : { raiseOutside ⟨.bus, a⟩ { s with script := rest } with hostRead := 0 } =
            raiseOutside ⟨.bus, a⟩ { s with script := rest, hostRead := 0 } := by
          unfold raiseOutside
          split <;> rfl
        rw [hread]
        exact stepEnd_of_raiseOutside (hostMove_own rest 0) rfl
    | write a n v =>
      change memWrite a n v _ = _ at h
      unfold memWrite at h
      split at h
      · rename_i htarget
        obtain ⟨rfl, rfl⟩ := cmd_of_target htarget
        unfold writeCmd at h
        split at h
        · rename_i i hi
          rw [encode_of_decode hi] at hs
          exact .command hs h
        · cases h
          exact stepEnd_of_raiseOutside hrest rfl
      · cases h
        exact stepEnd_of_writeReg hrest _ a v
      · cases h
        exact stepEnd_of_raiseOutside hrest rfl

end Sys2Proof.Machine
end

section
/-! What every step keeps, in FAULT and in a session, and the bookkeeping of every state (10_state.md R32, R44, R48, R49,
60_exceptions.md R625, R627, R636). -/

namespace Sys2Proof.Machine

variable {i : Instr} {s t u : State} {parts : List Part}

theorem HostMove.mode (h : HostMove parts s t) (hp : .mode ∉ parts) : t.mode = s.mode :=
  h.frame.field .mode State.mode hp fun _ => rfl

/-- Settles O7: only RESET runs in FAULT, where nothing is raised. -/
theorem onlyResetLeavesFault : Obligations.OnlyResetLeavesFault := by
  unfold Obligations.OnlyResetLeavesFault
  intro s t hm hstep
  cases stepEnd_of_step hstep with
  | accessed h => exact .inl ⟨(h.mode (by simp [hostParts])).trans hm, h.errCode, h.errInfo⟩
  | configured hi => exact absurd (hi.symm.trans hm) (by simp)
  | raised hf => exact absurd hm hf
  | @command rest i _ hs h =>
    cases commandEnd_of_exec h with
    | ignored => exact .inl ⟨hm, rfl, rfl⟩
    | refused hf => exact absurd hm hf
    | completed hi _ _ hu =>
      obtain rfl := hi.resolve_left (not_not.mpr hm)
      cases hu
      exact .inr ⟨⟨rest, hs⟩, rfl, rfl, rfl⟩
    | raised hi _ hu => exact absurd (hi.resolve_left (not_not.mpr hm)) (ne_reset_of_raised hu)

/-- The commands that read a header do not run in a session. -/
theorem parameters_notMem_of_active (hr : runsIn i .active = true) : .parameters ∉ footprint i := by
  intro hp
  have hi := parameters_mem_footprint hp
  simp only [List.mem_cons, List.not_mem_nil, or_false] at hi
  rcases hi with rfl | rfl
  · cases hr
  · cases hr

theorem Frame.parameters (h : Frame parts s t) (hp : .parameters ∉ parts) : t.cfg = s.cfg ∧ t.ta = s.ta ∧ t.tw = s.tw :=
  ⟨h.field .parameters State.cfg hp fun _ => rfl, h.field .parameters State.ta hp fun _ => rfl,
    h.field .parameters State.tw hp fun _ => rfl⟩

/-- Settles O15: writes of the configuration are refused in a session, and so are the commands that read a header. -/
theorem configurationConstantInSession : Obligations.ConfigurationConstantInSession := by
  unfold Obligations.ConfigurationConstantInSession
  intro s t hm hstep
  cases stepEnd_of_step hstep with
  | accessed h => exact h.frame.parameters (by simp [hostParts])
  | configured hi => exact absurd (hi.symm.trans hm) (by simp)
  | raised _ h => exact h.frame.parameters (by simp [hostParts])
  | @command _ i _ _ h =>
    cases commandEnd_of_exec h with
    | ignored => exact ⟨rfl, rfl, rfl⟩
    | refused => exact ⟨rfl, rfl, rfl⟩
    | @completed _ hr _ u hu =>
      by_cases hi : i = .reset
      · subst hi
        cases hu
        exact ⟨rfl, rfl, rfl⟩
      · exact ((acts_body i hi).ok hu).frame.parameters (parameters_notMem_of_active (hm ▸ hr))
    | raised _ hr hu =>
      exact ((acts_body i (ne_reset_of_raised hu)).error hu).1.frame.parameters (parameters_notMem_of_active (hm ▸ hr))

/-! ### Bookkeeping -/

theorem Bookkeeping.orderly (h : Bookkeeping s) : Orderly s :=
  ⟨h.storage, h.writer, h.reader, h.accounting, h.closedEmpty⟩

/-- A state in order whose error fields are those of one with bookkeeping, in the same mode. -/
theorem Bookkeeping.of_orderly (h : Bookkeeping s) (ho : Orderly t) (hm : t.mode = s.mode) (hc : t.errCode = s.errCode)
    (hi : t.errInfo = s.errInfo) : Bookkeeping t where
  storage := ho.storage
  writer := ho.writer
  reader := ho.reader
  accounting := ho.accounting
  closedEmpty := ho.closedEmpty
  noError := by rw [hm, hc, hi]; exact h.noError
  anError := by rw [hm, hc]; exact h.anError
  noFormatId := by rw [hc]; exact h.noFormatId

/-- A state in order without an error. -/
theorem bookkeeping_of_sound (ho : Orderly t) (hm : t.mode ≠ .fault) (hc : t.errCode = .none) (hi : t.errInfo = 0) :
    Bookkeeping t :=
  ⟨ho.storage, ho.writer, ho.reader, ho.accounting, ho.closedEmpty, fun _ => ⟨hc, hi⟩, fun hf => absurd hf hm, by simp [hc]⟩

/-- A raised error, in a state in order. -/
theorem bookkeeping_enterFault (ho : Orderly u) {e : Raise} (he : Raised e.kind = true) : Bookkeeping (enterFault e u) := by
  have hkind : e.kind ≠ .none ∧ e.kind ≠ .formatId := by simpa [Raised] using he
  exact ⟨ho.storage, ho.writer, ho.reader, ho.accounting, ho.closedEmpty, fun hf => absurd rfl hf, fun _ => hkind.1, hkind.2⟩

theorem orderly_resetCore (ho : Orderly s) : Orderly (resetCore s) :=
  ⟨wf_resetCore ho.storage, Nat.zero_lt_succ 7, Nat.zero_lt_succ 7, rfl, fun _ => rfl⟩

theorem bookkeeping_of_commandEnd (hb : Bookkeeping s) (h : CommandEnd i s t) : Bookkeeping t := by
  have ho := hb.orderly
  cases h with
  | ignored => exact hb
  | refused => exact bookkeeping_enterFault ho rfl
  | @completed hm hr _ u hu =>
    have hmode : u.mode ≠ .fault := mode_of_body hu ▸ modeAfter_ne_fault hm hr
    by_cases hi : i = .reset
    · subst hi
      cases hu
      have hreset := orderly_resetCore ho
      exact bookkeeping_of_sound ⟨hreset.storage, hreset.writer, hreset.reader, hreset.accounting, hreset.closedEmpty⟩
        hmode rfl rfl
    · have hmoves := (acts_body i hi).ok hu
      have hu := hmoves.orderly ho
      obtain ⟨hcode, hinfo⟩ := hb.noError (hm.resolve_right hi)
      exact bookkeeping_of_sound ⟨hu.storage, hu.writer, hu.reader, hu.accounting, hu.closedEmpty⟩ hmode
        ((hmoves.own State.errCode fun _ => rfl).trans hcode) ((hmoves.own State.errInfo fun _ => rfl).trans hinfo)
  | raised _ _ hu =>
    obtain ⟨hmoves, he⟩ := (acts_body i (ne_reset_of_raised hu)).error hu
    exact bookkeeping_enterFault (hmoves.orderly ho) he

/-- Settles O21: each command keeps the order of a state and raises a code that a rule raises (`acts_body`); the host's
accesses keep both. -/
theorem stepKeepsBookkeeping : Obligations.StepKeepsBookkeeping := by
  unfold Obligations.StepKeepsBookkeeping
  intro s t hb hstep
  cases stepEnd_of_step hstep with
  | accessed h => exact hb.of_orderly (h.orderly hb.orderly) (h.mode (by simp [hostParts])) h.errCode h.errInfo
  | configured _ h => exact hb.of_orderly (h.orderly hb.orderly) (h.mode (by simp [hostParts])) h.errCode h.errInfo
  | raised _ h he => exact bookkeeping_enterFault (h.orderly hb.orderly) he
  | @command rest _ _ _ h =>
    have hmove : HostMove hostParts s { s with script := rest } := hostMove_own rest s.hostRead
    exact bookkeeping_of_commandEnd (hb.of_orderly (hmove.orderly hb.orderly) rfl rfl rfl) (commandEnd_of_exec h)

end Sys2Proof.Machine
end

section
/-! Validation that passes says every row of the list: the converse of `firstFailure_none` (48_system.md R596). -/

namespace Sys2Proof.Machine

variable {c : Cfg} {ta tw : Memory Word} {compress : Bool} {s t : State}

theorem check_eq_none {ok : Bool} {reg : CfgReg} : check ok reg = none ↔ ok = true := by
  unfold check
  cases ok <;> simp

theorem within_iff {w : Word} {lo hi : Int} : within w lo hi = true ↔ lo ≤ w.toInt ∧ w.toInt ≤ hi := by
  simp [within]

theorem bit_iff {w : Word} : (0 ≤ w.toInt ∧ w.toInt ≤ 1) ↔ w = 0 ∨ w = 1 := by
  constructor
  · intro h
    have : w.toInt = 0 ∨ w.toInt = 1 := by omega
    exact this.imp (fun h0 => BitVec.eq_of_toInt_eq h0) (fun h1 => BitVec.eq_of_toInt_eq h1)
  · rintro (rfl | rfl) <;> decide

theorem ite_none_iff {α : Type} {p : Prop} [Decidable p] {e : α} : (if p then none else some e) = none ↔ p := by
  split <;> simp [*]

theorem badTwEntry_eq_none (h : badTwEntry c tw = none) : ∀ z < c.Z, ∀ i < c.bandLength z,
    -2 ^ (c.Q - 1) ≤ (tw.wordAt (18 * z + i)).toInt ∧ (tw.wordAt (18 * z + i)).toInt ≤ 2 ^ (c.Q - 1) - 1 := by
  intro z hz i hi
  have hband := List.findSome?_eq_none_iff.mp h z (List.mem_range.mpr hz)
  exact within_iff.mp (ite_none_iff.mp (List.findSome?_eq_none_iff.mp hband i (List.mem_range.mpr hi)))

theorem badTaEntry_eq_none (h : badTaEntry c ta = none) : ∀ z < c.Z,
    0 ≤ (ta.wordAt z).toInt ∧ (ta.wordAt z).toInt ≤ c.d.toInt - 2 := fun z hz =>
  within_iff.mp (ite_none_iff.mp (List.findSome?_eq_none_iff.mp h z (List.mem_range.mpr hz)))

theorem checkCapacity_eq_none {capacity : Option Nat} (h : checkCapacity c capacity = none) : FitsCapacity c capacity := by
  rintro n rfl
  exact of_decide_eq_true (check_eq_none.mp h)

theorem checkRefsamp_eq_none (h : checkRefsamp c = none) : c.refsamp = 0 := by
  unfold checkRefsamp at h
  split at h
  · cases h
  · exact beq_iff_eq.mp (check_eq_none.mp h)

/-- The checks of the sample-adaptive coder, field by field. -/
theorem checkSampleAdaptive_eq_none (h : checkSampleAdaptive c ta = none) :
    (8 ≤ c.umax.toInt ∧ c.umax.toInt ≤ 32) ∧ (4 ≤ c.gstar.toInt ∧ c.gstar.toInt ≤ 9) ∧
    (1 ≤ c.g0.toInt ∧ c.g0.toInt ≤ c.gstar.toInt - 1) ∧ ((0 ≤ c.k.toInt ∧ c.k.toInt ≤ c.d.toInt - 2) ∨ c.k = 15) ∧
    ((c.atable = 0 ∨ c.atable = 1) ∧ (c.atable = 1 ↔ c.k = 15)) ∧
    (c.k = 15 → ∀ z < c.Z, 0 ≤ (ta.wordAt z).toInt ∧ (ta.wordAt z).toInt ≤ c.d.toInt - 2) := by
  simp only [checkSampleAdaptive, Option.orElse_eq_none, check_eq_none, Bool.or_eq_true, Bool.and_eq_true, within_iff, bit_iff,
    beq_iff_eq] at h
  obtain ⟨umax, gstar, g0, k, ⟨abit, atable⟩, accumulators⟩ := h
  refine ⟨umax, gstar, g0, k, ⟨abit, by rw [← beq_iff_eq, atable, beq_iff_eq]⟩, fun h15 => badTaEntry_eq_none ?_⟩
  rwa [if_pos h15] at accumulators

/-- The checks of the block-adaptive coder, field by field. -/
theorem checkBlockAdaptive_eq_none (h : checkBlockAdaptive c = none) :
    (c.j = 8 ∨ c.j = 16 ∨ c.j = 32 ∨ c.j = 64) ∧ (1 ≤ c.rsi.toInt ∧ c.rsi.toInt ≤ 4096) ∧
    (c.restrict = 0 ∨ c.restrict = 1) ∧ (1 ≤ c.s.toInt ∧ c.s.toInt ≤ 64) := by
  simpa only [checkBlockAdaptive, Option.orElse_eq_none, check_eq_none, Bool.or_eq_true, within_iff, bit_iff, beq_iff_eq,
    or_assoc] using h

/-- A configuration that fails no check is legal. -/
theorem legalConfig_of_firstFailure (h : firstFailure compress s = none) :
    LegalConfig s.cfg s.ta s.tw ∧ PedanticMet compress s.cfg ∧ FitsCapacity s.cfg s.histCapacity := by
  simp only [firstFailure, Option.orElse_eq_none] at h
  obtain ⟨himage, hpredictor, hcoder, hrest⟩ := h
  simp only [checkImage, Option.orElse_eq_none, check_eq_none, Bool.or_eq_true, bne_iff_ne, within_iff, bit_iff] at himage
  obtain ⟨x, y, z, signed, d, order, m, b, coder, p, pmode, lsmode, omega⟩ := himage
  simp only [checkPredictor, Option.orElse_eq_none, check_eq_none, within_iff, bit_iff, beq_iff_eq] at hpredictor
  obtain ⟨r, te, vmin, vmax, winit, wtable, table, q, weights⟩ := hpredictor
  simp only [checkRest, Option.orElse_eq_none, check_eq_none, within_iff, bit_iff] at hrest
  obtain ⟨refsamp, pedantic, narrow, strict, capacity⟩ := hrest
  have hadaptive : s.cfg.coder = 0 → checkSampleAdaptive s.cfg s.ta = none := fun h0 => by rwa [if_pos h0] at hcoder
  have hblock : s.cfg.coder = 1 → checkBlockAdaptive s.cfg = none := fun h1 => by
    rwa [if_neg (by rw [h1]; decide)] at hcoder
  have hadaptive' := fun h0 => checkSampleAdaptive_eq_none (hadaptive h0)
  have hblock' := fun h1 => checkBlockAdaptive_eq_none (hblock h1)
  refine ⟨⟨x, y, z, signed, d, order, fun h0 => m.resolve_left (not_not.mpr h0), b, coder, p, pmode, lsmode, omega, r, te,
    vmin, vmax, winit, wtable, table, ⟨fun h0 => ?_, fun h1 => ?_⟩, fun z hz i hi h1 => ?_, fun h0 => (hadaptive' h0).1,
    fun h0 => (hadaptive' h0).2.1, fun h0 => (hadaptive' h0).2.2.1, fun h0 => (hadaptive' h0).2.2.2.1,
    fun h0 => (hadaptive' h0).2.2.2.2.1, fun z hz h => (hadaptive' h.1).2.2.2.2.2 h.2 z hz, fun h1 => (hblock' h1).1,
    fun h1 => (hblock' h1).2.1, fun h1 => (hblock' h1).2.2.1, fun h1 => (hblock' h1).2.2.2, checkRefsamp_eq_none refsamp,
    pedantic, ?_⟩, ?_, checkCapacity_eq_none capacity⟩
  · rw [if_pos h0] at q
    exact beq_iff_eq.mp q
  · rw [if_neg (by rw [h1]; decide)] at q
    exact within_iff.mp q
  · rw [if_pos h1] at weights
    exact badTwEntry_eq_none weights z hz i hi
  · rintro ⟨h1, h2, h3⟩
    simp [h1, h2, h3] at narrow
  · rintro ⟨h1, h2⟩
    simpa [h1, h2] using strict

/-- Every row of the list is met by a legal configuration. -/
theorem rows_of_legalConfig (h : LegalConfig s.cfg s.ta s.tw) (hp : PedanticMet compress s.cfg)
    (hcap : FitsCapacity s.cfg s.histCapacity) : ∀ row ∈ validationList compress s, row.1 = true := by
  simp only [validationList, List.forall_mem_append, List.forall_mem_cons, List.mem_flatMap, List.mem_map, List.mem_range,
    decide_eq_true_eq, List.not_mem_nil, false_imp_iff, implies_true, and_true]
  refine ⟨⟨⟨⟨⟨h.x, h.y, h.z, h.signed, h.d, h.order, h.m, h.b, h.coder, h.p, h.pmode, h.lsmode, h.omega, h.r, h.te, h.vmin,
    h.vmax, h.winit, h.wtable, h.table, h.q⟩, ?_⟩, h.umax, h.gstar, h.g0, h.k, h.atable⟩, ?_⟩, h.j, h.rsi, h.restrict, h.s,
    ?_, h.refsamp, h.pedantic, h.narrow, hp, ?_⟩
  · rintro row ⟨z, hz, i, hi, rfl⟩
    exact decide_eq_true (h.weights z hz i hi)
  · rintro row ⟨z, hz, rfl⟩
    exact decide_eq_true (h.accumulators z hz)
  · rw [h.refsamp]
    decide
  · cases hn : s.histCapacity with
    | none => rfl
    | some n => exact decide_eq_true (hcap n hn)

/-- A configuration that passes a validation is one a session may have (48_system.md R584, R590). -/
theorem configLegal_of_firstFailure (h : firstFailure compress s = none) : s.configLegal := by
  obtain ⟨hl, -, hcap⟩ := legalConfig_of_firstFailure h
  exact rows_of_legalConfig hl (fun hp => absurd hp.1 (by simp)) hcap

theorem legalConfig_of_configLegal (h : s.configLegal) : LegalConfig s.cfg s.ta s.tw := (legalConfig_of_rows h).1

/-- Whether a configuration is legal depends on the parameters and the capacity alone. -/
theorem configLegal_congr (hcfg : t.cfg = s.cfg) (hta : t.ta = s.ta) (htw : t.tw = s.tw)
    (hcap : t.histCapacity = s.histCapacity) (h : s.configLegal) : t.configLegal := by
  obtain ⟨hl, -, hfits⟩ := legalConfig_of_rows h
  refine rows_of_legalConfig ?_ (fun hp => absurd hp.1 (by simp)) ?_
  · rwa [hcfg, hta, htw]
  · rwa [hcfg, hcap]

end Sys2Proof.Machine
end

section
/-! The cursor fits its registers at every end of every command (10_state.md R33, 47_pipeline.md R545). -/

namespace Sys2Proof.Machine

variable {α β : Type} {parts : List Part} {i : Instr} {s t : State} {c : Cfg} {ps : List Cursor} {p : Cursor}

/-- The state has this property where the operation ended, well or not. -/
inductive Finally (Q : State → Prop) : EStateM.Result Raise State α → Prop
  | ok {a : α} {t : State} (h : Q t) : Finally Q (.ok a t)
  | error {e : Raise} {t : State} (h : Q t) : Finally Q (.error e t)

theorem finally_bind {Q : State → Prop} {x : Op α} {f : α → Op β} (hx : Finally Q (x s))
    (hf : ∀ a t, x s = .ok a t → Q t → Finally Q (f a t)) : Finally Q ((x >>= f) s) := by
  cases hxs : x s with
  | ok a t =>
    rw [hxs] at hx
    rw [bind_ok hxs]
    cases hx with
    | ok h => exact hf a t hxs h
  | error e t =>
    rw [hxs] at hx
    rw [bind_error hxs]
    cases hx with
    | error h => exact .error h

/-- The cursor fits CUR_Z and CUR_YX (10_state.md R33). -/
def CursorFits (s : State) : Prop := s.cursor.z < 65536 ∧ s.cursor.y < 65536 ∧ s.cursor.x < 65536

theorem Frame.cursorFits (h : Frame parts s t) (hp : .cursor ∉ parts) (hs : CursorFits s) : CursorFits t := by
  unfold CursorFits
  rw [h.field .cursor State.cursor hp fun _ => rfl]
  exact hs

/-- An operation that leaves the cursor alone. -/
theorem Acts.cursorFits {x : Op α} (h : Acts parts x) (hp : .cursor ∉ parts) (hs : CursorFits s) : Finally CursorFits (x s) := by
  cases hx : x s with
  | ok a t => exact .ok ((h.ok hx).frame.cursorFits hp hs)
  | error e t => exact .error ((h.error hx).1.frame.cursorFits hp hs)

/-- A position of a legal cube fits. -/
theorem cursorFits_of_inCube (hc : CubeLegal c) (hp : InCube c p) (s : State) : CursorFits { s with cursor := p } := by
  obtain ⟨⟨-, hx⟩, ⟨-, hy⟩, ⟨-, hz⟩⟩ := And.intro hc.width (And.intro hc.height hc.bands)
  obtain ⟨hpz, hpy, hpx⟩ := hp
  exact ⟨by change p.z < 65536; omega, by change p.y < 65536; omega, by change p.x < 65536; omega⟩

/-! ### PRED_COMPRESS and PRED_DECOMPRESS -/

theorem bandOperand_ok {z : Nat} (h : bandOperand s = .ok z t) : t = s ∧ z < s.cfg.Z := by
  unfold bandOperand at h
  rw [get_bind] at h
  by_cases hz : s.arg0.toNat < s.cfg.Z
  · rw [require_bind_ok hz] at h
    cases h
    exact ⟨rfl, hz⟩
  · rw [require_bind_error hz] at h
    cases h

theorem positionOperand_ok {q : Nat × Nat} (h : positionOperand s = .ok q t) : t = s ∧ q.1 < s.cfg.Y ∧ q.2 < s.cfg.X := by
  unfold positionOperand at h
  rw [get_bind] at h
  by_cases hq : rowOf s.arg1 < s.cfg.Y ∧ columnOf s.arg1 < s.cfg.X
  · rw [require_bind_ok hq] at h
    cases h
    exact ⟨rfl, hq⟩
  · rw [require_bind_error hq] at h
    cases h

/-- A command that moves the cursor to its operands' position and then leaves it there. -/
theorem cursorFits_at_operands {rest : Nat → Nat × Nat → Op Unit} (hrest : ∀ z q, Acts parts (rest z q)) (hp : .cursor ∉ parts)
    (hc : CubeLegal s.cfg) (hs : CursorFits s) :
    Finally CursorFits ((bandOperand >>= fun z => positionOperand >>= fun q => setCursor z q.1 q.2 >>= fun _ => rest z q) s) := by
  refine finally_bind ((acts_bandOperand (parts := [])).cursorFits (by simp) hs) fun z t hz _ => ?_
  obtain ⟨rfl, hz⟩ := bandOperand_ok hz
  refine finally_bind ((acts_positionOperand (parts := [])).cursorFits (by simp) hs) fun q u hq _ => ?_
  obtain ⟨rfl, hy, hx⟩ := positionOperand_ok hq
  exact (hrest z q).cursorFits hp (cursorFits_of_inCube hc ⟨hz, hy, hx⟩ _)

theorem cursorFits_bodyPredCompress (hc : CubeLegal s.cfg) (hs : CursorFits s) : Finally CursorFits (bodyPredCompress s) :=
  cursorFits_at_operands (parts := [.weights, .hist, .result, .result1]) (fun z q => acts_get_bind fun _ =>
    acts_bind ((acts_predCompress z q.1 q.2 _).mono (by simp)) fun _ => (acts_setBothResults _ _).mono (by simp)) (by simp) hc hs

theorem cursorFits_bodyPredDecompress (hc : CubeLegal s.cfg) (hs : CursorFits s) : Finally CursorFits (bodyPredDecompress s) :=
  cursorFits_at_operands (parts := [.weights, .hist, .result, .result1]) (fun z q => acts_get_bind fun _ =>
    acts_bind ((acts_predDecompress z q.1 q.2 _).mono (by simp)) fun _ => (acts_setBothResults _ _).mono (by simp)) (by simp) hc hs

/-! ### COMPRESS and DECOMPRESS -/

theorem cursorFits_compressAt (hc : CubeLegal c) (hp : InCube c p) (rows : List Word) (s : State) :
    Finally CursorFits (compressAt c p rows s) :=
  (acts_bind ((acts_loadRows c p rows).mono (by simp)) fun _ => acts_bind ((acts_initBand c p).mono (by simp)) fun _ =>
    acts_bind ((acts_predCompress _ _ _ _).mono (by simp)) fun _ =>
    acts_bind ((acts_encodeResidual _ _ _ _).mono (by simp)) fun _ => acts_pure _ :
    Acts [.sin, .writer, .bout, .runs, .counters, .encoder, .weights, .stats, .hist] _).cursorFits (by simp)
    (cursorFits_of_inCube hc hp s)

theorem cursorFits_compressFrom (hc : CubeLegal c) : ∀ (ps : List Cursor) (rows : List Word) (s : State),
    (∀ p ∈ ps, InCube c p) → CursorFits s → Finally CursorFits (compressFrom c ps rows s)
  | [], _, _, _, hs => .ok hs
  | p :: ps, rows, s, hps, _ =>
    finally_bind (cursorFits_compressAt hc (hps p (List.mem_cons_self ..)) rows s) fun rows' t _ ht =>
      cursorFits_compressFrom hc ps rows' t (fun q hq => hps q (List.mem_cons_of_mem _ hq)) ht

theorem cursorFits_decompressAt (hc : CubeLegal c) (hp : InCube c p) (s : State) : Finally CursorFits (decompressAt c p s) :=
  (acts_bind ((acts_initBand c p).mono (by simp)) fun _ => acts_bind ((acts_decodeResidual _ _ _).mono (by simp)) fun _ =>
    acts_bind ((acts_predDecompress _ _ _ _).mono (by simp)) fun _ => (acts_outputSample c p _).mono (by simp) :
    Acts [.sout, .reader, .bin, .runs, .counters, .decoder, .weights, .stats, .hist] _).cursorFits (by simp)
    (cursorFits_of_inCube hc hp s)

theorem cursorFits_decompressAll (hc : CubeLegal c) : ∀ (ps : List Cursor) (s : State),
    (∀ p ∈ ps, InCube c p) → CursorFits s → Finally CursorFits (forEach ps (decompressAt c) s)
  | [], _, _, hs => .ok hs
  | p :: ps, s, hps, _ =>
    finally_bind (cursorFits_decompressAt hc (hps p (List.mem_cons_self ..)) s) fun _ t _ ht =>
      cursorFits_decompressAll hc ps t (fun q hq => hps q (List.mem_cons_of_mem _ hq)) ht

/-- A validation that passes leaves the state and a legal configuration. -/
theorem validateConfig_passed {compress : Bool} (h : validateConfig compress s = .ok () t) :
    t = s ∧ s.configLegal := by
  unfold validateConfig at h
  rw [get_bind] at h
  cases hf : firstFailure compress s with
  | some e =>
    rw [hf] at h
    cases h
  | none =>
    rw [hf] at h
    cases h
    exact ⟨rfl, configLegal_of_firstFailure hf⟩

theorem checkHeader_passed (h : checkHeader s = .ok () t) : t = s ∧ s.configLegal := by
  unfold checkHeader at h
  rw [get_bind] at h
  cases hf : firstFailure false s with
  | some e =>
    rw [hf] at h
    cases h
  | none =>
    rw [hf] at h
    cases h
    exact ⟨rfl, configLegal_of_firstFailure hf⟩

theorem configLegal_cubeLegal (h : s.configLegal) : CubeLegal s.cfg := (legalConfig_of_configLegal h).cubeLegal

theorem cursorFits_bodyCompress (hs : CursorFits s) : Finally CursorFits (bodyCompress s) := by
  unfold bodyCompress
  refine finally_bind ((acts_validateConfig (parts := []) true).cursorFits (by simp) hs) fun _ t hv _ => ?_
  obtain ⟨rfl, hl⟩ := validateConfig_passed hv
  have hc := configLegal_cubeLegal hl
  rw [modify_bind, modify_bind]
  refine finally_bind (acts_hdrWrite.cursorFits (by simp) hs) fun _ u hu hfits => ?_
  have hcfg : u.cfg = t.cfg := (acts_hdrWrite.ok hu).frame.field .parameters State.cfg (by simp) fun _ => rfl
  rw [get_bind, hcfg]
  have hfrom := cursorFits_compressFrom hc (positions t.cfg) [] u (fun p hp => (mem_positions hc p).mp hp) hfits
  refine finally_bind hfrom fun _ v _ hv => ?_
  exact finally_bind ((acts_finish t.cfg).cursorFits (by simp) hv) fun _ w _ hw => acts_closePipeline.cursorFits (by simp) hw

/-! ### What opening a session leaves -/

/-- A state whose session begins: a legal configuration, its derived values, and the session state cleared
(48_system.md R599, 70_reset_and_hazards.md R682). -/
structure Opened (s : State) : Prop where
  legal : s.configLegal
  derived : s.idBits = BitVec.ofNat 32 s.cfg.idBits ∧ s.backupOpt = BitVec.ofNat 32 (2 ^ s.cfg.idBits - 1)
  counters : s.cs = 0 ∧ s.cr = 0
  encoder : s.ebuf = [] ∧ s.efill = 0
  decoder : s.dbuf = []
  bands : s.weights = [] ∧ s.stats = [] ∧ s.hist = []

theorem opened_of_validate (hu : bodyValidate s = .ok () t) : Opened t := by
  obtain ⟨_, u, hv, hrest⟩ := bind_ok_inv hu
  obtain ⟨rfl, hl⟩ := validateConfig_passed hv
  cases hrest
  exact ⟨configLegal_congr (s := u) rfl rfl rfl rfl hl, ⟨rfl, rfl⟩, ⟨rfl, rfl⟩, ⟨rfl, rfl⟩, rfl, rfl, rfl, rfl⟩

theorem opened_of_openFromHeader (hu : openFromHeader s = .ok () t) : Opened t := by
  unfold openFromHeader at hu
  rw [modify_bind] at hu
  obtain ⟨_, u, hh, hrest⟩ := bind_ok_inv hu
  obtain ⟨_, v, hc, hderive⟩ := bind_ok_inv hrest
  obtain ⟨rfl, hl⟩ := checkHeader_passed hc
  cases hderive
  have hf := (acts_hdrRead.ok hh).frame
  have field {α : Type} (part : Part) (f : State → α) (hp : part ∉ headerParts) (hv : ∀ s, f (part.view s) = f s) :
      f v = f (clearSession s) := hf.field part f hp hv
  exact ⟨configLegal_congr (s := v) rfl rfl rfl rfl hl, ⟨rfl, rfl⟩,
    ⟨field .counters State.cs (by simp [headerParts]) fun _ => rfl,
      field .counters State.cr (by simp [headerParts]) fun _ => rfl⟩,
    ⟨field .encoder State.ebuf (by simp [headerParts]) fun _ => rfl,
      field .encoder State.efill (by simp [headerParts]) fun _ => rfl⟩,
    field .decoder State.dbuf (by simp [headerParts]) fun _ => rfl,
    field .weights State.weights (by simp [headerParts]) fun _ => rfl,
    field .stats State.stats (by simp [headerParts]) fun _ => rfl, field .hist State.hist (by simp [headerParts]) fun _ => rfl⟩

theorem cursorFits_bodyDecompress (hs : CursorFits s) : Finally CursorFits (bodyDecompress s) := by
  refine finally_bind (acts_openFromHeader.cursorFits (by simp [openingParts, sessionParts, headerParts]) hs) fun _ t ho hs1 => ?_
  have hc := configLegal_cubeLegal (opened_of_openFromHeader ho).legal
  rw [get_bind]
  have hall := cursorFits_decompressAll hc (positions t.cfg) t (fun p hp => (mem_positions hc p).mp hp) hs1
  exact finally_bind hall fun _ u _ hu => acts_closePipeline.cursorFits (by simp) hu

theorem cursorFits_body (hi : i ≠ .reset) (hs : CursorFits s) (hr : runsIn i s.mode = true)
    (hl : s.mode = .active → s.configLegal) : Finally CursorFits (body i s) := by
  by_cases hp : .cursor ∈ footprint i
  · have hrow := cursor_mem_footprint hp
    simp only [List.mem_cons, List.not_mem_nil, or_false] at hrow
    rcases hrow with rfl | rfl | rfl | rfl
    · exact cursorFits_bodyPredCompress (configLegal_cubeLegal (hl (eq_of_beq hr))) hs
    · exact cursorFits_bodyPredDecompress (configLegal_cubeLegal (hl (eq_of_beq hr))) hs
    · exact cursorFits_bodyCompress hs
    · exact cursorFits_bodyDecompress hs
  · exact (acts_body i hi).cursorFits hp hs

end Sys2Proof.Machine
end

section
/-! The counters and the block buffers of a session of the block coder stay in range (10_state.md R50, R51,
42_block_adaptive.md R292, R294, R300). -/

namespace Sys2Proof.Machine

variable {α β : Type} {parts : List Part} {s t u : State} {Q : State → Prop}

/-- The property holds at every end of the operation, if it held before. -/
def Stable (Q : State → Prop) (x : Op α) : Prop := ∀ s, Q s → Finally Q (x s)

theorem stable_bind {x : Op α} {f : α → Op β} (hx : Stable Q x) (hf : ∀ a, Stable Q (f a)) : Stable Q (x >>= f) :=
  fun s hs => finally_bind (hx s hs) fun a t _ ht => hf a t ht

theorem stable_ite {c : Prop} [Decidable c] {x y : Op α} (hx : Stable Q x) (hy : Stable Q y) :
    Stable Q (if c then x else y) := by
  split
  · exact hx
  · exact hy

theorem stable_get_bind {f : State → Op β} (hf : ∀ s, Stable Q (f s)) : Stable Q (Op.get >>= f) := fun s hs => hf s s hs

theorem Stable.ok {x : Op α} (h : Stable Q x) (hs : Q s) {a : α} (hx : x s = .ok a t) : Q t := by
  have := h s hs
  rw [hx] at this
  cases this with
  | ok h => exact h

/-- A property of parts that the operation does not touch. -/
theorem Acts.stable {x : Op α} (h : Acts parts x) (hQ : ∀ {s t : State}, Frame parts s t → Q s → Q t) : Stable Q x :=
  fun s hs => by
  cases hx : x s with
  | ok a t => exact .ok (hQ (h.ok hx).frame hs)
  | error e t => exact .error (hQ (h.error hx).1.frame hs)

/-! ### The counters -/

/-- CS and CR are below moduli that are not 0 (10_state.md R50). -/
def CountersFit (s : State) : Prop := 0 < s.cfg.S ∧ 0 < s.cfg.RSI ∧ s.cs < s.cfg.S ∧ s.cr < s.cfg.RSI

theorem Frame.countersFit (h : Frame parts s t) (hc : .counters ∉ parts) (hp : .parameters ∉ parts) (hs : CountersFit s) :
    CountersFit t := by
  unfold CountersFit
  rw [h.field .counters State.cs hc fun _ => rfl, h.field .counters State.cr hc fun _ => rfl,
    h.field .parameters State.cfg hp fun _ => rfl]
  exact hs

theorem Acts.countersFit {x : Op α} (h : Acts parts x) (hc : .counters ∉ parts) (hp : .parameters ∉ parts) :
    Stable CountersFit x := h.stable fun hf hs => hf.countersFit hc hp hs

theorem countersFit_advance : Stable CountersFit advance := fun s hs => by
  rw [advance_ok]
  exact .ok ⟨hs.1, hs.2.1, Nat.mod_lt _ hs.1, Nat.mod_lt _ hs.2.1⟩

theorem countersFit_codeBlock (b : List Word) : Stable CountersFit (codeBlock b) :=
  stable_get_bind fun _ => stable_bind ((acts_codeOption _ _ _).countersFit (by simp) (by simp)) fun _ =>
    stable_bind countersFit_advance fun _ => (acts_ite acts_flushRos (acts_pure ())).countersFit (by simp) (by simp)

theorem countersFit_codeEbuf (b : List Word) : Stable CountersFit (codeBlock b >>= fun _ => emptyEbuf) :=
  stable_bind (countersFit_codeBlock b) fun _ => (acts_setEbuf _ _).countersFit (by simp) (by simp)

theorem countersFit_codeSample (v : Nat) : Stable CountersFit (codeSample v) :=
  stable_bind ((acts_setEbuf _ _).countersFit (by simp) (by simp)) fun _ => stable_get_bind fun s =>
    stable_ite (countersFit_codeEbuf s.ebuf) ((acts_pure (parts := []) ()).countersFit (by simp) (by simp))

theorem countersFit_baTerminate : Stable CountersFit baTerminate :=
  stable_bind ((acts_requireOpen (parts := [])).countersFit (by simp) (by simp)) fun _ =>
    stable_bind (stable_get_bind fun _ => stable_ite
      (stable_bind ((acts_setEbuf _ State.efill).countersFit (by simp) (by simp)) fun _ => stable_get_bind fun t =>
        countersFit_codeEbuf t.ebuf)
      ((acts_pure (parts := []) ()).countersFit (by simp) (by simp))) fun _ =>
    (acts_bind (acts_flushRos.mono (by simp)) fun _ => acts_bind (acts_flush.mono (by simp)) fun _ =>
      acts_setTerminated.mono (by simp) : Acts [.writer, .bout, .runs, .flags] _).countersFit (by simp) (by simp)

theorem countersFit_decodeBlock : Stable CountersFit decodeBlock :=
  stable_bind (acts_nextBlock.countersFit (by simp) (by simp)) fun _ => stable_bind countersFit_advance fun _ =>
    (acts_pure (parts := []) _).countersFit (by simp) (by simp)

theorem countersFit_decodeSample : Stable CountersFit decodeSample :=
  stable_bind (stable_get_bind fun _ => stable_ite
    (stable_bind countersFit_decodeBlock fun _ => (acts_setDbuf _ _).countersFit (by simp) (by simp))
    ((acts_pure (parts := []) ()).countersFit (by simp) (by simp))) fun _ =>
  (acts_get_bind fun _ => acts_bind (acts_setDbuf State.dbuf _) fun _ => acts_pure _).countersFit (by simp) (by simp)

/-- The commands that move the counters in a session keep them in range. -/
theorem countersFit_body {i : Instr} (hi : i ∈ [.baCodeBlock, .baDecodeBlock, .baTerminate, .baCodeSample, .baDecodeSample]) :
    Stable CountersFit (body i) := by
  have hopen : Stable CountersFit requireOpen := (acts_requireOpen (parts := [])).countersFit (by simp) (by simp)
  simp only [List.mem_cons, List.not_mem_nil, or_false] at hi
  rcases hi with rfl | rfl | rfl | rfl | rfl
  · exact stable_bind hopen fun _ => stable_get_bind fun _ => countersFit_codeBlock _
  · exact stable_bind countersFit_decodeBlock fun b => (acts_putBlock fun _ => b).countersFit (by simp) (by simp)
  · exact countersFit_baTerminate
  · exact stable_bind hopen fun _ => stable_get_bind fun _ => countersFit_codeSample _
  · exact stable_bind countersFit_decodeSample fun _ => (acts_setResult _).countersFit (by simp) (by simp)

/-! ### The encoder's buffer -/

/-- EBUF holds EFILL samples, fewer than a block (10_state.md R51). -/
def EncoderFits (s : State) : Prop := s.ebuf.length = s.efill ∧ s.efill < s.cfg.J

theorem Frame.encoderFits (h : Frame parts s t) (he : .encoder ∉ parts) (hp : .parameters ∉ parts) (hs : EncoderFits s) :
    EncoderFits t := by
  unfold EncoderFits
  rw [h.field .encoder State.ebuf he fun _ => rfl, h.field .encoder State.efill he fun _ => rfl,
    h.field .parameters State.cfg hp fun _ => rfl]
  exact hs

/-- A coded block leaves an empty buffer. -/
theorem encoderFits_codeEbuf {b : List Word} (h : (codeBlock b >>= fun _ => emptyEbuf) s = .ok () t) (hj : 0 < s.cfg.J) :
    EncoderFits t := by
  obtain ⟨_, u, hblock, hempty⟩ := bind_ok_inv h
  cases hempty
  have hcfg : u.cfg = s.cfg := ((acts_codeBlock b).ok hblock).frame.field .parameters State.cfg (by simp) fun _ => rfl
  exact ⟨rfl, by change 0 < u.cfg.J; rwa [hcfg]⟩

theorem encoderFits_codeSample {v : Nat} (hs : EncoderFits s) (h : codeSample v s = .ok () t) : EncoderFits t := by
  obtain ⟨hlen, hfill⟩ := hs
  unfold codeSample at h
  rw [modify_bind, get_bind] at h
  split at h
  · exact encoderFits_codeEbuf h (Nat.zero_lt_of_lt hfill)
  · rename_i hne
    cases h
    change ¬ s.efill + 1 = s.cfg.J at hne
    refine ⟨?_, ?_⟩
    · simp [hlen]
    · change s.efill + 1 < s.cfg.J
      omega

theorem encoderFits_codePartial (hs : EncoderFits s) (h : codePartial s = .ok () t) : EncoderFits t := by
  unfold codePartial at h
  rw [get_bind] at h
  split at h
  · rw [modify_bind, get_bind] at h
    exact encoderFits_codeEbuf h (Nat.zero_lt_of_lt hs.2)
  · cases h
    exact hs

theorem encoderFits_baTerminate (hs : EncoderFits s) (h : baTerminate s = .ok () t) : EncoderFits t := by
  obtain ⟨_, u, hopen, hrest⟩ := bind_ok_inv h
  obtain ⟨_, v, hpart, hend⟩ := bind_ok_inv hrest
  have hu : EncoderFits u := ((acts_requireOpen (parts := [])).ok hopen).frame.encoderFits (by simp) (by simp) hs
  have hmoves : Acts [.writer, .bout, .runs, .flags] (flushRos >>= fun _ => flush >>= fun _ => setTerminated) :=
    acts_bind (acts_flushRos.mono (by simp)) fun _ => acts_bind (acts_flush.mono (by simp)) fun _ =>
      acts_setTerminated.mono (by simp)
  exact (hmoves.ok hend).frame.encoderFits (by simp) (by simp) (encoderFits_codePartial hu hpart)

theorem encoderFits_body {i : Instr} (hi : i ∈ [.baTerminate, .baCodeSample]) (hs : EncoderFits s)
    (h : body i s = .ok () t) : EncoderFits t := by
  simp only [List.mem_cons, List.not_mem_nil, or_false] at hi
  rcases hi with rfl | rfl
  · exact encoderFits_baTerminate hs h
  · obtain ⟨_, u, hopen, hrest⟩ := bind_ok_inv h
    rw [get_bind] at hrest
    exact encoderFits_codeSample (((acts_requireOpen (parts := [])).ok hopen).frame.encoderFits (by simp) (by simp) hs) hrest

/-! ### The decoder's buffer -/

/-- DBUF is empty or a whole block, with DPOS in it (10_state.md R51). -/
def DecoderFits (s : State) : Prop := s.dbuf = [] ∨ (s.dbuf.length = s.cfg.J ∧ s.dpos ≤ s.cfg.J)

theorem length_collect {f : α → Op β} : ∀ {l : List α} {s t : State} {bs : List β}, collect l f s = .ok bs t →
    bs.length = l.length
  | [], _, _, _, h => by
    cases h
    rfl
  | a :: as, s, t, bs, h => by
    obtain ⟨b, u, -, hrest⟩ := bind_ok_inv h
    obtain ⟨more, v, hmore, hend⟩ := bind_ok_inv hrest
    cases hend
    rw [List.length_cons, List.length_cons, length_collect hmore]

theorem forall_of_collect {P : β → Prop} {f : α → Op β} (hf : ∀ a s b t, f a s = .ok b t → P b) :
    ∀ {l : List α} {s t : State} {bs : List β}, collect l f s = .ok bs t → ∀ b ∈ bs, P b
  | [], _, _, _, h => by
    cases h
    simp
  | a :: as, s, t, bs, h => by
    obtain ⟨b, u, hb, hrest⟩ := bind_ok_inv h
    obtain ⟨more, v, hmore, hend⟩ := bind_ok_inv hrest
    cases hend
    exact List.forall_mem_cons.mpr ⟨hf a s b u hb, forall_of_collect hf hmore⟩

theorem length_riceDecode {j k : Nat} {b : List Word} (h : riceDecode j k s = .ok b t) : b.length = j := by
  obtain ⟨hs, u, hhigh, hlow⟩ := bind_ok_inv h
  rw [length_collect hlow, length_collect hhigh, List.length_replicate]

/-- Every option decodes to a whole block (42_block_adaptive.md R299). -/
theorem length_decodePayload {j d : Nat} (hj : j % 2 = 0) {b : List Word} : ∀ {option : BlockOption},
    decodePayload j d option s = .ok b t → b.length = j
  | .zeroBlock, h => by
    obtain ⟨n, u, -, hrest⟩ := bind_ok_inv h
    rw [modify_bind] at hrest
    cases hrest
    exact List.length_replicate
  | .secondExt, h => by
    obtain ⟨pairs, u, hpairs, hend⟩ := bind_ok_inv h
    cases hend
    have hpair : ∀ p ∈ pairs, p.length = 2 := forall_of_collect (fun _ _ _ _ hp => by
      obtain ⟨g, v, -, hp⟩ := bind_ok_inv hp
      cases hp
      rfl) hpairs
    rw [List.length_flatten, List.map_congr_left hpair, List.map_const', List.sum_replicate, length_collect hpairs,
      List.length_replicate, smul_eq_mul]
    omega
  | .sampleSplit k, h => length_riceDecode h
  | .backup, h => (length_collect h).trans List.length_replicate

theorem length_decodeBlock (hj : s.cfg.J % 2 = 0) {b : List Word} (h : decodeBlock s = .ok b t) : b.length = s.cfg.J := by
  obtain ⟨b', u, hnext, hrest⟩ := bind_ok_inv h
  obtain ⟨_, v, -, hend⟩ := bind_ok_inv hrest
  cases hend
  unfold nextBlock at hnext
  rw [get_bind] at hnext
  split at hnext
  · rw [modify_bind] at hnext
    cases hnext
    exact List.length_replicate
  · obtain ⟨option, v, -, hpayload⟩ := bind_ok_inv hnext
    exact length_decodePayload hj hpayload

/-- A refill leaves a block with a sample to take. -/
theorem refillDbuf_fits (hj : 0 < s.cfg.J ∧ s.cfg.J % 2 = 0) (hs : DecoderFits s) (h : refillDbuf s = .ok () t) :
    t.cfg = s.cfg ∧ t.dbuf.length = s.cfg.J ∧ t.dpos < s.cfg.J := by
  unfold refillDbuf at h
  rw [get_bind] at h
  split at h
  · obtain ⟨b, u, hb, hset⟩ := bind_ok_inv h
    cases hset
    exact ⟨(acts_decodeBlock.ok hb).frame.field .parameters State.cfg (by simp) fun _ => rfl, length_decodeBlock hj.2 hb, hj.1⟩
  · rename_i hne
    cases h
    rw [not_or] at hne
    obtain ⟨hlen, hpos⟩ := hs.resolve_left hne.1
    exact ⟨rfl, hlen, lt_of_le_of_ne hpos hne.2⟩

theorem decoderFits_bodyBaDecodeSample (hj : 0 < s.cfg.J ∧ s.cfg.J % 2 = 0) (hs : DecoderFits s)
    (h : bodyBaDecodeSample s = .ok () t) : DecoderFits t := by
  obtain ⟨w, u, hsample, hset⟩ := bind_ok_inv h
  cases hset
  obtain ⟨_, v, hrefill, hrest⟩ := bind_ok_inv hsample
  rw [get_bind, modify_bind] at hrest
  cases hrest
  obtain ⟨hcfg, hlen, hpos⟩ := refillDbuf_fits hj hs hrefill
  refine .inr ⟨?_, ?_⟩
  · change v.dbuf.length = v.cfg.J
    rwa [hcfg]
  · change v.dpos + 1 ≤ v.cfg.J
    rwa [hcfg]

end Sys2Proof.Machine
end

section
/-! Every step keeps a session: opening one makes it, the commands of ACTIVE keep it, everything else leaves ACTIVE or touches
none of its parts (10_state.md R32, R44, R45, R50, R51). -/

namespace Sys2Proof.Machine

variable {i : Instr} {s t u : State} {parts : List Part}

/-- Outside a session the cursor alone is bound. -/
theorem session_of_inactive (hm : t.mode ≠ .active) (hc : CursorFits t) : Session t :=
  ⟨hc, fun h => absurd h hm, fun h => absurd h hm, fun h => absurd h hm, fun h => absurd h hm, fun h => absurd h hm⟩

/-- The parts a session's conditions read, beside the capacity. -/
def sessionView : List Part := [.mode, .cursor, .parameters, .derived, .counters, .encoder, .decoder]

theorem Session.of_frame (hs : Session s) (hf : Frame parts s t) (hp : ∀ part ∈ sessionView, part ∉ parts)
    (hcap : t.histCapacity = s.histCapacity) : Session t := by
  have hmode : t.mode = s.mode := hf.field .mode State.mode (hp _ (by simp [sessionView])) fun _ => rfl
  have hparams : .parameters ∉ parts := hp _ (by simp [sessionView])
  obtain ⟨hcfg, hta, htw⟩ := hf.parameters hparams
  refine ⟨hf.cursorFits (hp _ (by simp [sessionView])) hs.cursor, fun hm => ?_, fun hm => ?_, fun hm h1 => ?_, fun hm h1 => ?_,
    fun hm h1 => ?_⟩
  · exact configLegal_congr hcfg hta htw hcap (hs.legal (hmode ▸ hm))
  · rw [hf.field .derived State.idBits (hp _ (by simp [sessionView])) fun _ => rfl,
      hf.field .derived State.backupOpt (hp _ (by simp [sessionView])) fun _ => rfl, hcfg]
    exact hs.derived (hmode ▸ hm)
  · rw [hf.field .counters State.cs (hp _ (by simp [sessionView])) fun _ => rfl,
      hf.field .counters State.cr (hp _ (by simp [sessionView])) fun _ => rfl, hcfg]
    exact hs.counters (hmode ▸ hm) (hcfg ▸ h1)
  · exact hf.encoderFits (hp _ (by simp [sessionView])) hparams (hs.encoder (hmode ▸ hm) (hcfg ▸ h1))
  · rw [hf.field .decoder State.dbuf (hp _ (by simp [sessionView])) fun _ => rfl,
      hf.field .decoder State.dpos (hp _ (by simp [sessionView])) fun _ => rfl, hcfg]
    exact hs.decoder (hmode ▸ hm) (hcfg ▸ h1)

theorem Session.of_hostMove (hs : Session s) (h : HostMove hostParts s t) : Session t :=
  hs.of_frame h.frame (by simp [sessionView, hostParts]) h.capacity

/-! ### Opening a session -/

theorem configLegal_blockLegal (h : s.configLegal) (h1 : s.cfg.coder = 1) : BlockLegal s.cfg :=
  (legalConfig_of_configLegal h).blockLegal h1

theorem Opened.session (h : Opened t) (hc : CursorFits t) : Session t := by
  have hblock := fun h1 => configLegal_blockLegal h.legal h1
  obtain ⟨hcs, hcr⟩ := h.counters
  obtain ⟨hebuf, hefill⟩ := h.encoder
  refine ⟨hc, fun _ => h.legal, fun _ => h.derived, fun _ h1 => ?_, fun _ h1 => ?_, fun _ _ => .inl h.decoder⟩
  · rw [hcs, hcr]
    exact ⟨(hblock h1).segment.1, (hblock h1).reference⟩
  · rw [hebuf, hefill]
    exact ⟨rfl, (hblock h1).size.1⟩

/-- VALIDATE and HDR_READ open a session. -/
theorem opened_of_body (hi : i = .validate ∨ i = .hdrRead) (hu : body i s = .ok () t) : Opened t := by
  rcases hi with rfl | rfl
  · exact opened_of_validate hu
  · obtain ⟨_, u, hopen, hmode⟩ := bind_ok_inv hu
    have h := opened_of_openFromHeader hopen
    cases hmode
    exact ⟨configLegal_congr (s := u) rfl rfl rfl rfl h.legal, h.derived, h.counters, h.encoder, h.decoder, h.bands⟩

/-! ### A session's own commands -/

/-- The commands that open a session or a pipeline do not run in one. -/
theorem notMem_openers_of_active (hr : runsIn i .active = true) : i ∉ [.validate, .hdrRead, .compress, .decompress] := by
  intro hi
  simp only [List.mem_cons, List.not_mem_nil, or_false] at hi
  rcases hi with rfl | rfl | rfl | rfl <;> cases hr

theorem derived_notMem_of_active (hr : runsIn i .active = true) : .derived ∉ footprint i :=
  fun hp => notMem_openers_of_active hr (derived_mem_footprint hp)

/-- In a session of the block coder a command that completes keeps the counters and the buffers in range. -/
theorem countersFit_of_active (hi : i ≠ .reset) (hr : runsIn i .active = true) (hs : CountersFit s) (hu : body i s = .ok () u) :
    CountersFit u := by
  by_cases hp : .counters ∈ footprint i
  · have hopen := notMem_openers_of_active hr
    have hrow := counters_mem_footprint hp
    simp only [List.mem_cons, List.not_mem_nil, or_false, not_or] at hopen hrow
    exact (countersFit_body (by simp; tauto)).ok hs hu
  · exact ((acts_body i hi).ok hu).frame.countersFit hp (parameters_notMem_of_active hr) hs

theorem encoderFits_of_active (hi : i ≠ .reset) (hr : runsIn i .active = true) (hs : EncoderFits s) (hu : body i s = .ok () u) :
    EncoderFits u := by
  by_cases hp : .encoder ∈ footprint i
  · have hopen := notMem_openers_of_active hr
    have hrow := encoder_mem_footprint hp
    simp only [List.mem_cons, List.not_mem_nil, or_false, not_or] at hopen hrow
    exact encoderFits_body (by simp; tauto) hs hu
  · exact ((acts_body i hi).ok hu).frame.encoderFits hp (parameters_notMem_of_active hr) hs

theorem decoderFits_of_active (hi : i ≠ .reset) (hr : runsIn i .active = true) (hj : 0 < s.cfg.J ∧ s.cfg.J % 2 = 0)
    (hs : DecoderFits s) (hu : body i s = .ok () u) : DecoderFits u := by
  by_cases hp : .decoder ∈ footprint i
  · have hopen := notMem_openers_of_active hr
    have hrow := decoder_mem_footprint hp
    simp only [List.mem_cons, List.not_mem_nil, or_false, not_or] at hopen hrow
    obtain rfl : i = .baDecodeSample := by tauto
    exact decoderFits_bodyBaDecodeSample hj hs hu
  · have hf := ((acts_body i hi).ok hu).frame
    unfold DecoderFits
    rw [hf.field .decoder State.dbuf hp fun _ => rfl, hf.field .decoder State.dpos hp fun _ => rfl,
      hf.field .parameters State.cfg (parameters_notMem_of_active hr) fun _ => rfl]
    exact hs

/-- A command of ACTIVE that completes keeps the session. -/
theorem session_of_active (hs : Session s) (hm : s.mode = .active) (hi : i ≠ .reset) (hr : runsIn i .active = true)
    (hu : body i s = .ok () u) (hc : CursorFits u) : Session u := by
  have hmoves := (acts_body i hi).ok hu
  obtain ⟨hcfg, hta, htw⟩ := hmoves.frame.parameters (parameters_notMem_of_active hr)
  have hblock : u.cfg.coder = 1 → BlockLegal s.cfg := fun h1 => configLegal_blockLegal (hs.legal hm) (hcfg ▸ h1)
  refine ⟨hc, fun _ => ?_, fun _ => ?_, fun _ h1 => ?_, fun _ h1 => ?_, fun _ h1 => ?_⟩
  · exact configLegal_congr hcfg hta htw (hmoves.own State.histCapacity fun _ => rfl) (hs.legal hm)
  · rw [hmoves.frame.field .derived State.idBits (derived_notMem_of_active hr) fun _ => rfl,
      hmoves.frame.field .derived State.backupOpt (derived_notMem_of_active hr) fun _ => rfl, hcfg]
    exact hs.derived hm
  · have hfit : CountersFit s := ⟨(hblock h1).segment.1, (hblock h1).reference, hs.counters hm (hcfg ▸ h1)⟩
    exact (countersFit_of_active hi hr hfit hu).2.2
  · exact encoderFits_of_active hi hr (hs.encoder hm (hcfg ▸ h1)) hu
  · obtain ⟨hj, -, heven⟩ := (hblock h1).size
    exact decoderFits_of_active hi hr ⟨hj, heven⟩ (hs.decoder hm (hcfg ▸ h1)) hu

/-- A command that completes leaves a session, or a state outside one. -/
theorem session_of_body (hs : Session s) (hi : i ≠ .reset) (hr : runsIn i s.mode = true)
    (hu : body i s = .ok () u) : Session u := by
  have hc : CursorFits u := by
    have hfin := cursorFits_body hi hs.cursor hr hs.legal
    rw [hu] at hfin
    cases hfin with
    | ok h => exact h
  have hmode := mode_of_body hu
  rcases modeAfter_cases hr with hsame | ⟨-, -, hopen⟩ | ⟨-, hidle, -⟩ | ⟨-, hreset⟩
  · by_cases hact : s.mode = .active
    · exact session_of_active hs hact hi (hact ▸ hr) hu hc
    · exact session_of_inactive (by rwa [hmode, hsame]) hc
  · exact (opened_of_body hopen hu).session hc
  · exact session_of_inactive (by rw [hmode, hidle]; simp) hc
  · exact absurd hreset hi

theorem session_of_commandEnd (hs : Session s) (h : CommandEnd i s t) : Session t := by
  cases h with
  | ignored => exact hs
  | refused => exact session_of_inactive (by simp) hs.cursor
  | @completed _ hr _ u hu =>
    by_cases hi : i = .reset
    · subst hi
      cases hu
      exact session_of_inactive (by simp [State.reset]) ⟨Nat.zero_lt_succ _, Nat.zero_lt_succ _, Nat.zero_lt_succ _⟩
    · exact (session_of_body hs hi hr hu).of_frame (parts := [.own])
        (frame_of fun part => by cases part <;> simp [Part.view, setDone]) (by simp [sessionView]) rfl
  | raised _ hr hu =>
    have hfin := cursorFits_body (ne_reset_of_raised hu) hs.cursor hr hs.legal
    rw [hu] at hfin
    cases hfin with
    | error hc => exact session_of_inactive (by simp) hc

/-- Settles O22: what each step leaves is a session that was opened or kept, or a state outside one. -/
theorem stepKeepsSession : Obligations.StepKeepsSession := by
  unfold Obligations.StepKeepsSession
  intro s t hs hstep
  cases stepEnd_of_step hstep with
  | accessed h => exact hs.of_hostMove h
  | configured hm h =>
    exact session_of_inactive (by rw [h.mode (by simp [hostParts]), hm]; simp)
      (h.frame.cursorFits (by simp [hostParts]) hs.cursor)
  | raised _ h => exact session_of_inactive (by simp) (h.frame.cursorFits (by simp [hostParts]) hs.cursor)
  | @command rest _ _ _ h =>
    exact session_of_commandEnd (hs.of_hostMove (hostMove_own rest s.hostRead)) (commandEnd_of_exec h)

end Sys2Proof.Machine
end

section
/-! The state of the bands stays in range: weights, statistics and history samples, as the commands of a session leave them
(10_state.md R46, R47, 43_sample_adaptive.md R346, 44_predictor.md R380, R406). -/

namespace Sys2Proof.Machine

variable {α : Type} {c : Cfg} {s t u : State} {z : Nat} {w : List Int} {p : Cursor}

/-- What holds of every cell still does after one of them is written. -/
theorem forall_putCell {P : Nat → α → Prop} {m : Memory α} {k : Nat} {v : α} (hm : ∀ k v, m.cellAt k = some v → P k v)
    (hv : P k v) : ∀ k' v', (m.putCell k v).cellAt k' = some v' → P k' v' := by
  intro k' v' h
  by_cases hk : k' = k
  · subst hk
    rw [Memory.cellAt_putCell_same] at h
    cases h
    exact hv
  · rw [Memory.cellAt_putCell_other m hk] at h
    exact hm k' v' h

/-! ### Weights -/

/-- A weight vector of a band: its length, and every weight in range (44_predictor.md R380, R406). -/
def WeightsOk (c : Cfg) (z : Nat) (w : List Int) : Prop :=
  w.length = c.bandLength z ∧ ∀ v ∈ w, -2 ^ (c.OMEGA + 2) ≤ v ∧ v ≤ 2 ^ (c.OMEGA + 2) - 1

theorem length_fadingWeights : ∀ (n : Nat) (w : Int), (fadingWeights n w).length = n
  | 0, _ => rfl
  | n + 1, w => by rw [fadingWeights, List.length_cons, length_fadingWeights n]

/-- The fading weights only fade. -/
theorem fadingWeights_bounds : ∀ (n : Nat) (w : Int), 0 ≤ w → ∀ v ∈ fadingWeights n w, 0 ≤ v ∧ v ≤ w
  | 0, _, _ => by simp [fadingWeights]
  | n + 1, w, hw => by
    rw [fadingWeights, List.forall_mem_cons]
    refine ⟨⟨hw, le_rfl⟩, fun v hv => ?_⟩
    have hfade : 0 ≤ asr w 3 ∧ asr w 3 ≤ w := by unfold asr; omega
    obtain ⟨h0, h1⟩ := fadingWeights_bounds n _ hfade.1 v hv
    exact ⟨h0, h1.trans hfade.2⟩

theorem LegalConfig.omega_bounds {ta tw : Memory Word} (h : LegalConfig c ta tw) : 4 ≤ c.OMEGA ∧ c.OMEGA ≤ 19 := by
  have := natOf_cast (w := c.omega) (by have := h.omega; omega)
  have := h.omega
  unfold Cfg.OMEGA
  omega

theorem weightsOk_default {ta tw : Memory Word} (h : LegalConfig c ta tw) (z : Nat) : WeightsOk c z (defaultWeights c z) := by
  obtain ⟨n, hn⟩ : ∃ n, c.OMEGA = n + 3 := ⟨c.OMEGA - 3, by have := h.omega_bounds; omega⟩
  have hpos : (0 : Int) < 2 ^ n := by positivity
  have hpow : (2 : Int) ^ (n + 3 + 2) = 32 * 2 ^ n := by ring
  unfold WeightsOk defaultWeights Cfg.bandLength
  rw [hn, Nat.add_sub_cancel, hpow]
  refine ⟨?_, fun v hv => ?_⟩
  · rw [List.length_append, length_fadingWeights]
    split <;> rfl
  · rcases List.mem_append.mp hv with hv | hv
    · have hzero : v = 0 := by
        split at hv
        · simpa using hv
        · cases hv
      omega
    · have := fadingWeights_bounds _ _ (by omega) v hv
      omega

/-- A table entry of Q bits gives a weight in range (44_predictor.md R388). -/
theorem customWeight_bounds {entry : Int} (hq : 1 ≤ c.Q ∧ c.Q ≤ c.OMEGA + 3)
    (he : -2 ^ (c.Q - 1) ≤ entry ∧ entry ≤ 2 ^ (c.Q - 1) - 1) :
    -2 ^ (c.OMEGA + 2) ≤ customWeight c entry ∧ customWeight c entry ≤ 2 ^ (c.OMEGA + 2) - 1 := by
  obtain ⟨e, hex⟩ : ∃ e, c.OMEGA + 3 = e + c.Q := ⟨c.OMEGA + 3 - c.Q, by omega⟩
  have hpow : (2 : Int) ^ (c.OMEGA + 2) = 2 ^ e * 2 ^ (c.Q - 1) := by
    rw [← pow_add]
    congr 1
    omega
  have hpos : (0 : Int) < 2 ^ e := by positivity
  have hlow := mul_le_mul_of_nonneg_left he.1 hpos.le
  have hhigh := mul_le_mul_of_nonneg_left he.2 hpos.le
  rw [mul_neg] at hlow
  rw [mul_sub, mul_one] at hhigh
  unfold customWeight
  simp only [hex, Nat.add_sub_cancel, hpow]
  split
  · rename_i h0
    rw [h0, pow_zero] at hhigh hlow ⊢
    omega
  · rename_i h0
    have hhalf : (2 : Int) ^ e = 2 * 2 ^ (e - 1) := by
      rw [← pow_succ']
      congr 1
      omega
    omega

theorem weightsOk_custom {ta tw : Memory Word} (h : LegalConfig c ta tw) (h1 : c.winit = 1) (hz : z < c.Z) :
    WeightsOk c z (customWeights c tw z) := by
  have hq : 1 ≤ c.Q ∧ c.Q ≤ c.OMEGA + 3 := by
    have := h.q.2 h1
    have := natOf_cast (w := c.q) (by omega)
    have := h.omega
    have := natOf_cast (w := c.omega) (by omega)
    unfold Cfg.Q Cfg.OMEGA
    omega
  unfold customWeights
  refine ⟨by rw [List.length_map, List.length_range], fun v hv => ?_⟩
  obtain ⟨i, hi, rfl⟩ := List.mem_map.mp hv
  exact customWeight_bounds hq (h.weights z hz i (List.mem_range.mp hi) h1)

theorem length_differencesOf {h : Nat → Nat → Nat → Int} (h0 : ¬ (p.y = 0 ∧ p.x = 0)) :
    (differencesOf c h p).length = c.bandLength p.z := by
  have hdir : (directionalOf c (h p.z) p.y p.x).length = 3 := by
    unfold directionalOf
    split_ifs <;> simp
  unfold differencesOf Cfg.bandLength
  rw [if_neg h0, List.length_append, List.length_map, List.length_range]
  split
  · rw [hdir]
  · rfl

theorem mem_zipWith {f : Int → Int → Int} {P : Int → Prop} (hf : ∀ a b, P (f a b)) :
    ∀ {l m : List Int}, ∀ v ∈ List.zipWith f l m, P v
  | [], _, v, hv => by simp at hv
  | _ :: _, [], v, hv => by simp at hv
  | a :: l, b :: m, v, hv => by
    rw [List.zipWith_cons_cons, List.mem_cons] at hv
    rcases hv with rfl | hv
    · exact hf a b
    · exact mem_zipWith hf v hv

/-- An updated weight is clamped (44_predictor.md R404). -/
theorem weightOf_bounds (rho g w d : Int) :
    -2 ^ (c.OMEGA + 2) ≤ weightOf c rho g w d ∧ weightOf c rho g w d ≤ 2 ^ (c.OMEGA + 2) - 1 := by
  have hpos : (0 : Int) < 2 ^ (c.OMEGA + 2) := by positivity
  unfold weightOf
  exact ⟨le_min (le_max_right _ _) (by omega), min_le_right _ _⟩

theorem weightsOk_weightsOf {h : Nat → Nat → Nat → Int} {v : Int} (hw : WeightsOk c p.z w) :
    WeightsOk c p.z (weightsOf c w h p v) := by
  unfold weightsOf
  split
  · exact hw
  · rename_i h0
    refine ⟨?_, mem_zipWith fun a b => weightOf_bounds _ _ a b⟩
    rw [List.length_zipWith, length_differencesOf h0, hw.1, min_self]

/-! ### Samples -/

/-- A sample of the configuration (00_scope.md R13). -/
def SampleOk (c : Cfg) (v : Int) : Prop := c.SMIN ≤ v ∧ v ≤ c.SMAX

/-- A residual of D bits is unmapped into the range (45_mapper.md R451). -/
theorem sampleOk_unmapResidual {d : Nat} {ss : Int} (hD : 1 ≤ c.D) (hd : d < 2 ^ c.D)
    (hs : 2 * c.SMIN ≤ ss ∧ ss ≤ 2 * c.SMAX + 1) : SampleOk c (unmapResidual c d ss) := by
  have hsize := sample_range_size hD
  have hd' : (d : Int) < 2 ^ c.D := by exact_mod_cast hd
  obtain ⟨hlo, hhi⟩ := hs
  unfold SampleOk unmapResidual mapMargin predicted asr
  simp only [pow_one]
  rcases min_cases (ss / 2 - c.SMIN) (c.SMAX - ss / 2) with ⟨hm, _⟩ | ⟨hm, _⟩ <;> rw [hm]
  · repeat' split
    all_goals omega
  · repeat' split
    all_goals omega

/-! ### Statistics -/

/-- The statistics of a band in range, from the accumulator it began with (43_sample_adaptive.md R346). -/
def StatsOk (c : Cfg) (acc : Nat) (b : BandStats) : Prop :=
  (2 ^ c.G0 ≤ b.cnt ∧ b.cnt ≤ 2 ^ c.GSTAR - 1) ∧ b.acc ≤ acc + b.cnt * 2 ^ c.D

theorem LegalConfig.growth {ta tw : Memory Word} (h : LegalConfig c ta tw) (h0 : c.coder = 0) : c.G0 + 1 ≤ c.GSTAR := by
  have hg := h.gstar h0
  have h0' := h.g0 h0
  have := natOf_cast (w := c.gstar) (by omega)
  have := natOf_cast (w := c.g0) (by omega)
  unfold Cfg.G0 Cfg.GSTAR
  omega

theorem statsOk_initial (hg : s.cfg.G0 + 1 ≤ s.cfg.GSTAR) (z : Nat) :
    StatsOk s.cfg (initialStats s z).acc (initialStats s z) := by
  have hpow : 2 ^ (s.cfg.G0 + 1) ≤ 2 ^ s.cfg.GSTAR := Nat.pow_le_pow_right (by omega) hg
  have hpos : 0 < 2 ^ s.cfg.G0 := Nat.two_pow_pos _
  refine ⟨⟨le_rfl, ?_⟩, Nat.le_add_right _ _⟩
  change 2 ^ s.cfg.G0 ≤ 2 ^ s.cfg.GSTAR - 1
  rw [pow_succ] at hpow
  omega

/-- An update with a residual of D bits, halving included (43_sample_adaptive.md R344). -/
theorem statsOk_nextStats {acc v : Nat} {b : BandStats} (hg : c.G0 + 1 ≤ c.GSTAR) (hb : StatsOk c acc b) (hv : v < 2 ^ c.D) :
    StatsOk c acc (nextStats c b v) := by
  obtain ⟨n, hn⟩ : ∃ n, c.GSTAR = n + 1 := ⟨c.GSTAR - 1, by omega⟩
  obtain ⟨⟨hlo, hhi⟩, hacc⟩ := hb
  have hpow : 2 ^ c.G0 ≤ 2 ^ n := Nat.pow_le_pow_right (by omega) (by omega)
  have hsucc : 2 ^ c.GSTAR = 2 * 2 ^ n := by rw [hn, pow_succ']
  unfold nextStats
  split
  · rename_i hlt
    refine ⟨⟨by simp only; omega, by simp only; omega⟩, ?_⟩
    simp only
    rw [Nat.succ_mul]
    omega
  · rename_i hge
    have hcnt : b.cnt = 2 * 2 ^ n - 1 := by omega
    have hpos : 0 < 2 ^ n := Nat.two_pow_pos _
    have hhalf : (b.cnt + 1) / 2 = 2 ^ n := by omega
    refine ⟨⟨by simp only; omega, by simp only; omega⟩, ?_⟩
    simp only [hhalf]
    have hsum : acc + b.cnt * 2 ^ c.D + 2 ^ c.D = acc + 2 * (2 ^ n * 2 ^ c.D) := by
      rw [add_assoc, ← Nat.succ_mul, ← mul_assoc]
      congr 2
      omega
    omega

end Sys2Proof.Machine
end

section
/-! Every step keeps the state of the bands in range: the five commands of a session that write it, and all the others by their
row of the table (10_state.md R46, R47). -/

namespace Sys2Proof.Machine

variable {α : Type} {i : Instr} {s t u : State} {parts : List Part} {p : Cursor} {w : List Int} {v : Int}

/-- Every initialized weight vector is one of its band. -/
def WeightsFit (s : State) : Prop := ∀ z w, s.weights.cellAt z = some w → WeightsOk s.cfg z w

/-- Every band's statistics are in range, from the accumulator the band began with. -/
def StatsFit (s : State) : Prop := ∀ z b, s.stats.cellAt z = some b → StatsOk s.cfg (initialStats s z).acc b

/-- Every written sample is one of the configuration. -/
def SamplesFit (s : State) : Prop := ∀ p v, s.sampleAt p = some v → SampleOk s.cfg v

theorem bandsInRange_iff : BandsInRange s ↔
    s.mode = .active → WeightsFit s ∧ (s.cfg.coder = 0 → StatsFit s) ∧ SamplesFit s := by
  constructor
  · intro h hm
    exact ⟨h.weights hm, fun h0 z b hb => ⟨h.counts hm h0 z b hb, h.accumulators hm h0 z b hb⟩, h.samples hm⟩
  · intro h
    exact ⟨fun hm => (h hm).1, fun hm h0 z b hb => ((h hm).2.1 h0 z b hb).1, fun hm h0 z b hb => ((h hm).2.1 h0 z b hb).2,
      fun hm => (h hm).2.2⟩

theorem initialStats_congr (hcfg : t.cfg = s.cfg) (hta : t.ta = s.ta) (z : Nat) : initialStats t z = initialStats s z := by
  unfold initialStats kappa
  rw [hcfg, hta]

theorem Frame.weightsFit (h : Frame parts s t) (hw : .weights ∉ parts) (hp : .parameters ∉ parts) (hs : WeightsFit s) :
    WeightsFit t := by
  unfold WeightsFit
  rw [h.field .weights State.weights hw fun _ => rfl, (h.parameters hp).1]
  exact hs

theorem Frame.statsFit (h : Frame parts s t) (hw : .stats ∉ parts) (hp : .parameters ∉ parts) (hs : StatsFit s) :
    StatsFit t := by
  obtain ⟨hcfg, hta, -⟩ := h.parameters hp
  unfold StatsFit
  simp only [initialStats_congr hcfg hta, h.field .stats State.stats hw fun _ => rfl, hcfg]
  exact hs

theorem Frame.samplesFit (h : Frame parts s t) (hw : .hist ∉ parts) (hp : .parameters ∉ parts) (hs : SamplesFit s) :
    SamplesFit t := by
  unfold SamplesFit State.sampleAt
  rw [h.field .hist State.hist hw fun _ => rfl, (h.parameters hp).1]
  exact hs

/-! ### A predicted sample -/

theorem Looks.cells_written {cells : List Cursor} {val : (Nat → Nat → Nat → Int) → α} {x : Op α} (h : Looks cells val x) {a : α}
    (hx : x s = .ok a t) : ∀ q ∈ cells, (s.sampleAt q).isSome := by
  rw [h s] at hx
  cases hfind : cells.find? fun q => (s.sampleAt q).isNone with
  | some q =>
    rw [hfind] at hx
    cases hx
  | none =>
    intro q hq
    have := List.find?_eq_none.mp hfind q hq
    simpa [Option.isSome_iff_ne_none] using this

theorem readWeights_inv {z : Nat} (h : readWeights z s = .ok w t) : t = s ∧ s.weights.cellAt z = some w := by
  rw [readWeights_eq] at h
  cases hcell : s.weights.cellAt z with
  | none =>
    rw [hcell] at h
    cases h
  | some w' =>
    rw [hcell] at h
    cases h
    exact ⟨rfl, rfl⟩

/-- Where a prediction completes, its sample was in range, its band initialized and every cell it reads written. -/
theorem predCompress_inv {r : Int × Int} (h : predCompress p.z p.y p.x v s = .ok r t) :
    SampleOk s.cfg v ∧ ∃ w, s.weights.cellAt p.z = some w ∧ ∀ q ∈ neededCells s.cfg p, (s.sampleAt q).isSome := by
  unfold predCompress at h
  rw [get_bind] at h
  by_cases hv : s.cfg.SMIN ≤ v ∧ v ≤ s.cfg.SMAX
  · rw [require_bind_ok hv] at h
    obtain ⟨w, s', hread, hrest⟩ := bind_ok_inv h
    obtain ⟨rfl, hw⟩ := readWeights_inv hread
    obtain ⟨_, _, hpredict, -⟩ := bind_ok_inv hrest
    exact ⟨hv, w, hw, (looks_predict s'.cfg w p).cells_written hpredict⟩
  · rw [require_bind_error hv] at h
    cases h

theorem predDecompress_inv {d : Nat} {r : Int × Int} (h : predDecompress p.z p.y p.x d s = .ok r t) :
    d < 2 ^ s.cfg.D ∧ ∃ w, s.weights.cellAt p.z = some w ∧ ∀ q ∈ neededCells s.cfg p, (s.sampleAt q).isSome := by
  unfold predDecompress at h
  rw [get_bind] at h
  by_cases hd : d < 2 ^ s.cfg.D
  · rw [require_bind_ok hd] at h
    obtain ⟨w, s', hread, hrest⟩ := bind_ok_inv h
    obtain ⟨rfl, hw⟩ := readWeights_inv hread
    obtain ⟨_, _, hpredict, -⟩ := bind_ok_inv hrest
    exact ⟨hd, w, hw, (looks_predict s'.cfg w p).cells_written hpredict⟩
  · rw [require_bind_error hd] at h
    cases h

/-- A published sample in range, and the weights after it. -/
theorem bandsFit_of_published (hw : WeightsFit s) (hh : SamplesFit s) (hv : SampleOk s.cfg v)
    (hcell : s.weights.cellAt p.z = some w) (ht : t = { s with hist := t.hist, weights := t.weights })
    (hsame : t.sampleAt p = some v)
    (hother : ∀ q : Cursor, histKey q.z q.y q.x ≠ histKey p.z p.y p.x → t.sampleAt q = s.sampleAt q)
    (hwsame : t.weights.cellAt p.z = some (weightsOf s.cfg w s.samples p v))
    (hwother : ∀ z, z ≠ p.z → t.weights.cellAt z = s.weights.cellAt z) : WeightsFit t ∧ SamplesFit t := by
  have hcfg : t.cfg = s.cfg := by rw [ht]
  unfold WeightsFit SamplesFit
  rw [hcfg]
  refine ⟨fun z w' hz => ?_, fun q v' hq => ?_⟩
  · by_cases hzp : z = p.z
    · subst hzp
      rw [hwsame] at hz
      cases hz
      exact weightsOk_weightsOf (hw _ _ hcell)
    · rw [hwother z hzp] at hz
      exact hw z w' hz
  · by_cases hkey : histKey q.z q.y q.x = histKey p.z p.y p.x
    · have hcells : t.sampleAt q = t.sampleAt p := by
        unfold State.sampleAt
        rw [hkey]
      rw [hcells, hsame] at hq
      cases hq
      exact hv
    · rw [hother q hkey] at hq
      exact hh q v' hq

theorem bandsFit_predCompress {r : Int × Int} (hw : WeightsFit s) (hh : SamplesFit s)
    (h : predCompress p.z p.y p.x v s = .ok r t) : WeightsFit t ∧ SamplesFit t := by
  obtain ⟨hv, w, hcell, hneed⟩ := predCompress_inv h
  obtain ⟨t', hrun, ht, hsame, hother, hwsame, hwother⟩ := predCompress_ok hv hcell hneed
  rw [h] at hrun
  cases hrun
  exact bandsFit_of_published hw hh hv hcell ht hsame hother hwsame hwother

theorem bandsFit_predDecompress {d : Nat} {r : Int × Int} (hD : 1 ≤ s.cfg.D) (hw : WeightsFit s) (hh : SamplesFit s)
    (h : predDecompress p.z p.y p.x d s = .ok r t) : WeightsFit t ∧ SamplesFit t := by
  obtain ⟨hd, w, hcell, hneed⟩ := predDecompress_inv h
  have hscaled : 2 * s.cfg.SMIN ≤ scaledOf s.cfg w s.samples p ∧ scaledOf s.cfg w s.samples p ≤ 2 * s.cfg.SMAX + 1 := by
    refine scaledOf_bounds hD fun q hq => ?_
    obtain ⟨v, hv⟩ := Option.isSome_iff_exists.mp (hneed q hq)
    have hsample : s.samples q.z q.y q.x = v := by
      unfold State.samples
      rw [hv, Option.getD_some]
    rw [hsample]
    exact hh q v hv
  obtain ⟨t', hrun, ht, hsame, hother, hwsame, hwother⟩ := predDecompress_ok hd hcell hneed
  rw [h] at hrun
  cases hrun
  exact bandsFit_of_published hw hh (sampleOk_unmapResidual hD hd hscaled) hcell ht hsame hother hwsame hwother

theorem bandsFit_bodyPredCompress (hw : WeightsFit s) (hh : SamplesFit s) (h : bodyPredCompress s = .ok () t) :
    WeightsFit t ∧ SamplesFit t := by
  obtain ⟨z, s1, hz, hafterBand⟩ := bind_ok_inv h
  obtain ⟨rfl, -⟩ := bandOperand_ok hz
  obtain ⟨q, s2, hq, hafterPosition⟩ := bind_ok_inv hafterBand
  obtain ⟨rfl, -⟩ := positionOperand_ok hq
  rw [setCursor, modify_bind, get_bind] at hafterPosition
  obtain ⟨r, u, hu, hset⟩ := bind_ok_inv hafterPosition
  cases hset
  have hfit : WeightsFit u ∧ SamplesFit u :=
    bandsFit_predCompress (p := ⟨z, q.1, q.2⟩) (s := { s2 with cursor := ⟨z, q.1, q.2⟩ }) hw hh hu
  exact hfit

theorem bandsFit_bodyPredDecompress (hD : 1 ≤ s.cfg.D) (hw : WeightsFit s) (hh : SamplesFit s)
    (h : bodyPredDecompress s = .ok () t) : WeightsFit t ∧ SamplesFit t := by
  obtain ⟨z, s1, hz, hafterBand⟩ := bind_ok_inv h
  obtain ⟨rfl, -⟩ := bandOperand_ok hz
  obtain ⟨q, s2, hq, hafterPosition⟩ := bind_ok_inv hafterBand
  obtain ⟨rfl, -⟩ := positionOperand_ok hq
  rw [setCursor, modify_bind, get_bind] at hafterPosition
  obtain ⟨r, u, hu, hset⟩ := bind_ok_inv hafterPosition
  cases hset
  have hfit : WeightsFit u ∧ SamplesFit u :=
    bandsFit_predDecompress (p := ⟨z, q.1, q.2⟩) (s := { s2 with cursor := ⟨z, q.1, q.2⟩ }) hD hw hh hu
  exact hfit

/-! ### The initialization of a band and the update of its statistics -/

theorem weightsFit_bodyPredInitBand (hl : s.configLegal) (hw : WeightsFit s) (h : bodyPredInitBand s = .ok () t) :
    WeightsFit t := by
  obtain ⟨z, s1, hz, hrest⟩ := bind_ok_inv h
  obtain ⟨rfl, hz⟩ := bandOperand_ok hz
  have hlegal := legalConfig_of_configLegal hl
  cases hrest
  refine forall_putCell hw ?_
  change WeightsOk s1.cfg z (if s1.cfg.winit = 0 then defaultWeights s1.cfg z else customWeights s1.cfg s1.tw z)
  split
  · exact weightsOk_default hlegal z
  · rename_i h0
    exact weightsOk_custom hlegal (hlegal.winit.resolve_left h0) hz

theorem statsFit_bodySaInitBand (hg : s.cfg.G0 + 1 ≤ s.cfg.GSTAR) (hs : StatsFit s) (h : bodySaInitBand s = .ok () t) :
    StatsFit t := by
  obtain ⟨z, s1, hz, hrest⟩ := bind_ok_inv h
  obtain ⟨rfl, -⟩ := bandOperand_ok hz
  cases hrest
  exact forall_putCell hs (statsOk_initial hg z)

theorem readStats_inv {z : Nat} {b : BandStats} (h : readStats z s = .ok b t) : t = s ∧ s.stats.cellAt z = some b := by
  rw [readStats_eq] at h
  cases hcell : s.stats.cellAt z with
  | none =>
    rw [hcell] at h
    cases h
  | some b' =>
    rw [hcell] at h
    cases h
    exact ⟨rfl, rfl⟩

theorem statsFit_saUpdate {z n d : Nat} (hg : s.cfg.G0 + 1 ≤ s.cfg.GSTAR) (hs : StatsFit s) (hd : d < 2 ^ s.cfg.D)
    (h : saUpdate z n d s = .ok () t) : StatsFit t := by
  unfold saUpdate at h
  rw [get_bind] at h
  split at h
  · cases h
    exact hs
  · obtain ⟨b, s1, hread, hwrite⟩ := bind_ok_inv h
    obtain ⟨rfl, hb⟩ := readStats_inv hread
    cases hwrite
    exact forall_putCell hs (statsOk_nextStats hg (hs z b hb) hd)

theorem residualOperand_ok {j x : Word} {d : Nat} (h : residualOperand j x s = .ok d t) : t = s ∧ d < 2 ^ s.cfg.D := by
  unfold residualOperand at h
  rw [get_bind] at h
  by_cases hd : x.toNat < 2 ^ s.cfg.D
  · rw [require_bind_ok hd] at h
    cases h
    exact ⟨rfl, hd⟩
  · rw [require_bind_error hd] at h
    cases h

theorem statsFit_bodySaUpdate (hg : s.cfg.G0 + 1 ≤ s.cfg.GSTAR) (hs : StatsFit s) (h : bodySaUpdate s = .ok () t) :
    StatsFit t := by
  obtain ⟨z, s1, hz, hafterBand⟩ := bind_ok_inv h
  obtain ⟨rfl, -⟩ := bandOperand_ok hz
  obtain ⟨n, s2, hn, hafterIndex⟩ := bind_ok_inv hafterBand
  rw [get_bind] at hafterIndex
  obtain ⟨d, s3, hresidual, hafterResidual⟩ := bind_ok_inv hafterIndex
  obtain ⟨rfl, hd⟩ := residualOperand_ok hresidual
  obtain ⟨_, s4, hrequire, hupdate⟩ := bind_ok_inv hafterResidual
  have hindex : Frame [] s1 s3 := ((acts_indexOperand (parts := [])).ok hn).frame
  have hstats : Frame [] s3 s4 := ((acts_requireStats (parts := []) z).ok hrequire).frame
  have hcfg3 := (hindex.parameters (by simp)).1
  have hcfg4 := (hstats.parameters (by simp)).1
  refine statsFit_saUpdate ?_ (hstats.statsFit (by simp) (by simp) (hindex.statsFit (by simp) (by simp) hs)) ?_ hupdate
  · rw [hcfg4, hcfg3]
    exact hg
  · rw [hcfg4]
    exact hd

/-! ### Every command of a session -/

theorem weightsFit_of_active (hi : i ≠ .reset) (hr : runsIn i .active = true) (hl : s.configLegal) (hw : WeightsFit s)
    (hh : SamplesFit s) (hu : body i s = .ok () u) : WeightsFit u := by
  by_cases hp : .weights ∈ footprint i
  · have hopen := notMem_openers_of_active hr
    have hrow := weights_mem_footprint hp
    simp only [List.mem_cons, List.not_mem_nil, or_false, not_or] at hopen hrow
    have hthree : i = .predInitBand ∨ i = .predCompress ∨ i = .predDecompress := by tauto
    rcases hthree with rfl | rfl | rfl
    · exact weightsFit_bodyPredInitBand hl hw hu
    · exact (bandsFit_bodyPredCompress hw hh hu).1
    · exact (bandsFit_bodyPredDecompress (Nat.one_le_of_lt (legalConfig_of_configLegal hl).depthBits.1) hw hh hu).1
  · exact ((acts_body i hi).ok hu).frame.weightsFit hp (parameters_notMem_of_active hr) hw

theorem samplesFit_of_active (hi : i ≠ .reset) (hr : runsIn i .active = true) (hl : s.configLegal) (hw : WeightsFit s)
    (hh : SamplesFit s) (hu : body i s = .ok () u) : SamplesFit u := by
  by_cases hp : .hist ∈ footprint i
  · have hopen := notMem_openers_of_active hr
    have hrow := hist_mem_footprint hp
    simp only [List.mem_cons, List.not_mem_nil, or_false, not_or] at hopen hrow
    have htwo : i = .predCompress ∨ i = .predDecompress := by tauto
    rcases htwo with rfl | rfl
    · exact (bandsFit_bodyPredCompress hw hh hu).2
    · exact (bandsFit_bodyPredDecompress (Nat.one_le_of_lt (legalConfig_of_configLegal hl).depthBits.1) hw hh hu).2
  · exact ((acts_body i hi).ok hu).frame.samplesFit hp (parameters_notMem_of_active hr) hh

theorem statsFit_of_active (hi : i ≠ .reset) (hr : runsIn i .active = true) (hg : s.cfg.G0 + 1 ≤ s.cfg.GSTAR) (hs : StatsFit s)
    (hu : body i s = .ok () u) : StatsFit u := by
  by_cases hp : .stats ∈ footprint i
  · have hopen := notMem_openers_of_active hr
    have hrow := stats_mem_footprint hp
    simp only [List.mem_cons, List.not_mem_nil, or_false, not_or] at hopen hrow
    have htwo : i = .saInitBand ∨ i = .saUpdate := by tauto
    rcases htwo with rfl | rfl
    · exact statsFit_bodySaInitBand hg hs hu
    · exact statsFit_bodySaUpdate hg hs hu
  · exact ((acts_body i hi).ok hu).frame.statsFit hp (parameters_notMem_of_active hr) hs

/-- A session begins with no band initialized and no sample written. -/
theorem Opened.bandsInRange (h : Opened t) : BandsInRange t := by
  obtain ⟨hw, hst, hh⟩ := h.bands
  refine bandsInRange_iff.mpr fun _ => ⟨fun z w hz => ?_, fun _ z b hz => ?_, fun p v hp => ?_⟩
  · rw [hw] at hz
    cases hz
  · rw [hst] at hz
    cases hz
  · unfold State.sampleAt at hp
    rw [hh] at hp
    cases hp

theorem bandsInRange_of_inactive (hm : t.mode ≠ .active) : BandsInRange t := bandsInRange_iff.mpr fun h => absurd h hm

theorem BandsInRange.of_frame (hb : BandsInRange s) (hf : Frame parts s t)
    (hp : ∀ part ∈ [.mode, .parameters, .weights, .stats, .hist], part ∉ parts) : BandsInRange t := by
  have hmode : t.mode = s.mode := hf.field .mode State.mode (hp _ (by simp)) fun _ => rfl
  have hparams : .parameters ∉ parts := hp _ (by simp)
  refine bandsInRange_iff.mpr fun hm => ?_
  obtain ⟨hw, hst, hh⟩ := bandsInRange_iff.mp hb (hmode ▸ hm)
  refine ⟨hf.weightsFit (hp _ (by simp)) hparams hw, fun h0 => ?_, hf.samplesFit (hp _ (by simp)) hparams hh⟩
  exact hf.statsFit (hp _ (by simp)) hparams (hst ((hf.parameters hparams).1 ▸ h0))

theorem BandsInRange.of_hostMove (hb : BandsInRange s) (h : HostMove hostParts s t) : BandsInRange t :=
  hb.of_frame h.frame (by simp [hostParts])

/-- A command of ACTIVE that completes keeps the bands in range. -/
theorem bandsInRange_of_active (hs : Session s) (hb : BandsInRange s) (hm : s.mode = .active) (hi : i ≠ .reset)
    (hr : runsIn i .active = true) (hu : body i s = .ok () u) : BandsInRange u := by
  have hl := hs.legal hm
  obtain ⟨hw, hst, hh⟩ := bandsInRange_iff.mp hb hm
  have hcfg := (((acts_body i hi).ok hu).frame.parameters (parameters_notMem_of_active hr)).1
  refine bandsInRange_iff.mpr fun _ => ⟨weightsFit_of_active hi hr hl hw hh hu, fun h0 => ?_,
    samplesFit_of_active hi hr hl hw hh hu⟩
  rw [hcfg] at h0
  exact statsFit_of_active hi hr ((legalConfig_of_configLegal hl).growth h0) (hst h0) hu

theorem bandsInRange_of_body (hs : Session s) (hb : BandsInRange s) (hi : i ≠ .reset) (hr : runsIn i s.mode = true)
    (hu : body i s = .ok () u) : BandsInRange u := by
  have hmode := mode_of_body hu
  rcases modeAfter_cases hr with hsame | ⟨-, -, hopen⟩ | ⟨-, hidle, -⟩ | ⟨-, hreset⟩
  · by_cases hact : s.mode = .active
    · exact bandsInRange_of_active hs hb hact hi (hact ▸ hr) hu
    · exact bandsInRange_of_inactive (by rwa [hmode, hsame])
  · exact (opened_of_body hopen hu).bandsInRange
  · exact bandsInRange_of_inactive (by rw [hmode, hidle]; simp)
  · exact absurd hreset hi

theorem bandsInRange_of_commandEnd (hs : Session s) (hb : BandsInRange s) (h : CommandEnd i s t) : BandsInRange t := by
  cases h with
  | ignored => exact hb
  | refused => exact bandsInRange_of_inactive (by simp)
  | @completed _ hr _ u hu =>
    by_cases hi : i = .reset
    · subst hi
      cases hu
      exact bandsInRange_of_inactive (by simp [State.reset])
    · exact (bandsInRange_of_body hs hb hi hr hu).of_frame (parts := [.own])
        (frame_of fun part => by cases part <;> simp [Part.view, setDone]) (by simp)
  | raised => exact bandsInRange_of_inactive (by simp)

/-- Settles O23: a session begins with empty bands, and each command of it that writes one keeps it in range. -/
theorem stepKeepsBandsInRange : Obligations.StepKeepsBandsInRange := by
  unfold Obligations.StepKeepsBandsInRange
  intro s t hs hb hstep
  cases stepEnd_of_step hstep with
  | accessed h => exact hb.of_hostMove h
  | configured hm h => exact bandsInRange_of_inactive (by rw [h.mode (by simp [hostParts]), hm]; simp)
  | raised => exact bandsInRange_of_inactive (by simp)
  | @command rest _ _ _ h =>
    have hmove : HostMove hostParts s { s with script := rest } := hostMove_own rest s.hostRead
    exact bandsInRange_of_commandEnd (hs.of_hostMove hmove) (hb.of_hostMove hmove) (commandEnd_of_exec h)

end Sys2Proof.Machine
end

section
/-! Accesses that reach no register: what the register map holds, and the error of every other access (20_memory.md R101,
R102). -/

namespace Sys2Proof.Machine

variable {s : State} {a v : Word} {reg : Reg} {n : Nat}

/-! ### The mapped addresses -/

theorem lowReg_le (h : lowReg n = some reg) : n ≤ 0x064 := by
  unfold lowReg at h
  split at h <;> cases h <;> decide

/-- A register of the map stands at a mapped address. -/
theorem mappedAddress_of_regAt (h4 : a.toNat % 4 = 0) (h : regAt a.toNat = some reg) : mappedAddress a := by
  refine ⟨h4, ?_⟩
  unfold regAt at h
  split at h
  · exact .inl (lowReg_le h)
  · split at h
    · obtain ⟨cfgReg, hr, -⟩ := Option.map_eq_some_iff.mp h
      have hindex := index_of_ofIndex hr
      have hlt := index_lt cfgReg
      omega
    · split_ifs at h <;> omega

/-- An access reaches a register only if it is 4 bytes wide and its address is mapped. -/
theorem target_none (h : n ≠ 4 ∨ ¬ mappedAddress a) : target a n = none := by
  unfold target
  split
  · rename_i hwide
    rw [Option.eq_none_iff_forall_ne_some]
    intro reg hreg
    exact h.elim (fun hn => hn hwide.1) fun ha => ha (mappedAddress_of_regAt hwide.2 hreg)
  · rfl

/-! ### Refused accesses -/

theorem countable_raiseOutside (hc : s.countable) (e : Raise) : (raiseOutside e s).countable := by
  unfold raiseOutside
  split <;> exact hc

/-- A write that reaches no register, in one step. -/
theorem after_write_refused (ht : target a n = none) (hc : s.countable) :
    after (.write a n v) s = .next (raiseOutside ⟨.bus, a⟩ { s with script := [] }) := by
  have hwrite : memWrite a n v { s with script := [] } = .next (raiseOutside ⟨.bus, a⟩ { s with script := [] }) := by
    unfold memWrite
    rw [ht]
  change settle (memWrite a n v { s with script := [] }) = _
  rw [hwrite]
  exact settle_next (countable_raiseOutside (s := { s with script := [] }) hc _)

/-- A read that reaches no register, in one step. -/
theorem after_read_refused (ht : target a n = none) (hc : s.countable) :
    after (.read a n) s = .next { raiseOutside ⟨.bus, a⟩ { s with script := [] } with hostRead := 0 } := by
  have hread : memRead a n { s with script := [] } =
      { raiseOutside ⟨.bus, a⟩ { s with script := [] } with hostRead := 0 } := by
    unfold memRead
    rw [ht]
  change settle (.next (memRead a n { s with script := [] })) = _
  rw [hread]
  exact settle_next (countable_raiseOutside (s := { s with script := [] }) hc _)

/-- Outside FAULT an error is raised, and nothing else changes (60_exceptions.md R621). -/
theorem raiseOutside_eq_failed (hm : s.mode ≠ .fault) (e : Raise) : raiseOutside e s = failed e.kind e.info s := if_neg hm

/-- Settles O10: such an access has no target in the register map, and the core is not in FAULT. -/
theorem badAccessRaisesBusError : Obligations.BadAccessRaisesBusError := by
  unfold Obligations.BadAccessRaisesBusError
  intro s a n hm hc hbad
  have ht := target_none hbad
  have hraise := raiseOutside_eq_failed (s := { s with script := [] }) hm ⟨.bus, a⟩
  refine ⟨fun v => ?_, ?_⟩
  · rw [after_write_refused ht hc, hraise]
  · rw [after_read_refused ht hc, hraise]
    rfl

end Sys2Proof.Machine
end

section
/-! The errors of PRED_COMPRESS and PRED_DECOMPRESS, in the order their pseudocode meets them (44_predictor.md R407 to R409,
R411, R412). -/

namespace Sys2Proof.Machine

variable {β : Type} {i : Instr} {s t : State} {e : Raise} {kind : ErrKind} {info : Word} {p : Cursor} {v : Int} {d : Nat}

/-! ### Operands -/

theorem bandOperand_bind_ok (hz : s.arg0.toNat < s.cfg.Z) (f : Nat → Op β) : (bandOperand >>= f) s = f s.arg0.toNat s :=
  bind_ok <| by
    unfold bandOperand
    rw [get_bind, require_bind_ok hz]
    rfl

theorem bandOperand_bind_error (hz : s.cfg.Z ≤ s.arg0.toNat) (f : Nat → Op β) :
    (bandOperand >>= f) s = .error ⟨.operand, 0⟩ s :=
  bind_error <| by
    unfold bandOperand
    rw [get_bind, require_bind_error (Nat.not_lt.mpr hz)]

theorem positionOperand_bind_ok (hy : rowOf s.arg1 < s.cfg.Y) (hx : columnOf s.arg1 < s.cfg.X) (f : Nat × Nat → Op β) :
    (positionOperand >>= f) s = f (rowOf s.arg1, columnOf s.arg1) s :=
  bind_ok <| by
    unfold positionOperand
    rw [get_bind, require_bind_ok ⟨hy, hx⟩]
    rfl

theorem positionOperand_bind_error (h : s.cfg.Y ≤ rowOf s.arg1 ∨ s.cfg.X ≤ columnOf s.arg1) (f : Nat × Nat → Op β) :
    (positionOperand >>= f) s = .error ⟨.operand, 1⟩ s :=
  bind_error <| by
    unfold positionOperand
    rw [get_bind, require_bind_error (by omega)]

/-- The position the operands of a predictor command name (30_encoding.md R141). -/
def operandCursor (s : State) : Cursor := ⟨s.arg0.toNat, rowOf s.arg1, columnOf s.arg1⟩

/-- The state once the cursor stands at that position (10_state.md R33). -/
def atOperands (s : State) : State := { s with cursor := operandCursor s }

/-- The operands name a position of the cube. -/
theorem bodyPredCompress_at (h : InCube s.cfg (operandCursor s)) : bodyPredCompress s =
    (predCompress s.arg0.toNat (rowOf s.arg1) (columnOf s.arg1) s.arg2.toInt >>= setResults)
      (atOperands s) := by
  obtain ⟨hz, hy, hx⟩ := h
  unfold bodyPredCompress
  rw [bandOperand_bind_ok hz, positionOperand_bind_ok hy hx]
  rfl

theorem bodyPredDecompress_at (h : InCube s.cfg (operandCursor s)) : bodyPredDecompress s =
    (predDecompress s.arg0.toNat (rowOf s.arg1) (columnOf s.arg1) s.arg2.toNat >>= setResults)
      (atOperands s) := by
  obtain ⟨hz, hy, hx⟩ := h
  unfold bodyPredDecompress
  rw [bandOperand_bind_ok hz, positionOperand_bind_ok hy hx]
  rfl

/-! ### The prediction -/

/-- Why nothing can be predicted at a position: its band has no weights, or a cell is unwritten, the first one in the order of
reading (44_predictor.md R409). -/
inductive Unpredictable (s : State) (p : Cursor) : Raise → Prop
  | uninit (h : s.weights.cellAt p.z = none) : Unpredictable s p ⟨.uninit, wordOfNat p.z⟩
  | unwritten {w : List Int} {q : Cursor} (hw : s.weights.cellAt p.z = some w)
      (hq : (neededCells s.cfg p).find? (fun q => (s.sampleAt q).isNone) = some q) : Unpredictable s p (cellError q)

theorem Unpredictable.atOperands (h : Unpredictable s p e) : Unpredictable (atOperands s) p e := by
  cases h with
  | uninit h => exact .uninit h
  | unwritten hw hq => exact .unwritten hw hq

/-- What both directions begin with: the weights of the band, then the cells of the prediction. -/
theorem prediction_error (h : Unpredictable s p e) (f : List Int → List Int × Int → Op β) :
    (readWeights p.z >>= fun w => predict s.cfg w p.z p.y p.x >>= f w) s = .error e s := by
  cases h with
  | uninit h => exact bind_error (by rw [readWeights_eq, h])
  | @unwritten w q hw hq =>
    rw [bind_ok (show readWeights p.z s = .ok w s by rw [readWeights_eq, hw])]
    exact bind_error (by rw [looks_predict s.cfg w p s, hq])

theorem predCompress_error (hv : s.cfg.SMIN ≤ v ∧ v ≤ s.cfg.SMAX) (h : Unpredictable s p e) :
    predCompress p.z p.y p.x v s = .error e s := by
  unfold predCompress
  rw [get_bind, require_bind_ok hv]
  exact prediction_error h _

theorem predDecompress_error (hd : d < 2 ^ s.cfg.D) (h : Unpredictable s p e) :
    predDecompress p.z p.y p.x d s = .error e s := by
  unfold predDecompress
  rw [get_bind, require_bind_ok hd]
  exact prediction_error h _

theorem predCompress_outOfRange (hv : ¬ (s.cfg.SMIN ≤ v ∧ v ≤ s.cfg.SMAX)) :
    predCompress p.z p.y p.x v s = .error ⟨.sampleRange, wordOfInt v⟩ s := by
  unfold predCompress
  rw [get_bind, require_bind_error hv]

theorem predDecompress_outOfRange (hd : ¬ d < 2 ^ s.cfg.D) :
    predDecompress p.z p.y p.x d s = .error ⟨.formatValue, wordOfNat d⟩ s := by
  unfold predDecompress
  rw [get_bind, require_bind_error hd]

/-! ### The commands -/

/-- An error of the pseudocode is the end of the command (48_system.md R580). -/
theorem exec_failed (hm : s.mode = .active) (hr : runsIn i .active = true) (hc : coderOk i s.cfg = true)
    (h : body i s = .error ⟨kind, info⟩ t) : exec i s = .next (failed kind info t) := by
  rw [exec_eq]
  exact runCommand_of_error (by simp [hm]) (hm ▸ hr) hc h

/-- An error of `PredCompress` stands over a cursor already set (44_predictor.md R411). -/
theorem exec_predCompress_failed (hm : s.mode = .active) (hp : InCube s.cfg (operandCursor s))
    (h : predCompress s.arg0.toNat (rowOf s.arg1) (columnOf s.arg1) s.arg2.toInt (atOperands s) = .error e (atOperands s)) :
    exec .predCompress s = .next (failed e.kind e.info (atOperands s)) :=
  exec_failed hm rfl rfl ((bodyPredCompress_at hp).trans (bind_error h))

theorem exec_predDecompress_failed (hm : s.mode = .active) (hp : InCube s.cfg (operandCursor s))
    (h : predDecompress s.arg0.toNat (rowOf s.arg1) (columnOf s.arg1) s.arg2.toNat (atOperands s) = .error e (atOperands s)) :
    exec .predDecompress s = .next (failed e.kind e.info (atOperands s)) :=
  exec_failed hm rfl rfl ((bodyPredDecompress_at hp).trans (bind_error h))

theorem exec_predCompress_outOfRange (hm : s.mode = .active) (hp : InCube s.cfg (operandCursor s))
    (hv : ¬ (s.cfg.SMIN ≤ s.arg2.toInt ∧ s.arg2.toInt ≤ s.cfg.SMAX)) :
    exec .predCompress s = .next (failed .sampleRange s.arg2 (atOperands s)) := by
  have hword : wordOfInt s.arg2.toInt = s.arg2 := BitVec.ofInt_toInt
  have h := exec_predCompress_failed hm hp (predCompress_outOfRange (s := atOperands s) (p := operandCursor s) hv)
  rwa [hword] at h

theorem exec_predDecompress_outOfRange (hm : s.mode = .active) (hp : InCube s.cfg (operandCursor s))
    (hd : ¬ s.arg2.toNat < 2 ^ s.cfg.D) :
    exec .predDecompress s = .next (failed .formatValue s.arg2 (atOperands s)) := by
  have h := exec_predDecompress_failed hm hp (predDecompress_outOfRange (s := atOperands s) (p := operandCursor s) hd)
  rwa [wordOfNat_toNat] at h

theorem exec_predCompress_unpredictable (hm : s.mode = .active) (hp : InCube s.cfg (operandCursor s))
    (hv : s.cfg.SMIN ≤ s.arg2.toInt ∧ s.arg2.toInt ≤ s.cfg.SMAX) (h : Unpredictable s (operandCursor s) e) :
    exec .predCompress s = .next (failed e.kind e.info (atOperands s)) :=
  exec_predCompress_failed hm hp (predCompress_error (s := atOperands s) (p := operandCursor s) hv h.atOperands)

theorem exec_predDecompress_unpredictable (hm : s.mode = .active) (hp : InCube s.cfg (operandCursor s))
    (hd : s.arg2.toNat < 2 ^ s.cfg.D) (h : Unpredictable s (operandCursor s) e) :
    exec .predDecompress s = .next (failed e.kind e.info (atOperands s)) :=
  exec_predDecompress_failed hm hp (predDecompress_error (s := atOperands s) (p := operandCursor s) hd h.atOperands)

/-- An uninitialized band raises its operand. -/
theorem unpredictable_uninit (h : s.weights.cellAt s.arg0.toNat = none) :
    Unpredictable s (operandCursor s) ⟨.uninit, s.arg0⟩ := by
  have hu : Unpredictable s (operandCursor s) ⟨.uninit, wordOfNat s.arg0.toNat⟩ := .uninit h
  rwa [wordOfNat_toNat] at hu

/-- Settles O52: the operands are checked before the cursor is set, the sample or residual before the weights are read, and
these before the cells. -/
theorem predictorErrorsInOrder : Obligations.PredictorErrorsInOrder := by
  unfold Obligations.PredictorErrorsInOrder
  intro s hm
  refine ⟨fun hz => ?_, fun hz hyx => ?_, fun hz hy hx => ?_⟩
  · exact ⟨exec_failed hm rfl rfl (bandOperand_bind_error hz _), exec_failed hm rfl rfl (bandOperand_bind_error hz _)⟩
  · have hbody (f : Nat → Nat × Nat → Op Unit) :
        (bandOperand >>= fun z => positionOperand >>= f z) s = .error ⟨.operand, 1⟩ s :=
      (bandOperand_bind_ok hz _).trans (positionOperand_bind_error hyx _)
    exact ⟨exec_failed hm rfl rfl (hbody _), exec_failed hm rfl rfl (hbody _)⟩
  · have hp : InCube s.cfg (operandCursor s) := ⟨hz, hy, hx⟩
    refine ⟨fun hv => exec_predCompress_outOfRange hm hp (by omega),
      fun hd => exec_predDecompress_outOfRange hm hp (Nat.not_lt.mpr hd), fun hlo hhi => ⟨fun hw => ?_, fun w q hw hq => ?_⟩,
      fun hd => ⟨fun hw => ?_, fun w q hw hq => ?_⟩⟩
    · exact exec_predCompress_unpredictable hm hp ⟨hlo, hhi⟩ (unpredictable_uninit hw)
    · exact exec_predCompress_unpredictable hm hp ⟨hlo, hhi⟩ (.unwritten hw hq)
    · exact exec_predDecompress_unpredictable hm hp hd (unpredictable_uninit hw)
    · exact exec_predDecompress_unpredictable hm hp hd (.unwritten hw hq)

end Sys2Proof.Machine
end

section
/-! ## The reading of a header (O57) -/
namespace Sys2Proof.Machine

/-- A configuration whose header carries an accumulator table, of one band with the table value 0. -/
def tabledCfg : Cfg := { Cfg.reset with d := 8, k := 15, atable := 1 }

/-- The bytes of that header: the image's section, the predictor's, and the entropy coder's with K = 15 and its table. -/
def tabledHeader : List Byte :=
  [0x00, 0x00, 0x01, 0x00, 0x01, 0x00, 0x01, 0x11, 0x00, 0x00, 0x08, 0x00, 0x00, 0x00, 0x92, 0x59, 0x00, 0x82, 0x3F, 0x00]

/-- A state whose TA holds the key 0 twice, about to read that header with an illegal CFG_PEDANTIC. Storing 0 in TA[0] drops
the first of the two entries, and TA[0] then reads the second, 1000. -/
def twiceStored : State :=
  { State.reset with bin := tabledHeader, ta := [(0, 1000), (0, 1000)], cfg := { Cfg.reset with pedantic := 5 } }

theorem tabledCfg_carried : headerCarries tabledCfg [] [] := by
  unfold headerCarries
  and_intros
  all_goals decide

theorem tabledHeader_bits : bitsOfBytes twiceStored.bin = headerBits 0 tabledCfg [] [] ++ bitsOfBytes [] := by decide +kernel

/-- With the table the header carries, the first failing check is that of CFG_PEDANTIC. -/
theorem tabledCfg_firstFailure :
    (validationList false { twiceStored with cfg := headerCfg tabledCfg twiceStored.cfg, ta := [], tw := [] }).find?
      (fun r => !r.1) = some (false, ⟨.config, 30⟩) := by
  decide +kernel

/-- The error code a command leaves. -/
def errCodeAfter (i : Instr) (s : State) : ErrKind :=
  match exec i s with
  | .next t => t.errCode
  | _ => s.errCode

theorem errCodeAfter_of_next {i : Instr} {s t : State} (h : exec i s = .next t) : errCodeAfter i s = t.errCode := by
  unfold errCodeAfter
  rw [h]

/-- The machine's first failing check is that of TA[0], a parameter a header carries. -/
theorem hdrRead_twiceStored : errCodeAfter .hdrRead twiceStored = .formatHeader := by decide +kernel

/-- Refutes O57: its third clause has no `Memory.wf` hypothesis. In `twiceStored` the TA entry of band 0 stays 1000 after the
header's 0 is stored, so HDR_READ raises E_FORMAT_HEADER for TA[0], and not E_CONFIG for CFG_PEDANTIC. -/
theorem not_headerReadsBack : ¬ Obligations.HeaderReadsBack := by
  unfold Obligations.HeaderReadsBack
  rintro ⟨-, -, failing⟩
  obtain ⟨t, hexec, -, ht⟩ := failing twiceStored tabledCfg [] [] [] (false, ⟨.config, 30⟩) rfl tabledCfg_carried
    tabledHeader_bits tabledCfg_firstFailure
  have hraised : t.errCode = .formatHeader := (errCodeAfter_of_next hexec).symm.trans hdrRead_twiceStored
  have hclaimed : t.errCode = .config := congrArg State.errCode ht
  exact absurd (hclaimed.symm.trans hraised) (by decide)

end Sys2Proof.Machine
end

section
/-! ## The command word and the rows of the opcode map (O1, O2, O4, O5) -/
namespace Sys2Proof.Machine

variable {i : Instr} {s : State} {w : Word} {m : Mode} {c : Cfg}

/-! ### Decoding -/

theorem commandOfOpc_opc (i : Instr) : commandOfOpc i.opc = some i := by cases i <;> rfl

theorem splitCommand_zero_encode (i : Instr) : (splitCommand (encode i)).zero = 0 :=
  BitVec.extractLsb'_append_eq_left

theorem splitCommand_opc_encode (i : Instr) : (splitCommand (encode i)).opc = i.opc :=
  BitVec.extractLsb'_append_eq_right

/-- The word of a command decodes to it (30_encoding.md R142). -/
theorem decode_encode (i : Instr) : decode (encode i) = .ok i := by
  unfold decode
  rw [if_pos (splitCommand_zero_encode i), splitCommand_opc_encode, commandOfOpc_opc]

/-- Settles O2: `encode_of_decode` in one direction, `decode_encode` in the other. -/
theorem decodeAndEncodeAgree : Obligations.DecodeAndEncodeAgree := by
  unfold Obligations.DecodeAndEncodeAgree
  exact fun w i => ⟨encode_of_decode, fun h => h ▸ decode_encode i⟩

/-- Settles O1: each word that is a command's is its `encode`, and the other three are looked up. -/
theorem opcodeMapSampleWordsDecode : Obligations.OpcodeMapSampleWordsDecode := by
  unfold Obligations.OpcodeMapSampleWordsDecode
  exact ⟨decode_encode .reset, decode_encode .bsClose, decode_encode .unaryRead, decode_encode .riceDecode,
    decode_encode .baSelect, decode_encode .saTerminate, decode_encode .predCompress, decode_encode .resUnmap,
    decode_encode .hdrRead, decode_encode .compress, decode_encode .decompress, rfl, rfl, rfl⟩

/-- A word that is no command's does not decode. -/
theorem decode_eq_error (h : ∀ i, w ≠ encode i) : ∃ e, decode w = .error e := by
  cases hw : decode w with
  | ok i => exact absurd (encode_of_decode hw) (h i)
  | error e => exact ⟨e, rfl⟩

theorem writeCmd_illegal (h : ∀ i, w ≠ encode i) : writeCmd w s = .next (raiseOutside ⟨.illegalCmd, w⟩ s) := by
  obtain ⟨e, he⟩ := decode_eq_error h
  unfold writeCmd
  rw [he]

theorem memWrite_cmd (w : Word) (s : State) : memWrite 0x008 4 w s = writeCmd w s := rfl

/-- Settles O4: the word reaches CMD, does not decode, and the error is raised outside FAULT. -/
theorem illegalWordRaises : Obligations.IllegalWordRaises := by
  unfold Obligations.IllegalWordRaises
  intro s w hm hc hw
  change settle (memWrite 0x008 4 w { s with script := [] }) = _
  rw [memWrite_cmd, writeCmd_illegal hw, settle_next (countable_raiseOutside (s := { s with script := [] }) hc _),
    raiseOutside_eq_failed (s := { s with script := [] }) hm]

/-! ### The rows of the opcode map -/

/-- A command is one of IDLE and ACTIVE, one of IDLE alone, or none of IDLE (30_encoding.md R142). -/
theorem runsIn_idle_cases (i : Instr) : i ∈ commonCommands ∨ i ∈ idleCommands ∨ runsIn i .idle = false := by
  cases i <;> decide

theorem runsIn_idle_eq_false (hc : i ∉ commonCommands) (hi : i ∉ idleCommands) : runsIn i .idle = false :=
  ((runsIn_idle_cases i).resolve_left hc).resolve_left hi

theorem runsIn_active_eq_false (hi : i ∈ idleCommands) : runsIn i .active = false := by
  have h : ∀ i ∈ idleCommands, runsIn i .active = false := by decide
  exact h i hi

theorem coder_of_blockCommand (hi : i ∈ blockCommands) : (commandRow i).coder = some 1 := by
  have h : ∀ i ∈ blockCommands, (commandRow i).coder = some 1 := by decide
  exact h i hi

theorem coder_of_adaptiveCommand (hi : i ∈ adaptiveCommands) : (commandRow i).coder = some 0 := by
  have h : ∀ i ∈ adaptiveCommands, (commandRow i).coder = some 0 := by decide
  exact h i hi

theorem coderOk_eq_false {v : Word} (hv : (commandRow i).coder = some v) (hne : c.coder ≠ v) : coderOk i c = false := by
  unfold coderOk
  rw [hv]
  exact beq_false_of_ne hne

/-- Outside FAULT, a command whose row does not list the mode or the coder raises E_MODE with its word. -/
theorem exec_outside_row (hm : s.mode ≠ .fault) (h : runsIn i s.mode = false ∨ coderOk i s.cfg = false) :
    exec i s = .next (failed .mode (encode i) s) := by
  rw [exec_eq, runCommand_eq, if_neg (fun hf => hm hf.1), if_pos h]
  rfl

/-- In FAULT a command but RESET is ignored. -/
theorem exec_in_fault (hm : s.mode = .fault) (hi : i ≠ .reset) : exec i s = .next s := by
  rw [exec_eq, runCommand_eq, if_pos ⟨hm, hi⟩]

/-- Settles O5: in each clause the row of the command lacks the mode or the coder. -/
theorem commandOutsideItsRowRaises : Obligations.CommandOutsideItsRowRaises := by
  unfold Obligations.CommandOutsideItsRowRaises
  intro i s
  refine ⟨fun hm hc hi => ?_, fun hm hi => ?_, fun hm hi hc => ?_, fun hm hi hc => ?_, exec_in_fault⟩
  · exact exec_outside_row (by simp [hm]) (.inl (hm ▸ runsIn_idle_eq_false hc hi))
  · exact exec_outside_row (by simp [hm]) (.inl (hm ▸ runsIn_active_eq_false hi))
  · exact exec_outside_row (by simp [hm]) (.inr (coderOk_eq_false (coder_of_blockCommand hi) hc))
  · exact exec_outside_row (by simp [hm]) (.inr (coderOk_eq_false (coder_of_adaptiveCommand hi) hc))

end Sys2Proof.Machine
end

section
/-! ## The commands that append codewords and the header (O35, O46, O55) -/
namespace Sys2Proof.Machine

variable {α β : Type} {i : Instr} {s t : State} {x : Op Unit} {z v k : Nat} {b : BandStats}

/-! ### A closed stream -/

/-- On a closed stream the operation raises E_IO_SINK with nothing changed (40_bitstream.md R200). -/
def SinkRefuses (x : Op Unit) : Prop := ∀ s : State, s.closed = true → x s = .error ⟨.ioSink, 0⟩ s

theorem sinkRefuses_writeBits (n v : Nat) : SinkRefuses (writeBits n v) := fun _ hc => writeBits_closed n v hc

theorem SinkRefuses.bind (h : SinkRefuses x) (f : Unit → Op Unit) : SinkRefuses (x >>= f) :=
  fun s hc => bind_error (h s hc)

theorem sinkRefuses_unaryWrite : ∀ u, SinkRefuses (unaryWrite u)
  | 0 => sinkRefuses_writeBits 1 1
  | _ + 1 => (sinkRefuses_writeBits 1 0).bind _

theorem sinkRefuses_forEach {f : α → Op Unit} (h : ∀ a, SinkRefuses (f a)) : ∀ {l : List α}, l ≠ [] → SinkRefuses (forEach l f)
  | [], hl => absurd rfl hl
  | a :: _, _ => (h a).bind _

theorem sinkRefuses_riceCode {l : List Word} (hl : l ≠ []) (k : Nat) : SinkRefuses (riceCode l k) :=
  (sinkRefuses_forEach (fun w : Word => sinkRefuses_unaryWrite (w.toNat >>> k)) hl).bind _

theorem sinkRefuses_saCodeword (c : Cfg) (k v : Nat) : SinkRefuses (saCodeword c k v) := by
  unfold saCodeword
  split
  · exact (sinkRefuses_unaryWrite _).bind _
  · exact (sinkRefuses_unaryWrite _).bind _

theorem sinkRefuses_writeSection {fields : List Field} (h : fields ≠ []) : SinkRefuses (writeSection fields) :=
  (sinkRefuses_forEach (fun f : Field => sinkRefuses_writeBits f.1 f.2) h).bind _

theorem sinkRefuses_hdrWrite : SinkRefuses hdrWrite := fun s hc =>
  (sinkRefuses_writeSection (fields := imageFields s.cfg) (List.cons_ne_nil _ _)).bind _ s hc

theorem saCode_closed {t : Nat} (hc : s.closed = true) (hb : s.stats.cellAt z = some b) :
    saCode z t v s = .error ⟨.ioSink, 0⟩ s := by
  unfold saCode
  rw [get_bind]
  split
  · exact writeBits_closed _ _ hc
  · rw [bind_ok (show readStats z s = .ok b s by rw [readStats_eq, hb])]
    exact sinkRefuses_saCodeword _ _ _ s hc

/-! ### Operands and checks -/

theorem splitOperand_bind_ok (h : s.arg0.toNat ≤ 31) (f : Nat → Op β) : (splitOperand >>= f) s = f s.arg0.toNat s :=
  bind_ok <| by
    unfold splitOperand
    rw [get_bind, require_bind_ok h]
    rfl

theorem splitOperand_bind_error (h : 31 < s.arg0.toNat) (f : Nat → Op β) : (splitOperand >>= f) s = .error ⟨.operand, 0⟩ s :=
  bind_error <| by
    unfold splitOperand
    rw [get_bind, require_bind_error (Nat.not_le.mpr h)]

theorem indexOperand_bind_ok (h : s.arg1.toNat < s.cfg.X * s.cfg.Y) (f : Nat → Op β) :
    (indexOperand >>= f) s = f s.arg1.toNat s :=
  bind_ok <| by
    unfold indexOperand
    rw [get_bind, require_bind_ok h]
    rfl

theorem indexOperand_bind_error (h : s.cfg.X * s.cfg.Y ≤ s.arg1.toNat) (f : Nat → Op β) :
    (indexOperand >>= f) s = .error ⟨.operand, 1⟩ s :=
  bind_error <| by
    unfold indexOperand
    rw [get_bind, require_bind_error (Nat.not_lt.mpr h)]

theorem residualOperand_bind_ok {w : Word} (h : w.toNat < 2 ^ s.cfg.D) (n : Word) (f : Nat → Op β) :
    (residualOperand n w >>= f) s = f w.toNat s :=
  bind_ok <| by
    unfold residualOperand
    rw [get_bind, require_bind_ok h]
    rfl

theorem residualOperand_bind_error {w : Word} (h : 2 ^ s.cfg.D ≤ w.toNat) (n : Word) (f : Nat → Op β) :
    (residualOperand n w >>= f) s = .error ⟨.operand, n⟩ s :=
  bind_error <| by
    unfold residualOperand
    rw [get_bind, require_bind_error (Nat.not_lt.mpr h)]

theorem requireOpen_bind_ok (h : s.terminated = false) (f : Unit → Op β) : (requireOpen >>= f) s = f () s :=
  bind_ok <| by
    unfold requireOpen
    rw [get_bind, require_ok h]

theorem requireOpen_bind_error (h : s.terminated = true) (f : Unit → Op β) :
    (requireOpen >>= f) s = .error ⟨.terminated, 0⟩ s :=
  bind_error <| by
    unfold requireOpen
    rw [get_bind, require_error (by simp [h])]

theorem requireStats_bind_ok (h : s.stats.cellAt z = some b) (f : Unit → Op β) : (requireStats z >>= f) s = f () s :=
  bind_ok <| by
    unfold requireStats
    rw [bind_ok (show readStats z s = .ok b s by rw [readStats_eq, h])]
    rfl

theorem requireStats_bind_error (h : s.stats.cellAt z = none) (f : Unit → Op β) :
    (requireStats z >>= f) s = .error ⟨.uninit, wordOfNat z⟩ s :=
  bind_error <| by
    unfold requireStats
    exact bind_error (by rw [readStats_eq, h])

/-- A command that runs and whose pseudocode ends well sets DONE (48_system.md R580). -/
theorem exec_done (hm : s.mode = .active) (hr : runsIn i .active = true) (hc : coderOk i s.cfg = true)
    (h : body i s = .ok () t) : exec i s = .next { t with done := true } := by
  rw [exec_eq]
  exact runCommand_of_ok (by simp [hm]) (hm ▸ hr) hc h

theorem coderOk_of_coder {c : Cfg} {w : Word} (hi : (commandRow i).coder = some w) (hw : c.coder = w) : coderOk i c = true := by
  unfold coderOk
  rw [hi]
  exact beq_iff_eq.mpr hw

/-! ### RICE_CODE -/

theorem block_ne_nil {n : Nat} (h : 0 < n) : s.block n ≠ [] := by
  unfold State.block
  rw [ne_eq, List.take_eq_nil_iff, not_or]
  exact ⟨h.ne', List.ne_nil_of_length_pos (by simp)⟩

theorem body_riceCode (h : s.arg0.toNat ≤ 31) : body .riceCode s = riceCode (s.block s.cfg.J) s.arg0.toNat s :=
  splitOperand_bind_ok h _

/-- Settles O35: the operand is checked, then `writes_riceCode`; on a closed stream the first sample's unary code is refused. -/
theorem riceCodeAppendsTheSplitBlock : Obligations.RiceCodeAppendsTheSplitBlock := by
  unfold Obligations.RiceCodeAppendsTheSplitBlock
  intro s hm hcoder
  have hrow : coderOk .riceCode s.cfg = true := coderOk_of_coder rfl hcoder
  refine ⟨fun hk hc hw => ?_, fun hk => ?_, fun hk hc hJ => ?_⟩
  · obtain ⟨t, hrun, ht⟩ := writes_riceCode (s.block s.cfg.J) s.arg0.toNat s hc hw
    exact ⟨t, ht, exec_done hm rfl hrow ((body_riceCode hk).trans hrun)⟩
  · exact exec_failed hm rfl hrow (splitOperand_bind_error hk _)
  · exact exec_failed hm rfl hrow ((body_riceCode hk).trans (sinkRefuses_riceCode (block_ne_nil hJ) _ s hc))

/-! ### SA_CODE and SA_TERMINATE -/

/-- What SA_CODE does after its operands, all legal: the check of the band, then the code. -/
theorem body_saCode (ho : s.terminated = false) (hz : s.arg0.toNat < s.cfg.Z) (ht : s.arg1.toNat < s.cfg.X * s.cfg.Y)
    (hv : s.arg2.toNat < 2 ^ s.cfg.D) :
    body .saCode s = (requireStats s.arg0.toNat >>= fun _ => saCode s.arg0.toNat s.arg1.toNat s.arg2.toNat) s := by
  change bodySaCode s = _
  unfold bodySaCode
  rw [requireOpen_bind_ok ho, bandOperand_bind_ok hz, indexOperand_bind_ok ht, get_bind, residualOperand_bind_ok hv]

theorem body_saCode_band (ho : s.terminated = false) (hz : s.cfg.Z ≤ s.arg0.toNat) :
    body .saCode s = .error ⟨.operand, 0⟩ s := by
  change bodySaCode s = _
  unfold bodySaCode
  rw [requireOpen_bind_ok ho, bandOperand_bind_error hz]

theorem body_saCode_index (ho : s.terminated = false) (hz : s.arg0.toNat < s.cfg.Z) (ht : s.cfg.X * s.cfg.Y ≤ s.arg1.toNat) :
    body .saCode s = .error ⟨.operand, 1⟩ s := by
  change bodySaCode s = _
  unfold bodySaCode
  rw [requireOpen_bind_ok ho, bandOperand_bind_ok hz, indexOperand_bind_error ht]

theorem body_saCode_residual (ho : s.terminated = false) (hz : s.arg0.toNat < s.cfg.Z) (ht : s.arg1.toNat < s.cfg.X * s.cfg.Y)
    (hv : 2 ^ s.cfg.D ≤ s.arg2.toNat) : body .saCode s = .error ⟨.operand, 2⟩ s := by
  change bodySaCode s = _
  unfold bodySaCode
  rw [requireOpen_bind_ok ho, bandOperand_bind_ok hz, indexOperand_bind_ok ht, get_bind, residualOperand_bind_error hv]

theorem saTerminate_ok (ho : s.terminated = false) (h : flush s = .ok () t) :
    saTerminate s = .ok () { t with terminated := true } := by
  unfold saTerminate
  rw [requireOpen_bind_ok ho, bind_ok h]
  rfl

/-- Settles O46: one lemma for what follows the operands, one for each operand that stops SA_CODE before. -/
theorem saCodeAndTerminateEmit : Obligations.SaCodeAndTerminateEmit := by
  unfold Obligations.SaCodeAndTerminateEmit
  intro s hm hcoder
  have hcode : coderOk .saCode s.cfg = true := coderOk_of_coder rfl hcoder
  have hend : coderOk .saTerminate s.cfg = true := coderOk_of_coder rfl hcoder
  refine ⟨fun b ho hc hw hz ht hv hb => ?_, fun ho hz ht hv hb => ?_, fun ho hz => ?_, fun ho hz ht => ?_,
    fun ho hz ht hv => ?_, fun b ho hc hz ht hv hb => ?_, fun ho hw hc => ?_, fun ho => ⟨?_, ?_⟩⟩
  · exact ⟨_, emitBits_emitted _ hw, exec_done hm rfl hcode
      ((body_saCode ho hz ht hv).trans ((requireStats_bind_ok hb _).trans (saCode_ok _ _ hc hw hb)))⟩
  · have hraise := (body_saCode ho hz ht hv).trans (requireStats_bind_error hb _)
    rw [wordOfNat_toNat] at hraise
    exact exec_failed hm rfl hcode hraise
  · exact exec_failed hm rfl hcode (body_saCode_band ho hz)
  · exact exec_failed hm rfl hcode (body_saCode_index ho hz ht)
  · exact exec_failed hm rfl hcode (body_saCode_residual ho hz ht hv)
  · exact exec_failed hm rfl hcode
      ((body_saCode ho hz ht hv).trans ((requireStats_bind_ok hb _).trans (saCode_closed hc hb)))
  · obtain ⟨t, hrun, ht, hempty⟩ := flush_ok hc hw
    exact ⟨t, ht, hempty, exec_done hm rfl hend (saTerminate_ok ho hrun)⟩
  · exact exec_failed hm rfl hcode (requireOpen_bind_error ho _)
  · exact exec_failed hm rfl hend (requireOpen_bind_error ho _)

/-! ### HDR_WRITE -/

/-- Settles O55: `hdrWrite_ok` on an open stream; on a closed one the first field is refused. -/
theorem hdrWriteAppendsTheHeader : Obligations.HdrWriteAppendsTheHeader := by
  unfold Obligations.HdrWriteAppendsTheHeader
  intro s hm
  refine ⟨fun hc hw => ?_, fun hc => exec_failed hm rfl rfl (sinkRefuses_hdrWrite s hc)⟩
  obtain ⟨hrun, hempty⟩ := hdrWrite_ok hc hw
  exact ⟨_, emitBits_emitted _ hw, hempty, exec_done hm rfl rfl hrun⟩

end Sys2Proof.Machine
end

section
/-! ## COMPRESS as a whole (O59): beside the stream, the account of BITS_OUT, the cursor, SIN and what stays -/
namespace Sys2Proof.Machine

variable {α β : Type} {parts : List Part} {x : Op α} {bits : List Bool} {c : Cfg} {s t u v : State} {rows rows' : List Word}
  {p : Cursor} {ps : List Cursor}

/-! ### The account of an open writer -/

/-- The stream is open and BITS_OUT is the number of bits written, modulo 2^32 (40_bitstream.md R208). -/
structure Counted (s : State) : Prop where
  opened : s.closed = false
  partialByte : s.wbuf.length < 8
  count : s.bitsOut = BitVec.ofNat 32 (8 * s.bytesOut + s.wbuf.length)

theorem Counted.emitted (h : Counted s) (e : Emitted bits s t) : Counted t := by
  have hclosed := emitted_closed e
  have hbytes := emitted_bytes e
  obtain ⟨hframe, -, -, hwbuf, -⟩ := e
  refine ⟨hclosed.trans h.opened, hwbuf, ?_⟩
  rw [hbytes, BitVec.ofNat_add, ← h.count, hframe]

/-- A session begins counted (70_reset_and_hazards.md R682). -/
theorem counted_cleared (s : State) : Counted (derive (clearSession s)) := ⟨rfl, Nat.zero_lt_succ 7, rfl⟩

/-- An operation that, ending well, leaves an open and counted writer so. -/
def Counts (x : Op α) : Prop := ∀ {s t a}, Counted s → x s = .ok a t → Counted t

theorem counts_of_acts (h : Acts parts x) (hw : .writer ∉ parts) (hf : .flags ∉ parts) : Counts x := by
  intro s t a hs hx
  have hm := (h.ok hx).frame
  have hwbuf : t.wbuf = s.wbuf := hm.field .writer State.wbuf hw fun _ => rfl
  refine ⟨(hm.field .flags State.closed hf fun _ => rfl).trans hs.opened, hwbuf ▸ hs.partialByte, ?_⟩
  rw [hm.field .writer State.bitsOut hw fun _ => rfl, hm.field .writer State.bytesOut hw fun _ => rfl, hwbuf]
  exact hs.count

theorem counts_of_writes {x : Op Unit} (h : Writes bits x) : Counts x := by
  intro s t a hs hx
  obtain ⟨u, hu, he⟩ := h s hs.opened hs.partialByte
  rw [hu] at hx
  cases hx
  exact hs.emitted he

theorem counts_pure (a : α) : Counts (pure a) := counts_of_acts (acts_pure (parts := []) a) (by simp) (by simp)

theorem counts_bind {f : α → Op β} (hx : Counts x) (hf : ∀ a, Counts (f a)) : Counts (x >>= f) := by
  intro s u b hs h
  rcases bind_cases h with ⟨a, t, hxt, hfu⟩ | ⟨_, _, _, hfail⟩
  · exact hf a (hx hs hxt) hfu
  · cases hfail

theorem counts_get_bind {f : State → Op β} (hf : ∀ s, Counts (f s)) : Counts (Op.get >>= f) := fun hs h => hf _ hs h

theorem counts_ite {q : Prop} [Decidable q] {x y : Op α} (hx : Counts x) (hy : Counts y) : Counts (if q then x else y) := by
  split
  · exact hx
  · exact hy

theorem counts_flush : Counts flush := by
  intro s t a hs h
  obtain ⟨u, hu, he, -⟩ := flush_ok (fun hc => absurd hc (by simp [hs.opened])) hs.partialByte
  rw [hu] at h
  cases h
  exact hs.emitted he

theorem counts_flushRos : Counts flushRos := by
  intro s t a hs h
  rw [flushRos_ok (fun hc => absurd hc (by simp [hs.opened])) hs.partialByte] at h
  cases h
  obtain ⟨hopen, hwbuf, hcount⟩ := hs.emitted (emitBits_emitted (boundaryRunCode s.cfg s.zrun) hs.partialByte)
  exact ⟨hopen, hwbuf, hcount⟩

theorem counts_hdrWrite : Counts hdrWrite := by
  intro s t a hs h
  rw [(hdrWrite_ok hs.opened hs.partialByte).1] at h
  cases h
  exact hs.emitted (emitBits_emitted _ hs.partialByte)

theorem counts_codeBlock (b : List Word) : Counts (codeBlock b) := by
  intro s t a hs h
  rw [codeBlock_ok b hs.partialByte (fun hc => absurd hc (by simp [hs.opened]))] at h
  cases h
  obtain ⟨hopen, hwbuf, hcount⟩ := hs.emitted (emitBits_emitted _ hs.partialByte)
  exact ⟨hopen, hwbuf, hcount⟩

theorem counts_setEbuf (f : State → List Word) (g : State → Nat) :
    Counts (Op.modify fun s => { s with ebuf := f s, efill := g s }) :=
  counts_of_acts (acts_setEbuf f g) (by simp) (by simp)

theorem counts_codeEbuf (b : List Word) : Counts (codeBlock b >>= fun _ => emptyEbuf) :=
  counts_bind (counts_codeBlock b) fun _ => counts_setEbuf _ _

theorem counts_codeSample (w : Nat) : Counts (codeSample w) :=
  counts_bind (counts_setEbuf _ _) fun _ => counts_get_bind fun s => counts_ite (counts_codeEbuf s.ebuf) (counts_pure ())

theorem counts_codePartial : Counts codePartial :=
  counts_get_bind fun _ => counts_ite
    (counts_bind (counts_setEbuf _ State.efill) fun _ => counts_get_bind fun t => counts_codeEbuf t.ebuf) (counts_pure ())

theorem counts_requireOpen : Counts requireOpen :=
  counts_of_acts (acts_requireOpen (parts := [])) (by simp) (by simp)

/-- The flag of a terminated coder is no part of the account. -/
theorem counts_setTerminated : Counts setTerminated := by
  intro s t a hs h
  cases h
  exact ⟨hs.opened, hs.partialByte, hs.count⟩

theorem counts_terminate (c : Cfg) : Counts (if c.coder = 0 then saTerminate else baTerminate) :=
  counts_ite
    (counts_bind counts_requireOpen fun _ => counts_bind counts_flush fun _ => counts_setTerminated)
    (counts_bind counts_requireOpen fun _ => counts_bind counts_codePartial fun _ => counts_bind counts_flushRos fun _ =>
      counts_bind counts_flush fun _ => counts_setTerminated)

theorem counts_saCode (z t w : Nat) : Counts (saCode z t w) := by
  refine counts_get_bind fun s => ?_
  by_cases ht : t = 0
  · rw [if_pos ht]
    exact counts_of_writes (writes_writeBits s.cfg.D w)
  · rw [if_neg ht]
    exact counts_bind (counts_of_acts (acts_readStats (parts := []) z) (by simp) (by simp)) fun b =>
      counts_of_writes (writes_saCodeword s.cfg (saK s.cfg b) w ht)

theorem counts_encodeResidual (c : Cfg) (z t w : Nat) : Counts (encodeResidual c z t w) :=
  counts_ite
    (counts_bind (counts_saCode z t w) fun _ => counts_of_acts (acts_saUpdate z t w) (by simp) (by simp))
    (counts_codeSample w)

theorem counts_compressAt (c : Cfg) (p : Cursor) (rows : List Word) : Counts (compressAt c p rows) :=
  counts_bind (counts_of_acts (acts_setCursor _ _ _) (by simp) (by simp)) fun _ =>
  counts_bind (counts_of_acts (acts_loadRows c p rows) (by simp) (by simp)) fun _ =>
  counts_bind (counts_of_acts (acts_initBand c p) (by simp) (by simp)) fun _ =>
  counts_bind (counts_of_acts (acts_predCompress _ _ _ _) (by simp) (by simp)) fun _ =>
  counts_bind (counts_encodeResidual _ _ _ _) fun _ => counts_pure _

theorem counts_compressFrom (c : Cfg) : ∀ ps rows, Counts (compressFrom c ps rows)
  | [], _ => counts_pure _
  | p :: ps, rows => counts_bind (counts_compressAt c p rows) fun rows' => counts_compressFrom c ps rows'

/-! ### The cursor -/

theorem compressAt_cursor (h : compressAt c p rows s = .ok rows' t) : t.cursor = p := by
  have hrest : Acts [.sin, .writer, .bout, .runs, .counters, .encoder, .weights, .stats, .hist]
      (loadRows c p rows >>= fun rows' => initBand c p >>= fun _ =>
        predCompress p.z p.y p.x (rowSample c p rows') >>= fun r =>
        encodeResidual c p.z (p.y * c.X + p.x) r.1.toNat >>= fun _ => pure rows') :=
    acts_bind ((acts_loadRows c p rows).mono (by simp)) fun _ =>
    acts_bind ((acts_initBand c p).mono (by simp)) fun _ =>
    acts_bind ((acts_predCompress _ _ _ _).mono (by simp)) fun _ =>
    acts_bind ((acts_encodeResidual _ _ _ _).mono (by simp)) fun _ => acts_pure _
  exact (hrest.ok h).frame.field .cursor State.cursor (by simp) fun _ => rfl

/-- The body of COMPRESS leaves the cursor at its last position (10_state.md R33). -/
theorem compressFrom_cursor : ∀ {ps : List Cursor} {rows : List Word} {s t : State},
    compressFrom c ps rows s = .ok () t → t.cursor = ps.getLast?.getD s.cursor
  | [], _, _, _, h => by
    cases h
    rfl
  | p :: ps, rows, s, t, h => by
    rcases bind_cases h with ⟨rows', u, hat, hfrom⟩ | ⟨_, _, _, hfail⟩
    · rw [compressFrom_cursor hfrom, compressAt_cursor hat, List.getLast?_cons]
      rfl
    · cases hfail

theorem cursor_at_last (hc : CubeLegal c) (h : compressFrom c (positions c) rows s = .ok () t) :
    t.cursor = ⟨c.Z - 1, c.Y - 1, c.X - 1⟩ := by
  obtain ⟨l, hl⟩ := positions_last hc
  rw [compressFrom_cursor h, hl, List.getLast?_concat]
  rfl

/-! ### The samples taken -/

/-- A whole traversal begins every row (47_pipeline.md R546). -/
theorem countP_rowStart_positions (hc : CubeLegal c) : (positions c).countP (rowStart c) = rowCount c := by
  obtain ⟨l, hl⟩ := positions_last hc
  have hupto := rowStarts_upto (l := l) (r := []) hc hl
  have hY : 1 ≤ c.Y := hc.height.1
  have hZ : 1 ≤ c.Z := hc.bands.1
  rw [hl, hupto]
  unfold rowIndex rowCount
  split
  · change (c.Z - 1) * c.Y + (c.Y - 1) + 1 = c.Z * c.Y
    rw [Nat.add_assoc, Nat.sub_add_cancel hY, ← Nat.succ_mul, Nat.succ_eq_add_one, Nat.sub_add_cancel hZ]
  · exact Nat.sub_add_cancel hY

theorem sin_after_positions (hc : CubeLegal c) {samples : List Word} (h : RowsLoaded c samples (positions c) rows s) :
    s.sin = samples.drop (c.X * c.Y * c.Z) := by
  rw [h.left, countP_rowStart_positions hc, rowCount_mul_rowWidth]

/-! ### The end of the stream -/

/-- The zero bits of `PadWord` fill an output word (40_bitstream.md R205). -/
theorem wordPad_fills {b : Nat} (hb : 0 < b) (pos : Nat) : 8 * b ∣ pos + wordPad b pos := by
  unfold wordPad
  have hm : 0 < 8 * b := by omega
  generalize 8 * b = m at hm ⊢
  have hlt := Nat.mod_lt pos hm
  have hpos := Nat.div_add_mod pos m
  by_cases h0 : pos % m = 0
  · rw [h0, Nat.sub_zero, Nat.mod_self, Nat.add_zero]
    exact Nat.dvd_of_mod_eq_zero h0
  · rw [Nat.mod_eq_of_lt (by omega)]
    exact ⟨pos / m + 1, by rw [Nat.mul_succ]; omega⟩

/-- Ending well, the operation leaves the coder terminated. -/
def Terminates (x : Op Unit) : Prop := ∀ {s t}, x s = .ok () t → t.terminated = true

theorem terminates_setTerminated : Terminates setTerminated := by
  intro s t h
  cases h
  rfl

theorem terminates_bind {f : α → Op Unit} (hf : ∀ a, Terminates (f a)) : Terminates (x >>= f) := by
  intro s u h
  rcases bind_cases h with ⟨a, t, -, hfu⟩ | ⟨_, _, _, hfail⟩
  · exact hf a hfu
  · cases hfail

theorem terminates_terminate (c : Cfg) : Terminates (if c.coder = 0 then saTerminate else baTerminate) := by
  split
  · exact terminates_bind fun _ => terminates_bind fun _ => terminates_setTerminated
  · exact terminates_bind fun _ => terminates_bind fun _ => terminates_bind fun _ => terminates_bind fun _ =>
      terminates_setTerminated

theorem emitted_terminated (h : Emitted bits s t) : t.terminated = s.terminated := by rw [h.1]

/-- The stream ended: these bytes, a whole number of words, were appended, the registers count them, and the coder and the
stream are done (47_pipeline.md R551). -/
structure Ended (c : Cfg) (old bytes : List Byte) (t : State) : Prop where
  bout : t.bout = old ++ bytes
  words : c.B ∣ bytes.length
  bytesOut : t.bytesOut = bytes.length
  wbuf : t.wbuf = []
  bitsOut : t.bitsOut = BitVec.ofNat 32 (8 * bytes.length)
  terminated : t.terminated = true
  closed : t.closed = true

/-- `Finish` after a whole traversal, from a counted writer. -/
theorem finish_ended {ta tw : Memory Word} {h : Nat → Nat → Nat → Int} {samples : List Word} {old : List Byte}
    {total : List Bool} (hb : 0 < c.B) (hblock : c.coder ≠ 0 → BlockLegal c)
    (hi : Compressing c ta tw h samples old total (positions c) rows s) (hn : Counted s) :
    ∃ t bytes, finish c s = .ok () t ∧ Ended c old bytes t ∧
      bitsOfBytes bytes = total ++ padBits total.length ++ zeroBits (wordPad c.B (total ++ padBits total.length).length) := by
  obtain ⟨t, hterm, ht, -⟩ := terminate_along hblock hi
  obtain ⟨u, hpad, hfill, hwbuf⟩ := padWord_ok hb (fun hc => absurd hc (by simp [ht.opened])) ht.partialByte
  rw [← ht.length] at hfill
  have hu := ht.emitted hfill
  obtain ⟨v, hclose, hpadded, hempty⟩ := close_ok (s := u) (fun _ => hwbuf) hu.partialByte
  have hv := hu.emitted hpadded
  obtain ⟨bytes, hbout, hbits, hbytes⟩ := hv.bout hempty
  have hstream : bitsOfBytes bytes =
      total ++ padBits total.length ++ zeroBits (wordPad c.B (total ++ padBits total.length).length) := by
    rw [hbits, hwbuf]
    exact List.append_nil _
  have hcount := (((counts_terminate c) hn hterm).emitted hfill).emitted hpadded
  have hended : v.terminated = true :=
    (emitted_terminated hpadded).trans ((emitted_terminated hfill).trans (terminates_terminate c hterm))
  refine ⟨{ v with closed := true }, bytes, ?_, ⟨hbout, ?_, hbytes.symm, hempty, ?_, hended, rfl⟩, hstream⟩
  · rw [finish_eq, bind_ok hterm, bind_ok hpad, hclose]
  · have hlen := congrArg List.length hstream
    rw [length_bitsOfBytes, List.length_append, zeroBits, List.length_replicate] at hlen
    exact Nat.dvd_of_mul_dvd_mul_left (by decide) (hlen ▸ wordPad_fills hb _)
  · rw [hbytes]
    simpa [hempty] using hcount.count

/-! ### The command -/

/-- A legal COMPRESS, part by part: what its header, its body and its end leave. -/
theorem compress_run {h : Nat → Nat → Nat → Int} (hlegal : s.compressLegal)
    (hlen : s.cfg.X * s.cfg.Y * s.cfg.Z ≤ s.sin.length) (hs : SampledCube s.cfg h)
    (hsamples : ∀ q, InCube s.cfg q → imageSample s.cfg s.sin q.z q.y q.x = h q.z q.y q.x) :
    ∃ u v bytes, bodyCompress s = .ok () (closePipeline v) ∧ finish s.cfg u = .ok () v ∧
      u.cursor = ⟨s.cfg.Z - 1, s.cfg.Y - 1, s.cfg.X - 1⟩ ∧ u.sin = s.sin.drop (s.cfg.X * s.cfg.Y * s.cfg.Z) ∧
      Ended s.cfg s.bout bytes v ∧ bitsOfBytes bytes = streamBits s.cfg s.ta s.tw h := by
  obtain ⟨hl, hped, hcap⟩ := legalConfig_of_rows hlegal
  have hblock : s.cfg.coder ≠ 0 → BlockLegal s.cfg := fun hne => hl.blockLegal (hl.coder.resolve_left hne)
  have hvalid : validateConfig true s = .ok () s := by
    unfold validateConfig
    rw [get_bind, firstFailure_none hl hped hcap]
    rfl
  obtain ⟨t, hhdr, ht, hw⟩ := hdrWrite_along s
  have hcfg : t.cfg = s.cfg := by rw [ht]; rfl
  have hcount : Counted t := counts_hdrWrite (counted_cleared s) hhdr
  have hstart := compressing_start (h := h) (ta := s.ta) (tw := s.tw) (samples := s.sin) hs.cube hblock hcfg (by rw [ht]; rfl)
    (by rw [ht]; rfl) (by rw [ht]; rfl) (by rw [ht]; rfl) (by rw [ht]; rfl) (by rw [ht]; rfl) (by rw [ht]; rfl)
    (by rw [ht]; rfl) (by rw [ht]; rfl) hw
  obtain ⟨rows, u, hbody, hu⟩ := compressFrom_invariant
    (fun _ _ _ hl' _ _ hi => compressAt_along hs hblock hsamples hlen hl' hi) [] (positions s.cfg) rfl [] t hstart
  obtain ⟨v, bytes, hfinish, hended, hbits⟩ :=
    finish_ended hl.wordBytes_pos hblock hu (counts_compressFrom s.cfg _ _ hcount hbody)
  refine ⟨u, v, bytes, ?_, hfinish, cursor_at_last hs.cube hbody, sin_after_positions hs.cube hu.loaded, hended, hbits⟩
  unfold bodyCompress
  rw [bind_ok hvalid, modify_bind, modify_bind, bind_ok hhdr, get_bind, hcfg, bind_ok hbody, bind_ok hfinish]
  rfl

/-- An image that begins SIN, in range, is a sampled cube, whatever follows it. -/
theorem sampledCube_of_sin {ta tw : Memory Word} {samples : List Word} (hl : LegalConfig c ta tw)
    (hlen : c.X * c.Y * c.Z ≤ samples.length)
    (hrange : ∀ v ∈ samples.take (c.X * c.Y * c.Z), c.SMIN ≤ v.toInt ∧ v.toInt ≤ c.SMAX) :
    SampledCube c (imageSample c samples) := by
  obtain ⟨hcube, hbits, hin⟩ := sampledCube_of_image hl ⟨List.length_take_of_le hlen, hrange⟩
  exact ⟨hcube, hbits, fun q hq => imageSample_take c samples hq ▸ hin q hq⟩

theorem header_prefix_stream (c : Cfg) (ta tw : Memory Word) (h : Nat → Nat → Nat → Int) :
    headerBits 0 c ta tw <+: streamBits c ta tw h := by
  obtain ⟨fill, hstream⟩ := stream_after_header (c := c) (ta := ta) (tw := tw) (h := h)
  exact hstream ▸ List.prefix_append _ _

/-- The parts a COMPRESS has no business with (47_pipeline.md R552). -/
theorem compress_part (h : bodyCompress s = .ok () t) {part : Part}
    (hp : part = .own ∨ part = .parameters ∨ part = .sout ∨ part = .bin ∨ part = .blk ∨ part = .result ∨ part = .result1) :
    part.view t = part.view s := by
  refine ((acts_body .compress (by simp)).ok h).frame part ?_
  rcases hp with rfl | rfl | rfl | rfl | rfl | rfl | rfl <;> simp [footprint, sessionParts, compressParts]

theorem compress_unchanged (h : bodyCompress s = .ok () t) :
    t.cfg = s.cfg ∧ t.ta = s.ta ∧ t.tw = s.tw ∧ t.sout = s.sout ∧ t.bin = s.bin ∧ t.blk = s.blk ∧ t.arg0 = s.arg0 ∧
      t.arg1 = s.arg1 ∧ t.arg2 = s.arg2 ∧ t.arg3 = s.arg3 ∧ t.result = s.result ∧ t.result1 = s.result1 ∧
      t.irqEn = s.irqEn ∧ t.errCode = s.errCode ∧ t.errInfo = s.errInfo := by
  have own : Part.own.view t = Part.own.view s := compress_part h (by simp)
  have parameters : Part.parameters.view t = Part.parameters.view s := compress_part h (by simp)
  exact ⟨field_eq State.cfg parameters fun _ => rfl, field_eq State.ta parameters fun _ => rfl,
    field_eq State.tw parameters fun _ => rfl, field_eq State.sout (compress_part (part := .sout) h (by simp)) fun _ => rfl,
    field_eq State.bin (compress_part (part := .bin) h (by simp)) fun _ => rfl,
    field_eq State.blk (compress_part (part := .blk) h (by simp)) fun _ => rfl, field_eq State.arg0 own fun _ => rfl,
    field_eq State.arg1 own fun _ => rfl, field_eq State.arg2 own fun _ => rfl, field_eq State.arg3 own fun _ => rfl,
    field_eq State.result (compress_part (part := .result) h (by simp)) fun _ => rfl,
    field_eq State.result1 (compress_part (part := .result1) h (by simp)) fun _ => rfl,
    field_eq State.irqEn own fun _ => rfl, field_eq State.errCode own fun _ => rfl, field_eq State.errInfo own fun _ => rfl⟩

/-- Settles O59: the stream and its account by `compress_run`, the rest by what `finish` and the whole command may move. -/
theorem compressWritesTheStream : Obligations.CompressWritesTheStream := by
  unfold Obligations.CompressWritesTheStream
  intro s hmode hlegal hlen hrange
  obtain ⟨hl, -, -⟩ := legalConfig_of_rows hlegal
  obtain ⟨u, v, bytes, hrun, hfinish, hcursor, hsin, hended, hstream⟩ :=
    compress_run hlegal hlen (sampledCube_of_sin hl hlen hrange) fun _ _ => rfl
  have hexec : exec .compress s = .next (setDone (closePipeline v)) :=
    runCommand_of_ok (by rw [hmode]; simp) (by rw [hmode]; rfl) rfl hrun
  have hkept := compress_unchanged hrun
  have hend := ((acts_finish s.cfg).ok hfinish).frame
  refine ⟨setDone (closePipeline v), bytes, hexec, hended.bout, hended.words,
    hstream ▸ header_prefix_stream s.cfg s.ta s.tw _, hstream, hended.bytesOut, hended.wbuf, hended.bitsOut, rfl, rfl,
    hended.terminated, hended.closed, ?_, ?_, ?_⟩
  · exact (hend.field .cursor State.cursor (by simp) fun _ => rfl).trans hcursor
  · exact (hend.field .sin State.sin (by simp) fun _ => rfl).trans hsin
  · exact hkept

end Sys2Proof.Machine
end

section
/-! ## The bit stream: the commands that write, read and align, and the round trip (O27 to O33) -/
namespace Sys2Proof.Machine

variable {β : Type} {s t : State} {bits : List Bool} {n u : Nat}

/-! ### The bit buffers -/

theorem emitted_partialByte (h : Emitted bits s t) : t.wbuf.length < 8 := by
  obtain ⟨-, -, -, hw, -⟩ := h
  exact hw

theorem taken_partialByte (h : Taken bits s t) : t.rbuf.length < 8 := by
  obtain ⟨-, -, -, hr⟩ := h
  exact hr

/-! ### Operands -/

theorem bitCountOperand_bind_ok (h : s.arg0.toNat ≤ 32) (f : Nat → Op β) : (bitCountOperand >>= f) s = f s.arg0.toNat s :=
  bind_ok <| by
    unfold bitCountOperand
    rw [get_bind, require_bind_ok h]
    rfl

theorem bitCountOperand_bind_error (h : 32 < s.arg0.toNat) (f : Nat → Op β) :
    (bitCountOperand >>= f) s = .error ⟨.operand, 0⟩ s :=
  bind_error <| by
    unfold bitCountOperand
    rw [get_bind, require_bind_error (Nat.not_le.mpr h)]

/-! ### BS_WRITE and UNARY_WRITE -/

theorem body_bsWrite (h : s.arg0.toNat ≤ 32) : body .bsWrite s = writeBits s.arg0.toNat s.arg1.toNat s :=
  bitCountOperand_bind_ok h _

/-- Settles O27: the operand is checked, then `WriteBits`, on an open stream and on a closed one. -/
theorem bsWriteAppendsTheField : Obligations.BsWriteAppendsTheField := by
  unfold Obligations.BsWriteAppendsTheField
  intro s hm
  refine ⟨fun hn hc hw => ?_, fun hn => ?_, fun hn hc => ?_⟩
  · obtain ⟨t, hrun, ht⟩ := writeBits_ok s.arg0.toNat s.arg1.toNat hc hw
    exact ⟨t, ht, bitsValue_rawBits _ _, exec_done hm rfl rfl ((body_bsWrite hn).trans hrun)⟩
  · exact exec_failed hm rfl rfl (bitCountOperand_bind_error hn _)
  · exact exec_failed hm rfl rfl ((body_bsWrite hn).trans (writeBits_closed _ _ hc))

/-- Settles O28: `UnaryWrite` on an open stream; on a closed one its first bit is refused. -/
theorem unaryWriteAppendsTheCodeword : Obligations.UnaryWriteAppendsTheCodeword := by
  unfold Obligations.UnaryWriteAppendsTheCodeword
  intro s hm
  refine ⟨fun hc hw => ?_, fun hc => exec_failed hm rfl rfl (sinkRefuses_unaryWrite _ s hc)⟩
  obtain ⟨t, hrun, ht⟩ := writes_unaryWrite s.arg0.toNat s hc hw
  exact ⟨t, ht, exec_done hm rfl rfl hrun⟩

/-! ### BS_FLUSH, BS_PAD_WORD and BS_CLOSE -/

/-- The padding of `PadWord` ends on a whole number of words (40_bitstream.md R204). -/
theorem dvd_add_wordPad {b : Nat} (hb : 0 < b) (pos : Nat) : 8 * b ∣ pos + wordPad b pos := by
  have hlt : pos % (8 * b) < 8 * b := Nat.mod_lt _ (by omega)
  have hwhole : pos + (8 * b - pos % (8 * b)) = 8 * b * (pos / (8 * b)) + 8 * b := by
    have := Nat.div_add_mod pos (8 * b)
    omega
  rw [Nat.dvd_iff_mod_eq_zero, wordPad, Nat.add_mod_mod, hwhole, Nat.add_mod_right, Nat.mul_mod_right]

/-- A stream padded to whole words has a whole number of words of bytes. -/
theorem dvd_bytesOut_of_padded {b : Nat} (hb : 0 < b)
    (h : Emitted (zeroBits (wordPad b (8 * s.bytesOut + s.wbuf.length))) s t) (ht : t.wbuf = []) : b ∣ t.bytesOut := by
  have hcount : 8 * t.bytesOut = 8 * s.bytesOut + s.wbuf.length + wordPad b (8 * s.bytesOut + s.wbuf.length) := by
    simpa [ht] using emitted_bytes h
  exact Nat.dvd_of_mul_dvd_mul_left (by norm_num) (hcount ▸ dvd_add_wordPad hb _)

theorem padCount_ne_zero {b bytes : Nat} (hb : 0 < b) (h : ¬ b ∣ bytes) : padCount b bytes ≠ 0 := by
  have hpos : 0 < bytes % b := Nat.pos_of_ne_zero fun h0 => h (Nat.dvd_of_mod_eq_zero h0)
  have hlt : bytes % b < b := Nat.mod_lt _ hb
  rw [padCount, Nat.mod_eq_of_lt (by omega)]
  omega

theorem flush_empty (h : s.wbuf = []) : flush s = .ok () s := by
  unfold flush
  rw [get_bind, if_neg (by simp [State.wcnt, h])]
  rfl

theorem sinkRefuses_writeZeroBytes : ∀ {n : Nat}, n ≠ 0 → SinkRefuses (writeZeroBytes n)
  | 0, h => absurd rfl h
  | _ + 1, _ => (sinkRefuses_writeBits 8 0).bind _

/-- `PadWord` on a closed stream that ends inside a word: there are bytes to write, and the first is refused. -/
theorem padWord_closed {b : Nat} (hb : 0 < b) (hc : s.closed = true) (hw : s.wbuf = []) (h : ¬ b ∣ s.bytesOut) :
    padWord b s = .error ⟨.ioSink, 0⟩ s := by
  unfold padWord
  rw [bind_ok (flush_empty hw), get_bind]
  exact sinkRefuses_writeZeroBytes (padCount_ne_zero hb h) s hc

/-- Settles O29: `Flush`, `PadWord` and `Close`, and the one case where a closed stream has bytes to take. -/
theorem flushPadAndCloseAppendZeros : Obligations.FlushPadAndCloseAppendZeros := by
  unfold Obligations.FlushPadAndCloseAppendZeros
  intro s hm hw
  refine ⟨fun hc => ?_, fun hb hc => ?_, fun hc => ?_, fun hc hempty hb hd => ?_⟩
  · obtain ⟨t, hrun, ht, hend⟩ := flush_ok hc hw
    exact ⟨t, ht, hend, exec_done hm rfl rfl hrun⟩
  · obtain ⟨t, hrun, ht, hend⟩ := padWord_ok hb hc hw
    exact ⟨t, ht, hend, dvd_bytesOut_of_padded hb ht hend, exec_done hm rfl rfl hrun⟩
  · obtain ⟨t, hrun, ht, hend⟩ := close_ok hc hw
    exact ⟨t, ht, hend, exec_done (i := .bsClose) hm rfl rfl hrun⟩
  · exact exec_failed hm rfl rfl (padWord_closed hb hc hempty hd)

/-! ### BS_READ and BS_READ_ALIGN -/

theorem body_bsRead (h : s.arg0.toNat ≤ 32) :
    body .bsRead s = (readBits s.arg0.toNat >>= fun v => Op.modify fun s => { s with result := wordOfNat v }) s :=
  bitCountOperand_bind_ok h _

/-- Settles O30: `ReadBits` where the field is there, and `readBitsFrom_error` where the input ends before. -/
theorem bsReadTakesTheField : Obligations.BsReadTakesTheField := by
  unfold Obligations.BsReadTakesTheField
  intro s hm hr
  refine ⟨fun bits rest hn hlen hin => ?_, fun hn => ?_, fun hn hshort => ?_⟩
  · obtain ⟨t, hread, ht, -⟩ := reads_readBits bits hlen s rest hr hin
    exact ⟨t, ht, exec_done hm rfl rfl ((body_bsRead hn).trans (bind_ok hread))⟩
  · exact exec_failed hm rfl rfl (bitCountOperand_bind_error hn _)
  · obtain ⟨t, hread, ht⟩ := readBitsFrom_error eosBin s.arg0.toNat 0 s hr hshort
    exact ⟨t, ht, exec_failed hm rfl rfl ((body_bsRead hn).trans (bind_error hread))⟩

/-- Settles O32: the command is `Align` alone. -/
theorem readAlignDropsThePartialByte : Obligations.ReadAlignDropsThePartialByte := by
  unfold Obligations.ReadAlignDropsThePartialByte
  exact fun s hm => exec_done (i := .bsReadAlign) hm rfl rfl (modify_apply alignReader s)

/-! ### UNARY_READ -/

theorem zeroBits_succ (n : Nat) : zeroBits (n + 1) = false :: zeroBits n := List.replicate_succ

/-- A zero read with more allowed: the count goes on. -/
theorem unaryReadFrom_zero (err : Raise) {left : Nat} (h : readBit eosBin s = .ok false t) :
    unaryReadFrom err (left + 1) n s = unaryReadFrom err left (n + 1) t := by
  rw [unaryReadFrom, bind_ok h]
  rfl

/-- `UnaryRead` of an input of zeros alone, no more of them than the cap: the end of input, with every zero consumed. -/
theorem unaryReadFrom_eos (err : Raise) : ∀ (m left n : Nat) (s : State), m ≤ left → s.rbuf.length < 8 →
    s.inBits = zeroBits m → ∃ t, unaryReadFrom err left n s = .error eosBin t ∧ Taken (zeroBits m) s t
  | 0, left, n, s, _, hr, h => by
    have hend : readBit eosBin s = .error eosBin s := readBit_error eosBin h
    refine ⟨s, ?_, taken_refl hr⟩
    cases left <;> rw [unaryReadFrom, bind_error hend]
  | _ + 1, 0, _, _, hm, _, _ => absurd hm (Nat.not_succ_le_zero _)
  | m + 1, left + 1, n, s, hm, hr, h => by
    obtain ⟨t, hbit, ht, hrest⟩ := readBit_ok eosBin hr (h.trans (zeroBits_succ m))
    obtain ⟨u, hrun, hu⟩ := unaryReadFrom_eos err m left (n + 1) t (by omega) (taken_partialByte ht) hrest
    exact ⟨u, (unaryReadFrom_zero err hbit).trans hrun, zeroBits_succ m ▸ taken_trans ht hu⟩

/-- `UnaryRead` of more zeros than the cap: the error of the caller, raised at the first zero beyond it. -/
theorem unaryReadFrom_overlong (err : Raise) : ∀ (left n : Nat) (s : State) (rest : List Bool), s.rbuf.length < 8 →
    s.inBits = zeroBits (left + 1) ++ rest →
    ∃ t, unaryReadFrom err left n s = .error err t ∧ Taken (zeroBits (left + 1)) s t
  | 0, n, s, rest, hr, h => by
    obtain ⟨t, hbit, ht, -⟩ := readBit_ok eosBin hr h
    exact ⟨t, by rw [unaryReadFrom, bind_ok hbit]; rfl, ht⟩
  | left + 1, n, s, rest, hr, h => by
    rw [zeroBits_succ] at h
    obtain ⟨t, hbit, ht, hrest⟩ := readBit_ok eosBin hr h
    obtain ⟨u, hrun, hu⟩ := unaryReadFrom_overlong err left (n + 1) t rest (taken_partialByte ht) hrest
    exact ⟨u, (unaryReadFrom_zero err hbit).trans hrun, zeroBits_succ (left + 1) ▸ taken_trans ht hu⟩

theorem unaryReadWord_eos (hn : n < 2 ^ 32) (hr : s.rbuf.length < 8) (h : s.inBits = zeroBits n) :
    ∃ t, unaryReadWord s = .error eosBin t ∧ Taken (zeroBits n) s t :=
  unaryReadFrom_eos badUnary n _ 0 s (Nat.le_sub_one_of_lt hn) hr h

theorem unaryReadWord_overlong {rest : List Bool} (hr : s.rbuf.length < 8) (h : s.inBits = zeroBits (2 ^ 32) ++ rest) :
    ∃ t, unaryReadWord s = .error badUnary t ∧ Taken (zeroBits (2 ^ 32)) s t := by
  have hcap : 2 ^ 32 = 2 ^ 32 - 1 + 1 := by norm_num
  rw [hcap] at h ⊢
  exact unaryReadFrom_overlong badUnary _ 0 s rest hr h

/-- Settles O31: a whole codeword, zeros to the end of input, and 2^32 zeros. -/
theorem unaryReadCountsZeros : Obligations.UnaryReadCountsZeros := by
  unfold Obligations.UnaryReadCountsZeros
  intro s hm hr
  refine ⟨fun u rest hu hin => ?_, fun n hn hin => ?_, fun rest hin => ?_⟩
  · have hcode : s.inBits = unaryCode u ++ rest := by rw [hin, unaryCode, zeroBits, List.append_assoc]; rfl
    obtain ⟨t, hread, ht, -⟩ := reads_unaryReadWord hu s rest hr hcode
    exact ⟨t, ht, exec_done (i := .unaryRead) hm rfl rfl (bind_ok hread)⟩
  · obtain ⟨t, hread, ht⟩ := unaryReadWord_eos hn hr hin
    exact ⟨t, hin ▸ ht, exec_failed hm rfl rfl (bind_error hread)⟩
  · obtain ⟨t, hread, ht⟩ := unaryReadWord_overlong hr hin
    exact ⟨t, ht, exec_failed hm rfl rfl (bind_error hread)⟩

/-! ### The round trip -/

/-- Between byte boundaries the bits written are those of the bytes appended to BOUT. -/
theorem bitsOfBytes_appended (h : Emitted bits s t) (hs : s.wbuf = []) (ht : t.wbuf = []) :
    bitsOfBytes (t.bout.drop s.bout.length) = bits := by
  obtain ⟨-, ⟨bytes, hbytes⟩, hbits, -, -⟩ := h
  have hout : bitsOfBytes s.bout ++ bitsOfBytes bytes = bitsOfBytes s.bout ++ bits := by
    simpa [State.outBits, hs, ht, ← hbytes, bitsOfBytes_append] using hbits
  rw [← hbytes, List.drop_left]
  exact List.append_cancel_left hout

/-- Fields and one unary codeword, as the bits of the stream. -/
def fieldsThenUnary (fields : List Field) (u : Nat) : List Bool := fieldBits fields ++ unaryCode u

/-- The writer of 40_bitstream.md R218: the fields, the codeword and the fill of the last byte. -/
theorem write_fieldsThenUnary (fields : List Field) (u : Nat) (hc : s.closed = false) (hw : s.wbuf.length < 8) :
    ∃ fill t, (do
        forEach fields (fun f => writeBits f.1 f.2)
        unaryWrite u
        flush) s = .ok () t ∧ Emitted (fieldsThenUnary fields u ++ fill) s t ∧ t.wbuf = [] := by
  obtain ⟨v, hfields, hv⟩ := writes_forEach (fun f : Field => writes_writeBits f.1 f.2) fields s hc hw
  have hcv : v.closed = false := (emitted_closed hv).trans hc
  obtain ⟨w, hcode, he⟩ := writes_unaryWrite u v hcv (emitted_partialByte hv)
  have hcw : w.closed = false := (emitted_closed he).trans hcv
  obtain ⟨t, hflush, ht, hend⟩ := flush_ok (s := w) (by simp [hcw]) (emitted_partialByte he)
  exact ⟨_, t, (bind_ok hfields).trans ((bind_ok hcode).trans hflush), emitted_trans (emitted_trans hv he) ht, hend⟩

/-- A reader of the same widths gets the values back, the second half of 40_bitstream.md R218. -/
theorem reads_fieldsThenUnary {fields : List Field} (hf : ∀ f ∈ fields, f.2 < 2 ^ f.1) (hu : u < 2 ^ 32) :
    Reads (fieldsThenUnary fields u) (fields.map (fun f => f.2), u) (do
      let vs ← collect fields (fun f => readBits f.1)
      let n ← unaryReadWord
      pure (vs, n)) := by
  have hfields : Reads (fieldBits fields) (fields.map fun f => f.2) (collect fields fun f => readBits f.1) := by
    simpa [fieldBits] using reads_collect_of (g := id) fields fun f hm => reads_rawBits eosBin (hf f hm)
  have hcode := reads_bind (f := fun n => pure (fields.map (fun f => f.2), n)) (reads_unaryReadWord hu) (reads_pure _)
  rw [List.append_nil] at hcode
  exact reads_bind hfields hcode

/-- Settles O33: the bytes of the flushed writer hold the bits of `fieldsThenUnary` and a fill, and the reader takes the former. -/
theorem writtenFieldsReadBack : Obligations.WrittenFieldsReadBack := by
  unfold Obligations.WrittenFieldsReadBack
  intro fields u s r more hf hu hc hs
  obtain ⟨fill, t, hwrite, ht, hend⟩ := write_fieldsThenUnary fields u hc (by simp [hs])
  have hbytes := bitsOfBytes_appended ht hs hend
  refine ⟨t, hwrite, fun hr hbin => ?_⟩
  have hleft : HasLeft (t.bout.drop s.bout.length ++ more) (fieldsThenUnary fields u ++ (fill ++ bitsOfBytes more)) r :=
    ⟨by simp [hr], by rw [hbin], by simp [State.inBits, hr, hbin, bitsOfBytes_append, hbytes]⟩
  obtain ⟨v, hread, -, hv⟩ := (reads_fieldsThenUnary (fun f hm => (hf f hm).2) hu).hasLeft hleft
  exact ⟨v, hread, hv.suffix (List.suffix_append _ _)⟩

end Sys2Proof.Machine
end

section
/-! ## The sample-split commands RICE_MASK, RICE_DECODE and RICE_BEST (O34, O36, O37) -/
namespace Sys2Proof.Machine

variable {α β γ : Type} {s t : State} {a : α} {e : Raise} {bits l m : List Bool} {x : Op α} {f : α → Op β}
  {q : List Nat} {j k : Nat}

/-! ### Commands that write BLK -/

theorem putBlock_getElem (b : List Word) (s : State) (j : Fin 64) : (putBlock b s).blk[j] = b.getD j.val s.blk[j] := by
  simp [putBlock]

theorem blkWith_putBlock {old : Vector Word 64} (b : List Word) (h : t.blk = old) : blkWith b old (putBlock b t).blk := by
  subst h
  exact putBlock_getElem b t

/-- A command that runs and whose pseudocode ends by writing a block changes BLK and DONE. -/
theorem exec_putBlock {i : Instr} {b : List Word} (hm : s.mode = .active) (hr : runsIn i .active = true)
    (hc : coderOk i s.cfg = true) (h : body i s = .ok () (putBlock b t)) :
    exec i s = .next { t with blk := (putBlock b t).blk, done := true } := by
  rw [exec_done hm hr hc h]
  simp only [putBlock]

/-! ### RICE_MASK -/

/-- A word of the masked block, or the default beyond the J samples. -/
theorem getD_maskBlock_block (d n : Nat) (s : State) (j : Fin 64) :
    (maskBlock d (s.block n)).getD j.val s.blk[j] =
      if j.val < n then BitVec.ofNat 32 (s.blk[j].toNat % 2 ^ d) else s.blk[j] := by
  unfold maskBlock State.block
  split
  next hj => simp [List.getElem?_take_of_lt hj, wordOfNat, lowbits]
  next hj => simp [List.getElem?_take_eq_none (Nat.not_lt.mp hj)]

theorem body_riceMask (s : State) :
    body .riceMask s = .ok () (putBlock (maskBlock s.cfg.D (s.block s.cfg.J)) s) := rfl

/-- Settles O34: the words of the block written are those of `getD_maskBlock_block`. -/
theorem riceMaskKeepsTheLowBits : Obligations.RiceMaskKeepsTheLowBits := by
  unfold Obligations.RiceMaskKeepsTheLowBits
  intro s hm hcoder
  refine ⟨(putBlock (maskBlock s.cfg.D (s.block s.cfg.J)) s).blk, fun j => ?_, ?_⟩
  · rw [putBlock_getElem, getD_maskBlock_block]
  · exact exec_putBlock hm rfl (coderOk_of_coder rfl hcoder) (body_riceMask s)

/-! ### RICE_BEST -/

/-- One more candidate: it becomes the first least exactly when it costs less. -/
theorem firstLeast_snoc {candidates : List (α × Nat)} {best : α × Nat} (h : firstLeast candidates best) (c : α × Nat) :
    firstLeast (candidates ++ [c]) (if c.2 < best.2 then c else best) := by
  obtain ⟨before, after, rfl, hbefore, hafter⟩ := h
  split
  next hc =>
    refine ⟨before ++ best :: after, [], rfl, fun e he => ?_, by simp⟩
    rcases List.mem_append.mp he with he | he
    · exact hc.trans (hbefore e he)
    · rcases List.mem_cons.mp he with rfl | he
      · exact hc
      · exact hc.trans_le (hafter e he)
  next hc =>
    refine ⟨before, after ++ [c], by simp, hbefore, fun e he => ?_⟩
    rcases List.mem_append.mp he with he | he
    · exact hafter e he
    · exact (List.mem_singleton.mp he) ▸ Nat.not_lt.mp hc

/-- A sweep that replaces the best so far by each cheaper candidate ends with the first least of all. -/
theorem firstLeast_foldl {step : α × Nat → γ → α × Nat} {candidate : γ → α × Nat}
    (hstep : ∀ best i, step best i = if (candidate i).2 < best.2 then candidate i else best) :
    ∀ (is : List γ) {candidates : List (α × Nat)} {best : α × Nat}, firstLeast candidates best →
      firstLeast (candidates ++ is.map candidate) (is.foldl step best)
  | [], candidates, best, h => by simpa using h
  | i :: is, candidates, best, h => by
    have hnext := firstLeast_foldl hstep is (hstep best i ▸ firstLeast_snoc h (candidate i))
    rwa [List.append_assoc] at hnext

theorem firstLeast_singleton (c : α × Nat) : firstLeast [c] c := ⟨[], [], rfl, by simp, by simp⟩

theorem splitCost_eq (b : List Word) (k : Nat) :
    splitCost b k = (b.map fun w => w.toNat / 2 ^ k).sum + (k + 1) * b.length := by
  simp only [splitCost, Nat.shiftRight_eq_div_pow]

/-- `BestRice` answers the first cheapest candidate of 41_rice.md R253. -/
theorem firstLeast_bestRice (c : Cfg) (b : List Word) : firstLeast (riceCandidates c b) (bestRice c b) := by
  have h := firstLeast_foldl (step := betterSplit b) (candidate := fun k => (k, splitCost b k)) (fun _ _ => rfl)
    (List.range (c.numOptions - 2)) (firstLeast_singleton (c.backupOption, c.D * b.length))
  simp only [splitCost_eq] at h
  exact h

/-- RICE_BEST masks the block as the statements do, and leaves it. -/
theorem body_riceBest (s : State) :
    body .riceBest s = .ok () { s with
      result := wordOfNat (bestRice s.cfg s.maskedBlk).1, result1 := wordOfNat (bestRice s.cfg s.maskedBlk).2 } := rfl

/-- Settles O37: the answer is `bestRice` of the masked block. -/
theorem riceBestIsTheFirstCheapest : Obligations.RiceBestIsTheFirstCheapest := by
  unfold Obligations.RiceBestIsTheFirstCheapest
  intro s hm hcoder
  refine ⟨bestRice s.cfg s.maskedBlk, firstLeast_bestRice s.cfg s.maskedBlk, ?_⟩
  exact exec_done hm rfl (coderOk_of_coder rfl hcoder) (body_riceBest s)

/-! ### An input that ends inside what is read -/

/-- An operation that, where the input ends strictly inside `bits`, consumes all of it and raises E_EOS(2). -/
def RunsOut (bits : List Bool) (x : Op α) : Prop :=
  ∀ (s : State) (more : List Bool), s.rbuf.length < 8 → more ≠ [] → bits = s.inBits ++ more →
    ∃ t, x s = .error eosBin t ∧ Taken s.inBits s t

theorem runsOut_nil (x : Op α) : RunsOut [] x := fun _ _ _ hmore h =>
  absurd (List.append_eq_nil_iff.mp h.symm).2 hmore

/-- The input ends inside what the first part reads, or inside what the second part reads after it. -/
theorem runsOut_bind (hout : RunsOut l x) (hread : Reads l a x) (hf : RunsOut m (f a)) : RunsOut (l ++ m) (x >>= f) := by
  intro s more hr hmore h
  have second : ∀ rest, s.inBits = l ++ rest → m = rest ++ more →
      ∃ t, (x >>= f) s = .error eosBin t ∧ Taken s.inBits s t := by
    intro rest hin hm
    obtain ⟨t, hx, ht, hrest⟩ := hread s rest hr hin
    obtain ⟨u, hu, htu⟩ := hf t more (taken_partialByte ht) hmore (hrest ▸ hm)
    exact ⟨u, (bind_ok hx).trans hu, hin ▸ hrest ▸ taken_trans ht htu⟩
  rcases List.append_eq_append_iff.mp h with ⟨rest, hin, hm⟩ | ⟨missing, hl, rfl⟩
  · exact second rest hin hm
  · by_cases hnone : missing = []
    · subst hnone
      exact second [] (by simpa using hl.symm) rfl
    · obtain ⟨t, hx, ht⟩ := hout s missing hr hnone hl
      exact ⟨t, bind_error hx, ht⟩

/-- The last step of a sequence reads nothing. -/
theorem RunsOut.bind_reads (hout : RunsOut l x) (hread : Reads l a x) : RunsOut l (x >>= f) := by
  simpa using runsOut_bind (f := f) hout hread (runsOut_nil _)

theorem runsOut_readBits (hbits : bits.length = k) : RunsOut bits (readBits k) := by
  intro s more hr hmore h
  have hshort : s.inBits.length < k := by
    have := congrArg List.length h
    have := List.length_pos_of_ne_nil hmore
    simp only [List.length_append] at *
    omega
  exact readBitsFrom_error eosBin k 0 s hr hshort

/-- Less than a whole unary codeword is zeros. -/
theorem eq_zeroBits_of_unaryCode_append {u : Nat} {more : List Bool} (hmore : more ≠ []) (h : unaryCode u = l ++ more) :
    ∃ n ≤ u, l = zeroBits n := by
  rcases List.eq_nil_or_concat more with rfl | ⟨front, last, rfl⟩
  · exact absurd rfl hmore
  · have hzeros : zeroBits u = l ++ front := by
      rw [unaryCode, List.concat_eq_append, ← List.append_assoc] at h
      exact (List.append_inj' h rfl).1
    obtain ⟨hlen, hl, -⟩ := List.append_eq_replicate_iff.mp hzeros.symm
    exact ⟨l.length, by omega, hl⟩

theorem runsOut_unaryReadWord {u : Nat} (hu : u < 2 ^ 32) : RunsOut (unaryCode u) unaryReadWord := by
  intro s more hr hmore h
  obtain ⟨n, hn, hin⟩ := eq_zeroBits_of_unaryCode_append hmore h
  rw [hin]
  exact unaryReadWord_eos (hn.trans_lt hu) hr hin

theorem runsOut_collect_of {g : γ → α} {bits : γ → List Bool} {val : γ → β} : ∀ items : List γ,
    (∀ c ∈ items, Reads (bits c) (val c) (f (g c)) ∧ RunsOut (bits c) (f (g c))) →
      RunsOut (items.flatMap bits) (collect (items.map g) f)
  | [], _ => runsOut_nil _
  | c :: items, h => by
    obtain ⟨⟨hread, hout⟩, htail⟩ := List.forall_mem_cons.mp h
    exact runsOut_bind hout hread
      ((runsOut_collect_of items htail).bind_reads (reads_collect_of items fun d hd => (htail d hd).1))

/-- The bits of fields of one width, cut into the fields, one for each element of a list. -/
theorem exists_fields : ∀ (q : List α) (low : List Bool), low.length = q.length * k →
    ∃ fields : List (α × List Bool), fields.map Prod.fst = q ∧ fields.flatMap Prod.snd = low ∧ ∀ c ∈ fields, c.2.length = k
  | [], low, h => ⟨[], rfl, (List.eq_nil_of_length_eq_zero (by simpa using h)).symm, by simp⟩
  | u :: q, low, h => by
    rw [List.length_cons, Nat.succ_mul] at h
    obtain ⟨fields, hq, hlow, hk⟩ := exists_fields q (low.drop k) (by rw [List.length_drop]; omega)
    refine ⟨(u, low.take k) :: fields, by rw [List.map_cons, hq], ?_, ?_⟩
    · rw [List.flatMap_cons, hlow, List.take_append_drop]
    · exact List.forall_mem_cons.mpr ⟨by rw [List.length_take]; omega, hk⟩

/-! ### The codewords of a block -/

theorem reads_unaryCodes (hq : ∀ u ∈ q, u < 2 ^ 32) :
    Reads (q.flatMap unaryCode) q (collect (List.replicate q.length ()) fun _ => unaryReadWord) := by
  have h := reads_collect_of (g := fun _ => ()) (f := fun _ => unaryReadWord) (val := id) q fun u hu =>
    reads_unaryReadWord (hq u hu)
  rwa [List.map_const', List.map_id] at h

theorem runsOut_unaryCodes (hq : ∀ u ∈ q, u < 2 ^ 32) :
    RunsOut (q.flatMap unaryCode) (collect (List.replicate q.length ()) fun _ => unaryReadWord) := by
  have h := runsOut_collect_of (g := fun _ => ()) (f := fun _ => unaryReadWord) (val := id) q fun u hu =>
    ⟨reads_unaryReadWord (hq u hu), runsOut_unaryReadWord (hq u hu)⟩
  rwa [List.map_const'] at h

/-- Fields of `k` bits, one after each quotient, whatever is made of the two. -/
theorem runsOut_fields {low : List Bool} (hlow : low.length = q.length * k) (word : Nat → Nat → Word) :
    RunsOut low (collect q fun u => readBits k >>= fun v => pure (word u v)) := by
  obtain ⟨fields, rfl, rfl, hk⟩ := exists_fields q low hlow
  refine runsOut_collect_of (val := fun c => word c.1 (bitsValue c.2)) fields fun c hc => ?_
  have hread := reads_readBits c.2 (hk c hc)
  refine ⟨?_, (runsOut_readBits (hk c hc)).bind_reads hread⟩
  simpa using reads_bind (f := fun v => pure (word c.1 v)) hread (reads_pure _)

/-- `RiceDecode` on an input that ends inside the codewords. -/
theorem runsOut_riceDecode {low : List Bool} (hq : ∀ u ∈ q, u < 2 ^ 32) (hlow : low.length = q.length * k) :
    RunsOut (q.flatMap unaryCode ++ low) (riceDecode q.length k) :=
  runsOut_bind (runsOut_unaryCodes hq) (reads_unaryCodes hq) (runsOut_fields hlow _)

/-! ### A codeword that is too long -/

/-- An operation that, where the input begins with `bits`, consumes them and raises `e`. -/
def RaisesAfter (bits : List Bool) (e : Raise) (x : Op α) : Prop :=
  ∀ (s : State) (rest : List Bool), s.rbuf.length < 8 → s.inBits = bits ++ rest → ∃ t, x s = .error e t ∧ Taken bits s t

theorem RaisesAfter.bind (h : RaisesAfter l e x) (f : α → Op β) : RaisesAfter l e (x >>= f) := by
  intro s rest hr hin
  obtain ⟨t, hx, ht⟩ := h s rest hr hin
  exact ⟨t, bind_error hx, ht⟩

theorem raisesAfter_bind (hread : Reads l a x) (hf : RaisesAfter m e (f a)) : RaisesAfter (l ++ m) e (x >>= f) := by
  intro s rest hr hin
  obtain ⟨t, hx, ht, hrest⟩ := hread s (m ++ rest) hr (hin.trans (List.append_assoc ..))
  obtain ⟨u, hu, htu⟩ := hf t rest (taken_partialByte ht) hrest
  exact ⟨u, (bind_ok hx).trans hu, taken_trans ht htu⟩

theorem raisesAfter_unaryReadWord : RaisesAfter (zeroBits (2 ^ 32)) badUnary unaryReadWord :=
  fun _ _ hr hin => unaryReadWord_overlong hr hin

/-- Whole codewords, fewer than are read, then one that is too long. -/
theorem raisesAfter_unaryCodes : ∀ {q : List Nat} {j : Nat}, q.length < j → (∀ u ∈ q, u < 2 ^ 32) →
    RaisesAfter (q.flatMap unaryCode ++ zeroBits (2 ^ 32)) badUnary (collect (List.replicate j ()) fun _ => unaryReadWord)
  | _, 0, hj, _ => absurd hj (Nat.not_lt_zero _)
  | [], _ + 1, _, _ => raisesAfter_unaryReadWord.bind _
  | u :: q, j + 1, hj, hq => by
    obtain ⟨hu, htail⟩ := List.forall_mem_cons.mp hq
    rw [List.flatMap_cons, List.append_assoc]
    exact raisesAfter_bind (reads_unaryReadWord hu) ((raisesAfter_unaryCodes (Nat.lt_of_succ_lt_succ hj) htail).bind _)

theorem raisesAfter_riceDecode (hj : q.length < j) (hq : ∀ u ∈ q, u < 2 ^ 32) :
    RaisesAfter (q.flatMap unaryCode ++ zeroBits (2 ^ 32)) badUnary (riceDecode j k) :=
  (raisesAfter_unaryCodes hj hq).bind _

/-! ### RICE_DECODE -/

theorem taken_blk (h : Taken bits s t) : t.blk = s.blk := by
  obtain ⟨ht, -⟩ := h
  rw [ht]

theorem body_riceDecode (h : s.arg0.toNat ≤ 31) :
    body .riceDecode s = (riceDecode s.cfg.J s.arg0.toNat >>= fun b => Op.modify (putBlock b)) s :=
  splitOperand_bind_ok h _

/-- Settles O36: the operand is checked, then `RiceDecode` reads a whole block, runs out of input, or meets a codeword that is
too long. -/
theorem riceDecodeInvertsTheSplitBlock : Obligations.RiceDecodeInvertsTheSplitBlock := by
  unfold Obligations.RiceDecodeInvertsTheSplitBlock
  intro s hm hcoder hr
  have hrow : coderOk .riceDecode s.cfg = true := coderOk_of_coder rfl hcoder
  refine ⟨fun b rest hk hb hin => ?_, fun hk => ?_, fun q low more hk hq hlt hlow hmore hin => ?_,
    fun q rest hk hq hlt hin => ?_⟩
  · obtain ⟨t, hread, ht, -⟩ := reads_riceDecode b s.arg0.toNat s rest hr hin
    rw [hb] at hread
    exact ⟨t, (putBlock b t).blk, ht, blkWith_putBlock b (taken_blk ht),
      exec_putBlock hm rfl hrow ((body_riceDecode hk).trans (bind_ok hread))⟩
  · exact exec_failed hm rfl hrow (splitOperand_bind_error hk _)
  · rw [← hq] at hlow
    obtain ⟨t, hread, ht⟩ := runsOut_riceDecode hlt hlow s more hr hmore hin
    rw [hq] at hread
    exact ⟨t, ht, exec_failed hm rfl hrow ((body_riceDecode hk).trans (bind_error hread))⟩
  · obtain ⟨t, hread, ht⟩ := raisesAfter_riceDecode hq hlt s rest hr hin
    exact ⟨t, ht, exec_failed hm rfl hrow ((body_riceDecode hk).trans (bind_error hread))⟩

end Sys2Proof.Machine
end

section
/-! ## The block-adaptive encoder: BA_SELECT, BA_CODE_BLOCK, BA_CODE_SAMPLE and BA_TERMINATE (O38 to O41) -/
namespace Sys2Proof.Machine

variable {c : Cfg} {s t u : State} {bits : List Bool}

/-! ### The chosen option -/

theorem sum_toNat_eq_zero_iff (b : List Word) : (b.map fun w => w.toNat).sum = 0 ↔ allZero b := by
  simp [allZero, List.sum_eq_zero_iff, ← BitVec.toNat_inj]

theorem select_of_allZero {b : List Word} (h : allZero b) : select c b = (.zeroBlock, 0) :=
  if_pos ((sum_toNat_eq_zero_iff b).mpr h)

/-- `Select` on a block that is not zero: the sweep over BACKUP and the split positions, then SECOND_EXT
(42_block_adaptive.md R286). -/
theorem firstLeast_select {b : List Word} (h : ¬ allZero b) : firstLeast (blockCandidates c b) (select c b) := by
  have hsplit := firstLeast_foldl (step := betterOption c b)
    (candidate := fun k => (.sampleSplit k, splitCost b k + c.idBits)) (fun _ _ => rfl)
    (List.range (c.numOptions - 2)) (firstLeast_singleton (.backup, b.length * c.D + c.idBits))
  have hall := firstLeast_snoc hsplit (.secondExt, secondExtSize c b)
  simp only [splitCost_eq] at hall
  rw [select, if_neg ((sum_toNat_eq_zero_iff b).not.mpr h)]
  exact hall

theorem chosen_select (c : Cfg) (b : List Word) : Chosen c b (select c b).1 := by
  by_cases h : allZero b
  · exact .inl ⟨h, (select_zero_iff b).mpr h⟩
  · exact .inr ⟨h, (select c b).2, firstLeast_select h⟩

/-! ### BA_SELECT -/

/-- BA_SELECT masks the block as the statements do, and leaves it. -/
theorem body_baSelect (s : State) : body .baSelect s = .ok () { s with
    result := wordOfNat (optionCode (select s.cfg s.maskedBlk).1),
    result1 := wordOfNat (select s.cfg s.maskedBlk).2 } := rfl

/-- Settles O38: the answer is `select` of the masked block. -/
theorem baSelectIsTheFirstCheapest : Obligations.BaSelectIsTheFirstCheapest := by
  unfold Obligations.BaSelectIsTheFirstCheapest
  intro s hm hcoder
  have hrun := exec_done hm rfl (coderOk_of_coder rfl hcoder) (body_baSelect s)
  refine ⟨fun hzero => ?_, fun hzero => ?_⟩
  · rw [select_of_allZero hzero] at hrun
    exact hrun
  · have hleast := firstLeast_select (c := s.cfg) hzero
    generalize select s.cfg s.maskedBlk = best at hrun hleast
    obtain ⟨option, size⟩ := best
    refine ⟨option, size, hleast, ?_⟩
    cases option <;> exact hrun

/-! ### BA_CODE_BLOCK -/

/-- The bits of a block as `CodeBlock` writes them in a state (42_block_adaptive.md R293). -/
def codedBits (b : List Word) (s : State) : List Bool :=
  blockCode s.cfg s.zrun (masked s.cfg b) (boundaryAfter s) (select s.cfg (masked s.cfg b)).1

/-- The zero blocks pending after that block. -/
def codedRun (b : List Word) (s : State) : Nat :=
  pendingAfter s.zrun (boundaryAfter s) (select s.cfg (masked s.cfg b)).1

theorem maskBlock_eq_masked (c : Cfg) (b : List Word) : maskBlock c.D b = masked c b := rfl

/-- `CodeBlock` in the terms of the statements. -/
theorem codeBlock_coded (b : List Word) (hw : s.wbuf.length < 8) (hc : s.closed = true → codedBits b s = []) :
    codeBlock b s = .ok () (counters (codedRun b s) (segmentAfter s) (referenceAfter s) (emitBits (codedBits b s) s)) := by
  have hrun := codeBlock_ok b hw
  rw [maskBlock_eq_masked] at hrun
  exact hrun hc

/-- A zero block kept pending writes nothing. -/
theorem blockCode_pending {b : List Word} {n : Nat} (hzero : allZero b) : blockCode c n b false (select c b).1 = [] := by
  rw [select_of_allZero hzero]
  rfl

theorem body_baCodeBlock (hopen : s.terminated = false) : body .baCodeBlock s = codeBlock (s.block s.cfg.J) s :=
  (requireOpen_bind_ok hopen _).trans (get_bind _ s)

/-- Settles O39: `CodeBlock` on the masked block, with the option `select` chooses; on a closed stream it writes nothing. -/
theorem baCodeBlockEmitsTheBlock : Obligations.BaCodeBlockEmitsTheBlock := by
  unfold Obligations.BaCodeBlockEmitsTheBlock
  intro s hm hcoder
  have hrow : coderOk .baCodeBlock s.cfg = true := coderOk_of_coder rfl hcoder
  refine ⟨fun hterm => exec_failed hm rfl hrow (requireOpen_bind_error hterm _), fun hopen hw hsink => ?_⟩
  have hnone : s.closed = true → codedBits (s.block s.cfg.J) s = [] := fun hclosed => by
    obtain ⟨hzero, hboundary⟩ := hsink.resolve_left (by simp [hclosed])
    rw [codedBits, hboundary]
    exact blockCode_pending hzero
  have hrun := exec_done hm rfl hrow ((body_baCodeBlock hopen).trans (codeBlock_coded (s.block s.cfg.J) hw hnone))
  exact ⟨_, emitBits (codedBits (s.block s.cfg.J) s) s, chosen_select s.cfg s.maskedBlk, emitBits_emitted _ hw,
    hrun⟩

/-! ### BA_CODE_SAMPLE -/

/-- EBUF and EFILL set. -/
def collected (ebuf : List Word) (efill : Nat) (s : State) : State := { s with ebuf := ebuf, efill := efill }

theorem emitted_collected (ebuf : List Word) (efill : Nat) (h : Emitted bits s t) :
    Emitted bits (collected ebuf efill s) (collected ebuf efill t) :=
  ⟨congrArg (collected ebuf efill) h.1, h.2⟩

theorem emitBits_collected (bits : List Bool) (ebuf : List Word) (efill : Nat) (hw : s.wbuf.length < 8) :
    emitBits bits (collected ebuf efill s) = collected ebuf efill (emitBits bits s) :=
  (emitted_eq (emitted_collected ebuf efill (emitBits_emitted bits hw)) hw).symm

/-- The state after a block of EBUF is coded. -/
def blockCoded (b : List Word) (s : State) : State :=
  collected [] 0 (counters (codedRun b s) (segmentAfter s) (referenceAfter s) (emitBits (codedBits b s) s))

theorem blockCoded_wbuf (b : List Word) : (blockCoded b s).wbuf = (emitBits (codedBits b s) s).wbuf := rfl

theorem blockCoded_partialByte (b : List Word) (hw : s.wbuf.length < 8) : (blockCoded b s).wbuf.length < 8 := by
  rw [blockCoded_wbuf]
  exact emitted_partialByte (emitBits_emitted _ hw)

theorem blockCoded_closed (b : List Word) (hw : s.wbuf.length < 8) : (blockCoded b s).closed = s.closed := by
  obtain ⟨-, -, -, -, hclosed, -⟩ := emitBits_fields (codedBits b s) hw
  exact hclosed

theorem blockCoded_cfg (b : List Word) (hw : s.wbuf.length < 8) : (blockCoded b s).cfg = s.cfg := by
  obtain ⟨hcfg, -⟩ := emitBits_fields (codedBits b s) hw
  exact hcfg

/-- A block coded from EBUF, which is then empty, does not depend on what EBUF held. -/
theorem codeEbuf_ok (b ebuf : List Word) (efill : Nat) (hc : s.closed = false) (hw : s.wbuf.length < 8) :
    (codeBlock b >>= fun _ => emptyEbuf) (collected ebuf efill s) = .ok () (blockCoded b s) := by
  have hrun : codeBlock b (collected ebuf efill s) = .ok () (collected ebuf efill
      (counters (codedRun b s) (segmentAfter s) (referenceAfter s) (emitBits (codedBits b s) s))) := by
    rw [codeBlock_coded (s := collected ebuf efill s) b hw fun h => absurd (hc.symm.trans h) (by simp),
      emitBits_collected _ _ _ hw]
    rfl
  rw [bind_ok hrun]
  rfl

/-- `CodeSample` collects the sample, and codes the block it completes (42_block_adaptive.md R294). -/
theorem codeSample_eq (w : Word) (hfill : s.ebuf.length = s.efill) : codeSample w.toNat s =
    if s.efill + 1 = s.cfg.J then
      (codeBlock (s.ebuf ++ [w]) >>= fun _ => emptyEbuf) (collected (s.ebuf ++ [w]) (s.efill + 1) s)
    else .ok () (collected (s.ebuf ++ [w]) (s.efill + 1) s) := by
  have hbuf : s.ebuf.take s.efill ++ [wordOfNat w.toNat] = s.ebuf ++ [w] := by
    rw [← hfill, List.take_length, wordOfNat_toNat]
  unfold codeSample
  rw [modify_bind, get_bind, hbuf]
  split <;> rfl

/-- Settles O40: `CodeSample`, by whether the sample completes the block. -/
theorem baCodeSampleCollectsABlock : Obligations.BaCodeSampleCollectsABlock := by
  unfold Obligations.BaCodeSampleCollectsABlock
  intro s hm hcoder hfill
  have hrow : coderOk .baCodeSample s.cfg = true := coderOk_of_coder rfl hcoder
  have hbody (hopen : s.terminated = false) : body .baCodeSample s = codeSample s.arg0.toNat s := requireOpen_bind_ok hopen _
  refine ⟨fun hterm => exec_failed hm rfl hrow (requireOpen_bind_error hterm _), fun hopen hroom => ?_,
    fun hopen hfull hw hc => ?_⟩
  · refine exec_done (t := collected (s.ebuf ++ [s.arg0]) (s.efill + 1) s) hm rfl hrow ((hbody hopen).trans ?_)
    rw [codeSample_eq s.arg0 hfill, if_neg hroom]
  · refine ⟨_, emitBits (codedBits (s.ebuf ++ [s.arg0]) s) s, chosen_select s.cfg _, emitBits_emitted _ hw, ?_⟩
    refine exec_done (t := blockCoded (s.ebuf ++ [s.arg0]) s) hm rfl hrow ((hbody hopen).trans ?_)
    rw [codeSample_eq s.arg0 hfill, if_pos hfull]
    exact codeEbuf_ok _ _ _ hc hw

/-! ### BA_TERMINATE -/

theorem padBits_congr {m n : Nat} (h : m % 8 = n % 8) : padBits m = padBits n := by
  unfold padBits
  rw [h]

/-- The pending run and the fill of the last byte, which end the code from a state (42_block_adaptive.md R295). -/
def closingBits (s : State) : List Bool :=
  boundaryRunCode s.cfg s.zrun ++ padBits (s.wbuf.length + (boundaryRunCode s.cfg s.zrun).length)

/-- `BaTerminate` after its partial block: the run, then the fill; a closed stream must have neither to take. -/
theorem baTerminate_ok (hopen : s.terminated = false) (hpart : codePartial s = .ok () u) (hw : u.wbuf.length < 8)
    (hc : u.closed = true → u.zrun = 0 ∧ u.wbuf = []) :
    baTerminate s = .ok () { emitBits (closingBits u) u with zrun := 0, terminated := true } := by
  have hros := flushRos_ok (fun h => (hc h).1) hw
  have hrun := emitBits_emitted (boundaryRunCode u.cfg u.zrun) hw
  obtain ⟨-, -, hcs, hcr, hclosed, hwbuf⟩ := emitBits_fields (boundaryRunCode u.cfg u.zrun) hw
  have hsink : (emitBits (boundaryRunCode u.cfg u.zrun) u).closed = true →
      (emitBits (boundaryRunCode u.cfg u.zrun) u).wbuf = [] := fun h => by
    obtain ⟨hzrun, hempty⟩ := hc (hclosed ▸ h)
    rw [hzrun]
    exact (congrArg State.wbuf (emitBits_nil hw)).trans hempty
  obtain ⟨t, hflush, ht, -⟩ := flush_ok (s := counters 0 u.cs u.cr (emitBits (boundaryRunCode u.cfg u.zrun) u)) hsink hwbuf
  have hpad : padBits (emitBits (boundaryRunCode u.cfg u.zrun) u).wbuf.length =
      padBits (u.wbuf.length + (boundaryRunCode u.cfg u.zrun).length) :=
    padBits_congr (by rw [emitted_wbuf_length hrun, Nat.mod_mod])
  have hend : t = counters 0 u.cs u.cr (emitBits (closingBits u) u) := by
    rw [emitted_eq ht hwbuf, emitBits_counters _ _ _ _ hwbuf, emitBits_append _ _ hw, closingBits, ← hpad]
    rfl
  obtain ⟨-, -, hcs, hcr, -, -⟩ := emitBits_fields (closingBits u) hw
  unfold baTerminate
  rw [requireOpen_bind_ok hopen, bind_ok hpart, bind_ok hros, bind_ok hflush, hend]
  simp only [counters, ← hcs, ← hcr]
  rfl

theorem codePartial_none (h : s.efill = 0) : codePartial s = .ok () s := by
  unfold codePartial
  rw [get_bind, if_neg (by omega)]
  rfl

/-- The partial block is completed with zeros and coded (42_block_adaptive.md R295). -/
theorem codePartial_ok (hfill : s.ebuf.length = s.efill) (h : 0 < s.efill) (hc : s.closed = false) (hw : s.wbuf.length < 8) :
    codePartial s = .ok () (blockCoded (s.ebuf ++ List.replicate (s.cfg.J - s.efill) 0) s) := by
  have hbuf : s.ebuf.take s.efill = s.ebuf := by rw [← hfill, List.take_length]
  unfold codePartial
  rw [get_bind, if_pos h, modify_bind, get_bind, hbuf]
  exact codeEbuf_ok _ (s.ebuf ++ List.replicate (s.cfg.J - s.efill) 0) s.efill hc hw

theorem emitBits_blockCoded (b : List Word) (bits : List Bool) (hw : s.wbuf.length < 8) :
    emitBits bits (blockCoded b s) =
      collected [] 0 (counters (codedRun b s) (segmentAfter s) (referenceAfter s) (emitBits (codedBits b s ++ bits) s)) := by
  have hcoded : (emitBits (codedBits b s) s).wbuf.length < 8 := emitted_partialByte (emitBits_emitted _ hw)
  rw [blockCoded, emitBits_collected, emitBits_counters _ _ _ _ hcoded, emitBits_append _ _ hw]
  exact hcoded

/-- The bits of a partial block and of the run it leaves pending. -/
def partialBits (b : List Word) (s : State) : List Bool := codedBits b s ++ boundaryRunCode s.cfg (codedRun b s)

/-- The fill completes the byte that the partial block and the run leave. -/
theorem codedBits_append_closingBits (b : List Word) (hw : s.wbuf.length < 8) :
    codedBits b s ++ closingBits (blockCoded b s) =
      partialBits b s ++ padBits (s.wbuf.length + (partialBits b s).length) := by
  rw [closingBits, blockCoded_cfg b hw, blockCoded_wbuf, emitted_wbuf_length (emitBits_emitted _ hw), partialBits,
    List.append_assoc]
  refine congrArg _ (congrArg _ (padBits_congr ?_))
  rw [List.length_append, Nat.mod_add_mod, Nat.add_assoc]
  rfl

/-- Settles O41: `BaTerminate` after no partial block, or after one that is coded. -/
theorem baTerminateSendsWhatIsPending : Obligations.BaTerminateSendsWhatIsPending := by
  unfold Obligations.BaTerminateSendsWhatIsPending
  intro s hm hcoder hfill
  have hrow : coderOk .baTerminate s.cfg = true := coderOk_of_coder rfl hcoder
  refine ⟨fun hterm => exec_failed hm rfl hrow (requireOpen_bind_error hterm _), fun hopen hw hnone hsink => ?_,
    fun hopen hw hsome _ hc => ?_⟩
  · exact ⟨_, emitBits_emitted _ hw, exec_done hm rfl hrow (baTerminate_ok hopen (codePartial_none hnone) hw fun hclosed =>
      hsink.resolve_left (by simp [hclosed]))⟩
  · set b := s.ebuf ++ List.replicate (s.cfg.J - s.efill) 0
    have hrun := baTerminate_ok hopen (codePartial_ok hfill hsome hc hw) (blockCoded_partialByte b hw) fun hclosed =>
      absurd ((blockCoded_closed b hw).symm.trans hclosed) (by simp [hc])
    rw [emitBits_blockCoded _ _ hw, codedBits_append_closingBits _ hw] at hrun
    -- The state written to is kept opaque from here on: only `hend` says what it holds.
    have hend := emitBits_emitted (partialBits b s ++ padBits (s.wbuf.length + (partialBits b s).length)) hw
    generalize emitBits (partialBits b s ++ _) s = t at hend hrun
    exact ⟨_, t, chosen_select s.cfg (masked s.cfg b), hend, exec_done (i := .baTerminate) hm rfl hrow hrun⟩

end Sys2Proof.Machine
end

section
/-! ## The block-adaptive decoder: BA_DECODE_BLOCK and BA_DECODE_SAMPLE (O42, O43) -/
namespace Sys2Proof.Machine

variable {α β γ : Type} {c : Cfg} {s t u : State} {b : List Word} {e : Raise} {bits long : List Bool} {q : List Nat}
  {option : BlockOption}

/-! ### The id -/

/-- What `DecodeId` does after the first field (42_block_adaptive.md R296). -/
def afterId (c : Cfg) (i : Nat) : Op BlockOption :=
  if i = 0 then readBits 1 >>= fun b => pure (if b = 0 then .zeroBlock else .secondExt)
  else pure (if i = c.backupOption then .backup else .sampleSplit (i - 1))

/-- `DecodeId` under a configuration known beforehand. -/
def readId (c : Cfg) : Op BlockOption := readBits c.idBits >>= afterId c

theorem decodeId_eq (s : State) : decodeId s = readId s.cfg s := rfl

/-- The first field of an id (30_encoding.md R148). -/
def idField (c : Cfg) : BlockOption → Nat
  | .zeroBlock | .secondExt => 0
  | .sampleSplit k => k + 1
  | .backup => c.backupOption

/-- The bit that may follow it. -/
def idTail : BlockOption → List Bool
  | .zeroBlock => [false]
  | .secondExt => [true]
  | .sampleSplit _ | .backup => []

theorem idCode_eq (c : Cfg) : ∀ option, idCode c option = rawBits c.idBits (idField c option) ++ idTail option
  | .zeroBlock | .secondExt => by rw [idField, rawBits_zero]; rfl
  | .sampleSplit k => (List.append_nil _).symm
  | .backup => by rw [idField, backupOption_eq, rawBits_ones _ _ le_rfl, idTail, List.append_nil]; rfl

theorem backupOption_pos (c : Cfg) : 0 < c.backupOption :=
  Nat.sub_pos_of_lt (Nat.one_lt_two_pow (idBits_pos c).ne')

theorem idField_lt (hl : idLegal c option) : idField c option < 2 ^ c.idBits := by
  have hpos := Nat.two_pow_pos c.idBits
  have hmax := backupOption_eq c
  cases option with
  | zeroBlock => exact hpos
  | secondExt => exact hpos
  | sampleSplit k =>
    have hk : k + 1 < c.backupOption := hl
    change k + 1 < _
    omega
  | backup =>
    change c.backupOption < _
    omega

theorem reads_afterId (hl : idLegal c option) : Reads (idTail option) option (afterId c (idField c option)) := by
  cases option with
  | zeroBlock => exact reads_bind (m := []) (reads_readBits [false] rfl) (reads_pure _)
  | secondExt => exact reads_bind (m := []) (reads_readBits [true] rfl) (reads_pure _)
  | sampleSplit k =>
    have hk : k + 1 < c.backupOption := hl
    rw [afterId, idField, if_neg k.succ_ne_zero, if_neg hk.ne]
    exact reads_pure _
  | backup =>
    rw [afterId, idField, if_neg (backupOption_pos c).ne', if_pos rfl]
    exact reads_pure _

theorem runsOut_afterId (c : Cfg) : ∀ option, RunsOut (idTail option) (afterId c (idField c option))
  | .zeroBlock => (runsOut_readBits rfl).bind_reads (reads_readBits [false] rfl)
  | .secondExt => (runsOut_readBits rfl).bind_reads (reads_readBits [true] rfl)
  | .sampleSplit _ | .backup => runsOut_nil _

theorem reads_readId (hl : idLegal c option) : Reads (idCode c option) option (readId c) := by
  rw [idCode_eq]
  exact reads_bind (reads_rawBits eosBin (idField_lt hl)) (reads_afterId hl)

theorem runsOut_readId (hl : idLegal c option) : RunsOut (idCode c option) (readId c) := by
  rw [idCode_eq]
  exact runsOut_bind (runsOut_readBits (length_rawBits _ _)) (reads_rawBits eosBin (idField_lt hl)) (runsOut_afterId c option)

/-! ### The payload -/

theorem reads_unaryReadWord_map {n : Nat} (hn : n < 2 ^ 32) (f : Nat → β) :
    Reads (unaryCode n) (f n) (unaryReadWord >>= fun v => pure (f v)) := by
  simpa using reads_bind (f := fun v => pure (f v)) (reads_unaryReadWord hn) (reads_pure (f n))

theorem runsOut_unaryReadWord_map {n : Nat} (hn : n < 2 ^ 32) (f : Nat → β) :
    RunsOut (unaryCode n) (unaryReadWord >>= fun v => pure (f v)) :=
  (runsOut_unaryReadWord hn).bind_reads (reads_unaryReadWord hn)

/-- A payload on an input that ends inside it (42_block_adaptive.md R299). -/
theorem runsOut_decodePayload {plain : List Bool} (hq : q.length = unaryCount c option) (hlt : ∀ n ∈ q, n < 2 ^ 32)
    (hplain : plain.length = plainCount c option) :
    RunsOut (q.flatMap unaryCode ++ plain) (decodePayload c.J c.D option) := by
  cases option with
  | zeroBlock =>
    obtain ⟨n, rfl⟩ := List.length_eq_one_iff.mp hq
    obtain rfl := List.eq_nil_of_length_eq_zero hplain
    have hn := hlt n (List.mem_singleton_self n)
    rw [List.flatMap_singleton, List.append_nil]
    exact (runsOut_unaryReadWord hn).bind_reads (reads_unaryReadWord hn)
  | secondExt =>
    obtain rfl := List.eq_nil_of_length_eq_zero hplain
    have hout := runsOut_collect_of (g := fun _ => ()) (f := fun _ => unaryReadWord >>= fun g => pure (pairOfCode g)) q
      fun n hn => ⟨reads_unaryReadWord_map (hlt n hn) _, runsOut_unaryReadWord_map (hlt n hn) _⟩
    have hread := reads_collect_of (g := fun _ => ()) (f := fun _ => unaryReadWord >>= fun g => pure (pairOfCode g)) q
      fun n hn => reads_unaryReadWord_map (hlt n hn) _
    rw [List.map_const', hq] at hout hread
    rw [List.append_nil]
    exact hout.bind_reads hread
  | sampleSplit k =>
    have hJ : q.length = c.J := hq
    rw [decodePayload, ← hJ]
    exact runsOut_riceDecode hlt (hplain.trans (by rw [plainCount, hJ]))
  | backup =>
    obtain rfl := List.eq_nil_of_length_eq_zero hq
    obtain ⟨fields, hunits, rfl, hwidth⟩ := exists_fields (List.replicate c.J ()) plain
      (hplain.trans (by rw [plainCount, List.length_replicate]))
    rw [decodePayload, ← hunits]
    refine runsOut_collect_of (val := fun f => wordOfNat (bitsValue f.2)) fields fun f hf => ?_
    have hread := reads_readBits f.2 (hwidth f hf)
    refine ⟨?_, (runsOut_readBits (hwidth f hf)).bind_reads hread⟩
    simpa using reads_bind (f := fun v => pure (wordOfNat v)) hread (reads_pure _)

/-- Whole items, fewer than are read, then one that raises. -/
theorem raisesAfter_collect {x : Op β} {item : γ → List Bool} {val : γ → β} (hlong : RaisesAfter long e x) :
    ∀ {items : List γ} {j : Nat}, items.length < j → (∀ i ∈ items, Reads (item i) (val i) x) →
      RaisesAfter (items.flatMap item ++ long) e (collect (List.replicate j ()) fun _ => x)
  | _, 0, hj, _ => absurd hj (Nat.not_lt_zero _)
  | [], _ + 1, _, _ => hlong.bind _
  | i :: items, j + 1, hj, hread => by
    obtain ⟨hi, htail⟩ := List.forall_mem_cons.mp hread
    rw [List.flatMap_cons, List.append_assoc]
    exact raisesAfter_bind hi ((raisesAfter_collect hlong (Nat.lt_of_succ_lt_succ hj) htail).bind _)

/-- A payload with a unary codeword that is too long. -/
theorem raisesAfter_decodePayload (hq : q.length < unaryCount c option) (hlt : ∀ n ∈ q, n < 2 ^ 32) :
    RaisesAfter (q.flatMap unaryCode ++ zeroBits (2 ^ 32)) badUnary (decodePayload c.J c.D option) := by
  cases option with
  | zeroBlock =>
    obtain rfl := List.eq_nil_of_length_eq_zero (Nat.lt_one_iff.mp hq)
    exact raisesAfter_unaryReadWord.bind _
  | secondExt =>
    exact (raisesAfter_collect (raisesAfter_unaryReadWord.bind _) hq fun n hn =>
      reads_unaryReadWord_map (hlt n hn) pairOfCode).bind _
  | sampleSplit k => exact raisesAfter_riceDecode hq hlt
  | backup => exact absurd hq (Nat.not_lt_zero _)

/-! ### The block -/

theorem nextBlock_pending (h : 0 < s.runrem) :
    nextBlock s = .ok (zeroSamples s.cfg.J) { s with runrem := s.runrem - 1 } := by
  unfold nextBlock
  rw [get_bind, if_pos h]
  rfl

theorem nextBlock_read (h : s.runrem = 0) : nextBlock s = (readId s.cfg >>= decodePayload s.cfg.J s.cfg.D) s := by
  unfold nextBlock
  rw [get_bind, if_neg (by omega), bind_apply, bind_apply, decodeId_eq]

/-- The block that begins a run: its codeword sets the blocks still to come (42_block_adaptive.md R297, R299). -/
theorem nextBlock_zeroRun {n : Nat} {rest : List Bool} (h : s.runrem = 0) (hr : s.rbuf.length < 8) (hn : n < 2 ^ 32)
    (hin : s.inBits = idCode s.cfg .zeroBlock ++ unaryCode n ++ rest) :
    ∃ t, Taken (idCode s.cfg .zeroBlock ++ unaryCode n) s t ∧
      nextBlock s = .ok (zeroSamples s.cfg.J) { t with runrem := runOf s n - 1 } := by
  obtain ⟨t, hid, ht, hrest⟩ := reads_readId (option := .zeroBlock) trivial s _ hr (hin.trans (List.append_assoc ..))
  obtain ⟨u, hrun, hu, -⟩ := reads_unaryReadWord hn t rest (taken_partialByte ht) hrest
  have htaken := taken_trans ht hu
  have hzero : zeroRun u n = runOf s n := by
    obtain ⟨hframe, -⟩ := htaken
    rw [hframe]
    rfl
  refine ⟨u, htaken, ?_⟩
  rw [nextBlock_read h, bind_ok hid, decodePayload, bind_ok hrun, modify_bind, hzero]
  rfl

theorem reads_block (hl : idLegal c option) (hp : payloadLegal c b option) (hb : b.length = c.J) :
    Reads (idCode c option ++ payloadCode c b option) b (readId c >>= decodePayload c.J c.D) :=
  reads_bind (reads_readId hl) (hb ▸ reads_decodePayload c b option hp)

theorem decodeBlock_ok (h : nextBlock s = .ok b t) :
    decodeBlock s = .ok b { t with cs := segmentAfter t, cr := referenceAfter t } := by
  unfold decodeBlock
  rw [bind_ok h, bind_ok (advance_ok t)]
  rfl

/-- Reading moves no counter. -/
theorem taken_counters (h : Taken bits s t) : segmentAfter t = segmentAfter s ∧ referenceAfter t = referenceAfter s := by
  obtain ⟨hframe, -⟩ := h
  rw [hframe]
  exact ⟨rfl, rfl⟩

/-! ### BA_DECODE_BLOCK -/

theorem exec_baDecodeBlock_ok (hm : s.mode = .active) (hcoder : s.cfg.coder = 1) (h : decodeBlock s = .ok b t) :
    exec .baDecodeBlock s = .next { t with blk := (putBlock b t).blk, done := true } :=
  exec_putBlock hm rfl (coderOk_of_coder rfl hcoder) (bind_ok h)

theorem exec_baDecodeBlock_failed (hm : s.mode = .active) (hcoder : s.cfg.coder = 1) (h : decodeBlock s = .error e t) :
    exec .baDecodeBlock s = .next (failed e.kind e.info t) :=
  exec_failed hm rfl (coderOk_of_coder rfl hcoder) (bind_error h)

/-- Settles O42: a pending run gives a zero block; else the id and the payload are read, run out of input, or hold a codeword that
is too long. -/
theorem baDecodeBlockReadsTheBlock : Obligations.BaDecodeBlockReadsTheBlock := by
  unfold Obligations.BaDecodeBlockReadsTheBlock
  intro s hm hcoder hr
  refine ⟨fun hrun => ?_, fun n rest hrun hn hin => ?_, fun option b rest hrun hl hp hb hin => ?_,
    fun option q plain more hrun hl hq hlt hplain hmore hin => ?_, fun option q rest hrun hl hq hlt hin => ?_⟩
  · exact ⟨_, blkWith_putBlock _ rfl, exec_baDecodeBlock_ok hm hcoder (decodeBlock_ok (nextBlock_pending hrun))⟩
  · obtain ⟨t, ht, hnext⟩ := nextBlock_zeroRun hrun hr hn hin
    obtain ⟨hcs, hcr⟩ := taken_counters ht
    refine ⟨t, _, ht, blkWith_putBlock _ (taken_blk ht), ?_⟩
    rw [exec_baDecodeBlock_ok hm hcoder (decodeBlock_ok hnext), ← hcs, ← hcr]
    rfl
  · obtain ⟨t, hread, ht, -⟩ := reads_block hl hp hb s rest hr hin
    obtain ⟨hcs, hcr⟩ := taken_counters ht
    refine ⟨t, _, ht, blkWith_putBlock b (taken_blk ht), ?_⟩
    rw [exec_baDecodeBlock_ok hm hcoder (decodeBlock_ok ((nextBlock_read hrun).trans hread)), ← hcs, ← hcr]
    rfl
  · have hout := runsOut_bind (runsOut_readId hl) (reads_readId hl) (runsOut_decodePayload hq hlt hplain)
    rw [List.append_assoc] at hin
    obtain ⟨t, hread, ht⟩ := hout s more hr hmore hin
    exact ⟨t, ht, exec_baDecodeBlock_failed hm hcoder (bind_error ((nextBlock_read hrun).trans hread))⟩
  · have hlong := raisesAfter_bind (reads_readId hl) (raisesAfter_decodePayload hq hlt)
    rw [← List.append_assoc] at hlong
    obtain ⟨t, hread, ht⟩ := hlong s rest hr hin
    exact ⟨t, ht, exec_baDecodeBlock_failed hm hcoder (bind_error ((nextBlock_read hrun).trans hread))⟩

/-! ### BA_DECODE_SAMPLE -/

theorem refillDbuf_left (hbuf : s.dbuf ≠ []) (hpos : s.dpos ≠ s.cfg.J) : refillDbuf s = .ok () s := by
  unfold refillDbuf
  rw [get_bind, if_neg (not_or.mpr ⟨hbuf, hpos⟩)]
  rfl

theorem refillDbuf_block (h : s.dbuf = [] ∨ s.dpos = s.cfg.J) (hb : decodeBlock s = .ok b t) :
    refillDbuf s = .ok () { t with dbuf := b, dpos := 0 } := by
  unfold refillDbuf
  rw [get_bind, if_pos h, bind_ok hb]
  rfl

/-- BA_DECODE_SAMPLE answers the sample at DPOS of what the refill leaves (42_block_adaptive.md R300). -/
theorem exec_baDecodeSample_ok (hm : s.mode = .active) (hcoder : s.cfg.coder = 1) (h : refillDbuf s = .ok () t) :
    exec .baDecodeSample s = .next { t with result := t.dbuf.getD t.dpos 0, dpos := t.dpos + 1, done := true } := by
  have hsample : decodeSample s = .ok (t.dbuf.getD t.dpos 0) { t with dpos := t.dpos + 1 } := by
    unfold decodeSample
    rw [bind_ok h, get_bind, modify_bind]
    rfl
  exact exec_done (i := .baDecodeSample) hm rfl (coderOk_of_coder rfl hcoder) (bind_ok hsample)

/-- BLK begins with the block that was put there. -/
theorem take_putBlock (hb : b.length ≤ 64) : (putBlock b s).blk.toList.take b.length = b := by
  refine List.ext_getElem (by simpa using hb) fun j hj hjb => ?_
  have hget := putBlock_getElem b s ⟨j, hjb.trans_le hb⟩
  rw [Fin.getElem_fin, List.getD_eq_getElem _ _ hjb] at hget
  rw [List.getElem_take, Vector.getElem_toList]
  exact hget

/-- What a completed BA_DECODE_BLOCK is known to have decoded. -/
theorem decodeBlock_of_exec (hm : s.mode = .active) (hcoder : s.cfg.coder = 1) (h : exec .baDecodeBlock s = .next t)
    (ht : t.mode = .active) : ∃ b u, decodeBlock s = .ok b u ∧ t = { u with blk := (putBlock b u).blk, done := true } := by
  cases hblock : decodeBlock s with
  | ok b u =>
    rw [exec_baDecodeBlock_ok hm hcoder hblock] at h
    cases h
    exact ⟨b, u, rfl, rfl⟩
  | error e u =>
    rw [exec_baDecodeBlock_failed hm hcoder hblock] at h
    cases h
    cases ht

/-- Settles O43: the refill has nothing to do, takes a block of a pending run, or decodes the block BA_DECODE_BLOCK puts in
BLK. -/
theorem baDecodeSampleTakesTheNext : Obligations.BaDecodeSampleTakesTheNext := by
  unfold Obligations.BaDecodeSampleTakesTheNext
  intro s hm hcoder
  refine ⟨fun hbuf hpos => ?_, fun hempty hrun => ?_, fun t hempty hJ hJ64 heven hexec ht => ?_⟩
  · exact exec_baDecodeSample_ok hm hcoder (refillDbuf_left hbuf hpos)
  · have hzero : (zeroSamples s.cfg.J).getD 0 0 = 0 := by cases s.cfg.J <;> rfl
    rw [exec_baDecodeSample_ok hm hcoder (refillDbuf_block hempty (decodeBlock_ok (nextBlock_pending hrun))), hzero]
    rfl
  · obtain ⟨b, u, hblock, rfl⟩ := decodeBlock_of_exec hm hcoder hexec ht
    have hlen : b.length = s.cfg.J := length_decodeBlock heven hblock
    have hblk : u.blk = s.blk := (acts_decodeBlock.ok hblock).frame.field .blk State.blk (by simp) fun _ => rfl
    have hbuf : (putBlock b u).blk.toList.take s.cfg.J = b := hlen ▸ take_putBlock (by omega)
    have hfirst : (putBlock b u).blk[0] = b.getD 0 0 := by
      rw [List.getD_eq_getElem _ _ (by omega), ← List.getD_eq_getElem b u.blk[0] (by omega)]
      exact putBlock_getElem b u 0
    rw [exec_baDecodeSample_ok hm hcoder (refillDbuf_block hempty hblock), ← hblk]
    change _ = Host.Outcome.next { u with
      dbuf := (putBlock b u).blk.toList.take s.cfg.J, dpos := 1, result := (putBlock b u).blk[0], done := true }
    rw [hbuf, hfirst]

end Sys2Proof.Machine
end

section
/-! ## The sample-adaptive coder's statistics and decoder: SA_INIT_BAND, SA_UPDATE, SA_DECODE and the code parameter
(O44, O45, O47, O48) -/
namespace Sys2Proof.Machine

variable {β : Type} {c : Cfg} {s : State} {b new : BandStats} {m : Memory BandStats} {e : Raise} {t u z : Nat}

/-! ### The code parameter -/

/-- The mean the statistics give, whose logarithm is the code parameter (43_sample_adaptive.md R341). -/
def meanResidual (b : BandStats) : Nat := (b.acc + 49 * b.cnt / 128) / b.cnt

/-- The logarithm of 0 is 0 in Lean, so the case of R341 for a mean of 0 needs no words of its own. -/
theorem saK_eq (c : Cfg) (b : BandStats) : saK c b = min (Nat.log2 (meanResidual b)) (c.D - 2) := by
  change (if meanResidual b = 0 then 0 else _) = _
  split
  next hzero => rw [hzero, Nat.log2_zero, Nat.zero_min]
  next => rfl

theorem saK_le (c : Cfg) (b : BandStats) : saK c b ≤ c.D - 2 := by
  rw [saK_eq]
  exact Nat.min_le_right _ _

/-- Below its upper bound the code parameter is the whole logarithm. -/
theorem meanResidual_lt_of_saK_lt (h : saK c b < c.D - 2) : meanResidual b < 2 ^ (saK c b + 1) := by
  have hlog : saK c b = Nat.log2 (meanResidual b) := by
    rw [saK_eq] at h ⊢
    omega
  rw [hlog]
  exact Nat.lt_log2_self

theorem two_pow_saK_le (h : 0 < saK c b) : 2 ^ saK c b ≤ meanResidual b := by
  rw [saK_eq] at h ⊢
  have hmean : meanResidual b ≠ 0 := by
    intro hzero
    simp [hzero] at h
  calc 2 ^ min (Nat.log2 (meanResidual b)) (c.D - 2)
      ≤ 2 ^ Nat.log2 (meanResidual b) := Nat.pow_le_pow_right (by norm_num) (Nat.min_le_left _ _)
    _ ≤ meanResidual b := Nat.log2_self_le hmean

/-- With γ₀ = 1 the first mean of a band lies in [2^κ, 2^(κ+1)) (43_sample_adaptive.md R347). -/
theorem log2_meanResidual_initialStats (hg : s.cfg.G0 = 1) : Nat.log2 (meanResidual (initialStats s z)) = kappa s z := by
  have hone : 0 < 2 ^ kappa s z := Nat.two_pow_pos _
  have hmean : meanResidual (initialStats s z) = ((3 * (2 ^ kappa s z * 64) - 49) * 2 / 128 + 49 * 2 / 128) / 2 := by
    simp only [meanResidual, initialStats, hg, pow_add]
    norm_num
  have hlow : 2 ^ kappa s z ≤ meanResidual (initialStats s z) := by omega
  have hhigh : meanResidual (initialStats s z) < 2 ^ (kappa s z + 1) := by
    rw [pow_succ]
    omega
  exact (Nat.log2_eq_iff (by omega)).mpr ⟨hlow, hhigh⟩

/-- Settles O48: the bounds of the bounded logarithm, and the logarithm of the first mean. -/
theorem codeParameterFollowsStatistics : Obligations.CodeParameterFollowsStatistics := by
  unfold Obligations.CodeParameterFollowsStatistics
  refine ⟨fun c b _ => ⟨saK_le c b, meanResidual_lt_of_saK_lt, two_pow_saK_le⟩, fun s z hg _ => ?_⟩
  rw [saK_eq, log2_meanResidual_initialStats hg]

/-! ### SA_INIT_BAND -/

/-- Settles O44: one cell of the statistics is written, after the check of the band. -/
theorem saInitBandSetsStatistics : Obligations.SaInitBandSetsStatistics := by
  unfold Obligations.SaInitBandSetsStatistics
  intro s hm hcoder
  have hrow : coderOk .saInitBand s.cfg = true := coderOk_of_coder rfl hcoder
  refine ⟨fun hz => ?_, fun hz => exec_failed hm rfl hrow (bandOperand_bind_error hz _)⟩
  refine ⟨s.stats.putCell s.arg0.toNat (initialStats s s.arg0.toNat), Memory.cellAt_putCell_same .., fun z hne =>
    Memory.cellAt_putCell_other _ hne _, ?_⟩
  have hinit : saInitBand s.arg0.toNat s =
      .ok () { s with stats := s.stats.putCell s.arg0.toNat (initialStats s s.arg0.toNat) } := rfl
  exact exec_done hm rfl hrow ((bandOperand_bind_ok hz _).trans hinit)

/-! ### The operands of SA_UPDATE and SA_DECODE -/

/-- Both commands begin with a band and an index (43_sample_adaptive.md R352, R353). -/
theorem bandIndex_bind_ok (hz : s.arg0.toNat < s.cfg.Z) (ht : s.arg1.toNat < s.cfg.X * s.cfg.Y) (f : Nat → Nat → Op β) :
    (bandOperand >>= fun z => indexOperand >>= f z) s = f s.arg0.toNat s.arg1.toNat s :=
  (bandOperand_bind_ok hz _).trans (indexOperand_bind_ok ht _)

theorem bandIndex_bind_error (hz : s.arg0.toNat < s.cfg.Z) (ht : s.cfg.X * s.cfg.Y ≤ s.arg1.toNat) (f : Nat → Nat → Op β) :
    (bandOperand >>= fun z => indexOperand >>= f z) s = .error ⟨.operand, 1⟩ s :=
  (bandOperand_bind_ok hz _).trans (indexOperand_bind_error ht _)

/-- A band without statistics raises its operand. -/
theorem requireStats_arg0_bind_error (h : s.stats.cellAt s.arg0.toNat = none) (f : Unit → Op β) :
    (requireStats s.arg0.toNat >>= f) s = .error ⟨.uninit, s.arg0⟩ s := by
  rw [requireStats_bind_error h, wordOfNat_toNat]

/-! ### SA_UPDATE -/

theorem body_saUpdate_residual (hz : s.arg0.toNat < s.cfg.Z) (ht : s.arg1.toNat < s.cfg.X * s.cfg.Y)
    (hv : 2 ^ s.cfg.D ≤ s.arg2.toNat) : body .saUpdate s = .error ⟨.operand, 2⟩ s :=
  (bandIndex_bind_ok hz ht _).trans (residualOperand_bind_error hv _ _)

/-- What SA_UPDATE does after its operands, all legal. -/
theorem body_saUpdate (hz : s.arg0.toNat < s.cfg.Z) (ht : s.arg1.toNat < s.cfg.X * s.cfg.Y) (hv : s.arg2.toNat < 2 ^ s.cfg.D) :
    body .saUpdate s = (requireStats s.arg0.toNat >>= fun _ => saUpdate s.arg0.toNat s.arg1.toNat s.arg2.toNat) s :=
  (bandIndex_bind_ok hz ht _).trans (residualOperand_bind_ok hv _ _)

/-- The statistics `SaUpdate` leaves of all bands, `new` being what the residual makes of those of band `z`: as they were at
t = 0 (43_sample_adaptive.md R344). -/
def statsAfter (m : Memory BandStats) (t z : Nat) (new : BandStats) : Memory BandStats :=
  if t = 0 then m else m.putCell z new

theorem cellAt_statsAfter_same (h : m.cellAt z = some b) : (statsAfter m t z new).cellAt z = some (if t = 0 then b else new) := by
  unfold statsAfter
  split
  · exact h
  · exact Memory.cellAt_putCell_same ..

theorem cellAt_statsAfter_other (h : u ≠ z) : (statsAfter m t z new).cellAt u = m.cellAt u := by
  unfold statsAfter
  split
  · rfl
  · exact Memory.cellAt_putCell_other _ h _

theorem saUpdate_ok (hb : s.stats.cellAt z = some b) (t v : Nat) :
    saUpdate z t v s = .ok () { s with stats := statsAfter s.stats t z (nextStats s.cfg b v) } :=
  saUpdate_eq t v hb

/-- Settles O45: `saUpdate_ok` after the operands, which stop the command in their order. -/
theorem saUpdateMovesStatistics : Obligations.SaUpdateMovesStatistics := by
  unfold Obligations.SaUpdateMovesStatistics
  intro s hm hcoder
  have hrow : coderOk .saUpdate s.cfg = true := coderOk_of_coder rfl hcoder
  refine ⟨fun b hz ht hv hb => ?_, fun hz => ?_, fun hz ht => ?_, fun hz ht hv => ?_, fun hz ht hv hb => ?_⟩
  · refine ⟨statsAfter s.stats s.arg1.toNat s.arg0.toNat (nextStats s.cfg b s.arg2.toNat), ?_,
      fun z hne => cellAt_statsAfter_other hne, ?_⟩
    · have hfirst : s.arg1 = 0 ↔ s.arg1.toNat = 0 := BitVec.toNat_inj.symm
      simp only [hfirst]
      exact cellAt_statsAfter_same hb
    · exact exec_done hm rfl hrow
        ((body_saUpdate hz ht hv).trans ((requireStats_bind_ok hb _).trans (saUpdate_ok hb _ _)))
  · exact exec_failed hm rfl hrow (bandOperand_bind_error hz _)
  · exact exec_failed hm rfl hrow (bandIndex_bind_error hz ht _)
  · exact exec_failed hm rfl hrow (body_saUpdate_residual hz ht hv)
  · exact exec_failed hm rfl hrow ((body_saUpdate hz ht hv).trans (requireStats_arg0_bind_error hb _))

/-! ### `SaDecode` on an input that is no whole codeword -/

/-- `SaDecode` under a configuration and a code parameter known beforehand. -/
def readResidual (c : Cfg) (k t : Nat) : Op Nat :=
  if t = 0 then readBits c.D
  else unaryRead c.UMAX badUnary >>= fun n =>
    if n < c.UMAX then readBits k >>= fun low => pure (n * 2 ^ k + low) else readBits c.D

theorem saDecode_eq (hb : s.stats.cellAt z = some b) (t : Nat) :
    saDecode z t s = readResidual s.cfg (saK s.cfg b) t s := by
  unfold saDecode readResidual
  rw [get_bind]
  split
  · rfl
  · exact bind_ok (by rw [readStats_eq, hb])

/-- `UnaryRead` on an input that ends inside a codeword the cap allows. -/
theorem runsOut_unaryRead (e : Raise) {cap : Nat} (h : u ≤ cap) : RunsOut (unaryCode u) (unaryRead cap e) := by
  intro s more hr hmore hcode
  obtain ⟨n, hn, hin⟩ := eq_zeroBits_of_unaryCode_append hmore hcode
  rw [hin]
  exact unaryReadFrom_eos e n cap 0 s (hn.trans h) hr hin

/-- The input may end inside any of the three codewords of 30_encoding.md R154, in the unary part or in the field after it. -/
theorem runsOut_readResidual (c : Cfg) (k t v : Nat) : RunsOut (adaptiveCode c k t v) (readResidual c k t) := by
  unfold adaptiveCode readResidual
  by_cases ht : t = 0
  · rw [if_pos ht, if_pos ht]
    exact runsOut_readBits (length_rawBits _ _)
  · rw [if_neg ht, if_neg ht]
    by_cases hu : v >>> k < c.UMAX
    · rw [if_pos hu]
      refine runsOut_bind (runsOut_unaryRead badUnary hu.le) (reads_unaryRead badUnary hu.le) ?_
      rw [if_pos hu]
      exact (runsOut_readBits (length_rawBits _ _)).bind_reads (reads_readBits _ (length_rawBits _ _))
    · rw [if_neg hu]
      refine runsOut_bind (runsOut_unaryRead badUnary le_rfl) (reads_unaryRead badUnary le_rfl) ?_
      rw [if_neg (lt_irrefl _)]
      exact runsOut_readBits (length_rawBits _ _)

/-- One zero more than an escape has (43_sample_adaptive.md R343). -/
theorem raisesAfter_readResidual (c : Cfg) (k : Nat) (ht : 0 < t) :
    RaisesAfter (zeroBits (c.UMAX + 1)) badUnary (readResidual c k t) := by
  have hunary : RaisesAfter (zeroBits (c.UMAX + 1)) badUnary (unaryRead c.UMAX badUnary) :=
    fun s rest hr hin => unaryReadFrom_overlong badUnary c.UMAX 0 s rest hr hin
  unfold readResidual
  rw [if_neg ht.ne']
  exact hunary.bind _

/-! ### SA_DECODE -/

/-- What SA_DECODE does once its operands and its band are checked. -/
theorem body_saDecode (hz : s.arg0.toNat < s.cfg.Z) (ht : s.arg1.toNat < s.cfg.X * s.cfg.Y)
    (hb : s.stats.cellAt s.arg0.toNat = some b) : body .saDecode s =
      (saDecode s.arg0.toNat s.arg1.toNat >>= fun v => Op.modify fun s => { s with result := wordOfNat v }) s :=
  (bandIndex_bind_ok hz ht _).trans (requireStats_bind_ok hb _)

theorem body_saDecode_uninit (hz : s.arg0.toNat < s.cfg.Z) (ht : s.arg1.toNat < s.cfg.X * s.cfg.Y)
    (hb : s.stats.cellAt s.arg0.toNat = none) : body .saDecode s = .error ⟨.uninit, s.arg0⟩ s :=
  (bandIndex_bind_ok hz ht _).trans (requireStats_arg0_bind_error hb _)

/-- An error of the reading is the command's. -/
theorem body_saDecode_error {w : State} (hz : s.arg0.toNat < s.cfg.Z) (ht : s.arg1.toNat < s.cfg.X * s.cfg.Y)
    (hb : s.stats.cellAt s.arg0.toNat = some b)
    (h : readResidual s.cfg (saK s.cfg b) s.arg1.toNat s = .error e w) : body .saDecode s = .error e w :=
  (body_saDecode hz ht hb).trans (bind_error ((saDecode_eq hb _).trans h))

/-- Settles O47: `saDecode_ok` on a whole codeword, `runsOut_readResidual` inside one, `raisesAfter_readResidual` on too many
zeros; before them the operands and the band. -/
theorem saDecodeInvertsTheCodeword : Obligations.SaDecodeInvertsTheCodeword := by
  unfold Obligations.SaDecodeInvertsTheCodeword
  intro s hm hcoder
  have hrow : coderOk .saDecode s.cfg = true := coderOk_of_coder rfl hcoder
  refine ⟨fun b v rest hr hz ht hb hv hin => ?_, fun hz => ?_, fun hz ht => ?_, fun hz ht hb => ?_,
    fun b v more hr hz ht hb hmore hin => ?_, fun b rest hr hz hpos ht hb hin => ?_⟩
  · obtain ⟨w, hread, hw, -⟩ := saDecode_ok _ v rest hr hb hv hin
    exact ⟨w, hw, exec_done hm rfl hrow ((body_saDecode hz ht hb).trans (bind_ok hread))⟩
  · exact exec_failed hm rfl hrow (bandOperand_bind_error hz _)
  · exact exec_failed hm rfl hrow (bandIndex_bind_error hz ht _)
  · exact exec_failed hm rfl hrow (body_saDecode_uninit hz ht hb)
  · obtain ⟨w, hread, hw⟩ := runsOut_readResidual s.cfg _ _ v s more hr hmore hin
    exact ⟨w, hw, exec_failed hm rfl hrow (body_saDecode_error hz ht hb hread)⟩
  · obtain ⟨w, hread, hw⟩ := raisesAfter_readResidual s.cfg (saK s.cfg b) hpos s rest hr hin
    exact ⟨w, hw, exec_failed hm rfl hrow (body_saDecode_error hz ht hb hread)⟩

end Sys2Proof.Machine
end

section
/-! ## The initial weights and the two predictions: PRED_INIT_BAND, PRED_COMPRESS and PRED_DECOMPRESS (O49 to O51) -/
namespace Sys2Proof.Machine

variable {c : Cfg} {tw : Memory Word} {i : Instr} {s t : State} {w : List Int} {a v : Int} {j z : Nat}

/-! ### The default weights -/

/-- Shifts by 3 add up to a division by a power of 8 (44_predictor.md R387). -/
theorem getD_fadingWeights : ∀ (n : Nat) (first : Int) (j : Nat), j < n → (fadingWeights n first).getD j 0 = first / 8 ^ j
  | n + 1, first, 0, _ => by simp [fadingWeights]
  | n + 1, first, j + 1, hj => by
    calc (fadingWeights (n + 1) first).getD (j + 1) 0
        = (fadingWeights n (asr first 3)).getD j 0 := by rw [fadingWeights, List.getD_cons_succ]
      _ = first / 2 ^ 3 / 8 ^ j := getD_fadingWeights n _ j (Nat.lt_of_succ_lt_succ hj)
      _ = first / 8 ^ (j + 1) := by
        rw [show (2 : Int) ^ 3 = 8 from rfl, Int.ediv_ediv_of_nonneg (by norm_num), pow_succ']

theorem length_defaultWeights (c : Cfg) (z : Nat) : (defaultWeights c z).length = c.bandLength z := by
  unfold defaultWeights Cfg.bandLength
  rw [List.length_append, length_fadingWeights]
  split <;> rfl

theorem take_defaultWeights (hfull : c.pmode = 0) (z : Nat) : (defaultWeights c z).take 3 = [0, 0, 0] := by
  unfold defaultWeights
  rw [if_pos hfull]
  rfl

/-- The inter-band weights stand behind the directional ones. -/
theorem getD_defaultWeights (hj : j < min c.P z) :
    (defaultWeights c z).getD ((if c.pmode = 0 then 3 else 0) + j) 0 = 7 * 2 ^ (c.OMEGA - 3) / 8 ^ j := by
  have hdirectional : (if c.pmode = 0 then [0, 0, 0] else [] : List Int).length = if c.pmode = 0 then 3 else 0 := by
    split <;> rfl
  unfold defaultWeights
  rw [← hdirectional, List.getD_append_right _ _ _ _ (Nat.le_add_right _ _), Nat.add_sub_cancel_left]
  exact getD_fadingWeights _ _ j hj

/-! ### The custom weights -/

theorem length_customWeights (c : Cfg) (tw : Memory Word) (z : Nat) : (customWeights c tw z).length = c.bandLength z := by
  rw [customWeights, List.length_map, List.length_range]

/-- The two exponents of R388 are Ω + 3 − Q and one less; at Q = Ω + 3 there is no rounding term. -/
theorem customWeight_eq (hq : c.Q ≤ c.OMEGA + 3) (entry : Int) : customWeight c entry =
    2 ^ (c.OMEGA + 3 - c.Q) * entry + if c.Q ≤ c.OMEGA + 2 then 2 ^ (c.OMEGA + 2 - c.Q) - 1 else 0 := by
  change 2 ^ (c.OMEGA + 3 - c.Q) * entry + (if c.OMEGA + 3 - c.Q = 0 then 0 else 2 ^ (c.OMEGA + 3 - c.Q - 1) - 1) = _
  by_cases hround : c.Q ≤ c.OMEGA + 2
  · have hexp : c.OMEGA + 3 - c.Q - 1 = c.OMEGA + 2 - c.Q := by omega
    rw [if_pos hround, if_neg (by omega), hexp]
  · rw [if_neg hround, if_pos (by omega)]

theorem getD_customWeights (hj : j < c.bandLength z) :
    (customWeights c tw z).getD j 0 = customWeight c (tw.wordAt (18 * z + j)).toInt := by
  rw [List.getD_eq_getElem _ _ (by rwa [length_customWeights])]
  simp [customWeights, twKey]

/-! ### PRED_INIT_BAND -/

/-- The weights `PredInitBand` gives a band (44_predictor.md R389). -/
def initialWeights (c : Cfg) (tw : Memory Word) (z : Nat) : List Int :=
  if c.winit = 0 then defaultWeights c z else customWeights c tw z

theorem predInitBand_apply (s : State) (z : Nat) :
    predInitBand z s = .ok () { s with weights := s.weights.putCell z (initialWeights s.cfg s.tw z) } := rfl

theorem length_initialWeights (c : Cfg) (tw : Memory Word) (z : Nat) : (initialWeights c tw z).length = c.bandLength z := by
  unfold initialWeights
  split
  · exact length_defaultWeights c z
  · exact length_customWeights c tw z

/-- Settles O49: one cell of the weights is written, after the check of the band; its entries are those of the default or of the
custom list. -/
theorem predInitBandSetsWeights : Obligations.PredInitBandSetsWeights := by
  unfold Obligations.PredInitBandSetsWeights
  intro s hm
  refine ⟨fun hz => ?_, fun hz => exec_failed hm rfl rfl (bandOperand_bind_error hz _)⟩
  refine ⟨s.weights.putCell s.arg0.toNat (initialWeights s.cfg s.tw s.arg0.toNat), initialWeights s.cfg s.tw s.arg0.toNat,
    Memory.cellAt_putCell_same .., length_initialWeights .., fun hdefault => ?_, fun hcustom hq j hj => ?_,
    fun z hne => Memory.cellAt_putCell_other _ hne _,
    exec_done (i := .predInitBand) hm rfl rfl ((bandOperand_bind_ok hz _).trans (predInitBand_apply s _))⟩
  · rw [initialWeights, if_pos hdefault]
    exact ⟨fun hfull => take_defaultWeights hfull _, fun j hj => getD_defaultWeights hj⟩
  · rw [length_initialWeights] at hj
    rw [initialWeights, if_neg hcustom, getD_customWeights hj, customWeight_eq hq]

/-! ### PRED_COMPRESS and PRED_DECOMPRESS -/

/-- From `s` to `t` a sample `v` was published at `p` and the weights `w` of its band were moved; nothing else changed. This is
what `predCompress_ok` and `predDecompress_ok` say of their ends. -/
def Published (p : Cursor) (w : List Int) (v : Int) (s t : State) : Prop :=
  t = { s with hist := t.hist, weights := t.weights } ∧ t.sampleAt p = some v ∧
  (∀ q : Cursor, histKey q.z q.y q.x ≠ histKey p.z p.y p.x → t.sampleAt q = s.sampleAt q) ∧
  t.weights.cellAt p.z = some (weightsOf s.cfg w s.samples p v) ∧ ∀ z, z ≠ p.z → t.weights.cellAt z = s.weights.cellAt z

/-- The state a predictor command leaves, from the state `t` its prediction left and the two results. -/
def withResults (a ss : Int) (t : State) : State :=
  { t with result := wordOfInt a, result1 := wordOfInt ss, done := true }

/-- The cursor set before the prediction, and the results and DONE set after it, complete its effect. -/
theorem Published.predicted (h : Published (operandCursor s) w v (atOperands s) t) (a : Int) :
    Predicted (operandCursor s) w v s (withResults a (scaledOf s.cfg w s.samples (operandCursor s)) t) := by
  obtain ⟨ht, hsample, hsamples, hweights, hother⟩ := h
  refine ⟨?_, hsample, hsamples, hweights, hother, rfl⟩
  rw [ht]
  rfl

/-- A command that predicts at its operands' position and answers `a` and s_scaled. -/
theorem exec_predicted {x : Op (Int × Int)} (hm : s.mode = .active) (hr : runsIn i .active = true) (hc : coderOk i s.cfg = true)
    (hbody : body i s = (x >>= setResults) (atOperands s))
    (hx : x (atOperands s) = .ok (a, scaledOf s.cfg w s.samples (operandCursor s)) t)
    (h : Published (operandCursor s) w v (atOperands s) t) :
    ∃ u, Predicted (operandCursor s) w v s u ∧ u.result = BitVec.ofInt 32 a ∧ exec i s = .next u :=
  ⟨_, h.predicted a, rfl, exec_done hm hr hc (hbody.trans (bind_ok hx))⟩

/-- Settles O50: `predCompress_ok` once the cursor is set, and the results after it. -/
theorem predCompressPredictsAndPublishes : Obligations.PredCompressPredictsAndPublishes := by
  unfold Obligations.PredCompressPredictsAndPublishes
  intro s w hm p hz hy hx hlo hhi hw hn
  obtain ⟨t, hrun, hpublished⟩ := predCompress_ok (s := atOperands s) (p := operandCursor s) ⟨hlo, hhi⟩ hw hn
  exact exec_predicted hm rfl rfl (bodyPredCompress_at ⟨hz, hy, hx⟩) hrun hpublished

/-- Settles O51: `predDecompress_ok` once the cursor is set, and the results after it. -/
theorem predDecompressReconstructsAndPublishes : Obligations.PredDecompressReconstructsAndPublishes := by
  unfold Obligations.PredDecompressReconstructsAndPublishes
  intro s w hm p hz hy hx hd hw hn v
  obtain ⟨t, hrun, hpublished⟩ := predDecompress_ok (s := atOperands s) (p := operandCursor s) hd hw hn
  exact exec_predicted hm rfl rfl (bodyPredDecompress_at ⟨hz, hy, hx⟩) hrun hpublished

end Sys2Proof.Machine
end

section
/-! ## The traversals (O58) -/
namespace Sys2Proof.Machine

/-! ### The order, written out -/

theorem before_of_bsq {c : Cfg} (h : c.order = 1) {p q : Cursor} (hpq : Before c p q) :
    p.z < q.z ∨ (p.z = q.z ∧ (p.y < q.y ∨ (p.y = q.y ∧ p.x < q.x))) := by
  rwa [Before, if_pos (bsq_iff.mpr h)] at hpq

theorem before_of_bi {c : Cfg} (h : c.order = 0) {p q : Cursor} (hpq : Before c p q) :
    p.y < q.y ∨ (p.y = q.y ∧ (p.z / c.M < q.z / c.M ∨ (p.z / c.M = q.z / c.M ∧ (p.x < q.x ∨ (p.x = q.x ∧ p.z < q.z))))) := by
  have hbi : ¬ c.bsq = true := by simp [bsq_iff, h]
  rwa [Before, if_neg hbi] at hpq

/-- Settles O58: a legal configuration has a legal cube, whose positions come in the order `Before`, each once. -/
theorem traversalVisitsEachPositionOnce : Obligations.TraversalVisitsEachPositionOnce := by
  unfold Obligations.TraversalVisitsEachPositionOnce
  intro s hl
  have hc := configLegal_cubeLegal hl
  exact ⟨positions_nodup hc, mem_positions hc, fun h => (positions_pairwise hc).imp (before_of_bsq h),
    fun h => (positions_pairwise hc).imp (before_of_bi h), fun l p r hsplit q => neededCells_visited hc hsplit⟩

end Sys2Proof.Machine
end

section
/-! ## The mapper: the map and its inverse, RES_MAP and RES_UNMAP (O53, O54) -/
namespace Sys2Proof.Machine

variable {c : Cfg} {s : State} {β : Type} {d k r ss : Int}

/-! ### The map around the predicted sample -/

/-- A predicted sample is a sample (44_predictor.md R402), so it has a distance to the nearer end. -/
theorem mapMargin_nonneg (hs : 2 * c.SMIN ≤ ss ∧ ss ≤ 2 * c.SMAX + 1) : 0 ≤ mapMargin c (predicted ss) := by
  obtain ⟨hlo, hhi⟩ := hs
  unfold mapMargin predicted asr
  exact le_min (by omega) (by omega)

/-- A residual beyond the margin can have one sign only. -/
theorem mapResidual_far (h : mapMargin c (predicted ss) < |r|) :
    mapResidual c (predicted ss + r) ss = |r| + mapMargin c (predicted ss) := by
  unfold mapResidual
  simp only [add_sub_cancel_left, if_pos h]

/-- The residuals of the side that s_scaled's parity favours take the even values. -/
theorem mapResidual_favoured (h : |r| ≤ mapMargin c (predicted ss)) (hside : (ss % 2 = 0 ∧ 0 ≤ r) ∨ (ss % 2 = 1 ∧ r ≤ 0)) :
    mapResidual c (predicted ss + r) ss = 2 * |r| := by
  unfold mapResidual
  simp only [add_sub_cancel_left, if_neg h.not_gt, if_pos hside]

/-- Those of the other side take the odd values. -/
theorem mapResidual_unfavoured (h : |r| ≤ mapMargin c (predicted ss))
    (hside : ¬ ((ss % 2 = 0 ∧ 0 ≤ r) ∨ (ss % 2 = 1 ∧ r ≤ 0))) : mapResidual c (predicted ss + r) ss = 2 * |r| - 1 := by
  unfold mapResidual
  simp only [add_sub_cancel_left, if_neg h.not_gt, if_neg hside]

/-! ### The inverse map, by the kind of δ -/

theorem unmapResidual_far (h : 2 * mapMargin c (predicted ss) < d) : unmapResidual c d ss = predicted ss +
    if mapMargin c (predicted ss) = predicted ss - c.SMIN then d - mapMargin c (predicted ss)
    else -(d - mapMargin c (predicted ss)) := by
  unfold unmapResidual
  simp only [if_pos h, neg_sub]

theorem unmapResidual_even (h : k ≤ mapMargin c (predicted ss)) :
    unmapResidual c (2 * k) ss = predicted ss + if ss % 2 = 0 then k else -k := by
  have hnear : ¬ 2 * mapMargin c (predicted ss) < 2 * k := by omega
  have hhalf : 2 * k / 2 = k := by omega
  unfold unmapResidual
  simp only [if_neg hnear, if_pos (Int.mul_emod_right 2 k), hhalf]

theorem unmapResidual_odd (h : k < mapMargin c (predicted ss)) :
    unmapResidual c (2 * k + 1) ss = predicted ss + if ss % 2 = 1 then k + 1 else -(k + 1) := by
  have hnear : ¬ 2 * mapMargin c (predicted ss) < 2 * k + 1 := by omega
  have hodd : ¬ (2 * k + 1) % 2 = 0 := by omega
  have hhalf : (2 * k + 1 + 1) / 2 = k + 1 := by omega
  unfold unmapResidual
  simp only [if_neg hnear, if_neg hodd, hhalf]

theorem abs_ite_neg (p : Prop) [Decidable p] (h : 0 ≤ k) : |if p then k else -k| = k := by
  split
  · exact abs_of_nonneg h
  · rw [abs_neg, abs_of_nonneg h]

/-- The other half of 45_mapper.md R453: beyond 2·m the distance from the predicted sample is δ − m; up to there the parity of δ
tells the side and δ / 2, rounded up, the distance. -/
theorem mapResidual_unmapResidual (hs : 2 * c.SMIN ≤ ss ∧ ss ≤ 2 * c.SMAX + 1) (hd : 0 ≤ d) :
    mapResidual c (unmapResidual c d ss) ss = d := by
  have hm := mapMargin_nonneg hs
  by_cases hfar : 2 * mapMargin c (predicted ss) < d
  · rw [unmapResidual_far hfar]
    have habs := abs_ite_neg (mapMargin c (predicted ss) = predicted ss - c.SMIN)
      (k := d - mapMargin c (predicted ss)) (by omega)
    rw [mapResidual_far (by omega), habs, sub_add_cancel]
  · obtain ⟨k, rfl | rfl⟩ := Int.even_or_odd' d
    · rw [unmapResidual_even (by omega)]
      have habs := abs_ite_neg (ss % 2 = 0) (k := k) (by omega)
      rw [mapResidual_favoured (by omega) (by split <;> omega), habs]
    · rw [unmapResidual_odd (by omega)]
      have habs := abs_ite_neg (ss % 2 = 1) (k := k + 1) (by omega)
      rw [mapResidual_unfavoured (by omega) (by split <;> omega), habs]
      ring

/-- Settles O54: each map has its values in the other's range, and each undoes the other. -/
theorem mapIsABijection : Obligations.MapIsABijection := by
  unfold Obligations.MapIsABijection
  intro c ss hD hlo hhi
  refine ⟨fun v hmin hmax => ?_, fun d hd hmax => ?_⟩
  · obtain ⟨hnonneg, hlt⟩ := mapResidual_bounds hD ⟨hmin, hmax⟩ ⟨hlo, hhi⟩
    exact ⟨hnonneg, Int.le_sub_one_of_lt hlt, unmapResidual_mapResidual ⟨hmin, hmax⟩ ⟨hlo, hhi⟩⟩
  · lift d to Nat using hd
    have hbits : d < 2 ^ c.D := by exact_mod_cast Int.lt_of_le_sub_one hmax
    obtain ⟨hge, hle⟩ := sampleOk_unmapResidual hD hbits ⟨hlo, hhi⟩
    exact ⟨hge, hle, mapResidual_unmapResidual ⟨hlo, hhi⟩ (Int.natCast_nonneg d)⟩

/-! ### The operands -/

theorem sampleOperand_bind_ok (h : s.cfg.SMIN ≤ s.arg0.toInt ∧ s.arg0.toInt ≤ s.cfg.SMAX) (f : Int → Op β) :
    (sampleOperand >>= f) s = f s.arg0.toInt s :=
  bind_ok <| by
    unfold sampleOperand
    rw [get_bind, require_bind_ok h]
    rfl

theorem sampleOperand_bind_error (h : ¬ (s.cfg.SMIN ≤ s.arg0.toInt ∧ s.arg0.toInt ≤ s.cfg.SMAX)) (f : Int → Op β) :
    (sampleOperand >>= f) s = .error ⟨.operand, 0⟩ s :=
  bind_error <| by
    unfold sampleOperand
    rw [get_bind, require_bind_error h]

theorem scaledOperand_bind_ok (h : 2 * s.cfg.SMIN ≤ s.arg1.toInt ∧ s.arg1.toInt ≤ 2 * s.cfg.SMAX + 1) (f : Int → Op β) :
    (scaledOperand >>= f) s = f s.arg1.toInt s :=
  bind_ok <| by
    unfold scaledOperand
    rw [get_bind, require_bind_ok h]
    rfl

theorem scaledOperand_bind_error (h : ¬ (2 * s.cfg.SMIN ≤ s.arg1.toInt ∧ s.arg1.toInt ≤ 2 * s.cfg.SMAX + 1))
    (f : Int → Op β) : (scaledOperand >>= f) s = .error ⟨.operand, 1⟩ s :=
  bind_error <| by
    unfold scaledOperand
    rw [get_bind, require_bind_error h]

/-! ### RES_MAP and RES_UNMAP -/

theorem body_resMap (hv : s.cfg.SMIN ≤ s.arg0.toInt ∧ s.arg0.toInt ≤ s.cfg.SMAX)
    (hs : 2 * s.cfg.SMIN ≤ s.arg1.toInt ∧ s.arg1.toInt ≤ 2 * s.cfg.SMAX + 1) :
    body .resMap s = .ok () { s with result := wordOfInt (mapResidual s.cfg s.arg0.toInt s.arg1.toInt) } :=
  (sampleOperand_bind_ok hv _).trans (scaledOperand_bind_ok hs _)

theorem body_resUnmap (hd : s.arg0.toNat < 2 ^ s.cfg.D)
    (hs : 2 * s.cfg.SMIN ≤ s.arg1.toInt ∧ s.arg1.toInt ≤ 2 * s.cfg.SMAX + 1) :
    body .resUnmap s = .ok () { s with result := wordOfInt (unmapResidual s.cfg s.arg0.toNat s.arg1.toInt) } :=
  (get_bind _ s).trans ((residualOperand_bind_ok hd 0 _).trans (scaledOperand_bind_ok hs _))

/-- `Map` with s_pred as half of s_scaled and "odd" as "not even" (45_mapper.md R450). -/
theorem mapResidual_eq (c : Cfg) (v ss : Int) : mapResidual c v ss =
    if mapMargin c (ss / 2) < |v - ss / 2| then |v - ss / 2| + mapMargin c (ss / 2)
    else if (ss % 2 = 0 ∧ 0 ≤ v - ss / 2) ∨ (¬ ss % 2 = 0 ∧ v - ss / 2 ≤ 0) then 2 * |v - ss / 2|
    else 2 * |v - ss / 2| - 1 := by
  simp only [Int.emod_two_ne_zero]
  rfl

/-- `Unmap` in the same terms (45_mapper.md R451). -/
theorem unmapResidual_eq (c : Cfg) (d ss : Int) : unmapResidual c d ss = ss / 2 +
    if 2 * mapMargin c (ss / 2) < d then
      (if mapMargin c (ss / 2) = ss / 2 - c.SMIN then d - mapMargin c (ss / 2) else mapMargin c (ss / 2) - d)
    else if d % 2 = 0 then (if ss % 2 = 0 then d / 2 else -(d / 2))
    else if ss % 2 = 0 then -((d + 1) / 2) else (d + 1) / 2 := by
  rw [← ite_not (ss % 2 = 0) ((d + 1) / 2)]
  simp only [Int.emod_two_ne_zero]
  rfl

/-- Settles O53: the operands in their order, then `Map` or `Unmap` written out. -/
theorem mapCommandsAnswerTheFormulas : Obligations.MapCommandsAnswerTheFormulas := by
  unfold Obligations.MapCommandsAnswerTheFormulas
  intro s hm
  refine ⟨fun hmin hmax hss => ?_, fun hv => ?_, fun hmin hmax hss => ?_, fun hd hss => ?_, fun hd => ?_, fun hd hss => ?_⟩
  · have hrun := exec_done hm rfl rfl (body_resMap ⟨hmin, hmax⟩ hss)
    rw [mapResidual_eq] at hrun
    exact hrun
  · exact exec_failed hm rfl rfl (sampleOperand_bind_error (by omega) _)
  · exact exec_failed hm rfl rfl ((sampleOperand_bind_ok ⟨hmin, hmax⟩ _).trans (scaledOperand_bind_error hss _))
  · have hrun := exec_done hm rfl rfl (body_resUnmap hd hss)
    rw [unmapResidual_eq] at hrun
    exact hrun
  · exact exec_failed hm rfl rfl (residualOperand_bind_error hd 0 _)
  · exact exec_failed hm rfl rfl ((residualOperand_bind_ok hd 0 _).trans (scaledOperand_bind_error hss _))

end Sys2Proof.Machine
end

section
/-! ## NOP, END and VALIDATE, the first failing check, and what FAULT ignores (O6, O24 to O26) -/
namespace Sys2Proof.Machine

variable {i : Instr} {s t : State} {a w : Word} {e : Raise} {m : Mode} {compress : Bool}

/-! ### NOP and END -/

/-- A command whose pseudocode ends well, in a mode its row lists. -/
theorem exec_of_ok (hm : s.mode = m) (hf : m ≠ .fault) (hr : runsIn i m = true) (hc : coderOk i s.cfg = true)
    (h : body i s = .ok () t) : exec i s = .next { t with done := true } := by
  rw [exec_eq]
  exact runCommand_of_ok (hm ▸ hf) (hm ▸ hr) hc h

/-- A command whose pseudocode raises, in a mode its row lists. -/
theorem exec_of_error (hm : s.mode = m) (hf : m ≠ .fault) (hr : runsIn i m = true) (hc : coderOk i s.cfg = true)
    (h : body i s = .error e t) : exec i s = .next (failed e.kind e.info t) := by
  rw [exec_eq]
  exact runCommand_of_error (hm ▸ hf) (hm ▸ hr) hc h

/-- Settles O24: the pseudocode of NOP is empty, that of END moves the mode, and FAULT ignores NOP. -/
theorem nopAndEndChangeOnlyStatus : Obligations.NopAndEndChangeOnlyStatus := by
  unfold Obligations.NopAndEndChangeOnlyStatus
  intro s
  refine ⟨fun hm => ?_, fun hm => exec_in_fault hm (by simp), fun hm => exec_done (t := setMode .idle s) hm rfl rfl rfl⟩
  rcases hm with hm | hm
  · exact exec_of_ok hm (by simp) rfl rfl rfl
  · exact exec_done hm rfl rfl rfl

/-! ### What FAULT ignores -/

theorem raiseOutside_fault (hm : s.mode = .fault) (e : Raise) : raiseOutside e s = s := if_pos hm

/-- In FAULT only the word of RESET runs a command, and a word that is no command's raises nothing (48_system.md R580). -/
theorem writeCmd_fault (hm : s.mode = .fault) (hw : w ≠ encode .reset) : writeCmd w s = .next s := by
  unfold writeCmd
  cases hd : decode w with
  | ok i => exact exec_in_fault hm fun hi => hw (hi ▸ encode_of_decode hd)
  | error e => exact congrArg _ (raiseOutside_fault hm _)

theorem after_write_cmd_fault (hm : s.mode = .fault) (hc : s.countable) (hw : w ≠ encode .reset) :
    after (.write 0x008 4 w) s = .next { s with script := [] } := by
  change settle (memWrite 0x008 4 w { s with script := [] }) = _
  rw [memWrite_cmd, writeCmd_fault (s := { s with script := [] }) hm hw, settle_next (s := { s with script := [] }) hc]

theorem after_write_config_fault (hm : s.mode = .fault) (hc : s.countable) (ha : configAddress a) (v : Word) :
    after (.write a 4 v) s = .next { s with script := [] } := by
  obtain ⟨reg, ht, hl⟩ := target_of_configAddress ha
  have hcmd : reg ≠ .cmd := by
    rintro rfl
    cases hl
  have hkeep := writeReg_fault (s := { s with script := [] }) hl hm a v
  rw [after_write ht hcmd (hkeep.symm ▸ hc), hkeep]

/-- Settles O6: only RESET runs in FAULT, a locked register keeps its value there, and no error is raised. -/
theorem faultIgnoresCommandsAndErrors : Obligations.FaultIgnoresCommandsAndErrors := by
  unfold Obligations.FaultIgnoresCommandsAndErrors
  intro s hm hc
  have hignored := raiseOutside_fault (s := { s with script := [] }) hm
  refine ⟨fun w hw => after_write_cmd_fault hm hc hw, fun a v ha => after_write_config_fault hm hc ha v,
    fun a n v hbad => ?_, fun a n hbad => ?_⟩
  · rw [after_write_refused (target_none hbad) hc, hignored]
  · rw [after_read_refused (target_none hbad) hc, hignored]

/-! ### VALIDATE opens a session -/

/-- ID_BITS by the depth: the table a statement gives, and the logarithm the core computes (42_block_adaptive.md R280). -/
theorem idBits_eq_idBitsOf {c : Cfg} (h : 2 ≤ c.D ∧ c.D ≤ 16) : c.idBits = idBitsOf c := by
  obtain ⟨h2, h16⟩ := h
  unfold Cfg.idBits idBitsOf
  generalize c.D = d at h2 h16
  by_cases hr : c.restrict = 1
  · simp only [hr, true_and]
    interval_cases d <;> rfl
  · simp only [hr, false_and, if_false]
    interval_cases d <;> rfl

theorem derive_of_legal (h : LegalConfig s.cfg s.ta s.tw) : derive s =
    { s with idBits := BitVec.ofNat 32 (idBitsOf s.cfg), backupOpt := BitVec.ofNat 32 (2 ^ idBitsOf s.cfg - 1) } := by
  rw [← idBits_eq_idBitsOf h.depthBits]
  rfl

theorem validateConfig_none (h : firstFailure compress s = none) : validateConfig compress s = .ok () s := by
  unfold validateConfig
  rw [get_bind, h]
  rfl

theorem validateConfig_some (h : firstFailure compress s = some e) : validateConfig compress s = .error e s := by
  unfold validateConfig
  rw [get_bind, h]
  rfl

/-- Settles O25: no check fails, and the rest of VALIDATE is `ClearSession`, `Derive` and the mode. -/
theorem validateOpensASession : Obligations.ValidateOpensASession := by
  unfold Obligations.ValidateOpensASession
  intro s hm hlegal
  obtain ⟨hl, -, hcap⟩ := legalConfig_of_rows hlegal
  have hpass : firstFailure false s = none := firstFailure_none hl (fun hp => absurd hp.1 (by simp)) hcap
  have hbody : body .validate s = .ok () (setMode .active (derive (clearSession s))) := bind_ok (validateConfig_none hpass)
  rw [derive_of_legal (s := clearSession s) hl] at hbody
  exact exec_of_ok hm (by simp) rfl rfl hbody

/-! ### The first failing row -/

theorem orElse_assoc {α : Type} (x y z : Option α) : ((x <|> y) <|> z) = (x <|> y <|> z) := by
  cases x <;> rfl

/-- The error of a row that is not met. -/
def rowFailure (row : Bool × Raise) : Option Raise := if row.1 then none else some row.2

/-- The error of the first row that is not met. -/
def firstFailed (rows : List (Bool × Raise)) : Option Raise := rows.findSome? rowFailure

section
variable {p : Prop} [Decidable p] {ok : Bool} {info : Word} {reg : CfgReg} {row : Bool × Raise}
  {rows more adaptive block : List (Bool × Raise)} {o o' : Option Raise}

theorem firstFailed_of_find? (h : rows.find? (fun r => !r.1) = some row) : firstFailed rows = some row.2 := by
  induction rows with
  | nil => cases h
  | cons first rest ih =>
    obtain ⟨met, err⟩ := first
    cases met with
    | false => cases h; rfl
    | true => exact ih h

theorem firstFailed_eq_none (h : ∀ row ∈ rows, row.1 = true) : firstFailed rows = none :=
  List.findSome?_eq_none_iff.mpr fun row hrow => if_pos (h row hrow)

theorem rowFailure_decide (h : ok = true ↔ p) (e : Raise) : rowFailure (decide p, e) = if ok then none else some e := by
  simp [rowFailure, h]

/-- After a row, the list matters only where the row is met. -/
theorem firstFailed_cons (hrest : row.1 = true → firstFailed rows = o) :
    firstFailed (row :: rows) = (rowFailure row <|> o) := by
  obtain ⟨met, err⟩ := row
  cases met with
  | false => rfl
  | true => exact hrest rfl

/-- A row of a register and the check of that register say the same, and so do what follows them. -/
theorem firstFailed_check (hinfo : reg.info = info) (hok : ok = true ↔ p) (hrest : p → firstFailed rows = o) :
    firstFailed ((decide p, ⟨.config, info⟩) :: rows) = (check ok reg <|> o) := by
  rw [firstFailed_cons fun h => hrest (of_decide_eq_true h), rowFailure_decide hok, ← hinfo]
  rfl

theorem firstFailed_append (h : firstFailed rows = o) (hmore : firstFailed more = o') :
    firstFailed (rows ++ more) = (o <|> o') := by
  unfold firstFailed at *
  rw [List.findSome?_append, h, hmore]
  cases o <;> rfl

/-- A row that ends its list. -/
theorem firstFailed_check_last (hinfo : reg.info = info) (hok : ok = true ↔ p) :
    firstFailed [(decide p, ⟨.config, info⟩)] = check ok reg := by
  rw [firstFailed_check (o := none) hinfo hok fun _ => rfl]
  unfold check
  split <;> rfl

/-- Rows under a condition can fail only where it holds. -/
theorem firstFailed_guarded (hp : p → firstFailed rows = o) (hn : ¬ p → ∀ row ∈ rows, row.1 = true) :
    firstFailed rows = if p then o else none := by
  split
  · exact hp ‹p›
  · exact firstFailed_eq_none (hn ‹¬ p›)

/-- Of the rows of both coders only those of the configured one can fail. -/
theorem firstFailed_choice {r : Option Raise} (hadaptive : firstFailed adaptive = if p then o else none)
    (hblock : firstFailed block = if ¬ p then o' else none) (hmore : firstFailed more = r) :
    firstFailed (adaptive ++ (block ++ more)) = ((if p then o else o') <|> r) := by
  rw [firstFailed_append hadaptive (firstFailed_append hblock hmore)]
  by_cases h : p
  · rw [if_pos h, if_pos h, if_neg (not_not.mpr h)]
    rfl
  · rw [if_neg h, if_neg h, if_pos h]
    rfl

/-- One row an entry. -/
theorem firstFailed_map {f : Nat → Bool × Raise} {g : Nat → Option Raise} (h : ∀ n, rowFailure (f n) = g n) (l : List Nat) :
    firstFailed (l.map f) = l.findSome? g := by
  unfold firstFailed
  rw [List.findSome?_map]
  exact congrArg (l.findSome? ·) (funext h)

theorem firstFailed_flatMap {f : Nat → List (Bool × Raise)} {g : Nat → Option Raise} (h : ∀ n, firstFailed (f n) = g n)
    (l : List Nat) : firstFailed (l.flatMap f) = l.findSome? g := by
  induction l with
  | nil => rfl
  | cons n l ih =>
    rw [List.flatMap_cons, firstFailed_append (h n) ih, List.findSome?_cons]
    cases g n <;> rfl

end

/-- V33 as the two rows it has in the list (48_system.md R596, R597). -/
theorem checkRefsamp_eq (c : Cfg) : checkRefsamp c =
    (rowFailure (decide (c.refsamp ≠ 1), ⟨.notSupported, 29⟩) <|> check (c.refsamp == 0) .refsamp) := by
  by_cases h : c.refsamp = 1
  · rw [checkRefsamp, if_pos h, h]
    rfl
  · rw [checkRefsamp, if_neg h, rowFailure_decide (ok := true) (iff_of_true rfl h)]
    rfl

/-- The checks the core makes give the error of the first row not met: check by check, in the order of 48_system.md R596. -/
theorem firstFailed_validationList (compress : Bool) (s : State) :
    firstFailed (validationList compress s) = firstFailure compress s := by
  unfold validationList firstFailure checkImage checkPredictor
  simp only [List.append_assoc, List.cons_append, List.nil_append, orElse_assoc]
  -- V1 to V13: the image and the modes of the predictor.
  refine firstFailed_check rfl within_iff fun _ => firstFailed_check rfl within_iff fun _ =>
    firstFailed_check rfl within_iff fun _ => firstFailed_check rfl (within_iff.trans bit_iff) fun _ =>
    firstFailed_check rfl within_iff fun _ => firstFailed_check rfl (within_iff.trans bit_iff) fun _ =>
    firstFailed_check rfl ?_ fun _ => firstFailed_check rfl within_iff fun _ =>
    firstFailed_check rfl (within_iff.trans bit_iff) fun hcoder => firstFailed_check rfl within_iff fun _ =>
    firstFailed_check rfl (within_iff.trans bit_iff) fun _ => firstFailed_check rfl (within_iff.trans bit_iff) fun _ =>
    firstFailed_check rfl within_iff fun _ => ?_
  · rw [Bool.or_eq_true, bne_iff_ne, within_iff, imp_iff_not_or]
  -- V14 to V21: the predictor.
  refine firstFailed_check rfl within_iff fun _ => firstFailed_check rfl within_iff fun _ =>
    firstFailed_check rfl within_iff fun _ => firstFailed_check rfl within_iff fun _ =>
    firstFailed_check rfl (within_iff.trans bit_iff) fun hwinit => firstFailed_check rfl (within_iff.trans bit_iff) fun _ =>
    firstFailed_check rfl beq_iff_eq fun _ => firstFailed_check rfl ?_ fun _ => ?_
  · rcases hwinit with h0 | h1
    · simp [h0]
    · simp [h1, within_iff]
  -- V22: the entries of TW, where the weights are custom.
  refine firstFailed_append (firstFailed_guarded (fun h1 => ?_) fun h1 => ?_) ?_
  · exact firstFailed_flatMap (fun z => firstFailed_map (fun i =>
      rowFailure_decide (within_iff.trans (imp_iff_right h1).symm) _) _) _
  · intro row hrow
    obtain ⟨z, -, hband⟩ := List.mem_flatMap.mp hrow
    obtain ⟨i, -, rfl⟩ := List.mem_map.mp hband
    exact decide_eq_true fun h => absurd h h1
  -- V23 to V32: the rows of the two coders, then V33 to V37, which both share.
  refine firstFailed_choice (p := s.cfg.coder = 0) (adaptive := [_, _, _, _, _] ++ _) (block := [_, _, _, _])
    (firstFailed_guarded (fun h0 => ?_) fun h0 => ?_) (firstFailed_guarded (fun h0 => ?_) fun h0 => ?_) ?_
  · have given {b : Prop} : b ↔ (s.cfg.coder = 0 → b) := (imp_iff_right h0).symm
    unfold checkSampleAdaptive
    refine firstFailed_check rfl (within_iff.trans given) fun _ => firstFailed_check rfl (within_iff.trans given) fun _ =>
      firstFailed_check rfl (within_iff.trans given) fun _ => firstFailed_check rfl ?_ fun _ =>
      firstFailed_check rfl ?_ fun _ => firstFailed_guarded (fun h15 => ?_) fun h15 => ?_
    · rw [← given, Bool.or_eq_true, within_iff, beq_iff_eq]
    · rw [← given, Bool.and_eq_true, within_iff, bit_iff, beq_iff_eq, Bool.eq_iff_iff, beq_iff_eq, beq_iff_eq]
    · exact firstFailed_map (fun z => rowFailure_decide (within_iff.trans (imp_iff_right ⟨h0, h15⟩).symm) _) _
    · intro row hrow
      obtain ⟨z, -, rfl⟩ := List.mem_map.mp hrow
      exact decide_eq_true fun h => absurd h.2 h15
  · simp only [List.cons_append, List.nil_append, List.forall_mem_cons, List.mem_map, h0, false_imp_iff, false_and, decide_true,
      true_and]
    rintro row ⟨z, -, rfl⟩
    rfl
  · have given {b : Prop} : b ↔ (s.cfg.coder = 1 → b) := (imp_iff_right (hcoder.resolve_left h0)).symm
    unfold checkBlockAdaptive
    refine firstFailed_check rfl ?_ fun _ => firstFailed_check rfl (within_iff.trans given) fun _ =>
      firstFailed_check rfl ((within_iff.trans bit_iff).trans given) fun _ =>
      firstFailed_check_last rfl (within_iff.trans given)
    rw [← given]
    simp only [Bool.or_eq_true, beq_iff_eq, or_assoc]
  · simp [not_not.mp h0]
  · rw [checkRest, checkRefsamp_eq, orElse_assoc]
    refine firstFailed_cons fun _ => firstFailed_check rfl beq_iff_eq fun _ =>
      firstFailed_check rfl (within_iff.trans bit_iff) fun _ => firstFailed_check rfl ?_ fun _ =>
      firstFailed_check rfl ?_ fun _ => ?_
    · simp only [Bool.not_eq_true', Bool.and_eq_false_iff, beq_eq_false_iff_ne, decide_eq_false_iff_not, not_and_or, or_assoc]
    · simp only [Bool.or_eq_true, Bool.not_eq_true', Bool.and_eq_false_iff, beq_eq_false_iff_ne, decide_eq_true_eq,
        imp_iff_not_or, not_and_or, Bool.not_eq_true]
    · cases s.histCapacity with
      | none => rfl
      | some n => exact firstFailed_check_last rfl decide_eq_true_iff

/-- Settles O26: the first row not met is the first check that fails, and a failed check ends both commands where they begin. -/
theorem validationRaisesFirstFailure : Obligations.ValidationRaisesFirstFailure := by
  unfold Obligations.ValidationRaisesFirstFailure
  intro s row hm
  have failing (compress : Bool) (h : (validationList compress s).find? (fun r => !r.1) = some row) :
      validateConfig compress s = .error row.2 s :=
    validateConfig_some ((firstFailed_validationList compress s).symm.trans (firstFailed_of_find? h))
  exact ⟨fun h => exec_of_error hm (by simp) rfl rfl (bind_error (failing false h)),
    fun h => exec_of_error hm (by simp) rfl rfl (bind_error (failing true h))⟩

end Sys2Proof.Machine
end

section
/-! ## RESET and the reset state, and the length of a header (O8, O20, O56) -/
namespace Sys2Proof.Machine

/-! ### RESET and the reset state -/

/-- RESET completes in every mode and under either coder (48_system.md R583). -/
theorem exec_reset (s : State) : exec .reset s = .next (setDone (resetCore s)) := by
  have hruns : ¬(runsIn .reset s.mode = false ∨ coderOk .reset s.cfg = false) := by
    rintro (h | h) <;> cases h
  rw [exec_eq, runCommand_eq, if_neg fun h => h.2 rfl, if_neg hruns]
  rfl

/-- Settles O8: RESET completes with `resetCore`, which starts from the reset state and takes over the kept fields. -/
theorem resetKeepsOnlyConfiguration : Obligations.ResetKeepsOnlyConfiguration := by
  unfold Obligations.ResetKeepsOnlyConfiguration
  intro s
  exact ⟨setDone (resetCore s), exec_reset s, rfl⟩

theorem orderly_reset : Orderly State.reset where
  storage := wf_reset
  writer := Nat.zero_lt_succ 7
  reader := Nat.zero_lt_succ 7
  accounting := rfl
  closedEmpty _ := rfl

/-- Settles O20: the reset state is IDLE without an error, so no condition of a session or of its bands applies to it. -/
theorem resetStateIsInOrder : Obligations.ResetStateIsInOrder := by
  unfold Obligations.ResetStateIsInOrder
  have hidle : State.reset.mode = .idle := rfl
  have hcursor : CursorFits State.reset := ⟨Nat.zero_lt_succ _, Nat.zero_lt_succ _, Nat.zero_lt_succ _⟩
  exact ⟨bookkeeping_of_sound orderly_reset (by simp [hidle]) rfl rfl, session_of_inactive (by simp [hidle]) hcursor,
    bandsInRange_of_inactive (by simp [hidle])⟩

/-! ### The length of a header -/

/-- How many bits the fields of a section take. -/
def sectionWidth (fields : List HeaderField) : Nat := (fields.map HeaderField.width).sum

/-- How many bytes a section takes that starts at a byte boundary (30_encoding.md R155). -/
def sectionBytes (fields : List HeaderField) : Nat := (sectionWidth fields + 7) / 8

theorem sectionWidth_append (a b : List HeaderField) : sectionWidth (a ++ b) = sectionWidth a + sectionWidth b := by
  simp [sectionWidth]

theorem length_sectionBits (fields : List HeaderField) : (sectionBits fields).length = sectionWidth fields := by
  simp [sectionBits, sectionWidth, List.length_flatMap]

/-- Sections from a byte boundary are filled to whole bytes each (30_encoding.md R155). -/
theorem length_sectionsBits_eq (sections : List (List HeaderField)) :
    (sectionsBits 0 sections).length = 8 * (sections.map sectionBytes).sum := by
  induction sections with
  | nil => rfl
  | cons fields more ih =>
    have hpad : (padBits (0 + (sectionBits fields).length)).length = (8 - (0 + sectionWidth fields) % 8) % 8 := by
      rw [padBits, length_zeroBits, length_sectionBits]
    rw [sectionsBits, List.length_append, List.length_append, hpad, length_sectionBits, ih, List.map_cons, List.sum_cons,
      sectionBytes]
    omega

theorem sectionWidth_image (c : Cfg) : sectionWidth (imageSection c) = 8 * 12 := rfl

theorem sectionWidth_predictor (c : Cfg) : sectionWidth (predictorSection c) = 8 * 5 := rfl

theorem sectionWidth_block (c : Cfg) : sectionWidth (blockSection c) = 8 * 2 := rfl

/-- The weight table holds one field of Q bits for each weight of each band (30_encoding.md R158). -/
theorem sectionWidth_weight (c : Cfg) (tw : Memory Word) :
    sectionWidth (weightSection c tw) = c.Q * ((List.range c.Z).map c.bandLength).sum := by
  have hband (z : Nat) : min c.P z + (if c.pmode = 0 then 3 else 0) = c.bandLength z := Nat.add_comm _ _
  have hsum : sectionWidth (weightSection c tw) = ((List.range c.Z).map fun z => c.Q * c.bandLength z).sum := by
    simp only [sectionWidth, weightSection, hband, List.flatMap_def, List.map_flatten, List.sum_flatten, List.map_map,
      Function.comp_def, List.map_const', List.length_range, List.sum_replicate, smul_eq_mul, mul_comm]
  rw [hsum, List.sum_map_mul_left]

/-- The sample-adaptive metadata takes two bytes, and its table half a byte a band, to a whole byte (30_encoding.md R159). -/
theorem sectionWidth_adaptive (c : Cfg) (ta : Memory Word) :
    sectionWidth (adaptiveSection c ta) = 8 * (if c.atable = 1 then 2 + (c.Z + 1) / 2 else 2) := by
  have htable : sectionWidth ((List.range c.Z).map fun z =>
      (⟨BitVec.ofNat 32 (0x10000000 + z), 4, (ta.wordAt z).toNat⟩ : HeaderField)) = 4 * c.Z := by
    simp [sectionWidth, Function.comp_def, mul_comm]
  have hnibble : sectionWidth (if c.Z % 2 = 1 then [fillField 4] else []) = 4 * (c.Z % 2) := by
    rcases Nat.mod_two_eq_zero_or_one c.Z with h | h <;> rw [h] <;> rfl
  have hfixed : sectionWidth [⟨20, 5, c.UMAX % 32⟩, ⟨21, 3, c.GSTAR - 4⟩, ⟨22, 3, c.G0 % 8⟩, ⟨23, 4, c.K⟩,
      ⟨24, 1, c.atable.toNat⟩] = 8 * 2 := rfl
  rw [adaptiveSection, sectionWidth_append, hfixed]
  split
  · rw [sectionWidth_append, htable, hnibble]
    omega
  · rfl

/-- The length of a header in bytes, section by section (46_header.md R483). -/
def headerBytes (c : Cfg) : Nat :=
  12 + 5 + (if c.wtable = 1 then (c.Q * ((List.range c.Z).map c.bandLength).sum + 7) / 8 else 0) +
    (if c.coder = 0 then (if c.atable = 1 then 2 + (c.Z + 1) / 2 else 2) else 2)

theorem length_headerBits (c : Cfg) (ta tw : Memory Word) : (headerBits 0 c ta tw).length = 8 * headerBytes c := by
  have hcoder : sectionBytes (if c.coder = 0 then adaptiveSection c ta else blockSection c) =
      if c.coder = 0 then (if c.atable = 1 then 2 + (c.Z + 1) / 2 else 2) else 2 := by
    split
    · rw [sectionBytes, sectionWidth_adaptive]
      omega
    · rw [sectionBytes, sectionWidth_block]
  have hweight : ((if c.wtable = 1 then [weightSection c tw] else []).map sectionBytes).sum =
      if c.wtable = 1 then (c.Q * ((List.range c.Z).map c.bandLength).sum + 7) / 8 else 0 := by
    split
    · rw [List.map_singleton, List.sum_singleton, sectionBytes, sectionWidth_weight]
    · rfl
  have hfirst : ([imageSection c, predictorSection c].map sectionBytes).sum = 12 + 5 := by
    simp [sectionBytes, sectionWidth_image, sectionWidth_predictor]
  rw [headerBits, length_sectionsBits_eq, headerSections, List.map_append, List.map_append, List.sum_append, List.sum_append,
    hfirst, hweight, List.map_singleton, List.sum_singleton, hcoder, headerBytes]

/-- Settles O56: a header is its sections, each filled to whole bytes, and the fields of each have fixed widths. -/
theorem headerLengthInBytes : Obligations.HeaderLengthInBytes := by
  unfold Obligations.HeaderLengthInBytes
  exact ⟨length_headerBits, length_headerBits State.reset.cfg [] [],
    length_headerBits { State.reset.cfg with coder := 1 } [] []⟩

end Sys2Proof.Machine
end
